-- ==== Sys2Proof/Word.lean ====
section
/-! DEFINITION. The words, characters and numbers of the 4806 (00 Conventions, 00 Terms). -/
namespace Sys2Proof

/-- One byte of the message store. -/
abbrev Byte := BitVec 8

/-- A bus word: four bytes, the low-order byte first (00 Conventions, Memory). -/
abbrev Word := BitVec 32

/-- A byte address in the space of 16 MiB (00 Conventions, Memory). -/
abbrev Address := BitVec 24

/-- The four byte enables of a bus access, bit i for byte i. -/
abbrev ByteEnables := BitVec 4

/-- A character of the office code, 7 bits wide (00 Conventions, Characters). -/
abbrev OfficeChar := BitVec 7

/-- A reading of the internal running clock (R184): 32 bits, wrapping. -/
abbrev Clock := BitVec 32

/-- A line, 0 to 48; line 0 is the Local Position and 1 to 48 are circuits (00 Lines). -/
abbrev Line := Fin 49

/-- The id of a transit record, 0 to 255 (R1). -/
abbrev TransitId := Fin 256

/-- The id of a copy entry, 0 to 767 (R5). -/
abbrev CopyId := Fin 768

/-- A precedence rank: 0 Emergency, 1 Operating, 2 Routine, 3 Deferred (00 Precedence). -/
abbrev Rank := Fin 4

/-- Four office characters packed as the window lays them out, the first in byte 0 (11.2, 11.7). -/
abbrev StationCode := Word

end Sys2Proof
end

