-- ==== Sys2Proof/Syntax.lean ====
section
/-! DEFINITION. The commands of the 4806: one constructor for each row of spec/opcode_table.json, in the table's order. -/
namespace Sys2Proof

/-- The three argument words of the Command Cell (11.1). -/
inductive Argument
  | a | b | c
  deriving DecidableEq, Repr

/-- A step of the part.  The first twelve are writes of the command word (R182): `line` and `tag` are what the bus
carries in bytes 1 and 2 to 3, byte 0 carries the row's code, and `be` are the byte enables. -/
inductive Instr
  | startLine (line : BitVec 8) (tag : BitVec 16) (be : ByteEnables)
  | stopLine (line : BitVec 8) (tag : BitVec 16) (be : ByteEnables)
  | testLine (line : BitVec 8) (tag : BitVec 16) (be : ByteEnables)
  | submit (line : BitVec 8) (tag : BitVec 16) (be : ByteEnables)
  | cancel (line : BitVec 8) (tag : BitVec 16) (be : ByteEnables)
  | rerouteLine (line : BitVec 8) (tag : BitVec 16) (be : ByteEnables)
  | retryHeld (line : BitVec 8) (tag : BitVec 16) (be : ByteEnables)
  | setSequence (line : BitVec 8) (tag : BitVec 16) (be : ByteEnables)
  | clearCounters (line : BitVec 8) (tag : BitVec 16) (be : ByteEnables)
  | setTime (line : BitVec 8) (tag : BitVec 16) (be : ByteEnables)
  | resetOffice (line : BitVec 8) (tag : BitVec 16) (be : ByteEnables)
  | noSuchCommand (code : BitVec 8) (line : BitVec 8) (tag : BitVec 16) (be : ByteEnables)
  /-- A bus write to argument A, B or C (R182). -/
  | argumentWrite (which : Argument) (value : Word) (be : ByteEnables)
  /-- A scanner write to the receive cell of line `n` (R23). -/
  | receiveCellWrite (n : Line) (value : Word) (be : ByteEnables)
  /-- A scanner read of the send cell of line `n` (R94). -/
  | sendCellRead (n : Line)
  | eventWordWrite (value : Word) (be : ByteEnables)
  | enableWordWrite (value : Word) (be : ByteEnables)
  | informOnlyWordWrite (value : Word) (be : ByteEnables)
  | deliveryReadIndexWrite (value : Word) (be : ByteEnables)
  | officeTimeRead
  /-- A bus read of word 0 of the Line Status Record of line `n` (R181). -/
  | lineStatusWord0Read (n : Line)
  /-- A bus write to a word of a blocked area or of the pool in force (R168). -/
  | blockedWrite (address : Address) (value : Word) (be : ByteEnables)
  /-- A bus write to word `index` of the Office Table areas, counted from window offset 0x01000 (R157). -/
  | officeTableWrite (index : Fin 3072) (value : Word) (be : ByteEnables)
  /-- The RESET pin, with the number k on the strap pins (R166, R174). -/
  | powerOnReset (straps : Fin 16)
  | clockAdvance
  | testCharacterPeriodEnd (n : Line)
  | receiveTimeout (n : Line)
  | transmitStall (n : Line)
  | answerTimerExpiry (n : Line)
  | copyOverdue (copy : CopyId)
  | textBlockWriteDone
  | textBlockReadDone
  | tableReadDone
  | lineEntryReadDone
  | compositionReadDone
  | ownWriteCarriedOut
  | fifoEntryJoin
  deriving DecidableEq, Repr

end Sys2Proof
end

