-- ==== Sys2Proof/Config.lean ====
section
/-! DEFINITION. What an implementation of the 4806 fixes: the sizes the manual states, and the one choice it leaves free. -/
namespace Sys2Proof

/-- When both block buffers of a receiver are FREE, either may become FILLING (R37): the n-th such choice of a run
takes buffer A where this is true.  A free value: it has no body, so nothing is known of it. -/
opaque Config.freeBufferIsA : Nat → Bool

/-- Entries of the own-access FIFO (R170). -/
def Config.fifoCapacity : Nat := 32

/-- Entries of the Recent-Origin List (R46). -/
def Config.recentOriginCapacity : Nat := 64

/-- Reads of one load pass (R154). -/
def Config.loadReads : Nat := 144

/-- Size of the Relay Window in bytes, 128 KiB (R166). -/
def Config.windowBytes : Nat := 0x20000

/-- Size of the address space in bytes, 16 MiB (00 Conventions, Memory). -/
def Config.spaceBytes : Nat := 0x1000000

/-- Tenths of a second in a day: office time wraps here (R184). -/
def Config.dayTenths : Nat := 864000

end Sys2Proof
end

