-- ==== Sys2Proof/Machine/State.lean ====
section
/-! DEFINITION. The state of the 4806: every piece of state the manual names, block by block, as plain data; the outcomes
of a step; and the state right after power-on reset. -/
namespace Sys2Proof.Machine

/-! ## Transit records and copies (Chapter 1) -/

/-- The message store: address and byte pairs, addresses rising, no byte 0 listed (log entry 1). -/
abbrev Memory := List Host.Cell

/-- State of a transit record in use (R2); a free record is an absent one. -/
inductive TransitState
  | receiving | waiting | inTransit
  deriving DecidableEq, Repr

/-- Where an addressee is served: a station code, or a line named by a literal (R61). -/
inductive Target
  | station (code : StationCode)
  | literal (line : Line)
  deriving DecidableEq, Repr

/-- An entry of the token list or of the resolved addressee list, with its kind (R54, R65). -/
structure Addressee where
  target : Target
  action : Bool
  deriving DecidableEq, Repr

/-- The five flags of a transit record (1.1). -/
structure Flags where
  truncated : Bool := false
  noClosing : Bool := false
  textLoss : Bool := false
  sequenceReset : Bool := false
  loopback : Bool := false
  deriving DecidableEq, Repr

/-- The thirteen local reasons (3.10), in the order of their bits in a delivery record (11.6). -/
inductive Reason
  | addressed | intercept | headingFault | addressFault | unknownAddressee | barred | collectiveNested
  | addressExcess | noClosing | truncated | textLoss | loopback | sequenceReset
  deriving DecidableEq, Repr

/-- A set of local reasons, laid out as the delivery record's reasons field (11.6). -/
abbrev Reasons := BitVec 16

/-- A transit record in use (1.1). -/
structure Transit where
  state : TransitState
  source : Line
  channel : Option Nat
  rank : Option Rank
  origin : Option StationCode
  serial : Option Nat
  filing : Nat
  first : Option Nat
  last : Option Nat
  blocks : Nat
  stored : Nat
  bodyOffset : Option Nat
  flags : Flags
  tokens : List Addressee
  resolved : List Addressee
  reasons : Reasons
  pendingCopies : Nat
  need : Option Nat
  deriving DecidableEq, Repr

/-- State of a copy entry in use, which names its place (R6); a free entry is an absent one. -/
inductive CopyState
  | queued | sending | held | delivering
  deriving DecidableEq, Repr

/-- The route taken (1.2). -/
inductive Route
  | primary | alt1 | alt2 | lastResort | literal | localPosition
  deriving DecidableEq, Repr

/-- A copy entry in use (1.2).  `seconds` are the addressees of the subset that are on the copy as a second route, from
which the dual flag of a group follows when the copy moves (R80, R83; log entry 24). -/
structure Copy where
  state : CopyState
  transit : TransitId
  line : Option Line
  rank : Rank
  subset : List Addressee
  seconds : List Addressee
  sendLength : Nat
  queuedTime : Clock
  overdue : Bool
  dual : Bool
  pinned : Bool
  route : Route
  resend : Nat
  outNumber : Option Nat
  deriving DecidableEq, Repr

/-! ## Receivers and transmitters (Chapters 2, 5 and 7) -/

/-- The two buffers of a receiver or of a transmitter. -/
inductive Buffer
  | a | b
  deriving DecidableEq, Repr

/-- A service message: a check request (CKQ) or a check answer (CKA) with its number (R33). -/
inductive ServiceKind
  | ckq | cka
  deriving DecidableEq, Repr

/-- The service message held by a receiver or a transmitter. -/
structure Service where
  kind : ServiceKind
  number : Nat
  deriving DecidableEq, Repr

/-- The case in force on the receive side of a 5-unit line (7.1). -/
inductive Shift
  | letters | figures
  deriving DecidableEq, Repr

/-- The send shift state (7.1). -/
inductive SendShift
  | letters | figures | unknown
  deriving DecidableEq, Repr

/-- Receiver states (2.1). -/
inductive RxState
  | off | hunt | heading | address | text | service | discard | stalled
  deriving DecidableEq, Repr

/-- State of a block buffer (2.1). -/
inductive BlockState
  | free | filling | writing
  deriving DecidableEq, Repr

/-- A block buffer: `count` characters entered; `chars` keeps what it last held (R37). -/
structure BlockBuffer where
  state : BlockState := .free
  count : Nat := 0
  chars : Vector OfficeChar 60 := Vector.replicate 60 0
  block : Option Nat := none
  deriving DecidableEq, Repr

/-- A Receive Assembler (2.1). -/
structure Receiver where
  state : RxState := .off
  openMatch : Nat := 0
  closeMatch : Nat := 0
  openGroup : List OfficeChar := []
  closeGroup : List OfficeChar := []
  holdBack : List OfficeChar := []
  heading : List OfficeChar := []
  overlong : Bool := false
  address : List OfficeChar := []
  addressEnded : Bool := false
  bufA : BlockBuffer := {}
  bufB : BlockBuffer := {}
  transit : Option TransitId := none
  lastArrival : Clock := 0
  expectedIn : Option Nat := none
  breakSeen : Bool := false
  service : Option Service := none
  shift : Shift := .letters
  deriving DecidableEq, Repr

/-- Transmitter states (5.1). -/
inductive TxState
  | off | idle | service | heading | text | closing | cutting | stalled
  deriving DecidableEq, Repr

/-- State of a text buffer (5.1). -/
inductive TextState
  | empty | reading | ready
  deriving DecidableEq, Repr

/-- A text buffer; `stale` counts reads of an abandoned text that are still to be carried out (R104, R107). -/
structure TextBuffer where
  state : TextState := .empty
  chars : List OfficeChar := []
  block : Option Nat := none
  stale : Nat := 0
  deriving DecidableEq, Repr

/-- The groups and the trailer count latched for the message in hand (R97, R98). -/
structure Latched where
  opening : List OfficeChar := []
  closing : List OfficeChar := []
  cancel : List OfficeChar := []
  trailer : Nat := 0
  deriving DecidableEq, Repr

/-- The character that waits behind its shift combination, with the combination looked up for it (R144). -/
structure Slot where
  char : OfficeChar
  combination : Byte
  deriving DecidableEq, Repr

/-- A Line Transmitter (5.1). `next` is the place of the next character within the part being sent: the heading part,
the text part, the closing part, the service message or the cut sequence. -/
structure Transmitter where
  state : TxState := .off
  stalledFrom : Option TxState := none
  sending : Option CopyId := none
  next : Nat := 0
  offered : Nat := 0
  latched : Latched := {}
  bufA : TextBuffer := {}
  bufB : TextBuffer := {}
  current : Buffer := .a
  slot : Option Slot := none
  shift : SendShift := .unknown
  nextOut : Nat := 1
  service : Option Service := none
  cutRemaining : Nat := 0
  cutReturn : Bool := false
  stopMark : Bool := false
  lastRead : Clock := 0
  lastOffered : Clock := 0
  pacing : Nat := 0
  deriving DecidableEq, Repr

/-! ## Line Monitor (Chapter 6) -/

/-- Condition of a circuit (00 Lines, 6.1). -/
inductive Condition
  | stopped | starting | active | suspect | test
  deriving DecidableEq, Repr

/-- The seven counters of a circuit (R132). -/
structure Counters where
  parity : Nat := 0
  framing : Nat := 0
  heading : Nat := 0
  gap : Nat := 0
  checkFail : Nat := 0
  fill : Nat := 0
  stalledChars : Nat := 0
  deriving DecidableEq, Repr

/-- What the Line Monitor holds for a circuit (6.1). -/
structure Monitor where
  condition : Condition := .stopped
  degraded : Bool := false
  reloadPending : Bool := false
  firstCheck : Bool := false
  checkNumber : Nat := 1
  outstanding : Option Nat := none
  timer : Option Clock := none
  owed : Option Nat := none
  lastExpiry : Option Clock := none
  failures : Nat := 0
  counters : Counters := {}
  deriving DecidableEq, Repr

/-- Everything the part keeps for one line.  Line 0 uses its queue, its assembler and no more of it. -/
structure LineState where
  queue : List CopyId := []
  rx : Receiver := {}
  tx : Transmitter := {}
  mon : Monitor := {}
  entry : Vector Word 8 := Vector.replicate 8 0
  tableDiffers : Bool := false
  heldActive : Bool := false
  errorLatch : Bool := false
  deriving DecidableEq, Repr

/-! ## The memory path (Chapter 9) -/

/-- The words written by state writes (R172). -/
inductive StateWord
  | event | enable | informOnly | readIndex
  | office (i : Fin 16)
  | line (n : Line) (i : Fin 8)
  deriving DecidableEq, Repr

/-- An entry of the own-access FIFO (R170).  Addresses are byte addresses of the store. -/
inductive FifoEntry
  /-- Text block write of a buffer of a receiver, line 0 being the SUBMIT copy. -/
  | textWrite (line : Line) (buffer : Buffer) (address : Nat) (chars : Vector OfficeChar 60)
  | linkWrite (address : Nat) (target : Nat)
  | textRead (line : Line) (buffer : Buffer) (address : Nat)
  | compositionRead (address : Nat) (words : Nat)
  | recordWrite (slot : Nat) (words : List Word)
  | indexWrite (index : BitVec 16)
  | answerWrite (answer result : Word)
  | stateWrite (words : List StateWord)
  | tableRead (k : Nat)
  | lineEntryRead (line : Line)
  deriving DecidableEq, Repr

/-- What waits for room in the FIFO (R171): an entry; an answer, with whether it ends the command in flight; the
Local Position's delivery, which needs two entries; the load pass. -/
inductive Waiter
  | entry (e : FifoEntry)
  | answer (answer result : Word) (ends : Bool)
  | delivery
  | loadPass
  deriving DecidableEq, Repr

/-- The office state (R153). -/
inductive OfficeState
  | loading | running | haltedConfig
  deriving DecidableEq, Repr

/-- The pool in force (R15, R156). -/
structure Pool where
  base : Nat
  count : Nat
  deriving DecidableEq, Repr

/-! ## Commands and events (Chapter 10) -/

/-- The thirteen event classes, in the order of their bits (10.1). -/
inductive EventClass
  | command | delivery | lineCondition | rxStall | txStall | routeHold | sequence | threshold | overdue
  | poolLow | protect | table | records
  deriving DecidableEq, Repr

/-- A command taken: its fields and the arguments as captured at that moment (R182). -/
structure Command where
  code : BitVec 8
  line : BitVec 8
  tag : BitVec 16
  argA : Word
  argB : Word
  argC : Word
  deriving DecidableEq, Repr

/-- The SUBMIT copy in progress (R49): the area, how many of its characters have been read from memory, and the
characters read and not yet taken by the assembler. -/
structure SubmitCopy where
  address : Nat
  length : Nat
  fetched : Nat
  waiting : List OfficeChar
  deriving DecidableEq, Repr

/-- The office counts of events, each 0 to 65,535 (00 Counters, 11.5). -/
structure OfficeCounts where
  overdue : Nat := 0
  lostRecords : Nat := 0
  textLoss : Nat := 0
  refusedReserve : Nat := 0
  lostPool : Nat := 0
  duplicate : Nat := 0
  outOfRange : Nat := 0
  alternate : Nat := 0
  lastResort : Nat := 0
  dual : Nat := 0
  stray : Nat := 0
  protect : Nat := 0
  deriving DecidableEq, Repr

/-- The whole machine. -/
structure State where
  pending : List Instr
  windowK : Fin 16
  mem : Memory
  fifo : List FifoEntry
  waiting : List Waiter
  readData : Word
  officeState : OfficeState
  shadow : Memory
  loadDecided : Nat
  loadDone : Nat
  pool : Option Pool
  ringSize : Nat
  poolDiffers : Bool
  transits : Vector (Option Transit) 256
  copies : Vector (Option Copy) 768
  lines : Vector LineState 49
  holdList : List CopyId
  waitList : List TransitId
  awaiting : List (BitVec 16 × CopyId)
  links : List (Option Nat)
  freeHead : Option Nat
  freeTail : Option Nat
  freeCount : Nat
  recent : List (StationCode × Nat)
  submitCopy : Option SubmitCopy
  writeIndex : BitVec 16
  readIndex : BitVec 16
  counts : OfficeCounts
  events : BitVec 13
  enableWord : Word
  informOnly : Word
  interrupt : Bool
  commandWord : Word
  argA : Word
  argB : Word
  argC : Word
  inFlight : Option Command
  lastAnswer : Word × Word
  divider : Nat
  officeTime : Nat
  clock : Clock
  choices : Nat
  deriving DecidableEq, Repr

/-- Reasons the machine stops with a fault.  The manual has none: every error it names is a state, an event or an answer
(INVENTORY.md, Faults), so no constructor is declared. -/
inductive Fault
  deriving DecidableEq, Repr

/-- Reasons a command is refused.  Every row of the table has a meaning and no meaning refuses, so none is raised. -/
inductive Refusal
  /-- Raised by exec for a row that has no meaning yet (none is left); safe, since the machine would stop. -/
  | notModelled (mnemonic : String)
  deriving DecidableEq, Repr

/-! ## The state after power-on reset -/

/-- The writes decided at power-on reset, then the load pass's first reads, up to the FIFO's 32 places (R154, R174); the
order within the event words and the delivery indices is the model's (DESIGN CHOICE, log entry 41). -/
def powerOnFifo : List FifoEntry :=
  [.stateWrite [.event], .stateWrite [.enable], .stateWrite [.informOnly], .indexWrite 0, .stateWrite [.readIndex],
    .answerWrite 0 0, .stateWrite [.office 0]] ++ (List.range 25).map FifoEntry.tableRead

/-- The machine right after power-on reset, with the straps at 0 and nothing in memory (log entries 1, 2, 3). -/
def State.reset : State where
  pending := []
  windowK := 0
  mem := []
  fifo := powerOnFifo
  waiting := [.loadPass]
  readData := 0
  officeState := .loading
  shadow := []
  loadDecided := 25
  loadDone := 0
  pool := none
  ringSize := 0
  poolDiffers := false
  transits := Vector.replicate 256 none
  copies := Vector.replicate 768 none
  lines := Vector.replicate 49 {}
  holdList := []
  waitList := []
  awaiting := []
  links := []
  freeHead := none
  freeTail := none
  freeCount := 0
  recent := []
  submitCopy := none
  writeIndex := 0
  readIndex := 0
  counts := {}
  events := 0
  enableWord := 0
  informOnly := 0
  interrupt := false
  commandWord := 0
  argA := 0
  argB := 0
  argC := 0
  inFlight := none
  lastAnswer := (0, 0)
  divider := 0
  officeTime := 0
  clock := 0
  choices := 0

end Sys2Proof.Machine
end

