-- ==== Sys2Proof/Machine/Ops.lean ====
section
/-! DEFINITION. The named operations over memory, lines, records and counters that every meaning is written with. -/
namespace Sys2Proof.Machine

/-! ## The message store -/

/-- The byte at an address; an address that is not listed reads as 0 (log entry 1). -/
def Memory.read : Memory → Nat → Byte
  | [], _ => 0
  | (k, b) :: m, a => if a = k then b else if a < k then 0 else Memory.read m a

/-- Write one byte, keeping the canonical form: a byte 0 is not listed. -/
def Memory.write : Memory → Nat → Byte → Memory
  | [], a, b => if b = 0 then [] else [(a, b)]
  | (k, c) :: m, a, b =>
    if a < k then (if b = 0 then (k, c) :: m else (a, b) :: (k, c) :: m)
    else if a = k then (if b = 0 then m else (a, b) :: m)
    else (k, c) :: Memory.write m a b

/-- The canonical form from address `lo` on: addresses rise and no byte 0 is listed. -/
def Memory.wfFrom : Nat → Memory → Bool
  | _, [] => true
  | lo, (k, b) :: m => decide (lo ≤ k) && (b != 0) && Memory.wfFrom (k + 1) m

/-- The canonical form of the message store. -/
def Memory.wf (m : Memory) : Bool := Memory.wfFrom 0 m

/-- Byte `i` of a word; byte 0 is the low-order byte, at the lowest address (00 Conventions, Memory). -/
def byteOf (w : Word) (i : Nat) : Byte := w.extractLsb' (8 * i) 8

/-- The word of four bytes, the low-order byte first. -/
def wordOfBytes (b0 b1 b2 b3 : Byte) : Word :=
  b0.setWidth 32 ||| (b1.setWidth 32 <<< 8) ||| (b2.setWidth 32 <<< 16) ||| (b3.setWidth 32 <<< 24)

/-- The word at a byte address. -/
def Memory.readWord (m : Memory) (a : Nat) : Word :=
  wordOfBytes (m.read a) (m.read (a + 1)) (m.read (a + 2)) (m.read (a + 3))

/-- Write byte `i` of a word at address `a + i` when its enable is set. -/
def Memory.writeLane (m : Memory) (a : Nat) (v : Word) (be : ByteEnables) (i : Nat) : Memory :=
  if be.getLsbD i then m.write (a + i) (byteOf v i) else m

/-- A bus write of a word with byte enables (R167). -/
def Memory.writeMasked (m : Memory) (a : Nat) (v : Word) (be : ByteEnables) : Memory :=
  (((m.writeLane a v be 0).writeLane a v be 1).writeLane a v be 2).writeLane a v be 3

/-- Write a whole word. -/
def Memory.writeWord (m : Memory) (a : Nat) (v : Word) : Memory := m.writeMasked a v 15

/-- Write a run of consecutive words. -/
def Memory.writeWords : Memory → Nat → List Word → Memory
  | m, _, [] => m
  | m, a, w :: ws => Memory.writeWords (m.writeWord a w) (a + 4) ws

/-- Write a run of office characters, one per byte (1.6). -/
def Memory.writeChars : Memory → Nat → List OfficeChar → Memory
  | m, _, [] => m
  | m, a, c :: cs => Memory.writeChars (m.write a (c.setWidth 8)) (a + 1) cs

/-- Copy a run of `n` words of one memory into another, from one address to another. -/
def Memory.copyWords (src : Memory) (a : Nat) : Memory → Nat → Nat → Memory
  | dst, _, 0 => dst
  | dst, d, n + 1 => Memory.copyWords src (a + 4) (dst.writeWord d (src.readWord a)) (d + 4) n

/-- The word after a write with byte enables: enabled bytes from the bus, the others as they were (R157, R182). -/
def mergeWord (old bus : Word) (be : ByteEnables) : Word :=
  wordOfBytes (if be.getLsbD 0 then byteOf bus 0 else byteOf old 0) (if be.getLsbD 1 then byteOf bus 1 else byteOf old 1)
    (if be.getLsbD 2 then byteOf bus 2 else byteOf old 2) (if be.getLsbD 3 then byteOf bus 3 else byteOf old 3)

/-- The bytes a write carries: byte `i` from the bus when it is enabled, else 0 (R176, R187). -/
def enabledBits (bus : Word) (be : ByteEnables) : Word := mergeWord 0 bus be

/-! ## Numbers -/

/-- A 16-bit counter going up by `d`; it stays at 65,535 once there (00 Counters). -/
def sat16 (n d : Nat) : Nat := min 65535 (n + d)

/-- The nearest value within a range (00 Ranges and clamping). -/
def clamp (lo hi v : Nat) : Nat := if v < lo then lo else if hi < v then hi else v

/-- The number after `n` in a sequence 1 to 999 (R45, R98, R124). -/
def nextNumber (n : Nat) : Nat := if n = 999 then 1 else n + 1

/-! ## The clocks -/

/-- The time since a reading of the internal clock, taken modulo 2^32 (R184). -/
def State.since (s : State) (t : Clock) : Nat := (s.clock - t).toNat

/-! ## The window -/

/-- The base of the Relay Window: k MiB (R166). -/
def State.windowBase (s : State) : Nat := s.windowK.val * 0x100000

/-- A forwarded bus write: it reaches memory with the bus's byte enables (R167). -/
def State.forward (s : State) (a : Nat) (v : Word) (be : ByteEnables) : State :=
  { s with mem := s.mem.writeMasked a v be }

/-- A forwarded bus write at a window offset. -/
def State.forwardWindow (s : State) (off : Nat) (v : Word) (be : ByteEnables) : State :=
  s.forward (s.windowBase + off) v be

/-- A byte address inside the Relay Window (R166). -/
def State.inWindow (s : State) (a : Nat) : Bool :=
  decide (s.windowBase ≤ a) && decide (a < s.windowBase + Config.windowBytes)

/-- A byte address inside the pool in force (R168). -/
def State.inPool (s : State) (a : Nat) : Bool :=
  match s.pool with
  | none => false
  | some p => decide (p.base ≤ a) && decide (a < p.base + 64 * p.count)

/-- The byte address of a block of the pool in force (R15). -/
def State.blockAddress (s : State) (b : Nat) : Nat :=
  match s.pool with
  | none => 0
  | some p => p.base + 64 * b

/-! ## Lines -/

/-- The state of a line. -/
def State.line (s : State) (n : Line) : LineState := s.lines[n]

/-- Change the state of one line. -/
def State.modLine (s : State) (n : Line) (f : LineState → LineState) : State :=
  { s with lines := s.lines.set n.val (f s.lines[n]) n.isLt }

def State.rx (s : State) (n : Line) : Receiver := (s.line n).rx
def State.tx (s : State) (n : Line) : Transmitter := (s.line n).tx
def State.mon (s : State) (n : Line) : Monitor := (s.line n).mon
def State.queue (s : State) (n : Line) : List CopyId := (s.line n).queue

def State.modRx (s : State) (n : Line) (f : Receiver → Receiver) : State :=
  s.modLine n (fun l => { l with rx := f l.rx })
def State.modTx (s : State) (n : Line) (f : Transmitter → Transmitter) : State :=
  s.modLine n (fun l => { l with tx := f l.tx })
def State.modMon (s : State) (n : Line) (f : Monitor → Monitor) : State :=
  s.modLine n (fun l => { l with mon := f l.mon })
def State.setQueue (s : State) (n : Line) (q : List CopyId) : State :=
  s.modLine n (fun l => { l with queue := q })

/-- The circuits, lines 1 to 48, in ascending order. -/
def circuits : List Line := (List.finRange 49).filter (fun n => n != 0)

/-- Apply an operation to each circuit in ascending order. -/
def State.forCircuits (s : State) (f : Line → State → State) : State :=
  circuits.foldl (fun t n => f n t) s

/-! ## Records -/

/-- The lowest-numbered free place (R1, R5). -/
def lowestFree {α : Type} {n : Nat} (v : Vector (Option α) n) : Option (Fin n) :=
  (v.toList.findFinIdx? Option.isNone).map (Fin.cast v.length_toList)

/-- How many places are free. -/
def freePlaces {α : Type} {n : Nat} (v : Vector (Option α) n) : Nat := v.toList.countP Option.isNone

def State.transit? (s : State) (t : TransitId) : Option Transit := s.transits[t]
def State.copy? (s : State) (c : CopyId) : Option Copy := s.copies[c]

def State.setTransit (s : State) (t : TransitId) (r : Option Transit) : State :=
  { s with transits := s.transits.set t.val r t.isLt }
def State.setCopy (s : State) (c : CopyId) (r : Option Copy) : State :=
  { s with copies := s.copies.set c.val r c.isLt }
def State.modTransit (s : State) (t : TransitId) (f : Transit → Transit) : State :=
  s.setTransit t ((s.transit? t).map f)
def State.modCopy (s : State) (c : CopyId) (f : Copy → Copy) : State :=
  s.setCopy c ((s.copy? c).map f)

def State.freeTransits (s : State) : Nat := freePlaces s.transits
def State.freeCopies (s : State) : Nat := freePlaces s.copies

/-- Change the office counts. -/
def State.modCounts (s : State) (f : OfficeCounts → OfficeCounts) : State := { s with counts := f s.counts }

/-! ## Local reasons -/

/-- The bit of a local reason in the reasons field (11.6). -/
def Reason.bit : Reason → Nat
  | .addressed => 0
  | .intercept => 1
  | .headingFault => 2
  | .addressFault => 3
  | .unknownAddressee => 4
  | .barred => 5
  | .collectiveNested => 6
  | .addressExcess => 7
  | .noClosing => 8
  | .truncated => 9
  | .textLoss => 10
  | .loopback => 11
  | .sequenceReset => 12

/-- Add a reason to a set; adding one that is present changes nothing (3.10). -/
def Reasons.add (r : Reasons) (x : Reason) : Reasons := r ||| BitVec.twoPow 16 x.bit

/-- Whether a reason is in a set. -/
def Reasons.has (r : Reasons) (x : Reason) : Bool := r.getLsbD x.bit

/-! ## Buffers -/

/-- The other buffer. -/
def Buffer.other : Buffer → Buffer
  | .a => .b
  | .b => .a

def Receiver.buf (r : Receiver) (k : Buffer) : BlockBuffer := if k = .a then r.bufA else r.bufB
def Receiver.setBuf (r : Receiver) (k : Buffer) (x : BlockBuffer) : Receiver :=
  { r with bufA := if k = .a then x else r.bufA, bufB := if k = .a then r.bufB else x }
def Transmitter.buf (t : Transmitter) (k : Buffer) : TextBuffer := if k = .a then t.bufA else t.bufB
def Transmitter.setBuf (t : Transmitter) (k : Buffer) (x : TextBuffer) : Transmitter :=
  { t with bufA := if k = .a then x else t.bufA, bufB := if k = .a then t.bufB else x }

end Sys2Proof.Machine
end

