-- ==== Sys2Proof/Machine/Operands.lean ====
section
/-! DEFINITION. The fields of the Office Table as the part uses them: positions of 11.7, ranges and defaults of 8.4. -/
namespace Sys2Proof.Machine

/-! ## Raw fields of the shadow -/

/-- The word of the shadow at a window offset. -/
def State.tableWord (s : State) (off : Nat) : Word := s.shadow.readWord off

/-- A byte of the Office Parameters, by its offset from 0x01000. -/
def State.par8 (s : State) (off : Nat) : Nat := (s.shadow.read (0x1000 + off)).toNat

/-- A field of two bytes of the Office Parameters. -/
def State.par16 (s : State) (off : Nat) : Nat := s.par8 off + 256 * s.par8 (off + 1)

/-- An office character held in a byte of memory: its low 7 bits. -/
def charOfByte (b : Byte) : OfficeChar := b.setWidth 7

/-- The office characters of an ASCII text, for the defaults of R161. -/
def chars (cs : List Nat) : List OfficeChar := cs.map (BitVec.ofNat 7)

/-- The value of a field whose range excludes 0: 0 gives the default, another value outside takes the nearer end (8.4). -/
def clampOr (lo hi dflt v : Nat) : Nat := if v = 0 then dflt else clamp lo hi v

/-! ## Office Parameters (R161) -/

/-- A group: the default when its length is out of range or one of its characters is 0 or above 127 (R161). -/
def State.groupField (s : State) (off maxLen : Nat) (dflt : List OfficeChar) : List OfficeChar :=
  let len := s.par8 off
  let bytes := (List.range len).map (fun i => s.shadow.read (0x1000 + off + 1 + i))
  if decide (2 ≤ len) && decide (len ≤ maxLen) && bytes.all (fun b => decide (1 ≤ b.toNat) && decide (b.toNat ≤ 127))
  then bytes.map charOfByte
  else dflt

/-- `KQKQ` unless the table gives a good group. -/
def State.openingGroup (s : State) : List OfficeChar := s.groupField 0x00 6 (chars [75, 81, 75, 81])
/-- `QQQQ` unless the table gives a good group. -/
def State.closingGroup (s : State) : List OfficeChar := s.groupField 0x08 6 (chars [81, 81, 81, 81])
/-- `ANNUL` unless the table gives a good group. -/
def State.cancelGroup (s : State) : List OfficeChar := s.groupField 0x10 8 (chars [65, 78, 78, 85, 76])

/-- The pool base of the table, rounded down to a multiple of 64 (R156). -/
def State.tablePoolBase (s : State) : Nat := (s.tableWord 0x1020).toNat / 64 * 64
def State.tablePoolCount (s : State) : Nat := clamp 16 4096 (s.par16 0x24)
def State.tableRingSize (s : State) : Nat := clamp 16 256 (s.par16 0x26)

/-- The pool reserve, at most half the block count in force, rounded down (R160, R161). -/
def State.poolReserve (s : State) : Nat :=
  let count := match s.pool with | none => 0 | some p => p.count
  clamp 0 (count / 2) (s.par16 0x28)

/-- The stored length limit L. -/
def State.storedLimit (s : State) : Nat := clampOr 60 8000 3600 (s.par16 0x2A)
/-- The receive timeout T in seconds. -/
def State.receiveTimeoutSeconds (s : State) : Nat := clampOr 5 600 30 (s.par16 0x2C)
def State.transmitStallSeconds (s : State) : Nat := clampOr 1 60 5 (s.par16 0x2E)
/-- The gap window G. -/
def State.gapWindow (s : State) : Nat := clampOr 1 99 10 (s.par8 0x30)
/-- The duplicate window W. -/
def State.duplicateWindow (s : State) : Nat := clampOr 1 99 10 (s.par8 0x31)
/-- The nearly-complete threshold N. -/
def State.nearlyComplete (s : State) : Nat := clamp 0 1000 (s.par16 0x32)

/-- The overdue limit of a precedence, in seconds. -/
def State.overdueLimit (s : State) (r : Rank) : Nat :=
  let v := s.par16 (0x34 + 2 * r.val)
  if v = 0 then (match r with | 0 => 60 | 1 => 300 | 2 => 1800 | 3 => 7200) else v

/-- A shift combination: the default when it lies outside 0 to 31. -/
def State.lettersShift (s : State) : Byte :=
  if s.par8 0x3C ≤ 31 then BitVec.ofNat 8 (s.par8 0x3C) else 31
def State.figuresShift (s : State) : Byte :=
  if s.par8 0x3D ≤ 31 then BitVec.ofNat 8 (s.par8 0x3D) else 27
/-- The mutilation mark, `?` when the field lies outside 0 to 127. -/
def State.mutilationMark (s : State) : OfficeChar :=
  if s.par8 0x3E ≤ 127 then BitVec.ofNat 7 (s.par8 0x3E) else 63
def State.sendSubstitute (s : State) : OfficeChar :=
  if s.par8 0x3F ≤ 127 then BitVec.ofNat 7 (s.par8 0x3F) else 63

/-! ## Line entries (R162, 11.7) -/

/-- Byte `i` of a line entry. -/
def entryByte (e : Vector Word 8) (i : Nat) : Byte := byteOf (e.toList.getD (i / 4) 0) (i % 4)
/-- Two bytes of a line entry, from byte `i` on. -/
def entryPair (e : Vector Word 8) (i : Nat) : Nat := (entryByte e i).toNat + 256 * (entryByte e (i + 1)).toNat
def entryFlag (e : Vector Word 8) (i : Nat) : Bool := (entryByte e 3).getLsbD i

/-- The incoming and outgoing designators, as stored. -/
def incomingDesignator (e : Vector Word 8) : List Byte := [entryByte e 0, entryByte e 1, entryByte e 2]
def outgoingDesignator (e : Vector Word 8) : List Byte := [entryByte e 4, entryByte e 5, entryByte e 6]
/-- Line kind 7-UNIT. -/
def sevenUnit (e : Vector Word 8) : Bool := entryFlag e 0
/-- Parity ODD. -/
def parityOdd (e : Vector Word 8) : Bool := entryFlag e 1
def unshiftOnSpace (e : Vector Word 8) : Bool := entryFlag e 2
def breakInAllowed (e : Vector Word 8) : Bool := entryFlag e 3
def checksEnabled (e : Vector Word 8) : Bool := entryFlag e 4
def trailerCount (e : Vector Word 8) : Nat := clamp 0 12 (entryByte e 7).toNat
/-- The character period p in tenths of a millisecond. -/
def characterPeriod (e : Vector Word 8) : Nat := clamp 100 20000 (entryPair e 8)
def checkIntervalSeconds (e : Vector Word 8) : Nat := clampOr 5 3600 60 (entryPair e 10)
def answerTimeSeconds (e : Vector Word 8) : Nat := clampOr 1 60 10 (entryByte e 12).toNat
def failureLimit (e : Vector Word 8) : Nat := clampOr 1 15 3 (entryByte e 13).toNat
/-- The five thresholds: parity, framing, heading, gap, check-fail. -/
def thresholds (e : Vector Word 8) : List Nat :=
  [entryPair e 16, entryPair e 18, entryPair e 20, entryPair e 22, entryPair e 24]

/-- The line entry in force of a line. -/
def State.entry (s : State) (n : Line) : Vector Word 8 := (s.line n).entry

/-- The window offset of the entry of line n, 1 to 48 (11.7). -/
def lineEntryOffset (n : Line) : Nat := 0x1400 + 32 * (n.val - 1)

/-! ## Stations, groups, patterns and code tables (11.7) -/

/-- Kind of a station entry. -/
inductive StationKind
  | station | collective | own | barred
  deriving DecidableEq, Repr

/-- A station entry as it is used (R162). -/
structure StationEntry where
  code : StationCode
  valid : Bool
  kind : StationKind
  primary : Line
  alt1 : Line
  alt2 : Line
  spill : Nat
  dual : Bool
  group : Nat
  deriving DecidableEq, Repr

/-- A line number of a station entry; a value above 48 is taken as 0 (R162). -/
def lineField (v : BitVec 6) : Line := if h : v.toNat < 49 then ⟨v.toNat, h⟩ else 0

/-- The fields of a station entry's two words. -/
def stationOfWords (w0 w1 : Word) : StationEntry where
  code := w0
  valid := w1.getLsbD 31
  kind := match (w1.extractLsb' 26 2).toNat with | 0 => .station | 1 => .collective | 2 => .own | _ => .barred
  primary := lineField (w1.extractLsb' 0 6)
  alt1 := lineField (w1.extractLsb' 6 6)
  alt2 := lineField (w1.extractLsb' 12 6)
  spill := (w1.extractLsb' 18 8).toNat
  dual := w1.getLsbD 28
  group := (w1.extractLsb' 0 6).toNat

/-- Station entry e, 0 to 383. -/
def State.station (s : State) (e : Nat) : StationEntry :=
  stationOfWords (s.tableWord (0x2000 + 8 * e)) (s.tableWord (0x2004 + 8 * e))

/-- The first valid entry that holds the code, in ascending entry number (R55).  Table bytes are compared whole, so that one
with bit 7 set equals no character (DESIGN CHOICE, log entry 36). -/
def State.lookup (s : State) (code : StationCode) : Option StationEntry :=
  (List.range 384).findSome? (fun e =>
    let x := s.station e
    if x.valid && x.code == code then some x else none)

/-- Member slot i of group g. -/
def State.groupSlot (s : State) (g i : Nat) : Word := s.tableWord (0x3000 + 64 * g + 4 * i)

/-- Intercept Pattern j. -/
def State.pattern (s : State) (j : Nat) : Word := s.tableWord (0x1100 + 4 * j)

/-- Receive Code Table entry e (0 to 63). -/
def State.receiveCode (s : State) (e : Nat) : Byte := s.shadow.read (0x1200 + e)

/-- Send Code Table entry of an office character. -/
def State.sendCode (s : State) (c : OfficeChar) : Byte := s.shadow.read (0x1240 + c.toNat)

/-! ## Characters -/

/-- A letter A to Z. -/
def isLetterByte (b : Byte) : Bool := decide (65 ≤ b.toNat) && decide (b.toNat ≤ 90)
def isLetter (c : OfficeChar) : Bool := decide (65 ≤ c.toNat) && decide (c.toNat ≤ 90)
/-- A digit 0 to 9. -/
def isDigit (c : OfficeChar) : Bool := decide (48 ≤ c.toNat) && decide (c.toNat ≤ 57)
/-- CR or LF. -/
def isLineEnd (c : OfficeChar) : Bool := c == 13 || c == 10

/-- The number that digits spell. -/
def digitsValue (cs : List OfficeChar) : Nat := cs.foldl (fun n c => 10 * n + (c.toNat - 48)) 0

/-- The four characters of a code word. -/
def codeBytes (w : StationCode) : List Byte := [byteOf w 0, byteOf w 1, byteOf w 2, byteOf w 3]

/-- Four letters A to Z; a byte with bit 7 set is none (DESIGN CHOICE, log entry 36). -/
def isFourLetters (w : StationCode) : Bool := (codeBytes w).all isLetterByte

/-- The code word of four office characters, the first in byte 0. -/
def codeOfChars : List OfficeChar → StationCode
  | [c0, c1, c2, c3] => wordOfBytes (c0.setWidth 8) (c1.setWidth 8) (c2.setWidth 8) (c3.setWidth 8)
  | _ => 0

/-- A number as `n` decimal digits with leading zeros (R99). -/
def decimal : Nat → Nat → List OfficeChar
  | 0, _ => []
  | n + 1, v => decimal n (v / 10) ++ [BitVec.ofNat 7 (48 + v % 10)]

end Sys2Proof.Machine
end

