-- ==== Sys2Proof/Machine/Flags.lean ====
section
/-! DEFINITION. Event bits, the interrupt output, and the words the part writes and answers: status records (11.5), the
Event Word (11.3), the answer word (11.2), the send cell (11.4, R187), the delivery record (11.6). -/
namespace Sys2Proof.Machine

/-! ## Events and the interrupt output -/

/-- The bit of an event class (10.1). -/
def EventClass.bit : EventClass → Nat
  | .command => 0
  | .delivery => 1
  | .lineCondition => 2
  | .rxStall => 3
  | .txStall => 4
  | .routeHold => 5
  | .sequence => 6
  | .threshold => 7
  | .overdue => 8
  | .poolLow => 9
  | .protect => 10
  | .table => 11
  | .records => 12

/-- The Event Word: a class shown in its bit, bits 13 to 31 zero (R175). -/
def State.eventWord (s : State) : Word := s.events.setWidth 32

/-- Whether a class is pending. -/
def State.isPending (s : State) (c : EventClass) : Bool := s.events.getLsbD c.bit

/-- Whether a class is inform-only (R178). -/
def State.isInformOnly (s : State) (c : EventClass) : Bool := s.informOnly.getLsbD c.bit

/-- Some class is both pending and enabled (R177). -/
def interruptCalled (events : BitVec 13) (enable : Word) : Bool := (events &&& enable.setWidth 13) != 0

/-- Set the pending set; the interrupt output follows (R177). -/
def State.setEvents (s : State) (e : BitVec 13) : State :=
  { s with events := e, interrupt := interruptCalled e s.enableWord }

/-- Set the captured Enable Word; the interrupt output follows (R177). -/
def State.setEnable (s : State) (w : Word) : State :=
  { s with enableWord := w, interrupt := interruptCalled s.events w }

/-! ## Codes of states in the status records (11.5) -/

def OfficeState.code : OfficeState → Nat
  | .loading => 0
  | .running => 1
  | .haltedConfig => 2

def Condition.code : Condition → Nat
  | .stopped => 0
  | .starting => 1
  | .active => 2
  | .suspect => 3
  | .test => 4

def TxState.code : TxState → Nat
  | .off => 0
  | .idle => 1
  | .service => 2
  | .heading => 3
  | .text => 4
  | .closing => 5
  | .cutting => 6
  | .stalled => 7

def RxState.code : RxState → Nat
  | .off => 0
  | .hunt => 1
  | .heading => 2
  | .address => 3
  | .text => 4
  | .service => 5
  | .discard => 6
  | .stalled => 7

/-! ## Packing -/

/-- A field of a word: a value put at a bit position, cut to its width. -/
def field (v width pos : Nat) : Word := BitVec.ofNat 32 (v % 2 ^ width) <<< pos

/-- Two halves of a word: bits 0 to 15 and bits 16 to 31. -/
def halves (lo hi : Nat) : Word := field lo 16 0 ||| field hi 16 16

/-- A flag at a bit position. -/
def flagAt (b : Bool) (pos : Nat) : Word := if b then field 1 1 pos else 0

/-- How many copies of a list have their overdue flag set (R11, R12). -/
def State.overdueIn (s : State) (cs : List CopyId) : Nat :=
  cs.countP (fun c => match s.copy? c with | some x => x.overdue | none => false)

/-! ## Status records (11.5) -/

/-- A word of the Office Status Record, with the FIFO count given (R171, R188). -/
def State.officeWordWith (s : State) (fifoCount : Nat) (i : Fin 16) : Word :=
  match i.val with
  | 0 => field s.officeState.code 8 0 ||| flagAt s.poolDiffers 8 ||| field fifoCount 8 16 ||| field s.windowK.val 4 24
  | 1 => BitVec.ofNat 32 (match s.pool with | some p => p.base | none => 0)
  | 2 => halves (match s.pool with | some p => p.count | none => 0) s.ringSize
  | 3 => halves s.freeCount s.freeTransits
  | 4 => halves s.freeCopies s.waitList.length
  | 5 => halves s.holdList.length (s.overdueIn s.holdList)
  | 6 => halves s.counts.overdue s.counts.lostRecords
  | 7 => halves s.counts.textLoss s.counts.refusedReserve
  | 8 => halves s.counts.lostPool s.counts.duplicate
  | 9 => halves s.counts.outOfRange s.counts.alternate
  | 10 => halves s.counts.lastResort s.counts.dual
  | 11 => halves s.counts.stray s.counts.protect
  | _ => 0

/-- A word of the Office Status Record as it stands, with the present count of FIFO entries. -/
def State.officeWord (s : State) (i : Fin 16) : Word := s.officeWordWith s.fifo.length i

/-- The outgoing number shown for the sending copy: 0 when the sending position is empty (R188). -/
def State.sendingNumber (s : State) (n : Line) : Nat :=
  match (s.tx n).sending with
  | none => 0
  | some c => match s.copy? c with
    | none => 0
    | some x => x.outNumber.getD 0

/-- A word of the Line Status Record of a line (11.5); line 0 shows its queue only (R188). -/
def State.lineWord (s : State) (n : Line) (i : Fin 8) : Word :=
  let l := s.line n
  let word1 := field l.queue.length 10 0 ||| field (s.overdueIn l.queue) 10 10 |||
    field (match l.tx.sending with | some c => c.val | none => 1023) 10 20
  if n = 0 then (if i.val = 1 then word1 else 0)
  else match i.val with
    | 0 => flagAt l.heldActive 0 ||| flagAt l.errorLatch 1 ||| field l.mon.condition.code 8 8 ||| flagAt l.mon.degraded 16 |||
        flagAt l.mon.reloadPending 17 ||| flagAt l.tableDiffers 18 ||| field l.tx.state.code 4 24 ||| field l.rx.state.code 4 28
    | 1 => word1
    | 2 => field (s.sendingNumber n) 10 0 ||| field l.tx.nextOut 10 10 ||| field (l.rx.expectedIn.getD 0) 10 20
    | 3 => field l.mon.checkNumber 10 0 ||| field (l.mon.outstanding.getD 0) 10 10 ||| field (l.mon.owed.getD 0) 10 20
    | 4 => halves l.mon.failures l.mon.counters.parity
    | 5 => halves l.mon.counters.framing l.mon.counters.heading
    | 6 => halves l.mon.counters.gap l.mon.counters.checkFail
    | _ => halves l.mon.counters.fill l.mon.counters.stalledChars

/-- The value the part holds for a state word at this moment (R172). -/
def State.stateWord (s : State) : StateWord → Word
  | .event => s.eventWord
  | .enable => s.enableWord
  | .informOnly => s.informOnly
  | .readIndex => s.readIndex.setWidth 32
  | .office i => s.officeWord i
  | .line n i => s.lineWord n i

/-- The window offset of a state word (11.1). -/
def StateWord.offset : StateWord → Nat
  | .event => 0x20
  | .enable => 0x24
  | .informOnly => 0x28
  | .readIndex => 0x38
  | .office i => 0x40 + 4 * i.val
  | .line n i => 0x400 + 32 * n.val + 4 * i.val

/-! ## Answers (11.2) -/

/-- The answer codes. -/
inductive AnswerCode
  | done | busy | noSuchCommand | badLine | wrongState | badArgument | notFound | noRecord | poolLow | duplicate
  deriving DecidableEq, Repr

def AnswerCode.value : AnswerCode → Nat
  | .done => 0
  | .busy => 1
  | .noSuchCommand => 2
  | .badLine => 3
  | .wrongState => 4
  | .badArgument => 5
  | .notFound => 6
  | .noRecord => 7
  | .poolLow => 8
  | .duplicate => 9

/-- The answer word: the tag in bits 0 to 15, the code in bits 16 to 23. -/
def answerWord (tag : BitVec 16) (code : AnswerCode) : Word := tag.setWidth 32 ||| field code.value 8 16

/-- The command word of a code, a line and a tag. -/
def commandWordOf (code line : BitVec 8) (tag : BitVec 16) : Word :=
  code.setWidth 32 ||| (line.setWidth 32 <<< 8) ||| (tag.setWidth 32 <<< 16)

/-! ## The send cell (11.4, R187) -/

/-- The answer IDLE. -/
def sendIdle : Word := 0
/-- SEND with a combination. -/
def sendChar (combination : Byte) : Word := combination.setWidth 32 ||| field 1 1 8
/-- SEND with time fill. -/
def sendFill (combination : Byte) : Word := combination.setWidth 32 ||| field 1 1 8 ||| field 1 1 9

/-! ## The delivery record (11.6, R113) -/

/-- The eight words of the delivery record of a copy. -/
def State.deliveryRecord (s : State) (c : CopyId) (x : Copy) (t : Transit) : List Word :=
  [field x.transit.val 8 0 ||| field x.rank.val 8 8 ||| field c.val 16 16,
    t.reasons.setWidth 32 ||| field t.source.val 8 16,
    halves (t.channel.getD 0) (t.serial.getD 0),
    t.origin.getD 0,
    BitVec.ofNat 32 t.filing,
    BitVec.ofNat 32 (match t.first with | some b => s.blockAddress b | none => 0),
    halves t.stored (t.bodyOffset.getD 0),
    0]

end Sys2Proof.Machine
end

