-- ==== Sys2Proof/Machine/Fifo.lean ====
section
/-! DEFINITION. The own-access FIFO and what waits for room in it (9.4, 9.5), event posting (R175), answers (R183), and the
state writes that a step's changes decide (R172, R180, R188). -/
namespace Sys2Proof.Machine

/-! ## Entries that join or wait (R170, R171) -/

/-- An entry may join at once: the FIFO has a place, and no block waits for one.  A delivery that waits for two places
does not hold back a single entry (log entry 10). -/
def State.mayJoin (s : State) : Bool :=
  decide (s.fifo.length < Config.fifoCapacity) &&
    (s.waiting.isEmpty ||
      (s.waiting.all (fun w => w == Waiter.delivery) && s.fifo.length + 1 == Config.fifoCapacity))

/-- An entry joins the FIFO at its tail. -/
def State.pushEntry (s : State) (e : FifoEntry) : State := { s with fifo := s.fifo ++ [e] }

/-- A block begins to wait for room, behind those that wait already. -/
def State.wait (s : State) (w : Waiter) : State := { s with waiting := s.waiting ++ [w] }

/-- Decide an entry: it joins at the tail, or its block waits (R170, R171). -/
def decideEntry (e : FifoEntry) (s : State) : State := if s.mayJoin then s.pushEntry e else s.wait (.entry e)

/-! ## State writes (R172) -/

/-- The entry is a state write that covers the word. -/
def FifoEntry.covers (w : StateWord) : FifoEntry → Bool
  | .stateWrite ws => ws.contains w
  | _ => false

/-- A state write of the word has been decided and waits for room in the FIFO. -/
def State.stateWriteWaits (s : State) (w : StateWord) : Bool :=
  s.waiting.any (fun x => match x with | .entry e => e.covers w | _ => false)

/-- A write of the state word is in the FIFO or waits for room in it: a waiting write counts as pending (DESIGN CHOICE, log
entry 43: R172 names the FIFO only). -/
def State.stateWritePending (s : State) (w : StateWord) : Bool := s.fifo.any (FifoEntry.covers w) || s.stateWriteWaits w

/-- Decide a state write of one word unless one is pending (R172). -/
def decideStateWord (w : StateWord) (s : State) : State :=
  if s.stateWritePending w then s else decideEntry (.stateWrite [w]) s

/-- Decide a state write unless one of the word is pending; a write decided for a word of the Office Status Record
decides one of word 0 with it, behind it, unless that is pending (R172, R188; DESIGN CHOICE, log entry 9: R188 gives no order
of the two entries).  Where the office word's write has to wait for room, word 0's is decided as that wait begins and not when
the entry joins (DESIGN CHOICE, log entry 43). -/
def decideState (w : StateWord) (s : State) : State :=
  match w with
  | .office i =>
    if s.stateWritePending (.office i) then s
    else decideStateWord (.office 0) (decideEntry (.stateWrite [.office i]) s)
  | w => decideStateWord w s

/-- A rule has a Line Status Record rewritten: a state write of each given word is decided, whether or not what it shows has
changed (R47, R118, R122, R134; that these words are those with the fields the rule sets is DEDUCED, log entry 9). -/
def rewriteLine (n : Line) (is : List (Fin 8)) (s : State) : State := is.foldl (fun t i => decideState (.line n i) t) s

/-! ## Events (R175) -/

/-- Post an event class: it becomes pending, the interrupt output follows, and a change of the set decides a state
write of the Event Word. -/
def post (c : EventClass) (s : State) : State :=
  if s.isPending c then s else decideState .event (s.setEvents (s.events ||| BitVec.twoPow 13 c.bit))

/-! ## Answers (R183) -/

/-- An answer joins the FIFO: it is the answer last decided, it ends the command in flight when it is that command's,
and COMMAND is posted. -/
def joinAnswer (answer result : Word) (ends : Bool) (s : State) : State :=
  post .command { s.pushEntry (.answerWrite answer result) with
    lastAnswer := (answer, result)
    inFlight := if ends then none else s.inFlight }

/-- Decide an answer, or have the Command Unit wait for room (log entry 11). -/
def decideAnswer (tag : BitVec 16) (code : AnswerCode) (result : Nat) (ends : Bool) (s : State) : State :=
  if s.mayJoin then joinAnswer (answerWord tag code) (BitVec.ofNat 32 result) ends s
  else s.wait (.answer (answerWord tag code) (BitVec.ofNat 32 result) ends)

/-- The answer of a command that ends at once. -/
def answer (tag : BitVec 16) (code : AnswerCode) (result : Nat) (s : State) : State := decideAnswer tag code result false s

/-- The answer of the command in flight. -/
def answerInFlight (code : AnswerCode) (result : Nat) (s : State) : State :=
  match s.inFlight with
  | none => s
  | some c => decideAnswer c.tag code result true s

/-! ## The load pass's reads (R154) -/

/-- The next read of the load pass joins the FIFO. -/
def pushTableRead (s : State) : State :=
  { s.pushEntry (.tableRead s.loadDecided) with loadDecided := s.loadDecided + 1 }

/-- Decide reads of the load pass while the FIFO has room, then wait for it. -/
def decideTableReads : Nat → State → State
  | 0, s => s
  | k + 1, s =>
    if s.loadDecided < Config.loadReads then
      if s.mayJoin then decideTableReads k (pushTableRead s)
      else if s.waiting.contains .loadPass then s
      else s.wait .loadPass
    else s

/-! ## The state writes of a step (R180, R188; log entry 9) -/

/-- The words of the status records, office record first. -/
def statusWords : List StateWord :=
  (List.finRange 16).map StateWord.office ++
    (List.finRange 49).flatMap (fun n => (List.finRange 8).map (StateWord.line n))

/-- The value of a status word, the FIFO count left out: that count is not rewritten for every entry (R171). -/
def State.statusValue (s : State) : StateWord → Word
  | .office i => s.officeWordWith 0 i
  | w => s.stateWord w

/-- The status words that a step has changed. -/
def changedWords (old new : State) : List StateWord :=
  statusWords.filter (fun w => old.statusValue w != new.statusValue w)

/-- Decide the state writes that the change from `old` to `new` calls for. -/
def settle (old new : State) : State := (changedWords old new).foldl (fun s w => decideState w s) new

/-- The outcome of a step whose effect has been made: its state writes are decided. -/
def done (old new : State) : Host.Outcome State Fault Refusal := .next (settle old new)

end Sys2Proof.Machine
end

