-- ==== Sys2Proof/Machine/Records.lean ====
section
/-! DEFINITION. Transit records, copy entries and pool blocks: taking, freeing and chaining them (1.1, 1.2, 1.6), and the
line counters with DEGRADED (6.7). -/
namespace Sys2Proof.Machine

/-! ## Numbers shown in the Office Status Record (R1, R4, R7, R15) -/

/-- A record or a block has been taken or freed: the free counts are rewritten, even when they are the same again at the
step's end (R1, R4, R15). -/
def freeCountsChanged (s : State) : State := decideState (.office 3) s

/-- A copy entry has been taken or freed, or the Copy Wait List has changed: their numbers are rewritten (R5, R7). -/
def copyCountsChanged (s : State) : State := decideState (.office 4) s

/-! ## Pool blocks (R15 to R18) -/

/-- The block that follows a block in its chain (R16). -/
def State.nextBlock (s : State) (b : Nat) : Option Nat := s.links.getD b none

/-- The block at a place of a chain, from its first block on. -/
def State.blockAt (s : State) : Option Nat → Nat → Option Nat
  | b, 0 => b
  | none, _ + 1 => none
  | some b, k + 1 => s.blockAt (s.nextBlock b) k

/-- Release a whole chain onto the tail of the free-block chain (R18). -/
def releaseChain (first last : Option Nat) (blocks : Nat) (s : State) : State :=
  match first, last with
  | some f, some l =>
    { s with
      links := match s.freeTail with | some t => s.links.set t (some f) | none => s.links
      freeHead := match s.freeHead with | some h => some h | none => some f
      freeTail := some l
      freeCount := s.freeCount + blocks }
  | _, _ => s

/-- Take the head of the free-block chain and put it at the end of a transit's chain (R17); none when no block is free. -/
def allocateBlock (t : TransitId) (s : State) : Option (Nat × State) :=
  match s.freeHead, s.transit? t with
  | some b, some r =>
    if s.freeCount = 0 then none
    else
      let head := if s.freeCount = 1 then none else s.nextBlock b
      let s1 : State := { s with
        freeHead := head
        freeTail := if s.freeCount = 1 then none else s.freeTail
        freeCount := s.freeCount - 1
        links := s.links.set b none }
      match r.last with
      | none =>
        some (b, freeCountsChanged (s1.setTransit t (some { r with first := some b, last := some b, blocks := 1 })))
      | some l =>
        let s2 : State := { s1 with links := s1.links.set l (some b) }
        let s3 := s2.setTransit t (some { r with last := some b, blocks := r.blocks + 1 })
        some (b, freeCountsChanged (decideEntry (.linkWrite (s.blockAddress l) (s.blockAddress b)) s3))
  | _, _ => none

/-! ## Transit records (R1, R4) -/

/-- A record as it is when it is taken (R1). -/
def newTransit (source : Line) (filing : Nat) : Transit where
  state := .receiving
  source := source
  channel := none
  rank := none
  origin := none
  serial := none
  filing := filing
  first := none
  last := none
  blocks := 0
  stored := 0
  bodyOffset := none
  flags := {}
  tokens := []
  resolved := []
  reasons := 0
  pendingCopies := 0
  need := none

/-- Take the lowest-numbered free record for a line; none when no record is free (R1). -/
def takeTransit (source : Line) (s : State) : Option (TransitId × State) :=
  match lowestFree s.transits with
  | none => none
  | some t => some (t, freeCountsChanged (s.setTransit t (some (newTransit source s.officeTime))))

/-- Free a record: its chain is released and it leaves the Copy Wait List (R4). -/
def freeTransit (t : TransitId) (s : State) : State :=
  match s.transit? t with
  | none => s
  | some r =>
    let s1 := releaseChain r.first r.last r.blocks (s.setTransit t none)
    let s2 := freeCountsChanged { s1 with waitList := s1.waitList.filter (fun x => x != t) }
    if s1.waitList.contains t then copyCountsChanged s2 else s2

/-- Add a local reason to a record. -/
def addReason (t : TransitId) (x : Reason) (s : State) : State :=
  s.modTransit t (fun r => { r with reasons := r.reasons.add x })

/-! ## Copy entries (R3, R7) -/

/-- Free a copy entry that has left its place: the pending-copy count of its transit goes down by one, and at 0 the
transit is freed (R3, R4, R7). -/
def freeCopy (c : CopyId) (s : State) : State :=
  match s.copy? c with
  | none => s
  | some x =>
    let s1 := copyCountsChanged (s.setCopy c none)
    match s1.transit? x.transit with
    | none => s1
    | some r =>
      let s2 := s1.setTransit x.transit (some { r with pendingCopies := r.pendingCopies - 1 })
      if r.pendingCopies ≤ 1 && r.state == .inTransit then freeTransit x.transit s2 else s2

/-- Free several copy entries as one event (R7). -/
def freeAll (cs : List CopyId) (s : State) : State := cs.foldl (fun t c => freeCopy c t) s

/-- The rank of a copy in a queue; an entry that is free counts as the last rank. -/
def State.rankOf (s : State) (c : CopyId) : Rank :=
  match s.copy? c with
  | some x => x.rank
  | none => 3

/-- The age of a copy that is QUEUED or HELD with its overdue flag clear has reached ten times its limit (R19). -/
def State.overdueDue (s : State) (x : Copy) : Bool :=
  (x.state == .queued || x.state == .held) && !x.overdue && decide (10 * s.overdueLimit x.rank ≤ s.since x.queuedTime)

/-- Test a copy for overdue: the flag is set, OVERDUE is posted and the office overdue count goes up (R19). -/
def testOverdue (c : CopyId) (s : State) : State :=
  match s.copy? c with
  | none => s
  | some x =>
    if s.overdueDue x then
      post .overdue ((s.setCopy c (some { x with overdue := true })).modCounts
        (fun k => { k with overdue := sat16 k.overdue 1 }))
    else s

/-! ## Line counters and DEGRADED (R132, R133) -/

/-- The five error counters of R132. -/
inductive ErrorCounter
  | parity | framing | heading | gap | checkFail
  deriving DecidableEq, Repr

/-- One error counter goes up, saturating. -/
def Counters.raise (k : Counters) (which : ErrorCounter) (d : Nat) : Counters :=
  match which with
  | .parity => { k with parity := sat16 k.parity d }
  | .framing => { k with framing := sat16 k.framing d }
  | .heading => { k with heading := sat16 k.heading d }
  | .gap => { k with gap := sat16 k.gap d }
  | .checkFail => { k with checkFail := sat16 k.checkFail d }

/-- The error counters in the order of the thresholds (11.7). -/
def Counters.errors (k : Counters) : List Nat := [k.parity, k.framing, k.heading, k.gap, k.checkFail]

/-- At least one error counter is above its threshold (R133). -/
def aboveThreshold (k : Counters) (e : Vector Word 8) : Bool :=
  (k.errors.zip (thresholds e)).any (fun p => decide (p.2 < p.1))

/-- Recompute DEGRADED of a circuit; THRESHOLD is posted when it becomes set (R133). -/
def recomputeDegraded (n : Line) (s : State) : State :=
  let d := aboveThreshold (s.mon n).counters (s.entry n)
  let s1 := s.modMon n (fun m => { m with degraded := d })
  if d && !(s.mon n).degraded then post .threshold s1 else s1

/-- An error counter of a circuit goes up: the error latch is set and DEGRADED is recomputed (R132, R181).  The latch is set
by an event whose counter stands at 65,535 already (DESIGN CHOICE, log entry 33). -/
def raiseError (n : Line) (which : ErrorCounter) (d : Nat) (s : State) : State :=
  recomputeDegraded n (s.modLine n (fun l =>
    { l with
      errorLatch := true
      mon := { l.mon with counters := l.mon.counters.raise which d } }))

/-- The fill count of a circuit goes up by one (R132). -/
def raiseFill (n : Line) (s : State) : State :=
  s.modMon n (fun m => { m with counters := { m.counters with fill := sat16 m.counters.fill 1 } })

/-- The stalled-character count of a circuit goes up by one (R132). -/
def raiseStalledChars (n : Line) (s : State) : State :=
  s.modMon n (fun m => { m with counters := { m.counters with stalledChars := sat16 m.counters.stalledChars 1 } })

end Sys2Proof.Machine
end

