-- ==== Sys2Proof/Machine/Convert.lean ====
section
/-! DEFINITION. The Code Converter (Chapter 7): what a received combination gives, and what a character to be sent takes. -/
namespace Sys2Proof.Machine

/-! ## Parity (R141, R147) -/

/-- How many of the eight elements are at 1. -/
def elementsAtOne (b : Byte) : Nat := (List.range 8).countP (fun i => b.getLsbD i)

/-- The parity of eight elements passes: an even count on an EVEN line, an odd count on an ODD line (R141). -/
def parityPasses (odd : Bool) (b : Byte) : Bool := decide (elementsAtOne b % 2 = (if odd then 1 else 0))

/-- The seven elements of a character with the parity element that makes the count even or odd (R147). -/
def withParity (odd : Bool) (c : OfficeChar) : Byte :=
  let b : Byte := c.setWidth 8
  if parityPasses odd b then b else b ||| 128

/-! ## Receiving (R138 to R141) -/

/-- What a taken write brings. -/
inductive Arrival
  /-- BREAK: no character (R25). -/
  | broken
  /-- The mutilation mark, with the counter that goes up (R24). -/
  | mutilated (which : ErrorCounter)
  /-- A converted combination: a character or none, and the receive shift state after (R139 to R141). -/
  | converted (char : Option OfficeChar) (shift : Shift)
  deriving DecidableEq, Repr

/-- A 5-unit combination read in the case in force (R139), with the return to letters on a space (R140). -/
def State.convertFive (s : State) (shift : Shift) (unshift : Bool) (k : BitVec 5) : Option OfficeChar × Shift :=
  let half := match shift with | .letters => 0 | .figures => 32
  let e := (s.receiveCode (half + k.toNat)).toNat
  if e = 128 then (none, .letters)
  else if e = 129 then (none, .figures)
  else if 1 ≤ e ∧ e ≤ 127 then (some (BitVec.ofNat 7 e), if unshift && e == 32 then .letters else shift)
  else (none, shift)

/-- A receive-cell write examined in the order of R138.  A byte lane that is not enabled carries combination 0, or no
flag (R187). -/
def State.examine (s : State) (n : Line) (value : Word) (be : ByteEnables) : Arrival :=
  let w := enabledBits value be
  let e := s.entry n
  let shift := (s.rx n).shift
  if w.getLsbD 10 then .broken
  else if w.getLsbD 8 then .mutilated .framing
  else if sevenUnit e then
    if w.getLsbD 9 || !parityPasses (parityOdd e) (byteOf w 0) then .mutilated .parity
    else .converted (some (w.extractLsb' 0 7)) shift
  else
    let r := s.convertFive shift (unshiftOnSpace e) (w.extractLsb' 0 5)
    .converted r.1 r.2

/-! ## Sending (R143 to R148) -/

/-- Class of a Send Code Table entry (11.7). -/
inductive SendClass
  | letters | figures | either | unsendable
  deriving DecidableEq, Repr

/-- The class of an entry, bits 5 and 6. -/
def sendClass (e : Byte) : SendClass :=
  match (e.extractLsb' 5 2).toNat with
  | 0 => .letters
  | 1 => .figures
  | 2 => .either
  | _ => .unsendable

/-- The combination of an entry, bits 0 to 4. -/
def sendCombination (e : Byte) : Byte := (e.extractLsb' 0 5).setWidth 8

/-- What the next read gives for a character to be offered. -/
inductive SendStep
  /-- A shift combination; the character waits in the pending slot (R144). -/
  | shift (combination : Byte) (after : SendShift) (slot : Slot)
  /-- The character's own combination, or its substitute's; `char` is the character looked up (R145, R146). -/
  | give (char : OfficeChar) (combination : Byte)
  /-- Neither it nor its substitute can be sent: time fill, and the character is passed over (R146). -/
  | passOver
  deriving DecidableEq, Repr

/-- The reads of a character whose entry is sendable (R143). -/
def State.sendByClass (s : State) (shift : SendShift) (c : OfficeChar) (e : Byte) : SendStep :=
  match sendClass e with
  | .letters =>
    if shift = .letters then .give c (sendCombination e)
    else .shift s.lettersShift .letters ⟨c, sendCombination e⟩
  | .figures =>
    if shift = .figures then .give c (sendCombination e)
    else .shift s.figuresShift .figures ⟨c, sendCombination e⟩
  | .either => .give c (sendCombination e)
  | .unsendable => .passOver

/-- What a line's next read gives for a character (R143, R146, R147). -/
def State.sendStep (s : State) (n : Line) (c : OfficeChar) : SendStep :=
  let e := s.entry n
  if sevenUnit e then .give c (withParity (parityOdd e) c)
  else if sendClass (s.sendCode c) = .unsendable then
    s.sendByClass (s.tx n).shift s.sendSubstitute (s.sendCode s.sendSubstitute)
  else s.sendByClass (s.tx n).shift c (s.sendCode c)

/-- The time fill combination of a line (R148). -/
def State.fillCombination (s : State) (n : Line) : Byte :=
  let e := s.entry n
  if sevenUnit e then withParity (parityOdd e) 0 else 0

/-- The send shift state after a read that gives the combination of a character: a space unshifts (R145). -/
def State.shiftAfter (s : State) (n : Line) (c : OfficeChar) : SendShift :=
  let e := s.entry n
  if !sevenUnit e && unshiftOnSpace e && c == 32 then .letters else (s.tx n).shift

end Sys2Proof.Machine
end

