-- ==== Sys2Proof/Machine/Resolve.lean ====
section
/-! DEFINITION. The Address Resolver (Chapter 3): tokens, station lookup, collectives, intercept patterns, closing. -/
namespace Sys2Proof.Machine

/-! ## Tokens (R52 to R54) -/

/-- Split characters at runs of one or more spaces; `acc` holds the field under way, reversed (R32, R52). -/
def splitFields : List OfficeChar → List OfficeChar → List (List OfficeChar)
  | [], acc => if acc = [] then [] else [acc.reverse]
  | c :: cs, acc =>
    if c = 32 then (if acc = [] then splitFields cs [] else acc.reverse :: splitFields cs [])
    else splitFields cs (c :: acc)

/-- The fields of a line of text. -/
def fields (cs : List OfficeChar) : List (List OfficeChar) := splitFields cs []

/-- The form of a token (R52). -/
inductive TokenForm
  | code (w : StationCode)
  | marker (action : Bool)
  | literal (line : Line)
  | malformed
  deriving DecidableEq, Repr

/-- The line a literal's two digits name, 00 to 48. -/
def literalLine (v : Nat) : Option Line := if h : v < 49 then some ⟨v, h⟩ else none

/-- Classify a token by its form (R52). -/
def classify (cs : List OfficeChar) : TokenForm :=
  match cs with
  | [a, b, c, d] => if isLetter a && isLetter b && isLetter c && isLetter d then .code (codeOfChars cs) else .malformed
  | [a, b] => if a = 47 && b = 65 then .marker true else if a = 47 && b = 73 then .marker false else .malformed
  | [a, b, c] =>
    if a = 35 && isDigit b && isDigit c then
      match literalLine (digitsValue [b, c]) with
      | some n => .literal n
      | none => .malformed
    else .malformed
  | _ => .malformed

/-- A pattern character passes a code character: `*` passes a letter, else the two are equal (R63). -/
def patternByte (p c : Byte) : Bool := (p == 42 && isLetterByte c) || p == c

/-- A used pattern matches a code in each of the four positions (R63); pattern bytes are compared whole (DESIGN CHOICE, log
entry 36). -/
def patternMatches (p code : Word) : Bool :=
  p != 0 && ((codeBytes p).zip (codeBytes code)).all (fun x => patternByte x.1 x.2)

/-- A code is compared with all eight Intercept Patterns (R63). -/
def State.intercepts (s : State) (code : StationCode) : Bool :=
  (List.range 8).any (fun j => patternMatches (s.pattern j) code)

/-- Add a reason when a condition holds. -/
def Reasons.addIf (r : Reasons) (b : Bool) (x : Reason) : Reasons := if b then r.add x else r

/-- The token list being built, with the marker in force and the reasons met (R53, R54). -/
structure TokenWalk where
  tokens : List Addressee
  action : Bool
  reasons : Reasons
  deriving DecidableEq, Repr

/-- Put an entry in the token list, or drop it for excess (R54). -/
def TokenWalk.put (w : TokenWalk) (t : Target) : TokenWalk :=
  if w.tokens.length < 24 then { w with tokens := w.tokens ++ [⟨t, w.action⟩] }
  else { w with reasons := w.reasons.add .addressExcess }

/-- Read one token (R53, R54, R63). -/
def State.readToken (s : State) (source : Line) (w : TokenWalk) (cs : List OfficeChar) : TokenWalk :=
  match classify cs with
  | .marker a => { w with action := a }
  | .malformed => { w with reasons := w.reasons.add .addressFault }
  | .code c =>
    let w1 := w.put (.station c)
    { w1 with reasons := w1.reasons.addIf (s.intercepts c) .intercept }
  | .literal n => if source = 0 then w.put (.literal n) else { w with reasons := w.reasons.add .addressFault }

/-! ## The walk of the token list (R55 to R62) -/

/-- The resolved addressee list being built, with the reasons met. -/
structure Resolution where
  resolved : List Addressee
  reasons : Reasons
  deriving DecidableEq, Repr

/-- The addressee is in the list already (R57). -/
def Resolution.holds (r : Resolution) (t : Target) : Bool := r.resolved.any (fun a => a.target == t)

/-- Add an addressee: a repeat folds into its entry (R57), a 49th is dropped with ADDRESS_EXCESS (R62), another joins
the tail; a station served locally adds ADDRESSED with its entry (R56). -/
def Resolution.addAddressee (r : Resolution) (t : Target) (action served : Bool) : Resolution :=
  if r.holds t then
    { r with resolved := r.resolved.map (fun a => if a.target == t then { a with action := a.action || action } else a) }
  else if r.resolved.length < 48 then
    { resolved := r.resolved ++ [⟨t, action⟩], reasons := r.reasons.addIf served .addressed }
  else { r with reasons := r.reasons.add .addressExcess }

/-- Resolve one member code of a collective; a member collective is not expanded (R59).  A slot is empty when its first byte
is 0, all eight bits of it (DESIGN CHOICE, log entry 36). -/
def State.resolveMember (s : State) (action : Bool) (r : Resolution) (slot : Word) : Resolution :=
  if byteOf slot 0 = 0 then r
  else if !isFourLetters slot then { r with reasons := r.reasons.add .addressFault }
  else
    let r1 := { r with reasons := r.reasons.addIf (s.intercepts slot) .intercept }
    match s.lookup slot with
    | none => { r1 with reasons := r1.reasons.add .unknownAddressee }
    | some e => match e.kind with
      | .station => r1.addAddressee (.station slot) action (e.primary == 0)
      | .collective => { r1 with reasons := r1.reasons.add .collectiveNested }
      | .own => { r1 with reasons := r1.reasons.add .addressed }
      | .barred => { r1 with reasons := r1.reasons.add .barred }

/-- Expand a collective through its group, slots 0 to 15 in order (R58). -/
def State.expand (s : State) (g : Nat) (action : Bool) (r : Resolution) : Resolution :=
  (List.range 16).foldl (fun r i => s.resolveMember action r (s.groupSlot g i)) r

/-- Resolve one entry of the token list (R56, R58, R60, R61). -/
def State.resolveToken (s : State) (r : Resolution) (t : Addressee) : Resolution :=
  match t.target with
  | .literal n =>
    if n = 0 then { r with reasons := r.reasons.add .addressed } else r.addAddressee (.literal n) t.action false
  | .station code => match s.lookup code with
    | none => { r with reasons := r.reasons.add .unknownAddressee }
    | some e => match e.kind with
      | .station => r.addAddressee (.station code) t.action (e.primary == 0)
      | .collective => s.expand e.group t.action r
      | .own => { r with reasons := r.reasons.add .addressed }
      | .barred => { r with reasons := r.reasons.add .barred }

/-! ## Resolution (R51, R64) -/

/-- What the resolver gives (3.1). -/
structure Resolved where
  tokens : List Addressee
  resolved : List Addressee
  reasons : Reasons
  localOnly : Bool
  deriving DecidableEq, Repr

/-- Resolve an address buffer in three passes; `reasons` are those reception has set (R51, R64). -/
def State.resolve (s : State) (source : Line) (address : List OfficeChar) (reasons : Reasons) : Resolved :=
  let w := (fields address).foldl (s.readToken source) ⟨[], true, reasons⟩
  let r := w.tokens.foldl s.resolveToken ⟨[], w.reasons⟩
  let empty := r.resolved.isEmpty
  { tokens := w.tokens
    resolved := r.resolved
    reasons := r.reasons.addIf (empty && !r.reasons.has .addressed) .addressFault
    localOnly := empty }

end Sys2Proof.Machine
end

