-- ==== Sys2Proof/Machine/Route.lean ====
section
/-! DEFINITION. The Route Selector's decisions (4.1 to 4.6): candidates and tiers, send length, backlog, the line chosen for
an addressee, the second route, and the copy plan. -/
namespace Sys2Proof.Machine

/-! ## Send length (R72) -/

/-- The station codes of a subset with the given kind, in subset order; literals give none (R65). -/
def codesOf (subset : List Addressee) (action : Bool) : List StationCode :=
  subset.filterMap (fun a => match a.target with
    | .station c => if a.action = action then some c else none
    | .literal _ => none)

/-- Length A of an outgoing address line with `a` action and `i` information codes (R72). -/
def addressLineLength (a i : Nat) : Nat :=
  4 * a + (a - 1) + (if i = 0 then 0 else 3 + 4 * i + (i - 1) + (if a = 0 then 0 else 1))

/-- Body length T: the stored length less the body offset (R72). -/
def Transit.bodyLength (t : Transit) : Nat := t.stored - t.bodyOffset.getD 0

/-- The send length of a copy of a transit on a line; 0 on line 0 (R72). -/
def State.sendLengthOn (s : State) (n : Line) (t : Transit) (subset : List Addressee) : Nat :=
  if n = 0 then 0
  else s.openingGroup.length + 2 + 19 + 2 +
    addressLineLength (codesOf subset true).length (codesOf subset false).length + 2 + t.bodyLength + 2 +
    s.closingGroup.length + trailerCount (s.entry n)

/-! ## Ranks (R66) -/

/-- The message rank of a transit; rank 2 when its heading line 1 was faulty (1.1). -/
def Transit.messageRank (t : Transit) : Rank := t.rank.getD 2

/-- The effective rank of an addressee (R66). -/
def effectiveRank (r : Rank) (action : Bool) : Rank := if action then r else max r 2

/-! ## The cut test (R104) and the characters ahead (R73, R74) -/

/-- The copy in the sending position of a line, with its transit. -/
def State.sendingCopy (s : State) (n : Line) : Option (Copy × Transit) :=
  match (s.tx n).sending with
  | none => none
  | some c => match s.copy? c with
    | none => none
    | some x => match s.transit? x.transit with
      | none => none
      | some t => some (x, t)

/-- Body characters of the sending copy not yet offered: the whole body in HEADING (R104). -/
def State.bodyLeft (s : State) (n : Line) (t : Transit) : Nat :=
  match (s.tx n).state with
  | .text => t.bodyLength - (s.tx n).next
  | _ => t.bodyLength

/-- The test a line's transmitter makes when a rank 0 copy is placed in its queue (R104). -/
def State.cutApplies (s : State) (n : Line) : Bool :=
  ((s.tx n).state == .heading || (s.tx n).state == .text) &&
    match s.sendingCopy n with
    | none => false
    | some (x, t) =>
      decide (2 ≤ x.rank) && breakInAllowed (s.entry n) && decide (s.nearlyComplete < s.bodyLeft n t) && x.resend == 0

/-- The contribution of a circuit's sending position to the characters ahead of a copy of rank r of transit t (R74). -/
def State.contribution (s : State) (n : Line) (t : TransitId) (r : Rank) : Nat :=
  let x := s.tx n
  let copy := match x.sending with | none => none | some c => s.copy? c
  let ofSame := match copy with | some c => c.transit == t | none => false
  let left := match copy with | some c => c.sendLength - x.offered | none => 0
  if ofSame then 0
  else match x.state with
    | .off => 0
    | .idle => 0
    | .service => 0
    | .heading => if r == 0 && s.cutApplies n then 0 else left
    | .text => if r == 0 && s.cutApplies n then 0 else left
    | .closing => left
    | .cutting => x.cutRemaining
    | .stalled => match x.stalledFrom with
      | some .cutting => x.cutRemaining
      | some .heading => left
      | some .text => left
      | some .closing => left
      | _ => 0

/-- The characters ahead Q on a circuit for an addressee of rank r of transit t (R73). -/
def State.charactersAhead (s : State) (n : Line) (t : TransitId) (r : Rank) : Nat :=
  (s.queue n).foldl (fun q c => match s.copy? c with
    | none => q
    | some x => if x.transit == t || decide (r < x.rank) then q else q + x.sendLength) (s.contribution n t r)

/-- The backlog in tenths of a second for Q characters of period p: rounded up, at most 65,535 (R75). -/
def backlogOf (q p : Nat) : Nat := min 65535 ((q * p + 999) / 1000)

/-- The backlog of a circuit (R75). -/
def State.backlog (s : State) (n : Line) (t : TransitId) (r : Rank) : Nat :=
  backlogOf (s.charactersAhead n t r) (characterPeriod (s.entry n))

/-! ## Candidates and tiers (R70, R71) -/

/-- The tier of a line. -/
inductive Tier
  | healthy | lastResort | notUsable
  deriving DecidableEq, Repr

/-- The tier of a circuit; a line that the action under way excludes is not usable (R71). -/
def State.tier (s : State) (excluded : List Line) (n : Line) : Tier :=
  if excluded.contains n then .notUsable
  else match (s.mon n).condition with
    | .active => if (s.mon n).degraded then .lastResort else .healthy
    | _ => .notUsable

/-- The candidates of a station entry, less the source line (R70). -/
structure Candidates where
  primary : Option Line
  alt1 : Option Line
  alt2 : Option Line
  deriving DecidableEq, Repr

def candidates (e : StationEntry) (source : Line) : Candidates where
  primary := if e.primary = source then none else some e.primary
  alt1 := if e.alt1 = 0 ∨ e.alt1 = e.primary ∨ e.alt1 = source then none else some e.alt1
  alt2 := if e.alt2 = 0 ∨ e.alt2 = e.primary ∨ e.alt2 = e.alt1 ∨ e.alt2 = source then none else some e.alt2

/-- The candidates with the route each gives, in the order primary, ALT1, ALT2. -/
def Candidates.inOrder (c : Candidates) : List (Line × Route) :=
  (c.primary.map (fun n => (n, Route.primary))).toList ++ (c.alt1.map (fun n => (n, Route.alt1))).toList ++
    (c.alt2.map (fun n => (n, Route.alt2))).toList

/-! ## The decision (R76) and the second route (R78) -/

/-- The step of R76 that chose a line. -/
inductive Step76
  | primary | alternate | lastResort
  deriving DecidableEq, Repr

/-- A line chosen for an addressee. -/
structure Choice where
  line : Line
  route : Route
  step : Step76
  deriving DecidableEq, Repr

/-- The line of least backlog among some; the first of equals. -/
def leastBacklog (backlog : Line → Nat) : List (Line × Route) → Option (Line × Route)
  | [] => none
  | x :: xs => match leastBacklog backlog xs with
    | none => some x
    | some y => if backlog x.1 ≤ backlog y.1 then some x else some y

/-- Steps 1 and 2 of R76, over healthy candidates. -/
def chooseHealthy (tier : Line → Tier) (backlog : Line → Nat) (c : Candidates) (spill : Nat) : Option Choice :=
  let alts := c.inOrder.filter (fun x => x.2 != Route.primary && tier x.1 == .healthy)
  let best := leastBacklog backlog alts
  let primaryTaken := match c.primary with
    | none => none
    | some p =>
      if tier p == .healthy then
        match best with
        | none => some p
        | some a => if backlog p ≤ backlog a.1 + 10 * spill then some p else none
      else none
  match primaryTaken, best with
  | some p, _ => some ⟨p, .primary, .primary⟩
  | none, some a => some ⟨a.1, a.2, .alternate⟩
  | none, none => none

/-- Step 3 of R76: the first last-resort candidate. -/
def chooseLastResort (tier : Line → Tier) (c : Candidates) : Option Choice :=
  (c.inOrder.find? (fun x => tier x.1 == .lastResort)).map (fun x => ⟨x.1, .lastResort, .lastResort⟩)

/-- The decision of R76; none holds the addressee. -/
def chooseLine (tier : Line → Tier) (backlog : Line → Nat) (c : Candidates) (spill : Nat) : Option Choice :=
  match chooseHealthy tier backlog c spill with
  | some x => some x
  | none => chooseLastResort tier c

/-- The second line of a dual route, among the healthy candidates other than the first choice (R78). -/
def secondLine (tier : Line → Tier) (backlog : Line → Nat) (c : Candidates) (first : Choice) : Option (Line × Route) :=
  let others := c.inOrder.filter (fun x => x.1 != first.line && tier x.1 == .healthy)
  match first.step with
  | .primary => leastBacklog backlog others
  | .alternate => others.head?
  | .lastResort => none

/-! ## Where an addressee goes (R76, R77, R79) -/

/-- Where a copy goes: a circuit, the Local Position, the Hold List, or the Hold List keeping a line (R79, R80). -/
inductive Dest
  | circuit (n : Line)
  | localPosition
  | hold
  | holdPinned (n : Line)
  deriving DecidableEq, Repr

/-- One place of an addressee in a plan. -/
structure Placement where
  who : Addressee
  rank : Rank
  dest : Dest
  route : Route
  second : Bool
  deriving DecidableEq, Repr

/-- The addressee's entry when it gives candidates on circuits. -/
def State.routableEntry (s : State) (a : Addressee) : Option StationEntry :=
  match a.target with
  | .literal _ => none
  | .station c => match s.lookup c with
    | none => none
    | some e => if e.kind = .station then some e else none

/-- The first choice of an addressee and, for a plan, its second route (R76 to R79).  `twins` are lines that a dual copy's
move first takes as not usable (R85); `plan` allows the second route. -/
def State.placeAddressee (s : State) (t : TransitId) (tr : Transit) (excluded twins : List Line) (plan : Bool)
    (a : Addressee) : List Placement :=
  let r := effectiveRank tr.messageRank a.action
  match a.target with
  | .literal n =>
    if (s.mon n).condition = .stopped then [⟨a, r, .holdPinned n, .literal, false⟩] else [⟨a, r, .circuit n, .literal, false⟩]
  | .station _ => match s.routableEntry a with
    | none => [⟨a, r, .hold, .primary, false⟩]
    | some e =>
      if e.primary = 0 then [⟨a, r, .localPosition, .localPosition, false⟩]
      else
        let c := candidates e tr.source
        let backlog := fun n => s.backlog n t r
        let tier := s.tier excluded
        let apart := if twins = [] then none else chooseHealthy (s.tier (excluded ++ twins)) backlog c e.spill
        let first := match apart with
          | some x => some x
          | none => chooseLine tier backlog c e.spill
        match first with
        | none => [⟨a, r, .hold, .primary, false⟩]
        | some x =>
          let one : Placement := ⟨a, r, .circuit x.line, x.route, false⟩
          if plan && e.dual && r == 0 then
            match secondLine tier backlog c x with
            | none => [one]
            | some y => [one, ⟨a, r, .circuit y.1, y.2, true⟩]
          else [one]

/-! ## Gathering into copies (R80, R81) -/

/-- One item of a copy plan, or one group of a copy being moved. -/
structure PlanItem where
  dest : Dest
  subset : List Addressee
  seconds : List Addressee
  rank : Rank
  dual : Bool
  pinned : Bool
  route : Route
  deriving DecidableEq, Repr

/-- A literal addressee. -/
def Addressee.isLiteral (a : Addressee) : Bool :=
  match a.target with
  | .literal _ => true
  | .station _ => false

/-- The copy that gathers the placements with one destination (R80). -/
def gatherAt (ps : List Placement) (d : Dest) : PlanItem :=
  let mine := ps.filter (fun p => p.dest == d)
  { dest := d
    subset := mine.map Placement.who
    seconds := (mine.filter Placement.second).map Placement.who
    rank := mine.foldl (fun r p => min r p.rank) 3
    dual := mine.all Placement.second
    pinned := mine.any (fun p => p.who.isLiteral)
    route := match mine with | p :: _ => p.route | [] => .primary }

/-- The destinations of some placements, each once, in order of first appearance. -/
def destsOf (ps : List Placement) : List Dest := (ps.map Placement.dest).eraseDups

/-- The groups of placements in order of first appearance. -/
def gather (ps : List Placement) : List PlanItem := (destsOf ps).map (gatherAt ps)

def Dest.isCircuit : Dest → Bool
  | .circuit _ => true
  | _ => false

/-- The copy plan of a transit: circuits, then the held items, then the local item (R81). -/
def State.copyPlan (s : State) (t : TransitId) (tr : Transit) : List PlanItem :=
  let ps := tr.resolved.flatMap (s.placeAddressee t tr [] [] true)
  let dests := destsOf ps
  let onCircuits := (dests.filter Dest.isCircuit).map (gatherAt ps)
  let held := if dests.contains .hold then [gatherAt ps .hold] else []
  let pinned := ((List.finRange 49).filter (fun n => dests.contains (.holdPinned n))).map
    (fun n => gatherAt ps (.holdPinned n))
  let atDesk := if tr.reasons != 0 || dests.contains .localPosition || tr.resolved.isEmpty then
    [{ gatherAt ps .localPosition with rank := tr.messageRank, dual := false, route := .localPosition }]
  else []
  onCircuits ++ held ++ pinned ++ atDesk

/-- Second routes of a plan: each adds one to the office dual count (R78). -/
def State.secondRoutes (s : State) (t : TransitId) (tr : Transit) : Nat :=
  (tr.resolved.flatMap (s.placeAddressee t tr [] [] true)).countP Placement.second

end Sys2Proof.Machine
end

