-- ==== Sys2Proof/Machine/Queues.lean ====
section
/-! DEFINITION. Placing copies in line queues and on the Hold List, merging (1.3, 1.4), the start of a cut (R104), and the
Local Position's deliveries (5.8). -/
namespace Sys2Proof.Machine

/-! ## Order within a queue (R8) -/

/-- The queue with a copy of rank r put at the tail of its rank class. -/
def State.insertTail (s : State) (q : List CopyId) (c : CopyId) (r : Rank) : List CopyId :=
  q.takeWhile (fun x => decide (s.rankOf x ≤ r)) ++ c :: q.dropWhile (fun x => decide (s.rankOf x ≤ r))

/-- The queue with a copy of rank r put at the head of its rank class. -/
def State.insertHead (s : State) (q : List CopyId) (c : CopyId) (r : Rank) : List CopyId :=
  q.takeWhile (fun x => decide (s.rankOf x < r)) ++ c :: q.dropWhile (fun x => decide (s.rankOf x < r))

/-- The queue with a copy put where it belongs: at the head of its class when it returns after a cut or a stall, else at
the tail (R8). -/
def State.insertCopy (s : State) (atHead : Bool) (q : List CopyId) (c : CopyId) (r : Rank) : List CopyId :=
  if atHead then s.insertHead q c r else s.insertTail q c r

/-- The queue of a line has changed: its length is rewritten, even when it is the same again at the step's end (R8, R11). -/
def queueChanged (n : Line) (s : State) : State := decideState (.line n 1) s

/-! ## The start of a cut (R104) -/

/-- The buffers of a transmitter emptied; reads still to be carried out are left to finish and then dropped (R104). -/
def TextBuffer.abandon (b : TextBuffer) : TextBuffer :=
  { b with state := .empty, block := none, stale := if b.state = .reading then b.stale + 1 else b.stale }

def Transmitter.emptyBuffers (t : Transmitter) : Transmitter :=
  { t with bufA := t.bufA.abandon, bufB := t.bufB.abandon }

/-- The length of the cut sequence with the latched groups: 2 + g + 2 + c + n (R105). -/
def Latched.cutLength (l : Latched) : Nat := 2 + l.cancel.length + 2 + l.closing.length + l.trailer

/-- A transmitter goes to CUTTING with the whole cut sequence to offer (R104). -/
def startCut (n : Line) (returns : Bool) (s : State) : State :=
  s.modTx n (fun t => { t.emptyBuffers with
    state := .cutting
    cutReturn := returns
    cutRemaining := t.latched.cutLength
    slot := none
    next := 0 })

/-- The test made when a rank 0 copy is placed in a circuit's queue (R104). -/
def cutTest (n : Line) (s : State) : State := if s.cutApplies n then startCut n true s else s

/-! ## The Local Position (R112, R113) -/

/-- The ring has a free slot: the write index less the read index is below the ring size (R112). -/
def State.ringHasSlot (s : State) : Bool := decide ((s.writeIndex - s.readIndex).toNat < s.ringSize)

/-- The Local Position takes the head of queue 0: its record and the write index are decided, the copy is DELIVERING,
and DELIVERY is posted (R112). -/
def takeDelivery (s : State) : State :=
  match s.queue 0 with
  | [] => s
  | c :: q =>
    let s1 := s.setQueue 0 q
    match s.copy? c with
    | none => s1
    | some x => match s.transit? x.transit with
      | none => s1
      | some t =>
        let slot := s.writeIndex.toNat % s.ringSize
        let s2 := (s1.pushEntry (.recordWrite slot (s.deliveryRecord c x t))).pushEntry (.indexWrite (s.writeIndex + 1))
        post .delivery { s2.modCopy c (fun y => { y with state := .delivering }) with
          awaiting := s.awaiting ++ [(s.writeIndex, c)]
          writeIndex := s.writeIndex + 1 }

/-- Room for the record and the write index together, with no block waiting (R112, R171). -/
def State.deliveryRoom (s : State) : Bool :=
  s.waiting.isEmpty && decide (s.fifo.length + 2 ≤ Config.fifoCapacity)

/-- Deliver from queue 0 until it is empty, the ring is full, or the FIFO lacks room; then the delivery waits (R112). -/
def deliverLoop : Nat → State → State
  | 0, s => s
  | k + 1, s =>
    if (s.queue 0).isEmpty || !s.ringHasSlot then s
    else if s.deliveryRoom then deliverLoop k (queueChanged 0 (takeDelivery s))
    else if s.waiting.contains .delivery then s
    else s.wait .delivery

/-- The Local Position looks at queue 0 (R112). -/
def deliver (s : State) : State := deliverLoop ((s.queue 0).length + 1) s

/-! ## Placing a copy in a queue (R8, R10) -/

/-- A QUEUED copy of the same transit in the queue of a line (R8). -/
def State.queuedTwin (s : State) (n : Line) (c : CopyId) : Option CopyId :=
  match s.copy? c with
  | none => none
  | some x => (s.queue n).find? (fun d => d != c && match s.copy? d with | some y => y.transit == x.transit | none => false)

/-- The copy that stands in the queue once a copy has been placed: itself, or the copy it merges into (R10). -/
def State.survivor (s : State) (n : Line) (c : CopyId) : CopyId := (s.queuedTwin n c).getD c

/-- The earlier of two queued times, by age (R10, R184). -/
def State.earlier (s : State) (a b : Clock) : Clock := if s.since b ≤ s.since a then a else b

/-- The union of two subsets in the order of the resolved list, each addressee once (R10, R65). -/
def uniteSubsets (t : Transit) (a b : List Addressee) : List Addressee :=
  t.resolved.filter (fun x => a.contains x || b.contains x)

/-- The addressees of a united subset that are there as a second route: on every copy that carried them (R10, R80; log
entry 24). -/
def uniteSeconds (subset : List Addressee) (d c : Copy) : List Addressee :=
  subset.filter (fun a =>
    (d.seconds.contains a || !d.subset.contains a) && (c.seconds.contains a || !c.subset.contains a))

/-- The values of a merged copy: `d` stands in the queue of line n and `c` arrives (R10). -/
def State.mergedCopy (s : State) (n : Line) (d c : Copy) : Copy :=
  match s.transit? d.transit with
  | none => d
  | some t =>
    let subset := uniteSubsets t d.subset c.subset
    { d with
      subset := subset
      seconds := uniteSeconds subset d c
      rank := min d.rank c.rank
      dual := false
      pinned := d.pinned || c.pinned
      sendLength := s.sendLengthOn n t subset
      queuedTime := s.earlier d.queuedTime c.queuedTime
      overdue := d.overdue || c.overdue
      resend := max d.resend c.resend }

/-- What follows a placement: a rank 0 copy on a circuit makes the cut test (R104); queue 0 is looked at (R112). -/
def afterPlacement (n : Line) (r : Rank) (s : State) : State :=
  if n = 0 then deliver s else if r = 0 then cutTest n s else s

/-- What placing copies has come to: whether one joined the Hold List, and the entries that merges have taken in.  Those stand
in no place any more; they are in use until the event that placed them frees them together (R7, R87, R89). -/
structure Placed where
  state : State
  held : Bool := false
  merged : List CopyId := []

/-- What placing copies and then more of them, from the state the first have left, has come to. -/
def Placed.followedBy (p q : Placed) : Placed where
  state := q.state
  held := p.held || q.held
  merged := p.merged ++ q.merged

/-- The event that placed copies frees the entries that its merges have taken in; the flag tells that a copy joined the Hold
List (R7, R87, R89). -/
def Placed.finish (p : Placed) : State × Bool := (freeAll p.merged p.state, p.held)

/-- Place a copy in the queue of a line; a queued copy of the same transit takes it in (R8, R10). -/
def placeInQueue (n : Line) (c : CopyId) (atHead : Bool) (s : State) : Placed :=
  match s.copy? c with
  | none => { state := s }
  | some x => match s.queuedTwin n c with
    | none =>
      let y : Copy := { x with state := .queued, line := some n, outNumber := none }
      let s1 := s.setCopy c (some y)
      { state := queueChanged n (afterPlacement n y.rank (s1.setQueue n (s1.insertCopy atHead (s1.queue n) c y.rank))) }
    | some d => match s.copy? d with
      | none => { state := s }
      | some y =>
        let z := s.mergedCopy n y x
        let s1 := s.setCopy d (some z)
        let s2 := s1.setQueue n (s1.insertCopy atHead ((s1.queue n).filter (fun e => e != d)) d z.rank)
        { state := queueChanged n (afterPlacement n z.rank (testOverdue d s2)), merged := [c] }

/-- Count a placement on a circuit by its route (R82). -/
def countRoute (r : Route) (s : State) : State :=
  match r with
  | .alt1 => s.modCounts (fun k => { k with alternate := sat16 k.alternate 1 })
  | .alt2 => s.modCounts (fun k => { k with alternate := sat16 k.alternate 1 })
  | .lastResort => s.modCounts (fun k => { k with lastResort := sat16 k.lastResort 1 })
  | _ => s

/-- Place a copy on a circuit at the tail of its class, its send length computed for it (R72, R82, R83). -/
def placeOnCircuit (n : Line) (c : CopyId) (s : State) : Placed :=
  match s.copy? c with
  | none => { state := s }
  | some x => match s.transit? x.transit with
    | none => { state := s }
    | some t =>
      placeInQueue n c false (countRoute x.route (s.setCopy c (some { x with sendLength := s.sendLengthOn n t x.subset })))

/-- Place a copy in queue 0, with send length 0 (R72, R83). -/
def placeLocally (c : CopyId) (s : State) : Placed :=
  placeInQueue 0 c false (s.modCopy c (fun x => { x with sendLength := 0 }))

/-- The Hold List has changed: its length is rewritten (R12). -/
def holdListChanged (s : State) : State := decideState (.office 5) s

/-- Put a copy at the tail of the Hold List and post ROUTE_HOLD; it keeps the given line, and without one its route taken
is PRIMARY until it is placed (R12, R80, R82). -/
def holdCopy (c : CopyId) (keeps : Option Line) (s : State) : State :=
  let s1 := s.modCopy c (fun x =>
    { x with state := .held, line := keeps, route := if keeps = none then .primary else x.route, outNumber := none })
  holdListChanged (post .routeHold { s1 with holdList := s1.holdList ++ [c] })

end Sys2Proof.Machine
end

