-- ==== Sys2Proof/Machine/Moves.lean ====
section
/-! DEFINITION. Allocating a copy plan (R5), moving copies (4.7, 4.8), the line loss action (4.9), Hold List
re-examination (4.10) and the Copy Wait List (1.5). -/
namespace Sys2Proof.Machine

/-! ## Groups of a copy being moved (R83, R85) -/

/-- The circuits whose queue or sending position holds another copy of the same transit (R85). -/
def State.twinLines (s : State) (c : CopyId) (t : TransitId) : List Line :=
  circuits.filter (fun n =>
    ((s.queue n) ++ (s.tx n).sending.toList).any (fun d =>
      d != c && match s.copy? d with | some y => y.transit == t | none => false))

/-- The groups into which a copy's addressees fall when each is decided again; a dual copy first looks for a line that
keeps the two routes apart (R83, R85). -/
def State.moveGroups (s : State) (c : CopyId) (x : Copy) (excluded : List Line) : List PlanItem :=
  match s.transit? x.transit with
  | none => []
  | some tr =>
    let twins := if x.dual then s.twinLines c x.transit else []
    gather ((x.subset.flatMap (s.placeAddressee x.transit tr excluded twins false)).map (fun p =>
      { p with second := x.seconds.contains p.who }))

/-- A copy with the values of a group, the dual flag among them; its times, overdue and pinned flags and counts go with it
(R80, R83, R84), and its send length until a placement on a line computes it anew (R72; for a new entry of a division log
entry 31). -/
def Copy.withGroup (x : Copy) (g : PlanItem) : Copy :=
  { x with subset := g.subset, seconds := g.seconds, rank := g.rank, dual := g.dual, route := g.route }

/-- Put a copy on the Hold List, with the line it keeps. -/
def placeOnHold (c : CopyId) (keeps : Option Line) (s : State) : Placed := { state := holdCopy c keeps s, held := true }

/-- Place a copy where its group goes. -/
def placeGroup (c : CopyId) (d : Dest) (s : State) : Placed :=
  match d with
  | .circuit n => placeOnCircuit n c s
  | .localPosition => placeLocally c s
  | .hold => placeOnHold c none s
  | .holdPinned n => placeOnHold c (some n) s

/-- Place several copies in order. -/
def placeGroups : List (CopyId × Dest) → State → Placed
  | [], s => { state := s }
  | (c, d) :: rest, s =>
    let p := placeGroup c d s
    p.followedBy (placeGroups rest p.state)

/-- Take a new entry for each group, lowest-numbered first, with the original's times, flags and counts; the transit's
pending-copy count goes up with each (R84).  A new entry begins with the original's send length too, which its placement on a
line replaces (R72, R83); that the new entry of a group for the Hold List keeps it there is the model's choice, since R72 and
R84 give such an entry none (DESIGN CHOICE, log entry 31). -/
def takeEntries (x : Copy) : List PlanItem → State → State × List (CopyId × Dest)
  | [], s => (s, [])
  | g :: gs, s => match lowestFree s.copies with
    | none => (s, [])
    | some c =>
      let s1 := (s.setCopy c (some (x.withGroup g))).modTransit x.transit
        (fun t => { t with pendingCopies := t.pendingCopies + 1 })
      let r := takeEntries x gs (copyCountsChanged s1)
      (r.1, (c, g.dest) :: r.2)

/-! ## The line loss action (R83 to R88) -/

/-- Move an unpinned copy that has been taken out of the queue of an excluded line (R83, R84). -/
def moveOut (excluded : List Line) (c : CopyId) (x : Copy) (s : State) : Placed :=
  match s.moveGroups c x excluded with
  | [] => placeOnHold c none s
  | [g] => placeGroup c g.dest (s.setCopy c (some (x.withGroup g)))
  | g :: gs =>
    if gs.length ≤ s.freeCopies then
      let r := takeEntries x gs (s.setCopy c (some (x.withGroup g)))
      placeGroups ((c, g.dest) :: r.2) r.1
    else placeOnHold c none (post .records s)

/-- A copy leaves the queue of a line. -/
def unqueue (n : Line) (c : CopyId) (s : State) : State :=
  queueChanged n (s.setQueue n ((s.queue n).filter (fun d => d != c)))

/-- Treat one copy of the walk of circuit L (R86, R87). -/
def lossCopy (n : Line) (c : CopyId) (s : State) : Placed :=
  match s.copy? c with
  | none => { state := s }
  | some x =>
    if x.pinned then
      if (s.mon n).condition = .stopped then placeOnHold c (some n) (unqueue n c s) else { state := s }
    else moveOut [n] c x (unqueue n c s)

/-- Treat some copies of circuit L's queue, each against the queues as those before it have left them (R87). -/
def lossCopies (n : Line) : List CopyId → State → Placed
  | [], s => { state := s }
  | c :: cs, s =>
    let p := lossCopy n c s
    p.followedBy (lossCopies n cs p.state)

/-- The walk over some copies of circuit L's queue, with the entries that merged in it freed at its end as one event; the
flag tells that ROUTE_HOLD was posted (R87). -/
def lossWalk (n : Line) (cs : List CopyId) (s : State) : State × Bool := (lossCopies n cs s).finish

/-! ## Hold List re-examination (R84, R86, R89) -/

/-- A copy leaves the Hold List. -/
def unhold (c : CopyId) (s : State) : State :=
  holdListChanged { s with holdList := s.holdList.filter (fun d => d != c) }

/-- Treat one copy of the Hold List; the number counts copies placed on lines (R89, R92). -/
def reexamineCopy (excluded : List Line) (c : CopyId) (s : State) : Placed × Nat :=
  match s.copy? c with
  | none => ({ state := s }, 0)
  | some x =>
    if x.pinned then
      match x.line with
      | none => ({ state := s }, 0)
      | some n => if (s.mon n).condition = .stopped then ({ state := s }, 0) else (placeOnCircuit n c (unhold c s), 1)
    else
      let groups := s.moveGroups c x excluded
      let placed := groups.filter (fun g => g.dest != .hold)
      match placed, groups.find? (fun g => g.dest == .hold) with
      | [], _ => ({ state := s }, 0)
      | g :: gs, none =>
        if gs.length ≤ s.freeCopies then
          let r := takeEntries x gs ((unhold c s).setCopy c (some (x.withGroup g)))
          (placeGroups ((c, g.dest) :: r.2) r.1, placed.length)
        else ({ state := post .records s }, 0)
      | _, some h =>
        if placed.length ≤ s.freeCopies then
          let r := takeEntries x placed (s.setCopy c (some (x.withGroup h)))
          (placeGroups r.2 r.1, placed.length)
        else ({ state := post .records s }, 0)

/-- Treat some copies of the Hold List, each against the queues as those before it have left them. -/
def reexamineCopies (excluded : List Line) : List CopyId → State → Placed × Nat
  | [], s => ({ state := s }, 0)
  | c :: cs, s =>
    let r := reexamineCopy excluded c s
    let r' := reexamineCopies excluded cs r.1.state
    (r.1.followedBy r'.1, r.2 + r'.2)

/-- The walk over some copies of the Hold List, with the entries that merged in it freed at its end as one event (R89). -/
def reexamineWalk (excluded : List Line) (cs : List CopyId) (s : State) : State × Nat :=
  let r := reexamineCopies excluded cs s
  (r.1.finish.1, r.2)

/-- Hold List re-examination: one walk over the copies on the list when it begins (R89). -/
def reexamine (excluded : List Line) (s : State) : State × Nat := reexamineWalk excluded s.holdList s

/-- A posting of ROUTE_HOLD made by an action runs the re-examination once when the class is inform-only (R82, R90). -/
def reexamineIfInformOnly (excluded : List Line) (held : Bool) (s : State) : State :=
  if held && s.isInformOnly .routeHold then (reexamine excluded s).1 else s

/-! ## Allocation of a plan (R5) -/

/-- The copy of a plan item as it is allocated (R5).  Its send length is computed when it is placed on a circuit (R72); that
it stands at 0 until then, on the Hold List too, is the model's choice (log entry 31). -/
def PlanItem.newCopy (g : PlanItem) (t : TransitId) (now : Clock) : Copy where
  state := .queued
  transit := t
  line := none
  rank := g.rank
  subset := g.subset
  seconds := g.seconds
  sendLength := 0
  queuedTime := now
  overdue := false
  dual := g.dual
  pinned := g.pinned
  route := g.route
  resend := 0
  outNumber := none

/-- Allocate and place the items of a plan in order (R5). -/
def allocateItems (t : TransitId) : List PlanItem → State → Placed
  | [], s => { state := s }
  | g :: gs, s => match lowestFree s.copies with
    | none => { state := s }
    | some c =>
      let p := placeGroup c g.dest (copyCountsChanged (s.setCopy c (some (g.newCopy t s.clock))))
      p.followedBy (allocateItems t gs p.state)

/-- Give a transit its copies: it becomes IN_TRANSIT and leaves the Copy Wait List (R5, R14). -/
def allocatePlan (t : TransitId) (tr : Transit) (plan : List PlanItem) (s : State) : State × Bool :=
  let duals := s.secondRoutes t tr
  let s1 := (s.setTransit t (some { tr with state := .inTransit, pendingCopies := plan.length, need := none })).modCounts
    (fun k => { k with dual := sat16 k.dual duals })
  (allocateItems t plan (copyCountsChanged { s1 with waitList := s1.waitList.filter (fun x => x != t) })).finish

/-! ## The Copy Wait List (R13, R14) -/

/-- Consider the head of the Copy Wait List; the flag tells that it was served (R14). -/
def considerHead (s : State) : State × Bool :=
  match s.waitList with
  | [] => (s, false)
  | t :: _ => match s.transit? t with
    | none => (s, false)
    | some tr =>
      if s.freeCopies < tr.need.getD 1 then (s, false)
      else
        let plan := s.copyPlan t tr
        if plan.length ≤ s.freeCopies then
          let r := allocatePlan t tr plan s
          (reexamineIfInformOnly [] r.2 r.1, true)
        else (s.setTransit t (some { tr with need := some plan.length }), false)

/-- Serve the Copy Wait List until it is empty or its head stays (R14). -/
def considerLoop : Nat → State → State
  | 0, s => s
  | k + 1, s =>
    let r := considerHead s
    if r.2 then considerLoop k r.1 else r.1

def considerWaitList (s : State) : State := considerLoop s.waitList.length s

/-- What follows an action that placed copies: the re-examination it calls for, then the Copy Wait List once (R14, R82,
R87; log entry 14). -/
def afterAction (excluded : List Line) (r : State × Bool) : State :=
  considerWaitList (reexamineIfInformOnly excluded r.2 r.1)

/-- The line loss action of circuit L over its queue (R87). -/
def lineLoss (n : Line) (s : State) : State := afterAction [n] (lossWalk n (s.queue n) s)

/-- Hold List re-examination as an event of its own (R89, R90). -/
def reexamineHoldList (s : State) : State × Nat :=
  let r := reexamine [] s
  (considerWaitList r.1, r.2)

/-- A completed transit is planned and given its copies, or joins the Copy Wait List (R5). -/
def relayTransit (t : TransitId) (s : State) : State :=
  match s.transit? t with
  | none => s
  | some tr =>
    let plan := s.copyPlan t tr
    if s.waitList.isEmpty && decide (plan.length ≤ s.freeCopies) then afterAction [] (allocatePlan t tr plan s)
    else
      let s1 := s.setTransit t (some { tr with state := .waiting, need := some plan.length })
      copyCountsChanged (post .records { s1 with waitList := s1.waitList ++ [t] })

end Sys2Proof.Machine
end

