-- ==== Sys2Proof/Machine/Transmit.lean ====
section
/-! DEFINITION. The Line Transmitter (Chapter 5): what it sends, its choice, its advance, and how copies leave its sending
position. -/
namespace Sys2Proof.Machine

/-! ## The parts of a message on the line (R97, R99, R105) -/

/-- CR LF. -/
def crlf : List OfficeChar := [13, 10]

/-- LF characters of a trailer. -/
def trailerChars (n : Nat) : List OfficeChar := List.replicate n 10

/-- The letter of a precedence (00 Precedence). -/
def rankLetter (r : Rank) : OfficeChar :=
  match r with
  | 0 => 69
  | 1 => 79
  | 2 => 82
  | 3 => 68

/-- The characters of a code. -/
def codeChars (w : StationCode) : List OfficeChar := (codeBytes w).map charOfByte

/-- Codes separated by single spaces. -/
def joinCodes : List StationCode → List OfficeChar
  | [] => []
  | [w] => codeChars w
  | w :: ws => codeChars w ++ 32 :: joinCodes ws

/-- The outgoing address line of a subset (R99). -/
def addressLine (subset : List Addressee) : List OfficeChar :=
  let a := codesOf subset true
  let i := codesOf subset false
  let gap : List OfficeChar := if a = [] then [] else [32]
  let marker : List OfficeChar := [47, 73, 32]
  joinCodes a ++ (if i = [] then [] else gap ++ marker ++ joinCodes i)

/-- The outgoing heading line 1 of a copy (R99).  The designator's bytes are sent as they stand, as office characters: bit 7
of a byte is dropped (DESIGN CHOICE, log entry 36). -/
def headingLine (e : Vector Word 8) (x : Copy) (t : Transit) : List OfficeChar :=
  (outgoingDesignator e).map charOfByte ++ [32] ++ decimal 3 (x.outNumber.getD 0) ++ [32, rankLetter x.rank, 32] ++
    codeChars (t.origin.getD 0) ++ [32] ++ decimal 4 (t.serial.getD 0)

/-- The part offered in HEADING (5.3). -/
def headingPart (l : Latched) (e : Vector Word 8) (x : Copy) (t : Transit) : List OfficeChar :=
  l.opening ++ crlf ++ headingLine e x t ++ crlf ++ addressLine x.subset ++ crlf

/-- The part offered in CLOSING (R102). -/
def closingPart (l : Latched) : List OfficeChar := l.closing ++ trailerChars l.trailer

/-- The cut sequence (R105). -/
def cutSequence (l : Latched) : List OfficeChar := crlf ++ l.cancel ++ crlf ++ l.closing ++ trailerChars l.trailer

/-- The three letters of a service message. -/
def serviceLetters (k : ServiceKind) : List OfficeChar :=
  match k with
  | .ckq => [67, 75, 81]
  | .cka => [67, 75, 65]

/-- A service message on the line (R97). -/
def servicePart (l : Latched) (v : Service) : List OfficeChar :=
  l.opening ++ crlf ++ serviceLetters v.kind ++ [32] ++ decimal 3 v.number ++
    crlf ++ l.closing ++ trailerChars l.trailer

/-- The groups and the trailer count in force for a message that begins now (R97, R98). -/
def State.latchNow (s : State) (n : Line) : Latched where
  opening := s.openingGroup
  closing := s.closingGroup
  cancel := s.cancelGroup
  trailer := trailerCount (s.entry n)

/-! ## Copies that leave the sending position (R88, R105) -/

/-- The state a transmitter takes when a message ends: IDLE, or with the stop mark the state the line condition calls for
(R106). -/
def State.restState (s : State) (n : Line) : TxState :=
  if (s.tx n).stopMark && ((s.mon n).condition == .stopped || (s.mon n).reloadPending) then .off else .idle

/-- A transmitter's message has ended: the sending position is empty and nothing of the message is kept. -/
def endMessage (n : Line) (st : TxState) (s : State) : State :=
  s.modTx n (fun t => { t.emptyBuffers with
    state := st
    stalledFrom := none
    sending := none
    next := 0
    slot := none
    service := none
    cutRemaining := 0
    cutReturn := false
    stopMark := false })

/-- The far end's case is not known any more: the send shift state of a circuit becomes UNKNOWN (R149). -/
def forgetShift (n : Line) (s : State) : State := s.modTx n (fun t => { t with shift := .unknown })

/-- A copy that has left the sending position of a circuit returns to the head of its rank class, its resend count up by
one; when the circuit is not ACTIVE it is taken through the line loss action on its own (R8, R10, R88).  The Copy Wait List
is considered after each return and after each walk, also where one bus write makes several (DESIGN CHOICE, log entry 39). -/
def returnCopy (n : Line) (c : CopyId) (s : State) : State :=
  match s.copy? c with
  | none => s
  | some x =>
    let s1 := s.setCopy c (some { x with resend := sat16 x.resend 1, outNumber := none })
    let d := s1.survivor n c
    let s2 := testOverdue d (placeInQueue n c true s1).finish.1
    if (s2.mon n).condition = .active then considerWaitList s2
    else afterAction [n] (lossWalk n [d] s2)

/-- End the message in hand; a copy in the sending position returns when `returns` is set. -/
def leaveSending (n : Line) (st : TxState) (returns : Bool) (s : State) : State :=
  let sending := (s.tx n).sending
  let s1 := endMessage n st s
  match sending with
  | none => s1
  | some c => if returns then returnCopy n c s1 else s1

/-- The answer timer of a check whose CKQ has ended or has been abandoned starts, when its number is still outstanding
and it does not run already (R124). -/
def startTimer (n : Line) (number : Nat) (s : State) : State :=
  if (s.mon n).outstanding = some number && (s.mon n).timer.isNone then s.modMon n (fun m => { m with timer := some s.clock })
  else s

/-- A service message is abandoned before its end: a CKA stays owed, a CKQ's answer timer starts (R107, R110). -/
def abandonService (n : Line) (s : State) : State :=
  match (s.tx n).service with
  | some ⟨.ckq, k⟩ => startTimer n k s
  | _ => s

/-! ## Reading text ahead (R100, R101) -/

/-- The block that holds the stored character at a position, by the transit's chain (R100). -/
def State.blockOfPosition (s : State) (t : Transit) (p : Nat) : Option Nat := s.blockAt t.first (p / 60)

/-- Decide the read of the block that holds a position into a text buffer (R101). -/
def decideTextRead (n : Line) (k : Buffer) (t : Transit) (p : Nat) (s : State) : State :=
  match s.blockOfPosition t p with
  | none => s
  | some b =>
    let old := (s.tx n).buf k
    decideEntry (.textRead n k (s.blockAddress b))
      (s.modTx n (fun x => x.setBuf k { old with state := .reading, block := some b }))

/-- A copy enters the sending position (R98).  The first read of its body goes to text buffer A, of the two that the manual
leaves open (DESIGN CHOICE, log entry 32). -/
def enterSending (n : Line) (c : CopyId) (s : State) : State :=
  match s.copy? c with
  | none => s
  | some x =>
    let s1 := s.setCopy c (some { x with state := .sending, outNumber := some (s.tx n).nextOut })
    let s2 := s1.modTx n (fun t => { t.emptyBuffers with
      state := .heading
      sending := some c
      next := 0
      offered := 0
      latched := s.latchNow n
      current := .a
      slot := none
      nextOut := nextNumber t.nextOut
      cutRemaining := 0
      cutReturn := false })
    match s.transit? x.transit with
    | none => s2
    | some t => if t.bodyLength = 0 then s2 else decideTextRead n .a t (t.bodyOffset.getD 0) s2

/-! ## The choice (R96, R97) -/

/-- A CKQ is due on a line (R97). -/
def State.ckqDue (s : State) (n : Line) : Bool :=
  let m := s.mon n
  let interval := 10 * checkIntervalSeconds (s.entry n)
  let quiet := decide (interval ≤ s.since (s.tx n).lastOffered)
  checksEnabled (s.entry n) && m.outstanding.isNone &&
    match m.condition with
    | .starting => !m.firstCheck
    | .active => (s.queue n).isEmpty && quiet
    | .suspect => quiet && (match m.lastExpiry with | none => true | some t => decide (interval ≤ s.since t))
    | .stopped => false
    | .test => false

/-- A transmitter begins a service message (R97). -/
def beginService (n : Line) (v : Service) (s : State) : State :=
  s.modTx n (fun t => { t with state := .service, next := 0, latched := s.latchNow n, slot := none, service := some v })

/-- A due CKQ is chosen: its number is marked outstanding and the check number goes up (R96, R124). -/
def beginCkq (n : Line) (s : State) : State :=
  let k := (s.mon n).checkNumber
  beginService n ⟨.ckq, k⟩ (s.modMon n (fun m =>
    { m with outstanding := some k, checkNumber := nextNumber k, firstCheck := true, timer := none }))

/-- The head of a line's queue enters its sending position when the line lets it (R96 step 3). -/
def beginCopy (n : Line) (s : State) : State :=
  let m := s.mon n
  match s.queue n with
  | [] => s
  | c :: q =>
    if (m.condition == .active || m.condition == .test) && m.outstanding.isNone then queueChanged n (enterSending n c (s.setQueue n q))
    else s

/-- The choice of an IDLE transmitter (R96). -/
def choose (n : Line) (s : State) : State :=
  let m := s.mon n
  if m.condition = .test then beginCopy n s
  else match m.owed with
    | some k => beginService n ⟨.cka, k⟩ s
    | none => if s.ckqDue n then beginCkq n s else beginCopy n s

/-! ## The character due, and what follows when it has been offered -/

/-- What a transmitter has to offer. -/
inductive Due
  /-- Nothing: OFF, IDLE or STALLED. -/
  | nothing
  /-- The body character due is not in its buffer yet (R101). -/
  | notReady
  | char (c : OfficeChar)
  deriving DecidableEq, Repr

/-- The next character of what is being sent (R97, R99, R100, R102, R105). -/
def State.due (s : State) (n : Line) : Due :=
  let x := s.tx n
  match x.state with
  | .off => .nothing
  | .idle => .nothing
  | .stalled => .nothing
  | .service => match x.service with
    | none => .nothing
    | some v => .char ((servicePart x.latched v).getD x.next 0)
  | .cutting => .char ((cutSequence x.latched).getD (x.latched.cutLength - x.cutRemaining) 0)
  | .closing => .char ((closingPart x.latched).getD x.next 0)
  | .heading => match s.sendingCopy n with
    | none => .nothing
    | some (c, t) => .char ((headingPart x.latched (s.entry n) c t).getD x.next 0)
  | .text => match s.sendingCopy n with
    | none => .nothing
    | some (_, t) =>
      if x.next < t.bodyLength then
        let b := x.buf x.current
        if b.state = .ready then .char (b.chars.getD ((t.bodyOffset.getD 0 + x.next) % 60) 0) else .notReady
      else if x.next = t.bodyLength then .char 13
      else .char 10

/-- A copy ends at the last character of its trailer: it is freed (R102). -/
def endCopy (n : Line) (s : State) : State :=
  let sending := (s.tx n).sending
  let s1 := endMessage n (s.restState n) s
  match sending with
  | none => s1
  | some c => considerWaitList (freeCopy c s1)

/-- A service message ends with its last character (R97). -/
def endService (n : Line) (v : Service) (s : State) : State :=
  let s1 := endMessage n (s.restState n) s
  match v.kind with
  | .ckq => startTimer n v.number s1
  | .cka => if (s1.mon n).owed = some v.number then s1.modMon n (fun m => { m with owed := none }) else s1

/-- The text buffers after the body character at stored position p has been offered: at the first character from a block
the next block's read is decided into the other buffer; after its last the buffer is EMPTY and the other one is sent from
(R101). -/
def afterBodyChar (n : Line) (t : Transit) (p : Nat) (s : State) : State :=
  let k := (s.tx n).current
  let first := p = t.bodyOffset.getD 0 ∨ p % 60 = 0
  let nextStart := (p / 60 + 1) * 60
  let s1 := if first ∧ nextStart < t.stored then decideTextRead n k.other t nextStart s else s
  if p % 60 = 59 ∨ p + 1 = t.stored then
    s1.modTx n (fun x => { x.setBuf k ((x.buf k).abandon) with current := k.other })
  else s1

/-- The character due has been offered, or passed over: the transmitter goes on (R97, R99 to R102, R105). -/
def advance (n : Line) (s : State) : State :=
  let x := s.tx n
  let counted := s.modTx n (fun t => { t with next := t.next + 1, offered := sat16 t.offered 1 })
  match x.state with
  | .off => s
  | .idle => s
  | .stalled => s
  | .service => match x.service with
    | none => s
    | some v =>
      if x.next + 1 < (servicePart x.latched v).length then s.modTx n (fun t => { t with next := t.next + 1 })
      else endService n v s
  | .cutting =>
    if 1 < x.cutRemaining then s.modTx n (fun t => { t with cutRemaining := t.cutRemaining - 1 })
    else leaveSending n (s.restState n) x.cutReturn s
  | .heading => match s.sendingCopy n with
    | none => s
    | some (c, t) =>
      if x.next + 1 < (headingPart x.latched (s.entry n) c t).length then counted
      else counted.modTx n (fun t => { t with state := .text, next := 0 })
  | .text => match s.sendingCopy n with
    | none => s
    | some (_, t) =>
      if x.next < t.bodyLength then afterBodyChar n t (t.bodyOffset.getD 0 + x.next) counted
      else if x.next = t.bodyLength then counted
      else counted.modTx n (fun t => { t with state := .closing, next := 0 })
  | .closing =>
    if x.next + 1 < (closingPart x.latched).length then counted else endCopy n counted

/-! ## A send-cell read (R94, R103, R143 to R148) -/

/-- A read answered with SEND: last character offered is set to this moment (5.1). -/
def stampOffered (n : Line) (s : State) : State := s.modTx n (fun t => { t with lastOffered := s.clock })

/-- Answer a read with time fill (R101, R146, R148). -/
def giveFill (n : Line) (s : State) : State × Word := (raiseFill n (stampOffered n s), sendFill (s.fillCombination n))

/-- Answer a read with the combination of a character: a space unshifts, and the transmitter goes on (R145). -/
def giveChar (n : Line) (c : OfficeChar) (combination : Byte) (s : State) : State × Word :=
  let s1 := (stampOffered n s).modTx n (fun t => { t with slot := none, shift := s.shiftAfter n c })
  (advance n s1, sendChar combination)

/-- Answer a read with what is due, through the Code Converter and the pending slot (R103, R143, R144, R146). -/
def giveDue (n : Line) (s : State) : State × Word :=
  match s.due n with
  | .nothing => (s, sendIdle)
  | due => match (s.tx n).slot with
    | some x => giveChar n x.char x.combination s
    | none => match due with
      | .nothing => (s, sendIdle)
      | .notReady => giveFill n s
      | .char c => match s.sendStep n c with
        | .give d combination => giveChar n d combination s
        | .shift combination after slot =>
          ((stampOffered n s).modTx n (fun t => { t with shift := after, slot := some slot }), sendChar combination)
        | .passOver =>
          let r := giveFill n s
          (advance n r.1, r.2)

/-- The transmitter's answer to a read of its send cell (R94). -/
def readSendCell (n : Line) (s : State) : State × Word :=
  let s1 := s.modTx n (fun t => { t with lastRead := s.clock })
  if (s1.mon n).condition = .test then (s1, sendIdle)
  else if (s1.tx n).state = .idle then giveDue n (choose n s1)
  else giveDue n s1

/-- One character period of a line in TEST: the office character offered, if any (R111). -/
def testPeriod (n : Line) (s : State) : State × Option OfficeChar :=
  let s1 := if (s.tx n).state = .idle then choose n s else s
  match s1.due n with
  | .nothing => (s1, none)
  | .notReady => (raiseFill n s1, none)
  | .char c => (advance n s1, some c)

/-! ## Starting a transmitter (R95) -/

/-- A transmitter goes to IDLE at a start or a test (R95). -/
def startTransmitter (n : Line) (s : State) : State :=
  (endMessage n .idle s).modTx n (fun t => { t with shift := .unknown, lastRead := s.clock, lastOffered := s.clock })

end Sys2Proof.Machine
end

