-- ==== Sys2Proof/Machine/Monitor.lean ====
section
/-! DEFINITION. The Line Monitor (Chapter 6): changes of condition, breaks, checks received and expired; and the stalls and
recoveries of transmitters (5.5, 5.6). -/
namespace Sys2Proof.Machine

/-! ## A transmitter abandons what it sends (R107) -/

/-- Abandon the message in hand without a cut sequence: the copy returns and the send shift state becomes UNKNOWN (R107,
R149). -/
def abandonMessage (n : Line) (returns : Bool) (s : State) : State :=
  leaveSending n (s.restState n) returns (forgetShift n s)

/-- A change of the line to SUSPECT reaches its transmitter: a copy in HEADING, TEXT or CLOSING is abandoned (R107). -/
def tellSuspect (n : Line) (s : State) : State :=
  match (s.tx n).state with
  | .heading => abandonMessage n true s
  | .text => abandonMessage n true s
  | .closing => abandonMessage n true s
  | _ => s

/-! ## Changes of condition (R118) -/

/-- The condition of a circuit changes: a change from ACTIVE clears held ACTIVE, and a change to ACTIVE clears break seen
(R25, R118, R181). -/
def changeCondition (n : Line) (c : Condition) (s : State) : State :=
  let was := (s.mon n).condition
  s.modLine n (fun l =>
    { l with
      mon := { l.mon with condition := c }
      heldActive := l.heldActive && !(was == .active)
      rx := { l.rx with breakSeen := l.rx.breakSeen && !(c == .active) } })

/-- The condition of a circuit changes: LINE_CONDITION is posted and the word of the Line Status Record that holds the
condition is rewritten there, ahead of what the change brings with it (R118; DEDUCED, log entry 9). -/
def setCondition (n : Line) (c : Condition) (s : State) : State :=
  rewriteLine n [0] (post .lineCondition (changeCondition n c s))

/-- The change to ACTIVE: with ROUTE_HOLD inform-only it runs Hold List re-examination (R90, R118). -/
def becomeActive (n : Line) (s : State) : State :=
  let s1 := setCondition n .active s
  if s1.isInformOnly .routeHold then (reexamineHoldList s1).1 else s1

/-- The change to SUSPECT: the line loss action runs and the transmitter is told (R107, R118, R127, R130). -/
def becomeSuspect (n : Line) (s : State) : State := tellSuspect n (lineLoss n (setCondition n .suspect s))

/-- A STARTING or ACTIVE line becomes SUSPECT; a line in another condition keeps it (R130, R131). -/
def makeSuspect (n : Line) (s : State) : State :=
  match (s.mon n).condition with
  | .starting => becomeSuspect n s
  | .active => becomeSuspect n s
  | _ => s

/-! ## Transmit stall and its recovery (R109, R110, R131) -/

/-- Recovery of one STALLED transmitter: the copy returns, an abandoned check's timer starts, and the line becomes SUSPECT
(R110, R131). -/
def recoverTransmitter (n : Line) (s : State) : State :=
  let t := s.tx n
  if t.state = .stalled then
    let returns := t.stalledFrom != some .cutting || t.cutReturn
    let rest : TxState := if (s.mon n).condition = .stopped ∨ (s.mon n).reloadPending then .off else .idle
    let s1 := leaveSending n rest returns (abandonService n (forgetShift n s))
    makeSuspect n s1
  else s

/-- Stall recovery of every STALLED transmitter, in ascending line number, each with its return and its change to SUSPECT
before the next line's; after each return and each walk the Copy Wait List is considered (R110; DESIGN CHOICE, log entries 14
and 39: R7 has the list considered once an event, R87 once a walk). -/
def recoverTransmitters (s : State) : State := s.forCircuits recoverTransmitter

/-- A state in which a transmitter stalls (R109). -/
def TxState.mayStall : TxState → Bool
  | .service => true
  | .heading => true
  | .text => true
  | .closing => true
  | .cutting => true
  | _ => false

/-- The transmit stall of a line is due: it is part-way through a message and has not been read for the transmit-stall
time (R109). -/
def State.transmitStallDue (s : State) (n : Line) : Bool :=
  n != 0 && (s.tx n).state.mayStall && (s.mon n).condition != .test &&
    decide (10 * s.transmitStallSeconds ≤ s.since (s.tx n).lastRead)

/-- A transmitter stalls: TX_STALL is posted, and recovery follows at once when it is inform-only (R109, R178). -/
def stallTransmitter (n : Line) (s : State) : State :=
  let s1 := post .txStall (s.modTx n (fun t => { t with state := .stalled, stalledFrom := some t.state, slot := none }))
  if s1.isInformOnly .txStall then recoverTransmitters s1 else s1

/-! ## BREAK (R107, R130) -/

/-- A BREAK reaches the transmitter (R107). -/
def tellBreak (n : Line) (s : State) : State :=
  match (s.tx n).state with
  | .heading => abandonMessage n true s
  | .text => abandonMessage n true s
  | .closing => abandonMessage n true s
  | .cutting => abandonMessage n (s.tx n).cutReturn s
  | .stalled => recoverTransmitter n s
  | .service => endMessage n (s.restState n) (abandonService n s)
  | .off => s
  | .idle => s

/-- The Line Monitor takes the report of a BREAK (R130). -/
def reportBreak (n : Line) (s : State) : State := tellBreak n (makeSuspect n s)

/-! ## Checks (R125 to R127) -/

/-- A completed CKQ owes a CKA with its number (R125). -/
def receiveCkq (n : Line) (k : Nat) (s : State) : State := s.modMon n (fun m => { m with owed := some k })

/-- A completed CKA ends the outstanding check of the same number, or is a stray (R126). -/
def receiveCka (n : Line) (k : Nat) (s : State) : State :=
  if (s.mon n).outstanding = some k then
    let s1 := s.modMon n (fun m => { m with outstanding := none, timer := none, failures := 0 })
    match (s.mon n).condition with
    | .starting => becomeActive n s1
    | .suspect => becomeActive n s1
    | _ => s1
  else s.modCounts (fun c => { c with stray := sat16 c.stray 1 })

/-- The answer timer of a line has run out (R127). -/
def State.answerTimerDue (s : State) (n : Line) : Bool :=
  match (s.mon n).timer with
  | none => false
  | some t => decide (10 * answerTimeSeconds (s.entry n) ≤ s.since t)

/-- Expiry of the answer timer (R121, R127). -/
def expireCheck (n : Line) (s : State) : State :=
  let s1 := s.modMon n (fun m =>
    { m with outstanding := none, timer := none, lastExpiry := some s.clock, failures := sat16 m.failures 1 })
  let s2 := raiseError n .checkFail 1 s1
  match (s2.mon n).condition with
  | .starting => becomeSuspect n s2
  | .active => if failureLimit (s2.entry n) ≤ (s2.mon n).failures then becomeSuspect n s2 else s2
  | _ => s2

end Sys2Proof.Machine
end

