-- ==== Sys2Proof/Machine/Receive.lean ====
section
/-! DEFINITION. The Receive Assembler (Chapter 2): groups, heading line 1 and the address line, storing, completion, the
channel sequence, the Recent-Origin List, breaks, timeouts and recovery. -/
namespace Sys2Proof.Machine

/-! ## Entries to states (R26, R42, R43) -/

/-- Nothing of a message is held; the match lengths are 0. -/
def Receiver.clear (r : Receiver) (st : RxState) : Receiver :=
  { r with
    state := st
    openMatch := 0
    closeMatch := 0
    holdBack := []
    heading := []
    overlong := false
    address := []
    addressEnded := false
    transit := none
    service := none }

/-- The receiver goes to HUNT, taking up the groups as the table gives them now (2.3, R26, R158). -/
def enterHunt (n : Line) (s : State) : State :=
  s.modRx n (fun r => { r.clear .hunt with openGroup := s.openingGroup, closeGroup := s.closingGroup })

/-- A FILLING buffer is emptied without a write (R37). -/
def BlockBuffer.drop (b : BlockBuffer) : BlockBuffer :=
  if b.state = .filling then { b with state := .free, count := 0, block := none } else b

def Receiver.dropFilling (r : Receiver) : Receiver := { r with bufA := r.bufA.drop, bufB := r.bufB.drop }

/-- What a receiver holds is abandoned: a FILLING buffer without a write, the transit with its blocks, a service message,
the hold-back and the buffers (R25, R42, R43). -/
def abandonReception (n : Line) (st : RxState) (s : State) : State :=
  let s1 := s.modRx n (fun r => r.dropFilling.clear st)
  match (s.rx n).transit with
  | none => s1
  | some t => freeTransit t s1

/-- Stall recovery of one receiver (R42). -/
def recoverReceiver (n : Line) (s : State) : State :=
  if (s.rx n).state = .stalled then enterHunt n (abandonReception n .hunt s) else s

/-- Stall recovery of every STALLED receiver (R42). -/
def recoverReceivers (s : State) : State := s.forCircuits recoverReceiver

/-- A receiver starts: HUNT, LETTERS, and its last arrival set to this moment (R43, R142). -/
def startReceiver (n : Line) (s : State) : State :=
  (enterHunt n s).modRx n (fun r => { r with lastArrival := s.clock, shift := .letters })

/-- A receiver stops (R43). -/
def stopReceiver (n : Line) (s : State) : State :=
  (abandonReception n .off s).modRx n (fun r => { r with breakSeen := false })

/-! ## Storing text (R37 to R40) -/

/-- What became of a character to be stored. -/
inductive Stored
  | stored | textLoss | truncated | noBlock
  deriving DecidableEq, Repr

/-- The FILLING buffer of a receiver. -/
def Receiver.filling (r : Receiver) : Option Buffer :=
  if r.bufA.state = .filling then some .a else if r.bufB.state = .filling then some .b else none

/-- A FREE buffer; when both are FREE either is taken: the free value of log entry 12 (R37). -/
def State.freeBuffer (s : State) (r : Receiver) : Option Buffer :=
  if r.bufA.state = .free then
    if r.bufB.state = .free then some (if Config.freeBufferIsA s.choices then .a else .b) else some .a
  else if r.bufB.state = .free then some .b else none

/-- Both block buffers are WRITING. -/
def Receiver.bothWriting (r : Receiver) : Bool := r.bufA.state == .writing && r.bufB.state == .writing

/-- Put a character into the FILLING buffer; the 60th decides the block write (R37). -/
def putChar (n : Line) (k : Buffer) (t : TransitId) (c : OfficeChar) (s : State) : State :=
  let b := (s.rx n).buf k
  let filled : BlockBuffer := { b with count := b.count + 1, chars := b.chars.set! b.count c }
  let s1 := s.modTransit t (fun r => { r with stored := r.stored + 1 })
  if filled.count < 60 then s1.modRx n (fun r => r.setBuf k filled)
  else
    decideEntry (.textWrite n k (s.blockAddress (b.block.getD 0)) filled.chars)
      (s1.modRx n (fun r => r.setBuf k { filled with state := .writing }))

/-- Store a character of the current transit (R37 to R40; log entry 16 for the order of the tests). -/
def storeChar (n : Line) (c : OfficeChar) (s : State) : State × Stored :=
  let r := s.rx n
  match r.transit with
  | none => (s, .stored)
  | some t => match s.transit? t with
    | none => (s, .stored)
    | some tr =>
      if s.storedLimit ≤ tr.stored then (s, .truncated)
      else match r.filling with
        | some k => (putChar n k t c s, .stored)
        | none => match s.freeBuffer r with
          | none =>
            ((s.modTransit t (fun x => { x with flags := { x.flags with textLoss := true } })).modCounts
              (fun k => { k with textLoss := sat16 k.textLoss 1 }), .textLoss)
          | some k => match allocateBlock t s with
            | none => (s, .noBlock)
            | some (b, s1) =>
              let s2 := s1.modRx n (fun x => x.setBuf k { x.buf k with state := .filling, count := 0, block := some b })
              (putChar n k t c { s2 with choices := s2.choices + 1 }, .stored)

/-- Decide the FILLING buffer's write with the characters it holds; the rest of the block carries what the buffer last
held (R37). -/
def flushFilling (n : Line) (s : State) : State :=
  match (s.rx n).filling with
  | none => s
  | some k =>
    let b := (s.rx n).buf k
    decideEntry (.textWrite n k (s.blockAddress (b.block.getD 0)) b.chars)
      (s.modRx n (fun r => r.setBuf k { b with state := .writing }))

/-! ## Channel sequence and duplicates (R45, R46) -/

/-- The cases of the channel sequence check. -/
inductive SequenceCase
  | unchecked | inOrder | gap (d : Nat) | repeated | outOfRange
  deriving DecidableEq, Repr

/-- Classify a received number against expected-in (R45). -/
def sequenceCase (expected : Option Nat) (number g w : Nat) : SequenceCase :=
  match expected with
  | none => .unchecked
  | some e =>
    let d := (number + 999 - e) % 999
    if d = 0 then .inOrder
    else if d ≤ g then .gap d
    else if 999 - w ≤ d then .repeated
    else .outOfRange

/-- The channel sequence check of a completing message (R45). -/
def checkSequence (n : Line) (t : TransitId) (number : Nat) (s : State) : State :=
  let expectNext := fun (s : State) => s.modRx n (fun r => { r with expectedIn := some (nextNumber number) })
  match sequenceCase (s.rx n).expectedIn number s.gapWindow s.duplicateWindow with
  | .unchecked => expectNext s
  | .inOrder => expectNext s
  | .gap d => expectNext (post .sequence (raiseError n .gap d s))
  | .repeated => s
  | .outOfRange =>
    let s1 := s.modTransit t (fun r => { r with
      flags := { r.flags with sequenceReset := true }, reasons := r.reasons.add .sequenceReset })
    expectNext (post .sequence (s1.modCounts (fun k => { k with outOfRange := sat16 k.outOfRange 1 })))

/-- The Recent-Origin List after a pair has been added at its tail (R46). -/
def addRecent (l : List (StationCode × Nat)) (p : StationCode × Nat) : List (StationCode × Nat) :=
  (if l.length < Config.recentOriginCapacity then l else l.drop (l.length + 1 - Config.recentOriginCapacity)) ++ [p]

/-! ## Completion (R36, R44) -/

/-- A message whose heading line 1 never ended is a heading fault (R36). -/
def faultUnendedHeading (n : Line) (t : TransitId) (s : State) : State :=
  let s1 := s.modTransit t (fun r => { r with
    rank := some 2, channel := none, origin := none, serial := none, bodyOffset := some r.stored,
    reasons := r.reasons.add .headingFault })
  if n = 0 then s1 else raiseError n .heading 1 s1

/-- What a message that completes before its address line has ended takes (R36). -/
def completeEarly (n : Line) (t : TransitId) (s : State) : State :=
  match (s.rx n).state with
  | .heading => faultUnendedHeading n t s
  | .address => s.modTransit t (fun r => { r with bodyOffset := some r.stored })
  | _ => s

/-- Each flag that is set adds the local reason of the same name (R44 step 1). -/
def Transit.flagReasons (r : Transit) : Reasons :=
  (((r.reasons.addIf r.flags.truncated .truncated).addIf r.flags.noClosing .noClosing).addIf r.flags.textLoss
    .textLoss).addIf r.flags.loopback .loopback

/-- The message is local only (R44 step 2). -/
def Reasons.localOnly (r : Reasons) : Bool :=
  r.has .headingFault || r.has .noClosing || r.has .truncated || r.has .loopback

/-- Resolve the addressees of a completing message and hand it to the Route Selector (R44 step 5, R65). -/
def resolveAndRelay (t : TransitId) (address : List OfficeChar) (s : State) : State :=
  match s.transit? t with
  | none => s
  | some r =>
    let x := s.resolve r.source address r.reasons
    relayTransit t (s.setTransit t (some { r with tokens := x.tokens, resolved := x.resolved, reasons := x.reasons }))

/-- Hand a completing message on; true when it is a duplicate (R44 steps 4 to 6, R46). -/
def handOn (t : TransitId) (address : List OfficeChar) (s : State) : State × Bool :=
  match s.transit? t with
  | none => (s, false)
  | some r =>
    if r.reasons.localOnly then (relayTransit t s, false)
    else match r.origin, r.serial with
      | some o, some k =>
        if s.recent.contains (o, k) then
          (freeTransit t (s.modCounts (fun c => { c with duplicate := sat16 c.duplicate 1 })), true)
        else (resolveAndRelay t address { s with recent := addRecent s.recent (o, k) }, false)
      | _, _ => (resolveAndRelay t address s, false)

/-- A message completes with some flags set; true when it is a duplicate (R44).  The caller sets the receiver's next
state. -/
def completeMessage (n : Line) (flag : Flags → Flags) (s : State) : State × Bool :=
  match (s.rx n).transit with
  | none => (s, false)
  | some t =>
    let address := (s.rx n).address
    let s1 := completeEarly n t (flushFilling n s)
    let s2 := s1.modTransit t (fun r => { r with flags := flag r.flags })
    let s3 := s2.modTransit t (fun r => { r with reasons := r.flagReasons })
    let s4 := s3.modRx n (fun r => { r with transit := none })
    let channel := match s4.transit? t with | some r => r.channel | none => none
    let s5 := match channel with
      | some k => if n = 0 ∨ (s4.mon n).condition = .test then s4 else checkSequence n t k s4
      | none => s4
    handOn t address s5

/-! ## Messages that end before completion (R34, R39, R40) -/

/-- What acting on a character led to. -/
inductive Fate
  | goesOn | refused | lostPool | truncated
  deriving DecidableEq, Repr

/-- The receiver goes to DISCARD, keeping its match lengths; nothing is held back there (R26, R30; log entry 18). -/
def enterDiscard (n : Line) (s : State) : State :=
  s.modRx n (fun r => { r with state := .discard, holdBack := [], transit := none })

/-- The current message is dropped: a FILLING buffer without a write, the transit with its blocks (R34, R39). -/
def dropMessage (n : Line) (s : State) : State :=
  let s1 := enterDiscard n (s.modRx n Receiver.dropFilling)
  match (s.rx n).transit with
  | none => s1
  | some t => freeTransit t s1

/-- Refusal under the pool reserve (R34). -/
def refuseMessage (n : Line) (s : State) : State :=
  post .poolLow ((dropMessage n s).modCounts (fun k => { k with refusedReserve := sat16 k.refusedReserve 1 }))

/-- No free block: the message is dropped at any rank (R39). -/
def losePool (n : Line) (s : State) : State :=
  post .poolLow ((dropMessage n s).modCounts (fun k => { k with lostPool := sat16 k.lostPool 1 }))

/-- Truncation: the message completes at once with TRUNCATED, and the receiver goes to DISCARD (R40). -/
def truncateMessage (n : Line) (s : State) : State :=
  enterDiscard n (completeMessage n (fun f => { f with truncated := true }) s).1

/-- Store a character and go on with `k` unless storing ended the message. -/
def storeThen (n : Line) (c : OfficeChar) (k : State → State × Fate) (s : State) : State × Fate :=
  let r := storeChar n c s
  match r.2 with
  | .stored => k r.1
  | .textLoss => k r.1
  | .truncated => (truncateMessage n r.1, .truncated)
  | .noBlock => (losePool n r.1, .lostPool)

/-! ## Heading line 1 (R31 to R34) -/

/-- A field of exactly `len` digits whose value lies in a range. -/
def numberField (len lo hi : Nat) (f : List OfficeChar) : Option Nat :=
  if f.length = len && f.all isDigit && decide (lo ≤ digitsValue f) && decide (digitsValue f ≤ hi) then some (digitsValue f)
  else none

/-- A field of four letters. -/
def stationField (f : List OfficeChar) : Option StationCode :=
  if f.length = 4 && f.all isLetter then some (codeOfChars f) else none

/-- The rank of a precedence letter. -/
def rankField (f : List OfficeChar) : Option Rank :=
  if f = [69] then some 0 else if f = [79] then some 1 else if f = [82] then some 2 else if f = [68] then some 3 else none

/-- A service heading: CKQ or CKA and a number 001 to 999 (R31, R33); an overlong line is none (log entry 17). -/
def serviceHeading (heading : List OfficeChar) (overlong : Bool) : Option Service :=
  if overlong then none
  else match fields heading with
    | [f, g] => match numberField 3 1 999 g with
      | none => none
      | some k => if f = [67, 75, 81] then some ⟨.ckq, k⟩ else if f = [67, 75, 65] then some ⟨.cka, k⟩ else none
    | _ => none

/-- What heading line 1 gives the record. -/
structure HeadingCheck where
  good : Bool
  channel : Option Nat
  rank : Rank
  origin : Option StationCode
  serial : Option Nat
  deriving DecidableEq, Repr

/-- A designator field: three letters equal to the one expected (R32); the designator's bytes are compared whole, so that
one with bit 7 set equals no letter (DESIGN CHOICE, log entry 36). -/
def designatorMatches (designator : List Byte) (f : List OfficeChar) : Bool :=
  f.length == 3 && f.all isLetter && f.map (fun c => c.setWidth 8) == designator

/-- Check an ordinary heading of five fields against a designator (R32). -/
def checkHeading (designator : List Byte) (heading : List OfficeChar) (overlong : Bool) : HeadingCheck :=
  if overlong then ⟨false, none, 2, none, none⟩
  else match fields heading with
    | [f1, f2, f3, f4, f5] =>
      let channel := numberField 3 1 999 f2
      let origin := stationField f4
      let serial := numberField 4 1 9999 f5
      let good := designatorMatches designator f1 && channel.isSome && (rankField f3).isSome && origin.isSome && serial.isSome
      ⟨good, channel, if good then (rankField f3).getD 2 else 2, origin, serial⟩
    | _ => ⟨false, none, 2, none, none⟩

/-- Check a local heading of three fields: precedence, origin station, origin serial (R49). -/
def checkLocalHeading (heading : List OfficeChar) (overlong : Bool) : HeadingCheck :=
  if overlong then ⟨false, none, 2, none, none⟩
  else match fields heading with
    | [f1, f2, f3] =>
      let origin := stationField f2
      let serial := numberField 4 1 9999 f3
      let good := (rankField f1).isSome && origin.isSome && serial.isSome
      ⟨good, none, if good then (rankField f1).getD 2 else 2, origin, serial⟩
    | _ => ⟨false, none, 2, none, none⟩

/-- The designator a line's headings are checked against: the outgoing one while the line is in TEST (R32). -/
def State.expectedDesignator (s : State) (n : Line) : List Byte :=
  if (s.mon n).condition = .test then outgoingDesignator (s.entry n) else incomingDesignator (s.entry n)

/-- A service heading ends the transit: the receiver goes to SERVICE (R33). -/
def enterService (n : Line) (v : Service) (s : State) : State :=
  let s1 := s.modRx n (fun r => { r.dropFilling.clear .service with service := some v })
  match (s.rx n).transit with
  | none => s1
  | some t => freeTransit t s1

/-- The pool reserve test: the message is refused, or the receiver goes to ADDRESS (R34). -/
def reserveTest (n : Line) (rank : Rank) (s : State) : State × Fate :=
  if s.freeCount < s.poolReserve ∧ 2 ≤ rank then (refuseMessage n s, .refused)
  else (s.modRx n (fun r => { r with state := .address, address := [], addressEnded := false }), .goesOn)

/-- An ordinary heading, good or faulted, gives the record its fields and passes to the pool reserve test (R32, R34). -/
def takeHeading (n : Line) (h : HeadingCheck) (s : State) : State × Fate :=
  match (s.rx n).transit with
  | none => (s, .goesOn)
  | some t =>
    let s1 := s.modTransit t (fun r => { r with
      channel := h.channel, rank := some h.rank, origin := h.origin, serial := h.serial,
      reasons := r.reasons.addIf (!h.good) .headingFault })
    let s2 := if h.good || n == 0 then s1 else raiseError n .heading 1 s1
    reserveTest n h.rank s2

/-- Heading line 1 has ended (R31 to R34, R49). -/
def endHeading (n : Line) (s : State) : State × Fate :=
  let r := s.rx n
  if n = 0 then takeHeading n (checkLocalHeading r.heading r.overlong) s
  else match serviceHeading r.heading r.overlong with
    | some v => (enterService n v s, .goesOn)
    | none => takeHeading n (checkHeading (s.expectedDesignator n) r.heading r.overlong) s

/-! ## Acting on a released character (R27, R31, R35, R37) -/

/-- A character of HEADING (R31). -/
def assembleHeading (n : Line) (c : OfficeChar) (s : State) : State × Fate :=
  let begun := (s.rx n).heading != []
  if isLineEnd c then storeThen n c (fun s => if begun then endHeading n s else (s, .goesOn)) s
  else
    storeThen n c (fun s =>
      (s.modRx n (fun r =>
        if r.heading.length < 40 then { r with heading := r.heading ++ [c] } else { r with overlong := true }), .goesOn)) s

/-- A character of ADDRESS (R35). -/
def assembleAddress (n : Line) (c : OfficeChar) (s : State) : State × Fate :=
  let r := s.rx n
  if isLineEnd c then
    storeThen n c (fun s => (s.modRx n (fun r => { r with addressEnded := r.addressEnded || r.address != [] }), .goesOn)) s
  else if r.addressEnded then
    let s1 := match r.transit with
      | none => s
      | some t => s.modTransit t (fun x => { x with bodyOffset := some x.stored })
    storeThen n c (fun s => (s, .goesOn)) (s1.modRx n (fun r => { r with state := .text }))
  else
    storeThen n c (fun s =>
      if (s.rx n).address.length < 240 then (s.modRx n (fun r => { r with address := r.address ++ [c] }), .goesOn)
      else match (s.rx n).transit with
        | none => (s, .goesOn)
        | some t => (addReason t .addressExcess s, .goesOn)) s

/-- Act on a released character in the state in force (R27). -/
def assemble (n : Line) (c : OfficeChar) (s : State) : State × Fate :=
  match (s.rx n).state with
  | .heading => assembleHeading n c s
  | .address => assembleAddress n c s
  | .text => storeThen n c (fun s => (s, .goesOn)) s
  | _ => (s, .goesOn)

/-- Release characters one by one in arrival order (R27). -/
def releaseChars (n : Line) (cs : List OfficeChar) (s : State) : State := cs.foldl (fun t c => (assemble n c t).1) s

/-! ## Groups (R26 to R30) -/

/-- The longest tail of `seen`, of at most the given length, that is a beginning of the group (R26). -/
def longestMatch (g seen : List OfficeChar) : Nat → Nat
  | 0 => 0
  | j + 1 => if seen.drop (seen.length - (j + 1)) = g.take (j + 1) then j + 1 else longestMatch g seen j

/-- A match length after one more character (R26). -/
def advanceMatch (g : List OfficeChar) (m : Nat) (c : OfficeChar) : Nat :=
  longestMatch g (g.take m ++ [c]) (m + 1)

/-- The group is recognised: the match length has reached its length (R26). -/
def recognised (g : List OfficeChar) (m : Nat) : Bool := g != [] && m == g.length

/-- Ask for a transit record: HEADING with it, or DISCARD with a lost record counted (R26, R29, R30). -/
def askRecord (n : Line) (s : State) : State :=
  match takeTransit n s with
  | some (t, s1) =>
    let s2 := s1.modRx n (fun r => { r.clear .heading with transit := some t })
    if (s.mon n).condition = .test then s2.modTransit t (fun r => { r with flags := { r.flags with loopback := true } }) else s2
  | none =>
    post .records ((s.modRx n (fun r => r.clear .discard)).modCounts
      (fun k => { k with lostRecords := sat16 k.lostRecords 1 }))

/-- A service message completes: it is handed to the Line Monitor, or discarded while the line is in TEST (R33). -/
def completeService (n : Line) (s : State) : State :=
  let s1 := enterHunt n s
  if (s.mon n).condition = .test then s1
  else match (s.rx n).service with
    | none => s1
    | some v => match v.kind with
      | .ckq => receiveCkq n v.number s1
      | .cka => receiveCka n v.number s1

/-- The closing group acts on the state in force (R28). -/
def closingActs (n : Line) (s : State) : State :=
  match (s.rx n).state with
  | .heading => enterHunt n (completeMessage n id s).1
  | .address => enterHunt n (completeMessage n id s).1
  | .text => enterHunt n (completeMessage n id s).1
  | .service => completeService n s
  | .discard => enterHunt n s
  | _ => s

/-- The opening group acts on the state in force (R26, R29, R30). -/
def openingActs (n : Line) (s : State) : State :=
  match (s.rx n).state with
  | .heading => askRecord n (completeMessage n (fun f => { f with noClosing := true }) s).1
  | .address => askRecord n (completeMessage n (fun f => { f with noClosing := true }) s).1
  | .text => askRecord n (completeMessage n (fun f => { f with noClosing := true }) s).1
  | .service => askRecord n s
  | .discard => askRecord n s
  | .hunt => askRecord n s
  | _ => s

/-- The states in which characters are held back (R27). -/
def RxState.holds : RxState → Bool
  | .heading => true
  | .address => true
  | .text => true
  | _ => false

/-- The match lengths after an arrival: HUNT watches the opening group alone (R26). -/
def Receiver.advance (r : Receiver) (c : OfficeChar) : Receiver :=
  { r with
    openMatch := advanceMatch r.openGroup r.openMatch c
    closeMatch := if r.state = .hunt then 0 else advanceMatch r.closeGroup r.closeMatch c }

/-- Each change of the receiver state decides a state write of word 0 (R188).  Said here for the state that the released
characters leave, since the group may lead back to the state the step began in and `settle` would see no change. -/
def receiverStateChanged (n : Line) (was : RxState) (s : State) : State :=
  if (s.rx n).state = was then s else decideState (.line n 0) s

/-- A group has been recognised: the held characters ahead of its own are released, then it acts (R28, R29). -/
def recognise (n : Line) (ahead : List OfficeChar) (acts : Line → State → State) (s : State) : State :=
  acts n (receiverStateChanged n (s.rx n).state
    (releaseChars n ahead (s.modRx n (fun r => { r with openMatch := 0, closeMatch := 0, holdBack := [] }))))

/-- Nothing is held back outside HEADING, ADDRESS and TEXT (R27). -/
def dropHoldBack (n : Line) (s : State) : State :=
  s.modRx n (fun r => if r.state.holds then r else { r with holdBack := [] })

/-- An office character arrives at group matching in a state that watches (R26 to R30). -/
def arriveWatching (n : Line) (c : OfficeChar) (s : State) : State :=
  let r := (s.rx n).advance c
  let held := if r.state.holds then r.holdBack ++ [c] else []
  let closed := r.state != .hunt && recognised r.closeGroup r.closeMatch
  if closed then recognise n (held.take (held.length - r.closeGroup.length)) closingActs s
  else if recognised r.openGroup r.openMatch then
    recognise n (held.take (held.length - r.openGroup.length)) openingActs s
  else
    let keep := max r.openMatch r.closeMatch
    let k := held.length - keep
    dropHoldBack n (releaseChars n (held.take k) (s.modRx n (fun _ => { r with holdBack := held.drop k })))

/-- An office character arrives at a receiver (R23, R26). -/
def arrive (n : Line) (c : OfficeChar) (s : State) : State :=
  match (s.rx n).state with
  | .off => s
  | .stalled => raiseStalledChars n s
  | _ => arriveWatching n c s

/-! ## Taken writes (R23 to R25) -/

/-- A BREAK: it takes effect when break seen is clear and the line is ACTIVE, STARTING or SUSPECT (R25). -/
def arriveBreak (n : Line) (s : State) : State :=
  let c := (s.mon n).condition
  if (s.rx n).breakSeen || !(c == .active || c == .starting || c == .suspect) then s
  else
    let s1 := s.modRx n (fun r => { r with breakSeen := true })
    reportBreak n (enterHunt n (abandonReception n .hunt s1))

/-- A write that a line's receiver takes (R23, R24, R138). -/
def takeWrite (n : Line) (value : Word) (be : ByteEnables) (s : State) : State :=
  let s1 := s.modRx n (fun r => { r with lastArrival := s.clock })
  match s.examine n value be with
  | .broken => arriveBreak n s1
  | .mutilated which => arrive n s.mutilationMark (raiseError n which 1 s1)
  | .converted none shift => s1.modRx n (fun r => { r with shift := shift })
  | .converted (some c) shift => arrive n c (s1.modRx n (fun r => { r with shift := shift }))

/-! ## Receive timeout (R41) -/

/-- A state in which the receive timeout runs. -/
def RxState.timed : RxState → Bool
  | .heading => true
  | .address => true
  | .text => true
  | .service => true
  | .discard => true
  | _ => false

/-- The receive timeout of a line has expired (R41). -/
def State.receiveTimeoutDue (s : State) (n : Line) : Bool :=
  n != 0 && (s.rx n).state.timed && decide (10 * s.receiveTimeoutSeconds ≤ s.since (s.rx n).lastArrival)

/-- The receive timeout expires (R30, R41): DISCARD returns to HUNT; the others stall, post RX_STALL and, when it is
inform-only, recover at once. -/
def expireReception (n : Line) (s : State) : State :=
  if (s.rx n).state = .discard then enterHunt n s
  else
    let s1 := post .rxStall (s.modRx n (fun r => { r with state := .stalled }))
    if s1.isInformOnly .rxStall then recoverReceivers s1 else s1

end Sys2Proof.Machine
end

