-- ==== Sys2Proof/Machine/Submit.lean ====
section
/-! DEFINITION. The SUBMIT copy (2.11): its checks, its composition reads, and the taking of its characters. -/
namespace Sys2Proof.Machine

/-! ## Composition reads (R49, R170) -/

/-- The first byte of the composition area that has not been read. -/
def SubmitCopy.nextByte (x : SubmitCopy) : Nat := x.address + x.fetched

/-- The byte behind the composition area. -/
def SubmitCopy.endByte (x : SubmitCopy) : Nat := x.address + x.length

/-- The word at which the next composition read begins (R170). -/
def SubmitCopy.readStart (x : SubmitCopy) : Nat := x.nextByte / 4 * 4

/-- The words of the next composition read: up to 16, no later than the word of the area's last byte (R170). -/
def SubmitCopy.readWords (x : SubmitCopy) : Nat := min 16 ((x.endByte + 3) / 4 - x.nextByte / 4)

/-- The characters of the area that a composition read brings: the low 7 bits of each byte (R49). -/
def State.compositionChars (s : State) (x : SubmitCopy) (start words : Nat) : List OfficeChar :=
  (List.range (min (start + 4 * words) x.endByte - x.nextByte)).map (fun i => charOfByte (s.mem.read (x.nextByte + i)))

/-- Decide the next composition read of the copy (R170). -/
def decideComposition (s : State) : State :=
  match s.submitCopy with
  | none => s
  | some x => decideEntry (.compositionRead x.readStart x.readWords) s

/-! ## The end of the copy (R49) -/

/-- The copy ends: the Local Position's assembler holds nothing more, and SUBMIT is answered. -/
def endSubmit (code : AnswerCode) (result : Nat) (s : State) : State :=
  answerInFlight code result ({ s with submitCopy := none }.modRx 0 (fun r => r.clear .off))

/-- The id of the transit the copy fills. -/
def State.submitTransit (s : State) : Nat :=
  match (s.rx 0).transit with
  | none => 0
  | some t => t.val

/-- The last character has been taken: the message completes as at a closing group (R49). -/
def completeSubmit (s : State) : State :=
  let r := completeMessage 0 id s
  if r.2 then endSubmit .duplicate 0 r.1 else endSubmit .done s.submitTransit r.1

/-! ## Taking the characters (R49) -/

/-- The copy waits for a block buffer: both are WRITING and the next character would be stored (R49). -/
def State.submitWaits (s : State) : Bool :=
  (s.rx 0).bothWriting &&
    match (s.rx 0).transit with
    | none => false
    | some t => match s.transit? t with
      | none => false
      | some r => decide (r.stored < s.storedLimit)

/-- Take characters one by one, up to the end of the copy or a wait for a buffer; when all that were read have been taken,
the next read is decided or the message completes (R49, R170). -/
def submitChars : List OfficeChar → State → State
  | [], s => match s.submitCopy with
    | none => s
    | some x => if x.fetched < x.length then decideComposition s else completeSubmit s
  | c :: cs, s =>
    if s.submitWaits then
      { s with submitCopy := s.submitCopy.map (fun x => { x with waiting := c :: cs }) }
    else
      let r := assemble 0 c s
      match r.2 with
      | .goesOn => submitChars cs r.1
      | .refused => endSubmit .poolLow 0 r.1
      | .lostPool => endSubmit .poolLow 0 r.1
      | .truncated => endSubmit .done s.submitTransit r.1

/-- A composition read has been carried out: its characters are taken. -/
def takeComposition (start words : Nat) (s : State) : State :=
  match s.submitCopy with
  | none => s
  | some x =>
    let cs := s.compositionChars x start words
    submitChars cs { s with submitCopy := some { x with fetched := x.fetched + cs.length } }

/-- A block buffer of the Local Position's assembler has become FREE: a copy that waited goes on (R49). -/
def resumeSubmit (s : State) : State :=
  match s.submitCopy with
  | none => s
  | some x =>
    if x.waiting = [] then s else submitChars x.waiting { s with submitCopy := some { x with waiting := [] } }

/-! ## The checks and the start (R48) -/

/-- Two byte areas, each from a first byte to the byte behind its last, have a byte in common. -/
def areasOverlap (a b c d : Nat) : Bool := decide (a < d) && decide (c < b)

/-- The composition area is refused: its length, its place, or an overlap with the window or the pool (R48). -/
def State.badComposition (s : State) (address length : Nat) : Bool :=
  length == 0 || decide (s.storedLimit < length) || decide (Config.spaceBytes ≤ address) ||
    decide (Config.spaceBytes < address + length) ||
    areasOverlap address (address + length) s.windowBase (s.windowBase + Config.windowBytes) ||
    match s.pool with
    | none => false
    | some p => areasOverlap address (address + length) p.base (p.base + 64 * p.count)

/-- The copy begins with a record taken for line 0 (R48). -/
def beginSubmit (c : Command) (t : TransitId) (s : State) : State :=
  decideComposition ({ s with
    inFlight := some c
    submitCopy := some { address := c.argA.toNat, length := c.argB.toNat, fetched := 0, waiting := [] } }.modRx 0
      (fun r => { r.clear .heading with transit := some t }))

end Sys2Proof.Machine
end

