-- ==== Sys2Proof/Machine/Reset.lean ====
section
/-! DEFINITION. The two resets (R164, R174) and the areas of the load pass (R154). -/
namespace Sys2Proof.Machine

/-! ## The areas of the load pass (R154) -/

/-- Where read `k` of the load pass begins, as a window offset, and how many words it fetches. -/
def tableSpan (k : Nat) : Nat × Nat :=
  if k < 4 then (0x1000 + 64 * k, 16)
  else if k < 5 then (0x1100, 8)
  else if k < 6 then (0x1200, 16)
  else if k < 8 then (0x1240 + 64 * (k - 6), 16)
  else if k < 32 then (0x1400 + 64 * (k - 8), 16)
  else if k < 80 then (0x2000 + 64 * (k - 32), 16)
  else (0x3000 + 64 * (k - 80), 16)

/-- The read of the load pass that carries the table word at a window offset. -/
def tableReadOf (off : Nat) : Nat :=
  if off < 0x1100 then (off - 0x1000) / 64
  else if off < 0x1200 then 4
  else if off < 0x1240 then 5
  else if off < 0x1400 then 6 + (off - 0x1240) / 64
  else if off < 0x2000 then 8 + (off - 0x1400) / 64
  else if off < 0x3000 then 32 + (off - 0x2000) / 64
  else 80 + (off - 0x3000) / 64

/-- A table word is loaded: no pass is under way, or the read that carries it has been carried out (R154, R155). -/
def State.tableLoaded (s : State) (off : Nat) : Bool :=
  s.officeState != .loading || decide (tableReadOf off < s.loadDone)

/-! ## RESET OFFICE (R164) -/

/-- The writes decided at an office reset, then the load pass's first reads, up to the FIFO's 32 places (R164).  The order
within the event words and within the delivery indices, and an entry for each word, are the model's (DESIGN CHOICE, log
entry 41). -/
def officeResetFifo : List FifoEntry :=
  [.stateWrite [.event], .stateWrite [.enable], .stateWrite [.informOnly], .indexWrite 0, .stateWrite [.readIndex],
    .stateWrite [.office 0]] ++ (List.range 26).map FifoEntry.tableRead

/-- The office reset made by a RESET OFFICE that has been taken, the command staying in flight (R164, R174, R186). -/
def officeReset (c : Command) (s : State) : State :=
  { State.reset with
    pending := s.pending
    windowK := s.windowK
    mem := s.mem
    fifo := officeResetFifo
    loadDecided := 26
    readData := s.readData
    shadow := s.shadow
    inFlight := some c
    lastAnswer := s.lastAnswer
    divider := s.divider
    officeTime := s.officeTime
    choices := s.choices }

/-- An office reset was made between two states: the office has become LOADING. -/
def resetMade (old new : State) : Bool := new.officeState == .loading && old.officeState != .loading

/-! ## POWER_ON_RESET (R165, R166, R174) -/

/-- The RESET pin: the window base is latched from the straps, memory keeps what it held, and all else takes its power-on
value. -/
def powerOn (straps : Fin 16) (s : State) : State :=
  { State.reset with
    pending := s.pending
    windowK := straps
    mem := s.mem
    choices := s.choices }

/-- POWER_ON_RESET (R174). -/
def execPowerOnReset (straps : Fin 16) (s : State) : Host.Outcome State Fault Refusal := .next (powerOn straps s)

end Sys2Proof.Machine
end

