-- ==== Sys2Proof/Machine/Commands.lean ====
section
/-! DEFINITION. The Command Unit (10.5): taking the command word, and the effect of each of the eleven commands. -/
namespace Sys2Proof.Machine

/-- The circuit that a command's line field names; none outside 1 to 48. -/
def circuitOf (line : BitVec 8) : Option Line :=
  if h : 1 ≤ line.toNat ∧ line.toNat < 49 then some ⟨line.toNat, h.2⟩ else none

/-- Act on the circuit a command names, or answer BAD_LINE. -/
def onCircuit (c : Command) (f : Line → State → State) (s : State) : State :=
  match circuitOf c.line with
  | none => answer c.tag .badLine 0 s
  | some n => f n s

/-! ## START LINE (R119) -/

/-- The changes START LINE makes to the check state of a line, with reload PENDING (R119). -/
def beginReload (n : Line) (s : State) : State :=
  s.modLine n (fun l =>
    { l with
      rx := { l.rx with breakSeen := false }
      mon := { l.mon with
        reloadPending := true, failures := 0, firstCheck := false, outstanding := none, owed := none, timer := none
        lastExpiry := none } })

/-- START LINE on a circuit. -/
def startCircuit (c : Command) (n : Line) (s : State) : State :=
  if (s.mon n).condition = .stopped then
    decideEntry (.lineEntryRead n) (beginReload n (setCondition n .starting { s with inFlight := some c }))
  else answer c.tag .wrongState 0 s

def effectStartLine (c : Command) (s : State) : State := onCircuit c (startCircuit c) s

/-! ## STOP LINE (R106, R122) -/

/-- The message in hand is cut or goes on to its end, with the stop mark set; the pending slot is emptied (R103, R106, R144).
In CLOSING and CUTTING the character that waited in it is still the one due, and the next read looks it up afresh (DESIGN
CHOICE, log entry 42: R103 says that it is not offered). -/
def markStop (n : Line) (s : State) : State := s.modTx n (fun t => { t with stopMark := true, slot := none })

/-- STOP LINE reaches the transmitter; a line that was in TEST sends no cut sequence (R106). -/
def stopTransmitter (n : Line) (wasTest : Bool) (s : State) : State :=
  match (s.tx n).state with
  | .off => s
  | .idle => endMessage n .off s
  | .service => endMessage n .off s
  | .heading => if wasTest then leaveSending n .off true s else markStop n (startCut n true s)
  | .text => if wasTest then leaveSending n .off true s else markStop n (startCut n true s)
  | .cutting => if wasTest then leaveSending n .off true s else markStop n s
  | .closing => if wasTest then leaveSending n .off true s else markStop n s
  | .stalled => leaveSending n .off true s

/-- The checks of a line are dropped (R122 step 4). -/
def dropChecks (n : Line) (s : State) : State :=
  s.modMon n (fun m =>
    { m with outstanding := none, timer := none, owed := none, firstCheck := false, lastExpiry := none })

/-- STOP LINE on a circuit, in the order of R122: LINE_CONDITION is posted, then the words of the Line Status Record that hold
what the command sets are rewritten, then the answer is decided (DEDUCED, log entry 9). -/
def stopCircuit (c : Command) (n : Line) (s : State) : State :=
  if (s.mon n).condition = .stopped then answer c.tag .done 0 s
  else
    let wasTest := (s.mon n).condition == .test
    let s1 := stopTransmitter n wasTest (stopReceiver n (changeCondition n .stopped s))
    answer c.tag .done 0 (rewriteLine n [0, 1, 2, 3] (post .lineCondition (lineLoss n (dropChecks n s1))))

def effectStopLine (c : Command) (s : State) : State := onCircuit c (stopCircuit c) s

/-! ## TEST LINE (R123) -/

/-- A transmitter is still finishing a message under the stop mark (R106). -/
def State.finishing (s : State) (n : Line) : Bool := (s.tx n).stopMark

/-- TEST LINE on a circuit: LINE_CONDITION is posted and the word of the Line Status Record that holds the condition is
rewritten, then the answer is decided (R118, R123; DEDUCED, log entry 9). -/
def testCircuit (c : Command) (n : Line) (s : State) : State :=
  if (s.mon n).condition = .stopped ∧ s.finishing n = false then
    let s1 := startTransmitter n (startReceiver n (changeCondition n .test s))
    answer c.tag .done 0 (rewriteLine n [0] (post .lineCondition (s1.modTx n (fun t => { t with pacing := 0 }))))
  else answer c.tag .wrongState 0 s

def effectTestLine (c : Command) (s : State) : State := onCircuit c (testCircuit c) s

/-! ## SUBMIT (R48) -/

def effectSubmit (c : Command) (s : State) : State :=
  if s.badComposition c.argA.toNat c.argB.toNat then answer c.tag .badArgument 0 s
  else match takeTransit 0 s with
    | none => answer c.tag .noRecord 0 s
    | some (t, s1) => beginSubmit c t s1

/-! ## CANCEL (R20, R21) -/

/-- CANCEL on the copy in the sending position of a circuit, by the state of its transmitter (R21). -/
def cancelSending (n : Line) (c : CopyId) (s : State) : State × Nat :=
  let emptied := s.modTx n (fun t => { t with sending := none, cutReturn := false })
  match (s.tx n).state with
  | .heading => (freeCopy c (startCut n false emptied), 1)
  | .text => (freeCopy c (startCut n false emptied), 1)
  | .cutting => (freeCopy c emptied, 1)
  | .stalled => (freeCopy c emptied, 1)
  | _ => (s, 0)

/-- CANCEL on one copy, by where it stands; the number is 1 when the copy is freed (R21). -/
def cancelCopy (t : TransitId) (c : CopyId) (s : State) : State × Nat :=
  match s.copy? c with
  | none => (s, 0)
  | some x =>
    if x.transit = t then
      match x.state, x.line with
      | .queued, some n => (freeCopy c (unqueue n c s), 1)
      | .held, _ => (freeCopy c (unhold c s), 1)
      | .sending, some n => cancelSending n c s
      | _, _ => (s, 0)
    else (s, 0)

/-- Treat a list of copies in order, adding up what was freed. -/
def cancelCopies (t : TransitId) : List CopyId → State → State × Nat
  | [], s => (s, 0)
  | c :: cs, s =>
    let r := cancelCopy t c s
    let r' := cancelCopies t cs r.1
    (r'.1, r.2 + r'.2)

/-- The record has the origin pair of the command. -/
def Transit.hasOrigin (r : Transit) (origin : StationCode) (serial : Nat) : Bool :=
  r.origin == some origin && r.serial == some serial

/-- CANCEL on one record (R20). -/
def cancelTransit (t : TransitId) (s : State) : State × Nat :=
  match s.transit? t with
  | none => (s, 0)
  | some r => match r.state with
    | .receiving => (s, 0)
    | .waiting => (freeTransit t s, 0)
    | .inTransit => cancelCopies t (List.finRange 768) s

/-- Treat a list of records in order, adding up what was freed. -/
def cancelTransits : List TransitId → State → State × Nat
  | [], s => (s, 0)
  | t :: ts, s =>
    let r := cancelTransit t s
    let r' := cancelTransits ts r.1
    (r'.1, r.2 + r'.2)

/-- The records that CANCEL acts on: IN_TRANSIT or WAITING with the origin pair (R20).  They are treated in ascending id, and
the copies of each in ascending id: the manual gives no order (DESIGN CHOICE, log entry 37). -/
def State.cancelMatches (s : State) (origin : StationCode) (serial : Nat) : List TransitId :=
  (List.finRange 256).filter (fun t =>
    match s.transit? t with
    | none => false
    | some r => r.state != .receiving && r.hasOrigin origin serial)

def effectCancel (c : Command) (s : State) : State :=
  if !isFourLetters c.argA || c.argB.toNat == 0 || decide (9999 < c.argB.toNat) then answer c.tag .badArgument 0 s
  else
    let ts := s.cancelMatches c.argA c.argB.toNat
    if ts = [] then answer c.tag .notFound 0 s
    else
      let r := cancelTransits ts s
      answer c.tag .done r.2 (considerWaitList r.1)

/-! ## REROUTE LINE (R91) and RETRY HELD (R92) -/

/-- REROUTE LINE on a circuit: the line loss action, answered with the number of copies that left the queue (R91). -/
def rerouteCircuit (c : Command) (n : Line) (s : State) : State :=
  let q := s.queue n
  let r := lossWalk n q s
  let left := q.countP (fun d => !(r.1.queue n).contains d)
  answer c.tag .done left (afterAction [n] r)

def effectRerouteLine (c : Command) (s : State) : State := onCircuit c (rerouteCircuit c) s

def effectRetryHeld (c : Command) (s : State) : State :=
  let r := reexamineHoldList s
  answer c.tag .done r.2 r.1

/-! ## SET SEQUENCE (R47), CLEAR COUNTERS (R134), SET TIME (R185) -/

/-- The expected-in number that next-in gives: UNKNOWN for 0 (R47). -/
def expectedOf (nextIn : Nat) : Option Nat := if nextIn = 0 then none else some nextIn

/-- SET SEQUENCE on a circuit: both numbers are set, the word of the Line Status Record that holds them is rewritten, also
when they are those in force already, and the answer follows (R47; DEDUCED, log entry 9). -/
def setSequence (c : Command) (n : Line) (s : State) : State :=
  if c.argA.toNat ≤ 999 ∧ 1 ≤ c.argB.toNat ∧ c.argB.toNat ≤ 999 then
    answer c.tag .done 0 (rewriteLine n [2] (s.modLine n (fun l =>
      { l with
        rx := { l.rx with expectedIn := expectedOf c.argA.toNat }
        tx := { l.tx with nextOut := c.argB.toNat } })))
  else answer c.tag .badArgument 0 s

def effectSetSequence (c : Command) (s : State) : State := onCircuit c (setSequence c) s

/-- CLEAR COUNTERS on a circuit: the words of the Line Status Record that hold DEGRADED and the counters are rewritten, also
when they were clear already, and the answer follows; the latches are not touched (R134; DEDUCED, log entry 9). -/
def clearCounters (c : Command) (n : Line) (s : State) : State :=
  answer c.tag .done 0 (rewriteLine n [0, 4, 5, 6, 7] (recomputeDegraded n (s.modMon n (fun m => { m with counters := {} }))))

def effectClearCounters (c : Command) (s : State) : State := onCircuit c (clearCounters c) s

def effectSetTime (c : Command) (s : State) : State :=
  if Config.dayTenths ≤ c.argA.toNat then answer c.tag .badArgument 0 s
  else answer c.tag .done 0 { s with officeTime := c.argA.toNat }

/-- RESET OFFICE becomes the command in flight and makes the office reset (R164). -/
def effectResetOffice (c : Command) (s : State) : State := officeReset c s

/-! ## Taking a command (R182) -/

/-- The eleven commands (11.2). -/
inductive CommandKind
  | startLine | stopLine | testLine | submit | cancel | rerouteLine | retryHeld | setSequence | clearCounters | setTime
  | resetOffice
  deriving DecidableEq, Repr

/-- The command that a code names (11.2). -/
def commandKind (code : BitVec 8) : Option CommandKind :=
  match code.toNat with
  | 1 => some .startLine
  | 2 => some .stopLine
  | 3 => some .testLine
  | 4 => some .submit
  | 5 => some .cancel
  | 6 => some .rerouteLine
  | 7 => some .retryHeld
  | 8 => some .setSequence
  | 9 => some .clearCounters
  | 10 => some .setTime
  | 11 => some .resetOffice
  | _ => none

/-- The effect of a command that has been taken. -/
def commandEffect (k : CommandKind) (c : Command) (s : State) : State :=
  match k with
  | .startLine => effectStartLine c s
  | .stopLine => effectStopLine c s
  | .testLine => effectTestLine c s
  | .submit => effectSubmit c s
  | .cancel => effectCancel c s
  | .rerouteLine => effectRerouteLine c s
  | .retryHeld => effectRetryHeld c s
  | .setSequence => effectSetSequence c s
  | .clearCounters => effectClearCounters c s
  | .setTime => effectSetTime c s
  | .resetOffice => effectResetOffice c s

/-- No command is taken: the office is LOADING or a command is in flight (R182 step 1). -/
def State.commandBusy (s : State) : Bool := s.officeState == .loading || s.inFlight.isSome

/-- Decide a command in the order of R182. -/
def takeCommand (c : Command) (s : State) : State :=
  if s.commandBusy then answer c.tag .busy 0 s
  else match commandKind c.code with
    | none => answer c.tag .noSuchCommand 0 s
    | some k =>
      if s.officeState = .haltedConfig ∧ k ≠ .resetOffice then answer c.tag .wrongState 0 s
      else commandEffect k c s

/-- The command that the captured words give (R182). -/
def State.capturedCommand (s : State) : Command where
  code := byteOf s.commandWord 0
  line := byteOf s.commandWord 1
  tag := s.commandWord.extractLsb' 16 16
  argA := s.argA
  argB := s.argB
  argC := s.argC

/-- The command word as captured after a bus write: it reaches memory and its enabled bytes are merged (R182). -/
def captureCommand (bus : Word) (be : ByteEnables) (s : State) : State :=
  { s.forwardWindow 0 bus be with commandWord := mergeWord s.commandWord bus be }

/-- A bus write of the command word: it is captured, and the merged word is taken as a command (R182).  The writes of an
office reset are those of R164, so no status word is rewritten in its step. -/
def commandWrite (code line : BitVec 8) (tag : BitVec 16) (be : ByteEnables) (s : State) :
    Host.Outcome State Fault Refusal :=
  if be = 0 then .next s
  else
    let s1 := captureCommand (commandWordOf code line tag) be s
    let s2 := takeCommand s1.capturedCommand s1
    if resetMade s s2 then .next s2 else done s s2

/-! ## The twelve rows -/

/-- START_LINE (R119). -/
def execStartLine (line : BitVec 8) (tag : BitVec 16) (be : ByteEnables) (s : State) : Host.Outcome State Fault Refusal :=
  commandWrite 1 line tag be s

/-- STOP_LINE (R122). -/
def execStopLine (line : BitVec 8) (tag : BitVec 16) (be : ByteEnables) (s : State) : Host.Outcome State Fault Refusal :=
  commandWrite 2 line tag be s

/-- TEST_LINE (R123). -/
def execTestLine (line : BitVec 8) (tag : BitVec 16) (be : ByteEnables) (s : State) : Host.Outcome State Fault Refusal :=
  commandWrite 3 line tag be s

/-- SUBMIT (R48). -/
def execSubmit (line : BitVec 8) (tag : BitVec 16) (be : ByteEnables) (s : State) : Host.Outcome State Fault Refusal :=
  commandWrite 4 line tag be s

/-- CANCEL (R20). -/
def execCancel (line : BitVec 8) (tag : BitVec 16) (be : ByteEnables) (s : State) : Host.Outcome State Fault Refusal :=
  commandWrite 5 line tag be s

/-- REROUTE_LINE (R91). -/
def execRerouteLine (line : BitVec 8) (tag : BitVec 16) (be : ByteEnables) (s : State) :
    Host.Outcome State Fault Refusal :=
  commandWrite 6 line tag be s

/-- RETRY_HELD (R92). -/
def execRetryHeld (line : BitVec 8) (tag : BitVec 16) (be : ByteEnables) (s : State) : Host.Outcome State Fault Refusal :=
  commandWrite 7 line tag be s

/-- SET_SEQUENCE (R47). -/
def execSetSequence (line : BitVec 8) (tag : BitVec 16) (be : ByteEnables) (s : State) :
    Host.Outcome State Fault Refusal :=
  commandWrite 8 line tag be s

/-- CLEAR_COUNTERS (R134). -/
def execClearCounters (line : BitVec 8) (tag : BitVec 16) (be : ByteEnables) (s : State) :
    Host.Outcome State Fault Refusal :=
  commandWrite 9 line tag be s

/-- SET_TIME (R185). -/
def execSetTime (line : BitVec 8) (tag : BitVec 16) (be : ByteEnables) (s : State) : Host.Outcome State Fault Refusal :=
  commandWrite 10 line tag be s

/-- RESET_OFFICE (R164). -/
def execResetOffice (line : BitVec 8) (tag : BitVec 16) (be : ByteEnables) (s : State) :
    Host.Outcome State Fault Refusal :=
  commandWrite 11 line tag be s

/-- NO_SUCH_COMMAND (R182): the write carries a code that names no command. -/
def execNoSuchCommand (code line : BitVec 8) (tag : BitVec 16) (be : ByteEnables) (s : State) :
    Host.Outcome State Fault Refusal :=
  commandWrite code line tag be s

end Sys2Proof.Machine
end

