-- ==== Sys2Proof/WellFormed.lean ====
section
/-! DEFINITION. Which terms of Instr are accesses and events the 4806 can meet. -/
namespace Sys2Proof

/-- The line is a circuit, 1 to 48: only circuits have cells, timers and a TEST condition (00 Lines). -/
def Line.isCircuit (n : Line) : Bool := n != 0

/-- The code names one of the eleven commands (11.2). -/
def isCommandCode (code : BitVec 8) : Bool := decide (1 ≤ code.toNat) && decide (code.toNat ≤ 11)

/-- The window offset lies in one of the seven areas of the Office Table (Chapter 8). -/
def inTableArea (off : Nat) : Bool :=
  (decide (0x1000 ≤ off) && decide (off < 0x1120)) || (decide (0x1200 ≤ off) && decide (off < 0x12C0)) ||
    (decide (0x1400 ≤ off) && decide (off < 0x1A00)) || (decide (0x2000 ≤ off) && decide (off < 0x2C00)) ||
    (decide (0x3000 ≤ off) && decide (off < 0x4000))

/-- The window offset of the Office Table word `index` (R167). -/
def tableOffset (index : Fin 3072) : Nat := 0x1000 + 4 * index.val

/-- A command word write has a byte enabled (R182). -/
def anyEnabled (be : ByteEnables) : Bool := be != 0

/-- The well-formed commands. -/
def WellFormed : Instr → Bool
  | .startLine _ _ be => anyEnabled be
  | .stopLine _ _ be => anyEnabled be
  | .testLine _ _ be => anyEnabled be
  | .submit _ _ be => anyEnabled be
  | .cancel _ _ be => anyEnabled be
  | .rerouteLine _ _ be => anyEnabled be
  | .retryHeld _ _ be => anyEnabled be
  | .setSequence _ _ be => anyEnabled be
  | .clearCounters _ _ be => anyEnabled be
  | .setTime _ _ be => anyEnabled be
  | .resetOffice _ _ be => anyEnabled be
  | .noSuchCommand code _ _ be => anyEnabled be && !isCommandCode code
  | .argumentWrite _ _ _ => true
  | .receiveCellWrite n _ _ => n.isCircuit
  | .sendCellRead n => n.isCircuit
  | .eventWordWrite _ _ => true
  | .enableWordWrite _ _ => true
  | .informOnlyWordWrite _ _ => true
  | .deliveryReadIndexWrite _ _ => true
  | .officeTimeRead => true
  | .lineStatusWord0Read _ => true
  | .blockedWrite _ _ _ => true
  | .officeTableWrite index _ _ => inTableArea (tableOffset index)
  | .powerOnReset _ => true
  | .clockAdvance => true
  | .testCharacterPeriodEnd n => n.isCircuit
  | .receiveTimeout n => n.isCircuit
  | .transmitStall n => n.isCircuit
  | .answerTimerExpiry n => n.isCircuit
  | .copyOverdue _ => true
  | .textBlockWriteDone => true
  | .textBlockReadDone => true
  | .tableReadDone => true
  | .lineEntryReadDone => true
  | .compositionReadDone => true
  | .ownWriteCarriedOut => true
  | .fifoEntryJoin => true

end Sys2Proof
end

