-- ==== Sys2Proof/Machine/BusRows.lean ====
section
/-! DEFINITION. Bus accesses (Chapter 9): the treatment of an address, reads answered from pending writes, and the rows of
the table that are a bus write or a bus read. -/
namespace Sys2Proof.Machine

/-! ## Bus reads (R173) -/

/-- A word of four office characters of a block, from its 60 characters. -/
def charsWord (cs : List OfficeChar) (j : Nat) : Word :=
  wordOfBytes ((cs.getD (4 * j) 0).setWidth 8) ((cs.getD (4 * j + 1) 0).setWidth 8) ((cs.getD (4 * j + 2) 0).setWidth 8)
    ((cs.getD (4 * j + 3) 0).setWidth 8)

/-- The words of a text block write: a link of 0 and 60 characters (R16, R37). -/
def textWords (cs : Vector OfficeChar 60) : List Word := 0 :: (List.range 15).map (charsWord cs.toList)

/-- The word of a run of words, at byte address `base`, that stands at byte address `a`. -/
def wordOfRun (base : Nat) (ws : List Word) (a : Nat) : Option Word :=
  if base ≤ a ∧ (a - base) % 4 = 0 then ws[(a - base) / 4]? else none

/-- The byte address of a ring slot (11.6). -/
def State.slotAddress (s : State) (slot : Nat) : Nat := s.windowBase + 0x10000 + 32 * slot

/-- The value that a pending entry will carry to the word at an address; none when it does not write the word (R173). -/
def State.pendingValue (s : State) (a : Nat) : FifoEntry → Option Word
  | .textWrite _ _ base cs => wordOfRun base (textWords cs) a
  | .linkWrite at' v => if a = at' then some (BitVec.ofNat 32 v) else none
  | .recordWrite slot ws => wordOfRun (s.slotAddress slot) ws a
  | .indexWrite i => if a = s.windowBase + 0x34 then some (i.setWidth 32) else none
  | .answerWrite x y => wordOfRun (s.windowBase + 0x10) [x, y] a
  | .stateWrite ws => (ws.find? (fun w => decide (a = s.windowBase + w.offset))).map s.stateWord
  | .textRead _ _ _ => none
  | .compositionRead _ _ => none
  | .tableRead _ => none
  | .lineEntryRead _ => none

/-- A bus read of a word: the last pending write of it decides, else memory (R173).  A write that still waits for room is
not in the FIFO and decides nothing (DESIGN CHOICE, log entry 35); `State.readWord0` says what R181 asks beyond this. -/
def State.busRead (s : State) (a : Nat) : Word := (s.fifo.reverse.findSome? (s.pendingValue a)).getD (s.mem.readWord a)

/-! ## Captured words (R177, R178, R182) -/

/-- ARGUMENT_WRITE (R182). -/
def execArgumentWrite (which : Argument) (value : Word) (be : ByteEnables) (s : State) :
    Host.Outcome State Fault Refusal :=
  if be = 0 then .next s
  else match which with
  | .a => .next { s.forwardWindow 0x04 value be with argA := mergeWord s.argA value be }
  | .b => .next { s.forwardWindow 0x08 value be with argB := mergeWord s.argB value be }
  | .c => .next { s.forwardWindow 0x0C value be with argC := mergeWord s.argC value be }

/-- A change of a word that a state write carries decides that write (R172; log entry 19). -/
def decideIfChanged (changed : Bool) (w : StateWord) (s : State) : State := if changed then decideState w s else s

/-- ENABLE_WORD_WRITE (R177). -/
def execEnableWordWrite (value : Word) (be : ByteEnables) (s : State) : Host.Outcome State Fault Refusal :=
  if be = 0 then .next s
  else
    let w := mergeWord s.enableWord value be
    .next (decideIfChanged (w != s.enableWord) .enable ((s.forwardWindow 0x24 value be).setEnable w))

/-- The recovery of a class (R179); the other classes have none. -/
def recover (c : EventClass) (s : State) : State :=
  match c with
  | .rxStall => recoverReceivers s
  | .txStall => recoverTransmitters s
  | .routeHold => (reexamineHoldList s).1
  | _ => s

/-- Run the recoveries of the classes marked, in the order RX_STALL, TX_STALL, ROUTE_HOLD (R179). -/
def recoverMarked (rx tx hold : Bool) (s : State) : State :=
  let s1 := if rx then recover .rxStall s else s
  let s2 := if tx then recover .txStall s1 else s1
  if hold then recover .routeHold s2 else s2

/-- INFORM_ONLY_WORD_WRITE (R178).  A write that carries several of bits 3 to 5 runs its recoveries in the order that R179
gives for a clear (DESIGN CHOICE, log entry 34). -/
def execInformOnlyWordWrite (value : Word) (be : ByteEnables) (s : State) : Host.Outcome State Fault Refusal :=
  if be = 0 then .next s
  else
    let w := mergeWord s.informOnly value be
    let bits := enabledBits value be
    let s1 := decideIfChanged (w != s.informOnly) .informOnly { s.forwardWindow 0x28 value be with informOnly := w }
    done s (recoverMarked (bits.getLsbD 3) (bits.getLsbD 4) (bits.getLsbD 5) s1)

/-! ## The Event Word (R176, R179) -/

/-- The clear calls for the recovery of a class: the class was pending, the write carries its bit as 1, and the class is
not inform-only (R179). -/
def State.clearRecovers (s : State) (bits : Word) (c : EventClass) : Bool :=
  s.isPending c && bits.getLsbD c.bit && !s.isInformOnly c

/-- The pending set without the classes the write carries as 1 (R176). -/
def clearedEvents (events : BitVec 13) (bits : Word) : BitVec 13 := events &&& ~~~(bits.setWidth 13)

/-- The clear itself: the pending set, the interrupt output and the word in memory (R176, R177). -/
def clearEvents (bits : Word) (s : State) : State :=
  let e := clearedEvents s.events bits
  let s1 := decideIfChanged (e != s.events) .event (s.setEvents e)
  s1.forwardWindow 0x20 s1.eventWord 15

/-- EVENT_WORD_WRITE (R176). -/
def execEventWordWrite (value : Word) (be : ByteEnables) (s : State) : Host.Outcome State Fault Refusal :=
  if be = 0 then .next s
  else
    let bits := enabledBits value be
    done s (recoverMarked (s.clearRecovers bits .rxStall) (s.clearRecovers bits .txStall) (s.clearRecovers bits .routeHold)
      (clearEvents bits s))

/-! ## The delivery read index (R114, R115) -/

/-- The new read index: v clamped between the read index r and the write index w (R114). -/
def clampIndex (r w v : BitVec 16) : BitVec 16 :=
  if (v - r).toNat ≤ (w - r).toNat then v else if (r - v).toNat < 32768 then r else w

/-- The value written, merged with the present read index: bytes 0 and 1 only (11.3, R114). -/
def State.mergedIndex (s : State) (value : Word) (be : ByteEnables) : BitVec 16 :=
  (mergeWord (s.readIndex.setWidth 32) value be).setWidth 16

/-- A delivery number lies from r up to but not including the new read index (R115). -/
def isPassed (r new k : BitVec 16) : Bool := decide ((k - r).toNat < (new - r).toNat)

/-- Free the copies that a move of the read index acknowledges, in the order in which they were delivered, of which the
manual makes one event (R7, R115; DESIGN CHOICE, log entry 37). -/
def acknowledge (r new : BitVec 16) (s : State) : State :=
  freeAll ((s.awaiting.filter (fun p => isPassed r new p.1)).map (·.2))
    { s with awaiting := s.awaiting.filter (fun p => !isPassed r new p.1) }

/-- DELIVERY_READ_INDEX_WRITE (R114, R115).  The read index has moved before the copies are freed, so a local copy that the
Copy Wait List's service places in queue 0 already finds the passed slots free (R112) and may be delivered inside the service;
queue 0 is looked at once more after it (DESIGN CHOICE, log entry 44: R115 says only that the slots are then free). -/
def execDeliveryReadIndexWrite (value : Word) (be : ByteEnables) (s : State) : Host.Outcome State Fault Refusal :=
  if be = 0 then .next s
  else
    let r := s.readIndex
    let new := clampIndex r s.writeIndex (s.mergedIndex value be)
    let s1 := { s with readIndex := new }.forwardWindow 0x38 (new.setWidth 32) 15
    if new = r then done s s1
    else done s (deliver (considerWaitList (acknowledge r new (decideState .readIndex s1))))

/-! ## The Scan Page (R23, R94) -/

/-- The receiver of a line takes a receive-cell write (R23). -/
def State.takesArrivals (s : State) (n : Line) : Bool :=
  n != 0 && (s.rx n).state != .off && (s.mon n).condition != .test

/-- RECEIVE_CELL_WRITE (R23). -/
def execReceiveCellWrite (n : Line) (value : Word) (be : ByteEnables) (s : State) : Host.Outcome State Fault Refusal :=
  if be = 0 then .next s
  else
    let s1 := s.forwardWindow (0xF8 + 8 * n.val) value be
    if s.takesArrivals n then done s (takeWrite n value be s1) else .next s1

/-- SEND_CELL_READ (R94); the word at line 0's place is ordinary memory. -/
def execSendCellRead (n : Line) (s : State) : Host.Outcome State Fault Refusal :=
  if n = 0 then .next { s with readData := s.busRead (s.windowBase + 0xFC) }
  else
    let r := readSendCell n s
    done s { r.1 with readData := r.2 }

/-! ## Office time (R184) and the latches (R181) -/

/-- OFFICE_TIME_READ (R184). -/
def execOfficeTimeRead (s : State) : Host.Outcome State Fault Refusal :=
  .next { s with readData := BitVec.ofNat 32 s.officeTime }

/-- The latches of a Line Status Record re-armed; those of line 0 stay clear (R181). -/
def rearm (n : Line) (s : State) : State :=
  s.modLine n (fun l => { l with heldActive := n != 0 && l.mon.condition == .active, errorLatch := false })

/-- What a read of word 0 of a Line Status Record is answered with: the latches as they stand (R181), so the word's present
value also while a state write of it still waits for room (DEDUCED, log entry 35); else as any word is (R173). -/
def State.readWord0 (s : State) (n : Line) : Word :=
  if s.stateWriteWaits (.line n 0) then s.stateWord (.line n 0)
  else s.busRead (s.windowBase + (StateWord.line n 0).offset)

/-- LINE_STATUS_WORD_0_READ (R181). -/
def execLineStatusWord0Read (n : Line) (s : State) : Host.Outcome State Fault Refusal :=
  done s (decideState (.line n 0) (rearm n { s with readData := s.readWord0 n }))

/-! ## Office Table writes (R155, R157 to R160) -/

/-- The line whose entry holds the table word at a window offset, with the word's place in the entry (11.7). -/
def lineEntryWord (off : Nat) : Option (Line × Fin 8) :=
  if h : 0x1400 ≤ off ∧ off < 0x1A00 then
    some (⟨(off - 0x1400) / 32 + 1, by omega⟩, ⟨(off - 0x1400) / 4 % 8, by omega⟩)
  else none

/-- The bytes a write carries come into force in a line entry. -/
def mergeEntry (n : Line) (i : Fin 8) (value : Word) (be : ByteEnables) (s : State) : State :=
  s.modLine n (fun l => { l with entry := l.entry.set i.val (mergeWord l.entry[i] value be) })

/-- The "table differs" flag of a line is set and the word of its Line Status Record that holds it is rewritten, also when
the flag was set already; TABLE is posted when it was clear (R159; DEDUCED, log entry 9). -/
def flagTableDiffers (n : Line) (s : State) : State :=
  let s1 := decideState (.line n 0) (s.modLine n (fun l => { l with tableDiffers := true }))
  if (s.line n).tableDiffers then s1 else post .table s1

/-- A snooped write to a word of a line entry (R159). -/
def writeLineEntry (n : Line) (i : Fin 8) (value : Word) (be : ByteEnables) (s : State) : State :=
  let m := s.mon n
  if m.condition = .stopped ∧ m.reloadPending = false then recomputeDegraded n (mergeEntry n i value be s)
  else if m.condition = .starting ∧ m.reloadPending = true then s
  else flagTableDiffers n s

/-- A snooped write to the pool geometry or the ring size, in an office that is not LOADING: the pool-differs flag is set
and the word of the Office Status Record that holds it is rewritten, also when the flag was set already; TABLE is posted when
it was clear (R160; DEDUCED, log entry 9). -/
def writeGeometry (s : State) : State :=
  if s.officeState = .loading then s
  else
    let s1 := decideState (.office 0) { s with poolDiffers := true }
    if s.poolDiffers then s1 else post .table s1

/-- Test every copy for overdue, in ascending id (R19). -/
def testAllOverdue (s : State) : State := (List.finRange 768).foldl (fun t c => testOverdue c t) s

/-- What a snooped write does beyond the shadow, by the word it writes (R158 to R160). -/
def snoopEffect (off : Nat) (value : Word) (be : ByteEnables) (s : State) : State :=
  match lineEntryWord off with
  | some (n, i) => writeLineEntry n i value be s
  | none =>
    if off = 0x1020 ∨ off = 0x1024 then writeGeometry s
    else if off = 0x1034 ∨ off = 0x1038 then testAllOverdue s
    else s

/-- A bus write to the table word at a window offset, forwarded and snooped into the shadow once loaded (R155, R157). -/
def tableWrite (off : Nat) (value : Word) (be : ByteEnables) (s : State) : State :=
  let s1 := s.forwardWindow off value be
  if s.tableLoaded off then snoopEffect off value be { s1 with shadow := s1.shadow.writeMasked off value be } else s1

/-- OFFICE_TABLE_WRITE (R157).  A word between the seven areas is ordinary memory (DESIGN CHOICE, log entry 8). -/
def execOfficeTableWrite (index : Fin 3072) (value : Word) (be : ByteEnables) (s : State) :
    Host.Outcome State Fault Refusal :=
  if be = 0 then .next s
  else if inTableArea (tableOffset index) then done s (tableWrite (tableOffset index) value be s)
  else .next (s.forwardWindow (tableOffset index) value be)

/-! ## The treatment of a bus write (R166 to R168) -/

/-- How a bus write to a word is treated. -/
inductive Treatment
  | blocked
  | plain
  | command
  | argument (which : Argument)
  | event
  | enable
  | informOnly
  | readIndex
  | receiveCell (n : Line)
  | table (index : Fin 3072)
  deriving DecidableEq, Repr

/-- The treatment of a bus write at a window offset that is a multiple of 4 (R167). -/
def windowTreatment (off : Nat) : Treatment :=
  if off = 0x00 then .command
  else if off = 0x04 then .argument .a
  else if off = 0x08 then .argument .b
  else if off = 0x0C then .argument .c
  else if off = 0x10 ∨ off = 0x14 then .blocked
  else if off = 0x20 then .event
  else if off = 0x24 then .enable
  else if off = 0x28 then .informOnly
  else if off = 0x30 ∨ off = 0x34 then .blocked
  else if off = 0x38 then .readIndex
  else if 0x40 ≤ off ∧ off < 0x80 then .blocked
  else if h : 0x100 ≤ off ∧ off < 0x280 then
    if off % 8 = 0 then .receiveCell ⟨(off - 0x100) / 8 + 1, by omega⟩ else .blocked
  else if 0x400 ≤ off ∧ off < 0xA20 then .blocked
  else if h : 0x1000 ≤ off ∧ off < 0x4000 then .table ⟨(off - 0x1000) / 4, by omega⟩
  else if 0x10000 ≤ off ∧ off < 0x12000 then .blocked
  else .plain

/-- The treatment of a bus write by its byte address: the window first, then the pool in force (R166). -/
def State.treatment (s : State) (a : Nat) : Treatment :=
  if s.inWindow a then windowTreatment (a / 4 * 4 - s.windowBase)
  else if s.inPool a then .blocked
  else .plain

/-- A blocked write: PROTECT and the protect count, nothing else (R168). -/
def protect (s : State) : State := post .protect (s.modCounts (fun k => { k with protect := sat16 k.protect 1 }))

/-- BLOCKED_WRITE (R168).  The row carries any address: a write whose address is not blocked gets the treatment that R166
and R167 give it (log entry 8). -/
def execBlockedWrite (address : Address) (value : Word) (be : ByteEnables) (s : State) :
    Host.Outcome State Fault Refusal :=
  if be = 0 then .next s
  else match s.treatment address.toNat with
    | .blocked => done s (protect s)
    | .plain => .next (s.forward (address.toNat / 4 * 4) value be)
    | .command => commandWrite (value.extractLsb' 0 8) (value.extractLsb' 8 8) (value.extractLsb' 16 16) be s
    | .argument which => execArgumentWrite which value be s
    | .event => execEventWordWrite value be s
    | .enable => execEnableWordWrite value be s
    | .informOnly => execInformOnlyWordWrite value be s
    | .readIndex => execDeliveryReadIndexWrite value be s
    | .receiveCell n => execReceiveCellWrite n value be s
    | .table index => execOfficeTableWrite index value be s

end Sys2Proof.Machine
end

