-- ==== Sys2Proof/Machine/ClockRows.lean ====
section
/-! DEFINITION. The rows driven by time: the Office Clock (R184), TEST pacing (R111), the timers of receivers, transmitters
and checks, and overdue copies. -/
namespace Sys2Proof.Machine

/-! ## The Office Clock (R184) -/

/-- Both clocks advance by one tenth of a second, and the divider returns to 0 (R184). -/
def advanceClocks (s : State) : State :=
  { s with
    divider := 0
    officeTime := if s.officeTime + 1 < Config.dayTenths then s.officeTime + 1 else 0
    clock := s.clock + 1 }

/-- CLOCK_ADVANCE (R184).  The tests of the timers are rows of their own (log entry 15). -/
def execClockAdvance (s : State) : Host.Outcome State Fault Refusal := .next (advanceClocks s)

/-! ## TEST pacing (R111) -/

/-- A character offered in TEST arrives unconverted at the line's own receiver, and restarts its timeout (R43, R111). -/
def loopback (n : Line) (c : OfficeChar) (s : State) : State :=
  arrive n c (s.modRx n (fun r => { r with lastArrival := s.clock }))

/-- A character period of a line in TEST ends: the copy advances by a character, its end included, and then that character
arrives at the line's own receiver (R111; DESIGN CHOICE, log entry 38: the manual gives no order between the two). -/
def endTestPeriod (n : Line) (s : State) : State :=
  let r := testPeriod n (s.modTx n (fun t => { t with pacing := 0 }))
  match r.2 with
  | none => r.1
  | some c => loopback n c r.1

/-- TEST_CHARACTER_PERIOD_END (R111); a line that is not in TEST has no period. -/
def execTestCharacterPeriodEnd (n : Line) (s : State) : Host.Outcome State Fault Refusal :=
  if n ≠ 0 ∧ (s.mon n).condition = .test then done s (endTestPeriod n s) else .next s

/-! ## Timers (R19, R41, R109, R127) -/

/-- RECEIVE_TIMEOUT (R41). -/
def execReceiveTimeout (n : Line) (s : State) : Host.Outcome State Fault Refusal :=
  if s.receiveTimeoutDue n then done s (expireReception n s) else .next s

/-- TRANSMIT_STALL (R109). -/
def execTransmitStall (n : Line) (s : State) : Host.Outcome State Fault Refusal :=
  if s.transmitStallDue n then done s (stallTransmitter n s) else .next s

/-- ANSWER_TIMER_EXPIRY (R127). -/
def execAnswerTimerExpiry (n : Line) (s : State) : Host.Outcome State Fault Refusal :=
  if n ≠ 0 ∧ s.answerTimerDue n = true then done s (expireCheck n s) else .next s

/-- COPY_OVERDUE (R19). -/
def execCopyOverdue (copy : CopyId) (s : State) : Host.Outcome State Fault Refusal := done s (testOverdue copy s)

/-! ## A TIMEBASE pulse (R111, R184; log entry 4) -/

/-- The pacing count of a line in TEST goes up with a pulse; at the character period the period ends (R111). -/
def paceLine (n : Line) (s : State) : State :=
  if (s.mon n).condition = .test then
    let p := (s.tx n).pacing + 1
    if characterPeriod (s.entry n) ≤ p then endTestPeriod n s else s.modTx n (fun t => { t with pacing := p })
  else s

/-- A pulse of the TIMEBASE input: the clocks take it first, and then the lines in TEST, in ascending number (DESIGN CHOICE, log
entry 4: the manual gives no order within one pulse). -/
def timebasePulse (s : State) : State :=
  let s1 := if s.divider + 1 < 1000 then { s with divider := s.divider + 1 } else advanceClocks s
  settle s (s1.forCircuits paceLine)

end Sys2Proof.Machine
end

