-- ==== Sys2Proof/Machine/PortRows.lean ====
section
/-! DEFINITION. The rows of the memory port: own accesses carried out from the head of the FIFO (R169 to R172), the load
pass's end (R156), START LINE's reload (R120), and blocks that join when a place falls free (R171). -/
namespace Sys2Proof.Machine

/-- The head entry leaves the FIFO. -/
def popEntry (s : State) : State := { s with fifo := s.fifo.tail }

/-! ## Text blocks (R37, R101) -/

/-- A text block write reaches memory: a link of 0 and 60 characters (R16, R37). -/
def Memory.writeBlock (m : Memory) (a : Nat) (cs : Vector OfficeChar 60) : Memory :=
  (m.writeWord a 0).writeChars (a + 4) cs.toList

/-- A WRITING buffer becomes FREE; it keeps what it last held (R37). -/
def BlockBuffer.written (b : BlockBuffer) : BlockBuffer :=
  if b.state = .writing then { b with state := .free, count := 0, block := none } else b

/-- TEXT_BLOCK_WRITE_DONE (R37). -/
def execTextBlockWriteDone (s : State) : Host.Outcome State Fault Refusal :=
  match s.fifo with
  | .textWrite n k a cs :: _ =>
    let s1 := ({ popEntry s with mem := s.mem.writeBlock a cs }).modRx n (fun r => r.setBuf k (r.buf k).written)
    done s (if n = 0 then resumeSubmit s1 else s1)
  | _ => .next s

/-- The 60 characters of a block in memory (1.6). -/
def State.blockChars (s : State) (a : Nat) : List OfficeChar :=
  (List.range 60).map (fun i => charOfByte (s.mem.read (a + 4 + i)))

/-- A text buffer whose read has been carried out: READY with the characters, or, for a read of an abandoned text, as it
stood (R101, R104, R107). -/
def TextBuffer.arrived (b : TextBuffer) (cs : List OfficeChar) : TextBuffer :=
  if 0 < b.stale then { b with stale := b.stale - 1 }
  else if b.state = .reading then { b with state := .ready, chars := cs }
  else b

/-- TEXT_BLOCK_READ_DONE (R101). -/
def execTextBlockReadDone (s : State) : Host.Outcome State Fault Refusal :=
  match s.fifo with
  | .textRead n k a :: _ =>
    .next ((popEntry s).modTx n (fun t => t.setBuf k ((t.buf k).arrived (s.blockChars a))))
  | _ => .next s

/-! ## The load pass (R154 to R156) -/

/-- The eight words of a line entry in a memory, from an address on. -/
def readEntry (m : Memory) (a : Nat) : Vector Word 8 := Vector.ofFn (fun i : Fin 8 => m.readWord (a + 4 * i.val))

/-- A line entry comes into force from the shadow. -/
def takeEntry (n : Line) (s : State) : State :=
  s.modLine n (fun l => { l with entry := readEntry s.shadow (lineEntryOffset n) })

/-- The lines whose entries a read of the load pass carries: two for a read of the Line Table. -/
def linesOfRead (k : Nat) : List Line :=
  circuits.filter (fun n => 8 ≤ k && decide (k < 32) && decide ((n.val - 1) / 2 = k - 8))

/-- The words of a table read are taken into the shadow, and a line entry that they carry comes into force with its
thresholds, every line being STOPPED (R133, R152, R154, R155). -/
def loadTable (k : Nat) (s : State) : State :=
  let span := tableSpan k
  let s1 := { s with
    shadow := s.mem.copyWords (s.windowBase + span.1) s.shadow span.1 span.2
    loadDone := s.loadDone + 1 }
  (linesOfRead k).foldl (fun t n => recomputeDegraded n (takeEntry n t)) s1

/-- The pool geometry is bad (R156). -/
def State.badGeometry (s : State) (p : Pool) : Bool :=
  p.base == 0 || decide (Config.spaceBytes < p.base + 64 * p.count) ||
    areasOverlap p.base (p.base + 64 * p.count) s.windowBase (s.windowBase + Config.windowBytes)

/-- The link table of the free-block chain: every block in ascending order (R15). -/
def freshLinks (count : Nat) : List (Option Nat) :=
  (List.range count).map (fun i => if i + 1 < count then some (i + 1) else none)

/-- The geometry is taken from the shadow: the office becomes RUNNING with a pool, or HALTED_CONFIG without one (R15,
R156). -/
def takeGeometry (s : State) : State :=
  let p : Pool := { base := s.tablePoolBase, count := s.tablePoolCount }
  if s.badGeometry p then { s with officeState := .haltedConfig, pool := none, ringSize := 0, poolDiffers := false }
  else
    { s with
      officeState := .running
      pool := some p
      ringSize := s.tableRingSize
      poolDiffers := false
      links := freshLinks p.count
      freeHead := some 0
      freeTail := some (p.count - 1)
      freeCount := p.count }

/-- The runs of state writes at the end of a load pass: the office record, then two line records an entry (R156). -/
def statusRuns : List (List StateWord) :=
  (List.finRange 16).map StateWord.office ::
    (List.range 25).map (fun j =>
      ((List.finRange 49).filter (fun n => n.val / 2 = j)).flatMap (fun n => (List.finRange 8).map (StateWord.line n)))

/-- The load pass ends (R156). -/
def endLoad (s : State) : State :=
  answerInFlight .done 0 (post .table
    (statusRuns.foldl (fun t ws => decideEntry (.stateWrite ws) t) (takeGeometry s)))

/-- The first block that waits stops waiting. -/
def popWaiter (s : State) : State := { s with waiting := s.waiting.tail }

/-- The load pass's next read joins the FIFO, and more while it has room; a read that finds none begins to wait, behind the
blocks that wait already (R154, R171). -/
def joinLoadPass (s : State) : State := decideTableReads Config.fifoCapacity (pushTableRead s)

/-- The load pass waits first for a place in the FIFO, and one is free. -/
def State.loadPassMayJoin (s : State) : Bool :=
  s.waiting.head? == some .loadPass && decide (s.fifo.length < Config.fifoCapacity)

/-- TABLE_READ_DONE (R154).  A load pass that waits first has its next read joined in the place that has fallen free; one
that waits behind another block waits on (R171). -/
def execTableReadDone (s : State) : Host.Outcome State Fault Refusal :=
  match s.fifo with
  | .tableRead k :: _ =>
    let s1 := loadTable k (popEntry s)
    .next (if Config.loadReads ≤ s1.loadDone then endLoad s1
      else if s1.loadPassMayJoin then joinLoadPass (popWaiter s1)
      else s1)
  | _ => .next s

/-! ## START LINE's reload (R120) -/

/-- The entry read again comes into force, the receiver starts, and the transmitter starts unless its stop mark is set
(R120).  With the mark set it goes on finishing its message with the send shift state UNKNOWN (R149; DEDUCED, log entry 40). -/
def reload (n : Line) (s : State) : State :=
  let off := lineEntryOffset n
  let s1 := takeEntry n { s with shadow := s.mem.copyWords (s.windowBase + off) s.shadow off 8 }
  let s2 := startReceiver n (s1.modLine n (fun l =>
    { l with tableDiffers := false, mon := { l.mon with reloadPending := false } }))
  recomputeDegraded n (if (s.tx n).stopMark then forgetShift n s2 else startTransmitter n s2)

/-- LINE_ENTRY_READ_DONE (R120). -/
def execLineEntryReadDone (s : State) : Host.Outcome State Fault Refusal :=
  match s.fifo with
  | .lineEntryRead n :: _ =>
    let s1 := reload n (popEntry s)
    let s2 := if (s1.mon n).condition = .starting ∧ checksEnabled (s1.entry n) = false then becomeActive n s1 else s1
    done s (answerInFlight .done 0 s2)
  | _ => .next s

/-! ## The SUBMIT copy (R49) -/

/-- COMPOSITION_READ_DONE (R49). -/
def execCompositionReadDone (s : State) : Host.Outcome State Fault Refusal :=
  match s.fifo with
  | .compositionRead start words :: _ => done s (takeComposition start words (popEntry s))
  | _ => .next s

/-! ## Own writes (R172) -/

/-- The state words of a run reach memory, each with the value the part holds (R172). -/
def writeStateWords (s : State) (ws : List StateWord) : Memory :=
  ws.foldl (fun m w => m.writeWord (s.windowBase + w.offset) (s.stateWord w)) s.mem

/-- What memory becomes when a write entry other than a text block is carried out; none for another entry (R172). -/
def State.ownWrite (s : State) : FifoEntry → Option Memory
  | .linkWrite a v => some (s.mem.writeWord a (BitVec.ofNat 32 v))
  | .recordWrite slot ws => some (s.mem.writeWords (s.slotAddress slot) ws)
  | .indexWrite i => some (s.mem.writeWord (s.windowBase + 0x34) (i.setWidth 32))
  | .answerWrite x y => some (s.mem.writeWords (s.windowBase + 0x10) [x, y])
  | .stateWrite ws => some (writeStateWords s ws)
  | _ => none

/-- OWN_WRITE_CARRIED_OUT (R172).  The FIFO count that a state write carries counts that write (R188). -/
def execOwnWriteCarriedOut (s : State) : Host.Outcome State Fault Refusal :=
  match s.fifo with
  | [] => .next s
  | e :: _ => match s.ownWrite e with
    | none => .next s
    | some m => .next { popEntry s with mem := m }

/-! ## Blocks that waited for room (R171) -/

/-- The delivery that waited is made for the head of queue 0, if there is one and the ring has a slot (R112). -/
def deliverWaiting (s : State) : State :=
  if (s.queue 0).isEmpty || !s.ringHasSlot then s else deliver (queueChanged 0 (takeDelivery s))

/-- What happens when the first block that waits joins.  With an entry nothing more is decided, not a write of office word 0
either (DESIGN CHOICE, log entry 43). -/
def joinWaiter (w : Waiter) (s : State) : State :=
  match w with
  | .entry e => s.pushEntry e
  | .answer x y ends => joinAnswer x y ends s
  | .delivery => deliverWaiting s
  | .loadPass => joinLoadPass s

/-- The places that a block needs to join: two for a delivery (R112, R171). -/
def Waiter.places : Waiter → Nat
  | .delivery => 2
  | _ => 1

/-- FIFO_ENTRY_JOIN (R171). -/
def execFifoEntryJoin (s : State) : Host.Outcome State Fault Refusal :=
  match s.waiting with
  | [] => .next s
  | w :: _ =>
    if s.fifo.length + w.places ≤ Config.fifoCapacity then done s (joinWaiter w (popWaiter s)) else .next s

end Sys2Proof.Machine
end

