-- ==== Sys2Proof/Machine/Dispatch.lean ====
section
/-! DEFINITION. The meaning of every command: one arm a row of the table. -/
namespace Sys2Proof.Machine

def exec (i : Instr) (s : State) : Host.Outcome State Fault Refusal :=
  match i with
  | .startLine line tag be => Sys2Proof.Machine.execStartLine line tag be s
  | .stopLine line tag be => Sys2Proof.Machine.execStopLine line tag be s
  | .testLine line tag be => Sys2Proof.Machine.execTestLine line tag be s
  | .submit line tag be => Sys2Proof.Machine.execSubmit line tag be s
  | .cancel line tag be => Sys2Proof.Machine.execCancel line tag be s
  | .rerouteLine line tag be => Sys2Proof.Machine.execRerouteLine line tag be s
  | .retryHeld line tag be => Sys2Proof.Machine.execRetryHeld line tag be s
  | .setSequence line tag be => Sys2Proof.Machine.execSetSequence line tag be s
  | .clearCounters line tag be => Sys2Proof.Machine.execClearCounters line tag be s
  | .setTime line tag be => Sys2Proof.Machine.execSetTime line tag be s
  | .resetOffice line tag be => Sys2Proof.Machine.execResetOffice line tag be s
  | .noSuchCommand code line tag be => Sys2Proof.Machine.execNoSuchCommand code line tag be s
  | .argumentWrite which value be => Sys2Proof.Machine.execArgumentWrite which value be s
  | .receiveCellWrite n value be => Sys2Proof.Machine.execReceiveCellWrite n value be s
  | .sendCellRead n => Sys2Proof.Machine.execSendCellRead n s
  | .eventWordWrite value be => Sys2Proof.Machine.execEventWordWrite value be s
  | .enableWordWrite value be => Sys2Proof.Machine.execEnableWordWrite value be s
  | .informOnlyWordWrite value be => Sys2Proof.Machine.execInformOnlyWordWrite value be s
  | .deliveryReadIndexWrite value be => Sys2Proof.Machine.execDeliveryReadIndexWrite value be s
  | .officeTimeRead => Sys2Proof.Machine.execOfficeTimeRead s
  | .lineStatusWord0Read n => Sys2Proof.Machine.execLineStatusWord0Read n s
  | .blockedWrite address value be => Sys2Proof.Machine.execBlockedWrite address value be s
  | .officeTableWrite index value be => Sys2Proof.Machine.execOfficeTableWrite index value be s
  | .powerOnReset straps => Sys2Proof.Machine.execPowerOnReset straps s
  | .clockAdvance => Sys2Proof.Machine.execClockAdvance s
  | .testCharacterPeriodEnd n => Sys2Proof.Machine.execTestCharacterPeriodEnd n s
  | .receiveTimeout n => Sys2Proof.Machine.execReceiveTimeout n s
  | .transmitStall n => Sys2Proof.Machine.execTransmitStall n s
  | .answerTimerExpiry n => Sys2Proof.Machine.execAnswerTimerExpiry n s
  | .copyOverdue copy => Sys2Proof.Machine.execCopyOverdue copy s
  | .textBlockWriteDone => Sys2Proof.Machine.execTextBlockWriteDone s
  | .textBlockReadDone => Sys2Proof.Machine.execTextBlockReadDone s
  | .tableReadDone => Sys2Proof.Machine.execTableReadDone s
  | .lineEntryReadDone => Sys2Proof.Machine.execLineEntryReadDone s
  | .compositionReadDone => Sys2Proof.Machine.execCompositionReadDone s
  | .ownWriteCarriedOut => Sys2Proof.Machine.execOwnWriteCarriedOut s
  | .fifoEntryJoin => Sys2Proof.Machine.execFifoEntryJoin s

end Sys2Proof.Machine
end

