-- ==== Sys2Proof/Safety.lean ====
section
/-! DEFINITION. The terms the claims are stated in: what a step leaves alone, how an answer and an event class show, and
the laws of the device that every step keeps. -/
namespace Sys2Proof.Machine

/-! ## What a step leaves alone -/

/-- The part of the state that only bus accesses, resets, the clocks and the memory port change. -/
structure Base where
  pending : List Instr
  windowK : Fin 16
  mem : Memory
  readData : Word
  officeState : OfficeState
  shadow : Memory
  loadDone : Nat
  pool : Option Pool
  ringSize : Nat
  poolDiffers : Bool
  readIndex : BitVec 16
  enableWord : Word
  informOnly : Word
  commandWord : Word
  argA : Word
  argB : Word
  argC : Word
  divider : Nat
  officeTime : Nat
  clock : Clock
  deriving DecidableEq, Repr

/-- The base with the load pass's count, the SUBMIT copy and the Command Unit's holdings. -/
structure Frame where
  base : Base
  loadDecided : Nat
  submitCopy : Option SubmitCopy
  inFlight : Option Command
  lastAnswer : Word × Word
  deriving DecidableEq, Repr

/-- The frame of a state: what no operation of the relay changes. -/
def State.frame (s : State) : Frame where
  base :=
    { pending := s.pending, windowK := s.windowK, mem := s.mem, readData := s.readData, officeState := s.officeState
      shadow := s.shadow, loadDone := s.loadDone, pool := s.pool, ringSize := s.ringSize, poolDiffers := s.poolDiffers
      readIndex := s.readIndex, enableWord := s.enableWord, informOnly := s.informOnly, commandWord := s.commandWord
      argA := s.argA, argB := s.argB, argC := s.argC, divider := s.divider, officeTime := s.officeTime, clock := s.clock }
  loadDecided := s.loadDecided
  submitCopy := s.submitCopy
  inFlight := s.inFlight
  lastAnswer := s.lastAnswer

/-- What a line keeps when copies move: all but its queue and its transmitter. -/
structure Kept where
  rx : Receiver
  mon : Monitor
  entry : Vector Word 8
  tableDiffers : Bool
  heldActive : Bool
  errorLatch : Bool
  deriving DecidableEq, Repr

/-- What a line keeps. -/
def LineState.kept (l : LineState) : Kept := ⟨l.rx, l.mon, l.entry, l.tableDiffers, l.heldActive, l.errorLatch⟩

/-- The lines of a state are kept, all but their queues and transmitters; so are the Recent-Origin List and the count of
free choices. -/
def KeepsLines (s t : State) : Prop :=
  (∀ n : Line, (t.line n).kept = (s.line n).kept) ∧ t.recent = s.recent ∧ t.choices = s.choices

/-- The state without what events, answers and own accesses leave: the FIFO, what waits for it, the pending set with the
interrupt output, and the answer last decided. -/
def State.quiet (s : State) : State :=
  { s with fifo := [], waiting := [], events := 0, interrupt := false, lastAnswer := (0, 0) }

/-! ## Own accesses, answers and events -/

/-- What a step decided stands behind what was there: entries at the FIFO's tail, waits behind the earlier waits. -/
def Appends (s t : State) (es : List FifoEntry) (ws : List Waiter) : Prop :=
  t.fifo = s.fifo ++ es ∧ t.waiting = s.waiting ++ ws

/-- An entry is a state write. -/
def FifoEntry.isStateWrite : FifoEntry → Bool
  | .stateWrite _ => true
  | _ => false

/-- What a step decided are state writes and nothing else: no other entry joined or waits, no block began to wait. -/
def OnlyStateWrites (s t : State) : Prop :=
  ∃ es ws, Appends s t es ws ∧ (∀ e ∈ es, e.isStateWrite = true) ∧
    ∀ w ∈ ws, ∃ e, w = Waiter.entry e ∧ e.isStateWrite = true

/-- Copies given delivery numbers in order, from a number on (R112). -/
def numberFrom (k : BitVec 16) : List CopyId → List (BitVec 16 × CopyId)
  | [] => []
  | c :: cs => (k, c) :: numberFrom (k + 1) cs

/-- An entry was decided in a step: it is in the FIFO or waits for room in it. -/
def Decides (s t : State) (e : FifoEntry) : Prop :=
  ∃ es ws, Appends s t es ws ∧ (e ∈ es ∨ Waiter.entry e ∈ ws)

/-- A command was answered in a step: the answer is in the FIFO with COMMAND pending, or it waits for room. -/
def Answers (s t : State) (tag : BitVec 16) (code : AnswerCode) (result : Nat) : Prop :=
  ∃ es ws, Appends s t es ws ∧
    ((.answerWrite (answerWord tag code) (BitVec.ofNat 32 result) ∈ es ∧
        t.lastAnswer = (answerWord tag code, BitVec.ofNat 32 result) ∧ t.isPending .command = true) ∨
      ∃ ends, Waiter.answer (answerWord tag code) (BitVec.ofNat 32 result) ends ∈ ws)

/-- The event classes a step posted: those of `must` are pending after it, what was pending stays so, and no other class
becomes pending but those of `may`. -/
def Posts (s t : State) (must may : List EventClass) : Prop :=
  ∀ c : EventClass, (s.isPending c = true → t.isPending c = true) ∧ (c ∈ must → t.isPending c = true) ∧
    (t.isPending c = true → s.isPending c = true ∨ c ∈ must ∨ c ∈ may)

/-- A command was answered, and nothing was done but the capture of its write: `captured` is the state after that. -/
def AnswersOnly (s captured t : State) (tag : BitVec 16) (code : AnswerCode) (result : Nat) : Prop :=
  t.quiet = captured.quiet ∧ Answers s t tag code result ∧ Posts s t [] [.command]

/-- A state word holds what it held, or a write of it is pending (R172). -/
def Rewritten (s t : State) (w : StateWord) : Prop := t.stateWord w = s.stateWord w ∨ t.stateWritePending w = true

/-- What the recovery of stalled transmitters leaves on the line of one of them: it is IDLE, or OFF
where the line is STOPPED or its reload is pending, sends nothing, and its line is no longer STARTING or ACTIVE but SUSPECT
(R110, R131). -/
structure Recovered (old t : State) (n : Line) : Prop where
  state : (t.tx n).state =
    if (old.mon n).condition = .stopped ∨ (old.mon n).reloadPending = true then .off else .idle
  sending : (t.tx n).sending = none
  shift : (t.tx n).shift = .unknown
  condition : (t.mon n).condition =
    if (old.mon n).condition = .starting ∨ (old.mon n).condition = .active then .suspect else (old.mon n).condition

/-! ## A message handed on (R44 to R46) -/

/-- The message is local only when it completes: a heading fault, no closing group, truncated, or looped back (R44). -/
def Transit.localAtEnd (r : Transit) : Bool := r.flagReasons.localOnly

/-- The origin pair of a record, when it has both parts (1.1). -/
def Transit.originPair (r : Transit) : Option (StationCode × Nat) :=
  match r.origin, r.serial with
  | some o, some k => some (o, k)
  | _, _ => none

/-- The completing message is a duplicate: it is not local only, and its origin pair is on the Recent-Origin List (R46). -/
def State.isDuplicate (s : State) (r : Transit) : Prop :=
  r.localAtEnd = false ∧ ∃ p ∈ s.recent, r.originPair = some p

/-- What handing on a completing message leaves: a duplicate is freed and counted; a new pair joins the Recent-Origin List, the
oldest leaving a full list; a local-only message and one without a pair leave the list as it is; and with transits on the
Copy Wait List one that is no duplicate waits at its tail, RECORDS pending.  What one that is no duplicate gets when that list
is empty, its copies or its place on the list, is not said here (R5, R44, R46). -/
structure HandsOn (s t : State) (id : TransitId) (r : Transit) : Prop where
  duplicate : s.isDuplicate r →
    t.transit? id = none ∧ t.recent = s.recent ∧ t.counts.duplicate = min 65535 (s.counts.duplicate + 1)
  added : ∀ p, r.localAtEnd = false → r.originPair = some p → p ∉ s.recent →
    t.recent = (if s.recent.length < 64 then s.recent else s.recent.drop (s.recent.length - 63)) ++ [p]
  unlisted : r.localAtEnd = true ∨ r.originPair = none → t.recent = s.recent
  waits : s.waitList ≠ [] → ¬ s.isDuplicate r →
    t.waitList = s.waitList ++ [id] ∧ (∃ y, t.transit? id = some y ∧ y.state = .waiting) ∧ t.isPending .records = true

/-- The channel sequence check of a completing message with a received channel number, or none: the next expected-in number,
and what a gap, a repeat or a number out of range leaves (R45). -/
def Sequenced (s t : State) (n : Line) (channel : Option Nat) : Prop :=
  match channel with
  | none => (t.rx n).expectedIn = (s.rx n).expectedIn ∧ t.mon n = s.mon n
  | some j =>
    let next := some (if j = 999 then 1 else j + 1)
    match sequenceCase (s.rx n).expectedIn j s.gapWindow s.duplicateWindow with
    | .unchecked => (t.rx n).expectedIn = next ∧ t.mon n = s.mon n
    | .inOrder => (t.rx n).expectedIn = next ∧ t.mon n = s.mon n
    | .gap d => (t.rx n).expectedIn = next ∧ t.isPending .sequence = true ∧
      (t.mon n).counters = { (s.mon n).counters with gap := min 65535 ((s.mon n).counters.gap + d) }
    | .repeated => (t.rx n).expectedIn = (s.rx n).expectedIn ∧ t.mon n = s.mon n
    | .outOfRange => (t.rx n).expectedIn = next ∧ t.isPending .sequence = true ∧ t.mon n = s.mon n ∧
      t.counts.outOfRange = min 65535 (s.counts.outOfRange + 1)

/-- The record of a message as it completes out of a receiver state: one whose heading line 1 has not ended is a heading
fault of rank 2, and one whose address line has not ended has an empty body (R36, R44). -/
def Transit.completing (x : Transit) (st : RxState) (flag : Flags → Flags) : Transit :=
  let y : Transit := match st with
    | .heading => { x with
      rank := some 2, channel := none, origin := none, serial := none, bodyOffset := some x.stored
      reasons := x.reasons.add .headingFault }
    | .address => { x with bodyOffset := some x.stored }
    | _ => x
  { y with flags := flag y.flags }

/-- The message that a receiver of a circuit, or the Local Position's assembler, holds has completed: the FILLING buffer's
write is decided, the sequence is checked but for a line in TEST and line 0, an unended heading counts as a heading error of
the circuit, and the message is handed on (R36, R37, R44, R45). -/
structure Completes (n : Line) (flag : Flags → Flags) (s t : State) (id : TransitId) (x : Transit) : Prop where
  frame : t.frame = s.frame
  others : ∀ m, m ≠ n → (t.line m).kept = (s.line m).kept
  entry : t.entry n = s.entry n
  receiver : t.rx n = { s.rx n with
    transit := none, bufA := (t.rx n).bufA, bufB := (t.rx n).bufB, expectedIn := (t.rx n).expectedIn }
  writes : ∀ k : Buffer, (s.rx n).filling = some k → ((t.rx n).buf k).state = .writing ∧
    Decides s t (.textWrite n k (s.blockAddress (((s.rx n).buf k).block.getD 0)) ((s.rx n).buf k).chars)
  handed : HandsOn s t id (x.completing (s.rx n).state flag)
  checked : n ≠ 0 → (s.mon n).condition ≠ .test → (s.rx n).state ≠ .heading → Sequenced s t n x.channel
  unchecked : n = 0 ∨ (s.mon n).condition = .test ∨ (s.rx n).state = .heading → (t.rx n).expectedIn = (s.rx n).expectedIn
  faulted : n ≠ 0 → (s.rx n).state = .heading →
    let k := { (s.mon n).counters with heading := min 65535 ((s.mon n).counters.heading + 1) }
    t.mon n = { s.mon n with counters := k, degraded := aboveThreshold k (s.entry n) }

/-- A receiver has asked for a transit record: the lowest-numbered free one is taken for its line, marked LOOPBACK on a line
in TEST, and the receiver is in HEADING; with none free it is in DISCARD with a lost record counted and RECORDS posted (R1,
R26). -/
structure Asks (n : Line) (s t : State) : Prop where
  taken : ∀ id : TransitId, s.transit? id = none → (∀ j : TransitId, j < id → s.transit? j ≠ none) →
    OnlyStateWrites s t ∧ Posts s t [] [] ∧
    t.quiet = ((s.setTransit id (some { newTransit n s.officeTime with
      flags := { ({} : Flags) with loopback := decide ((s.mon n).condition = .test) } })).modRx n (fun r =>
        { r.clear .heading with transit := some id })).quiet
  lost : (∀ j : TransitId, s.transit? j ≠ none) → OnlyStateWrites s t ∧ Posts s t [.records] [] ∧
    t.quiet = ((s.modRx n (fun r => r.clear .discard)).modCounts
      (fun k => { k with lostRecords := min 65535 (k.lostRecords + 1) })).quiet

/-! ## Acting on a released character (R31 to R40, R49) -/

/-- A character has entered a block buffer of a line that was FILLING as `old`: with the 60th the buffer is WRITING and its
block write is decided (R37). -/
structure Enters (s t : State) (n : Line) (k : Buffer) (old : BlockBuffer) (c : OfficeChar) : Prop where
  buffer : (t.rx n).buf k = { old with
    state := if old.count + 1 < 60 then .filling else .writing, count := old.count + 1, chars := old.chars.set! old.count c }
  other : (t.rx n).buf k.other = (s.rx n).buf k.other
  writes : 60 ≤ old.count + 1 →
    Decides s t (.textWrite n k (s.blockAddress (old.block.getD 0)) (old.chars.set! old.count c))

/-- A character of transit `id`, with contents `x` before, has been stored: in the FILLING buffer, or in a FREE one for which
a block has been allocated; the stored length is up by one and nothing else of the relay has changed (R17, R37). -/
structure Stores (s t : State) (n : Line) (c : OfficeChar) (id : TransitId) (x : Transit) : Prop where
  frame : t.frame = s.frame
  posts : Posts s t [] []
  lines : ∀ m, t.line m = if m = n then
    { s.line n with rx := { s.rx n with bufA := (t.rx n).bufA, bufB := (t.rx n).bufB } } else s.line m
  relay : t.copies = s.copies ∧ t.waitList = s.waitList ∧ t.recent = s.recent ∧ t.counts = s.counts
  others : ∀ j, j ≠ id → t.transit? j = s.transit? j
  filling : ∀ k, (s.rx n).filling = some k →
    t.transit? id = some { x with stored := x.stored + 1 } ∧ t.freeCount = s.freeCount ∧ Enters s t n k ((s.rx n).buf k) c
  fresh : (s.rx n).filling = none → ∃ k b s', ((s.rx n).buf k).state = .free ∧ allocateBlock id s = some (b, s') ∧
    t.transit? id = (s'.transit? id).map (fun r => { r with stored := r.stored + 1 }) ∧ t.freeCount = s'.freeCount ∧
    Enters s t n k { (s.rx n).buf k with count := 0, block := some b } c

/-- The message in hand has been dropped: its record is free, a FILLING buffer is emptied without a write, the receiver is in
DISCARD, POOL_LOW is posted (R34, R39). -/
structure Drops (n : Line) (s t : State) (id : TransitId) : Prop where
  frame : t.frame = s.frame
  record : t.transit? id = none ∧ ∀ j, j ≠ id → t.transit? j = s.transit? j
  receiver : t.rx n = { (s.rx n).dropFilling with state := .discard, holdBack := [], transit := none }
  others : ∀ m, m ≠ n → t.line m = s.line m
  posted : t.isPending .poolLow = true

/-- Heading line 1 has ended with its line end stored.  A service heading frees the record and leaves the receiver in SERVICE.
An ordinary heading, or a local one on line 0, gives the record its fields, in fault with HEADING_FAULT and, on a circuit, a
heading error; then it is refused under the pool reserve at rank 2 or 3, or the receiver goes to ADDRESS (R31 to R34, R49). -/
structure EndsHeading (n : Line) (s t : State) (f : Fate) (id : TransitId) (x : Transit) : Prop where
  frame : t.frame = s.frame
  others : ∀ m, m ≠ n → t.line m = s.line m
  copies : t.copies = s.copies
  service : ∀ v : Service, n ≠ 0 → serviceHeading (s.rx n).heading (s.rx n).overlong = some v →
    f = .goesOn ∧ t.transit? id = none ∧ t.rx n = { (s.rx n).dropFilling.clear .service with service := some v } ∧
      t.mon n = s.mon n ∧ t.counts = s.counts ∧ Posts s t [] [] ∧ OnlyStateWrites s t
  ordinary : n = 0 ∨ serviceHeading (s.rx n).heading (s.rx n).overlong = none →
    let h := if n = 0 then checkLocalHeading (s.rx n).heading (s.rx n).overlong
      else checkHeading (s.expectedDesignator n) (s.rx n).heading (s.rx n).overlong
    let k := { (s.mon n).counters with heading := min 65535 ((s.mon n).counters.heading + 1) }
    (t.mon n = if n = 0 ∨ h.good = true then s.mon n
      else { s.mon n with counters := k, degraded := aboveThreshold k (s.entry n) }) ∧
    OnlyStateWrites s t ∧
    if s.freeCount < s.poolReserve ∧ 2 ≤ h.rank then
      f = .refused ∧ Drops n s t id ∧ t.counts = { s.counts with refusedReserve := min 65535 (s.counts.refusedReserve + 1) }
    else f = .goesOn ∧ t.counts = s.counts ∧
      t.rx n = { s.rx n with state := .address, address := [], addressEnded := false } ∧
      t.transit? id = some { x with
        channel := h.channel, rank := some h.rank, origin := h.origin, serial := h.serial
        reasons := if h.good = true then x.reasons else x.reasons.add .headingFault }

/-- A character begins the body: it is no line end and comes behind the address line's line end (R35). -/
def State.bodyBegins (s : State) (n : Line) (c : OfficeChar) : Bool :=
  (s.rx n).state == .address && (s.rx n).addressEnded && !isLineEnd c

/-- The state in which a character is stored: one that begins the body has the body offset set and the receiver in TEXT
(R35). -/
def State.storingIn (s : State) (n : Line) (c : OfficeChar) (id : TransitId) (x : Transit) : State :=
  if s.bodyBegins n c then
    (s.setTransit id (some { x with bodyOffset := some x.stored })).modRx n (fun r => { r with state := .text })
  else s

/-- The record while a character is stored. -/
def State.storingRecord (s : State) (n : Line) (c : OfficeChar) (x : Transit) : Transit :=
  if s.bodyBegins n c then { x with bodyOffset := some x.stored } else x

/-- A character that is stored, or dropped with TEXT_LOSS, is collected by the receiver's state, `s` before the storing and
`w` after it: in HEADING into the heading buffer up to 40 characters, a line end behind its beginning ending it; in ADDRESS
into the address buffer up to 240, a line end behind its beginning ending it; in TEXT no more (R31, R35, R38). -/
structure Collects (n : Line) (c : OfficeChar) (s w t : State) (f : Fate) (id : TransitId) : Prop where
  text : (s.rx n).state = .text ∨ s.bodyBegins n c = true → f = .goesOn ∧ t = w
  addressEnd : (s.rx n).state = .address → isLineEnd c = true →
    f = .goesOn ∧ t = w.modRx n (fun r => { r with addressEnded := r.addressEnded || r.address != [] })
  address : (s.rx n).state = .address → isLineEnd c = false → (s.rx n).addressEnded = false → f = .goesOn ∧
    t = if (s.rx n).address.length < 240 then w.modRx n (fun r => { r with address := r.address ++ [c] })
      else w.modTransit id (fun r => { r with reasons := r.reasons.add .addressExcess })
  heading : (s.rx n).state = .heading → isLineEnd c = false → f = .goesOn ∧
    t = w.modRx n (fun r =>
      if (s.rx n).heading.length < 40 then { r with heading := r.heading ++ [c] } else { r with overlong := true })
  skipped : (s.rx n).state = .heading → isLineEnd c = true → (s.rx n).heading = [] → f = .goesOn ∧ t = w
  headingEnd : (s.rx n).state = .heading → isLineEnd c = true → (s.rx n).heading ≠ [] →
    ∀ y, w.transit? id = some y → EndsHeading n w t f id y

/-- The receiver of line n, in HEADING, ADDRESS or TEXT with transit `id`, has acted on a released character: one past the
stored length limit completes the message as TRUNCATED; else it is stored, or dropped with TEXT_LOSS while both buffers are
WRITING, and collected; with no block for a FREE buffer the message is dropped (R27, R31, R35, R37 to R40).  That the limit is
looked at ahead of the buffers and of the free blocks, where those cases meet, is deduced (log entry 16). -/
structure ActsOn (n : Line) (c : OfficeChar) (s t : State) (f : Fate) (id : TransitId) (x : Transit) : Prop where
  truncated : s.storedLimit ≤ x.stored → f = .truncated ∧
    ∃ v, Completes n (fun g => { g with truncated := true }) (s.storingIn n c id x) v id (s.storingRecord n c x) ∧
      t = v.modRx n (fun r => { r with state := .discard, holdBack := [] })
  stored : x.stored < s.storedLimit →
    ((s.rx n).filling ≠ none ∨ (((s.rx n).bufA.state = .free ∨ (s.rx n).bufB.state = .free) ∧ s.freeHead ≠ none ∧
      s.freeCount ≠ 0)) →
    ∃ w, Stores (s.storingIn n c id x) w n c id (s.storingRecord n c x) ∧ Collects n c s w t f id
  textLost : x.stored < s.storedLimit → (s.rx n).filling = none → (s.rx n).bufA.state ≠ .free →
    (s.rx n).bufB.state ≠ .free →
    let y := s.storingRecord n c x
    let w := ((s.storingIn n c id x).setTransit id (some { y with flags := { y.flags with textLoss := true } })).modCounts
      (fun k => { k with textLoss := min 65535 (k.textLoss + 1) })
    Collects n c s w t f id
  noBlock : x.stored < s.storedLimit → (s.rx n).filling = none → ((s.rx n).bufA.state = .free ∨ (s.rx n).bufB.state = .free) →
    (s.freeHead = none ∨ s.freeCount = 0) →
    f = .lostPool ∧ Drops n s t id ∧ OnlyStateWrites s t ∧
      t.counts = { s.counts with lostPool := min 65535 (s.counts.lostPool + 1) }

/-! ## What a send cell gives on a 7-unit line (R94, R147) -/

/-- The answer SEND with a character on a 7-unit line: its seven elements and the parity element of the line's setting, with
the time fill flag or without. -/
def GivesSeven (e : Vector Word 8) (c : OfficeChar) (fill : Bool) (w : Word) : Prop :=
  ∃ k : Byte, k.extractLsb' 0 7 = c ∧ elementsAtOne k % 2 = (if parityOdd e then 1 else 0) ∧
    w = k.setWidth 32 ||| (if fill then 0x300 else 0x100)

/-! ## What a send cell gives for the character due (R103, R143 to R148) -/

/-- What a read answered with SEND gives and leaves: the word, the send shift state and the pending slot after it, whether it
was time fill in place of a character that cannot be sent, and whether the transmitter goes on behind the character due. -/
structure Offer where
  word : Word
  shift : SendShift
  slot : Option Slot
  fill : Bool
  goesOn : Bool
  deriving DecidableEq, Repr

/-- The offer that a line makes of a character due.  A full pending slot gives its combination.  Else a 7-UNIT line gives the
seven elements with their parity element.  A 5-UNIT line gives the combination that the Send Code Table has for the character,
or for the substitute of one that cannot be sent: behind a shift combination, the character waiting in the slot, where the
case in force is not the character's; time fill where the substitute cannot be sent either; and a space given returns the line
to letters where it asks for it (R103, R143 to R147). -/
def Offers (s : State) (n : Line) (c : OfficeChar) (o : Offer) : Prop :=
  let x := s.tx n
  let e := s.entry n
  let d := if ((s.sendCode c).extractLsb' 5 2).toNat = 3 then s.sendSubstitute else c
  let cls := ((s.sendCode d).extractLsb' 5 2).toNat
  let k : Byte := ((s.sendCode d).extractLsb' 0 5).setWidth 8
  let send := fun (b : Byte) => (b.setWidth 32 ||| 0x100 : Word)
  let after := fun (y : OfficeChar) =>
    if sevenUnit e = false ∧ unshiftOnSpace e = true ∧ y = 32 then SendShift.letters else x.shift
  match x.slot with
  | some z => o = ⟨send z.combination, after z.char, none, false, true⟩
  | none =>
    if sevenUnit e = true then GivesSeven e c false o.word ∧ o = ⟨o.word, x.shift, none, false, true⟩
    else if cls = 3 then o = ⟨0x300, x.shift, none, true, true⟩
    else if cls = 0 ∧ x.shift ≠ .letters then o = ⟨send s.lettersShift, .letters, some ⟨d, k⟩, false, false⟩
    else if cls = 1 ∧ x.shift ≠ .figures then o = ⟨send s.figuresShift, .figures, some ⟨d, k⟩, false, false⟩
    else o = ⟨send k, after d, none, false, true⟩

/-- The transmitter after a read that makes an offer, but for going on behind the character (R94, R144, R145). -/
def Offer.onTx (o : Offer) (now : Clock) (x : Transmitter) : Transmitter :=
  { x with lastRead := now, lastOffered := now, shift := o.shift, slot := o.slot }

/-- The monitor after a read that makes an offer: time fill is counted (R132, R146). -/
def Offer.onMon (o : Offer) (m : Monitor) : Monitor :=
  if o.fill then { m with counters := { m.counters with fill := min 65535 (m.counters.fill + 1) } } else m

/-- A transmitter that a message has left, in the state it rests in: its sending position and buffers are empty (R105). -/
def Transmitter.rested (x : Transmitter) (st : TxState) : Transmitter :=
  { x.emptyBuffers with
    state := st, stalledFrom := none, sending := none, next := 0, slot := none, service := none, cutRemaining := 0
    cutReturn := false, stopMark := false }

/-- Copy `c`, with contents `y` while it was sent, has returned to the queue of circuit n: with its resend count up by one and
no number it is at the head of its rank class; or it has merged into the QUEUED copy of its transit there, which takes the
larger resend count, and its entry is free.  `stays` is the copy that then stands in the queue (R6, R8, R10, R105, R110). -/
structure Returned (s t : State) (n : Line) (c : CopyId) (y : Copy) (stays : CopyId) : Prop where
  frame : t.frame = s.frame
  keeps : KeepsLines s t
  others : ∀ m, m ≠ n → t.line m = s.line m
  tx : t.tx n = s.tx n
  waitList : t.waitList = s.waitList
  alone : s.queuedTwin n c = none → stays = c ∧ t.transits = s.transits ∧
    t.queue n = s.insertCopy true (s.queue n) c y.rank ∧ (∀ d, d ≠ c → t.copy? d = s.copy? d) ∧
    let z : Copy := { y with state := .queued, line := some n, outNumber := none, resend := min 65535 (y.resend + 1) }
    t.copy? c = some { z with overdue := z.overdue || s.overdueDue z }
  merged : ∀ d z, s.queuedTwin n c = some d → s.copy? d = some z → (∃ r, s.transit? y.transit = some r ∧ 1 < r.pendingCopies) →
    stays = d ∧ t.copy? c = none ∧ (∀ e, e ≠ c → e ≠ d → t.copy? e = s.copy? e) ∧
    ∃ z', t.copy? d = some z' ∧ z'.state = z.state ∧ z'.line = z.line ∧ z'.rank = min z.rank y.rank ∧
      z'.resend = max z.resend (min 65535 (y.resend + 1)) ∧ z'.pinned = (z.pinned || y.pinned) ∧
      (∀ e, e ∈ t.queue n ↔ e ∈ s.queue n)

/-! ## Commands as bus writes (R182) -/

/-- What a row that writes the command word carries: the code, the line, the tag and the byte enables. -/
def commandFields : Instr → Option (BitVec 8 × BitVec 8 × BitVec 16 × ByteEnables)
  | .startLine line tag be => some (1, line, tag, be)
  | .stopLine line tag be => some (2, line, tag, be)
  | .testLine line tag be => some (3, line, tag, be)
  | .submit line tag be => some (4, line, tag, be)
  | .cancel line tag be => some (5, line, tag, be)
  | .rerouteLine line tag be => some (6, line, tag, be)
  | .retryHeld line tag be => some (7, line, tag, be)
  | .setSequence line tag be => some (8, line, tag, be)
  | .clearCounters line tag be => some (9, line, tag, be)
  | .setTime line tag be => some (10, line, tag, be)
  | .resetOffice line tag be => some (11, line, tag, be)
  | .noSuchCommand code line tag be => some (code, line, tag, be)
  | _ => none

/-- The state once a write of the command word has been captured and forwarded. -/
def State.captured (s : State) (code line : BitVec 8) (tag : BitVec 16) (be : ByteEnables) : State :=
  captureCommand (commandWordOf code line tag) be s

/-- The command that such a write gives. -/
def State.taken (s : State) (code line : BitVec 8) (tag : BitVec 16) (be : ByteEnables) : Command :=
  (s.captured code line tag be).capturedCommand

/-- A write of the command word finds the office RUNNING with no command in flight and names a command by its merged
code. -/
abbrev State.accepts (s : State) (code line : BitVec 8) (tag : BitVec 16) (be : ByteEnables) : Prop :=
  be ≠ 0 ∧ s.officeState = .running ∧ s.inFlight = none ∧ (s.taken code line tag be).code = code

/-! ## The laws of the device -/

/-- The message store and the shadow are in their canonical form. -/
abbrev State.memoryLaw (s : State) : Prop := s.mem.wf = true ∧ s.shadow.wf = true

/-- The interrupt output is asserted exactly when a class is both pending and enabled (R177). -/
abbrev State.interruptLaw (s : State) : Prop := s.interrupt = interruptCalled s.events s.enableWord

/-- The FIFO holds at most 32 entries (R170). -/
abbrev State.fifoLaw (s : State) : Prop := s.fifo.length ≤ Config.fifoCapacity

/-- The Recent-Origin List holds at most 64 pairs, no two alike (R46). -/
abbrev State.recentLaw (s : State) : Prop := s.recent.length ≤ Config.recentOriginCapacity ∧ s.recent.Nodup

/-- A channel number of heading line 1. -/
abbrev isChannel (k : Nat) : Prop := 1 ≤ k ∧ k ≤ 999

/-- Every expected-in number is UNKNOWN or 1 to 999; every next-out number, check number and received channel number is 1
to 999 (R124). -/
def State.numbersLaw (s : State) : Prop :=
  (∀ n : Line, (∀ k, (s.rx n).expectedIn = some k → isChannel k) ∧ isChannel (s.tx n).nextOut ∧
      isChannel (s.mon n).checkNumber) ∧
    ∀ t r k, s.transit? t = some r → r.channel = some k → isChannel k

/-- DEGRADED stands exactly when an error counter is above its threshold, and no counter passes 65,535 (R132, R133). -/
def State.degradedLaw (s : State) : Prop :=
  ∀ n : Line, (s.mon n).degraded = aboveThreshold (s.mon n).counters (s.entry n) ∧
    (∀ k ∈ (s.mon n).counters.errors, k ≤ 65535) ∧ (s.mon n).counters.fill ≤ 65535 ∧
    (s.mon n).counters.stalledChars ≤ 65535

/-- A pool is in force exactly while the office is RUNNING, and it is a good one: it ends within the space and overlaps
the window nowhere (R156, R166). -/
def State.poolLaw (s : State) : Prop :=
  match s.pool with
  | none => s.officeState ≠ .running
  | some p => s.officeState = .running ∧ s.badGeometry p = false ∧ p.base % 64 = 0

/-- How many pool blocks are chained to transits, all together (R16, R18). -/
def State.chainedBlocks (s : State) : Nat :=
  ((List.finRange 256).map (fun t : TransitId => (s.transit? t).elim 0 Transit.blocks)).sum

/-- The free blocks and the blocks chained to transits are together the block count in force (none before a pool is), and a
chain has a first and a last block exactly when it has a block (R16 to R18). -/
def State.blockLaw (s : State) : Prop :=
  s.freeCount + s.chainedBlocks = s.pool.elim 0 Pool.count ∧
    ∀ t r, s.transit? t = some r → (r.first.isSome ↔ 0 < r.blocks) ∧ (r.last.isSome ↔ 0 < r.blocks)

/-- The copy entries in use that belong to a transit (R3). -/
def State.copiesOf (s : State) (t : TransitId) : Nat :=
  (List.finRange 768).countP (fun c => match s.copy? c with | some x => x.transit == t | none => false)

/-- A copy in use stands in a state and, where a line is given, is that line's; it has an outgoing number exactly when it is
SENDING (R6). -/
def State.stands (s : State) (c : CopyId) (st : CopyState) (n : Option Line) : Prop :=
  ∃ x, s.copy? c = some x ∧ x.state = st ∧ (∀ m, n = some m → x.line = some m) ∧
    (x.outNumber.isSome ↔ st = .sending)

/-- The laws of the device on copies and transits (R3, R6, R8, R9, R10): every copy that a line queue, the Hold List, a
sending position or the awaiting set holds is in use in the state that names the place; none stands twice; every copy in use
stands in its place, a SENDING one in the sending position of a circuit; ranks never decrease along a queue, and no queue holds
two copies of a transit; each copy belongs to an IN_TRANSIT transit, whose pending-copy count is the number of its copies, at
least 1.  No queue or sending position of a circuit holds a copy whose transit came from that circuit; what that rests on is
said too: a copy's addressees are its transit's, and a pinned copy or a literal addressee comes from line 0 alone (R53, R79).
The records that receivers fill are RECEIVING from their own line, and those of the Copy Wait List are WAITING (R1, R2). -/
structure State.CopyLaws (s : State) : Prop where
  queues : ∀ n : Line, (s.queue n).Nodup ∧ ∀ c ∈ s.queue n, s.stands c .queued (some n)
  hold : s.holdList.Nodup ∧ ∀ c ∈ s.holdList, s.stands c .held none
  sending : ∀ n c, (s.tx n).sending = some c → s.stands c .sending (some n)
  awaits : (s.awaiting.map Prod.snd).Nodup ∧ ∀ p ∈ s.awaiting, s.stands p.2 .delivering (some 0)
  placed : ∀ c x, s.copy? c = some x →
    (x.state = .queued → ∃ n, c ∈ s.queue n) ∧ (x.state = .held → c ∈ s.holdList) ∧
      (x.state = .delivering → c ∈ s.awaiting.map Prod.snd) ∧ (x.state = .sending → ∃ n, (s.tx n).sending = some c)
  ranks : ∀ n : Line, (s.queue n).Pairwise (fun c d => s.rankOf c ≤ s.rankOf d)
  twins : ∀ n : Line, (s.queue n).Pairwise (fun c d => (s.copy? c).map Copy.transit ≠ (s.copy? d).map Copy.transit)
  owners : ∀ c x, s.copy? c = some x → ∃ r, s.transit? x.transit = some r ∧ r.state = .inTransit
  counts : ∀ t r, s.transit? t = some r → r.state = .inTransit → r.pendingCopies = s.copiesOf t ∧ 0 < r.pendingCopies
  sources : ∀ (n : Line) c x r, n ≠ 0 → c ∈ s.queue n ∨ (s.tx n).sending = some c → s.copy? c = some x →
    s.transit? x.transit = some r → r.source ≠ n
  subsets : ∀ c x r, s.copy? c = some x → s.transit? x.transit = some r →
    (∀ a ∈ x.subset, a ∈ r.resolved) ∧ (x.pinned = true → r.source = 0)
  literals : ∀ t r, s.transit? t = some r → (∃ a ∈ r.resolved, a.isLiteral = true) → r.source = 0
  filling : ∀ n t, (s.rx n).transit = some t →
    ∃ r, s.transit? t = some r ∧ r.state = .receiving ∧ r.source = n
  waits : ∀ t ∈ s.waitList, ∃ r, s.transit? t = some r ∧ r.state = .waiting

/-- An entry is the read of START LINE's reload. -/
def FifoEntry.isReload : FifoEntry → Bool
  | .lineEntryRead _ => true
  | _ => false

/-- What waits for room is the read of START LINE's reload, or the answer that ends the command in flight. -/
def Waiter.endsFlight : Waiter → Bool
  | .entry e => e.isReload
  | .answer _ _ ends => ends
  | _ => false

/-- How many works of the command in flight are still to be done: the reload's read, the SUBMIT copy, the answer that waits. -/
def State.flights (s : State) : Nat :=
  s.fifo.countP FifoEntry.isReload + s.waiting.countP Waiter.endsFlight + if s.submitCopy.isSome then 1 else 0

/-- The laws that the transmitters and the command in flight keep (R105, R106, R119, R182).  One work at most is under way
for the command in flight, and none while the office is LOADING; a reload's read is that of a line with its reload PENDING,
which is neither STOPPED nor in TEST.  A copy is in the sending position only of a transmitter part-way through a message, and while that is
cut only when it is to return.  On a line that is STOPPED or whose reload is PENDING the transmitter is OFF, or finishes under
the stop mark. -/
structure State.LineLaws (s : State) : Prop where
  flight : s.flights ≤ 1 ∧ (0 < s.flights → s.inFlight ≠ none) ∧ (s.officeState = .loading → s.flights = 0)
  reload : ∀ n, (.lineEntryRead n ∈ s.fifo ∨ .entry (.lineEntryRead n) ∈ s.waiting ↔ (s.mon n).reloadPending = true) ∧
    ((s.mon n).reloadPending = true → (s.mon n).condition ≠ .stopped ∧ (s.mon n).condition ≠ .test)
  sends : ∀ n, (s.tx n).sending ≠ none →
    (s.tx n).state ∈ ([.heading, .text, .closing, .cutting, .stalled] : List TxState) ∧
    ((s.tx n).state = .cutting ∨ ((s.tx n).state = .stalled ∧ (s.tx n).stalledFrom = some .cutting) →
      (s.tx n).cutReturn = true)
  rests : ∀ n, (s.mon n).condition = .stopped ∨ (s.mon n).reloadPending = true →
    (s.tx n).state = .off ∨
      ((s.tx n).stopMark = true ∧ (s.tx n).state ∈ ([.closing, .cutting, .stalled] : List TxState))

/-- Office time lies within a day and the divider within a thousand (R184). -/
abbrev State.clockLaw (s : State) : Prop := s.officeTime < Config.dayTenths ∧ s.divider < 1000

/-- How many delivery records stand between the two indices of the ring (R112, R114). -/
def State.ringFill (s : State) : Nat := (s.writeIndex - s.readIndex).toNat

/-- An entry is a read of the load pass. -/
def FifoEntry.isTableRead : FifoEntry → Bool
  | .tableRead _ => true
  | _ => false

/-- The ring never holds more than its slots, and the load pass is counted: the reads decided are those carried out and
those in the FIFO, none is left once the office is no longer LOADING, and the ring is empty until then (R114, R154). -/
def State.ringLaw (s : State) : Prop :=
  s.ringFill ≤ s.ringSize ∧
    s.loadDone + s.fifo.countP FifoEntry.isTableRead = s.loadDecided ∧ s.loadDecided ≤ Config.loadReads ∧
    (s.officeState = .loading ↔ s.loadDone < Config.loadReads) ∧
    (s.waiting.count .loadPass ≤ 1 ∧ (.loadPass ∈ s.waiting → s.loadDecided < Config.loadReads)) ∧
    (∀ k, Waiter.entry (.tableRead k) ∉ s.waiting) ∧
    (s.officeState ≠ .running → s.ringSize = 0)

/-- A block of the pool in force. -/
def State.inForce (s : State) (b : Nat) : Prop := ∃ p, s.pool = some p ∧ b < p.count

/-- An entry that waits in the FIFO or for room in it. -/
def State.holdsEntry (s : State) (e : FifoEntry) : Prop := e ∈ s.fifo ∨ .entry e ∈ s.waiting

/-- The laws of the stores: every loaded word of the shadow equals memory's word at its place in the window, in every office
state (R152).  What that rests on is said too: the load pass's reads stand in the FIFO in order, the blocks of the free-block
chain, of transits and of FILLING buffers are blocks of the pool in force, every text and link write is for such a block, and
every delivery record for a slot of the ring's area (R15 to R18, R37, R112, R154). -/
structure State.StoreLaw (s : State) : Prop where
  shadow : ∀ off, off % 4 = 0 → inTableArea off = true → s.tableLoaded off = true →
    s.shadow.readWord off = s.mem.readWord (s.windowBase + off)
  reads : s.fifo.filterMap (fun e => match e with | .tableRead k => some k | _ => none) =
    List.range' s.loadDone (s.loadDecided - s.loadDone)
  free : (∀ b, s.freeHead = some b → s.inForce b) ∧ (∀ b, s.freeTail = some b → s.inForce b) ∧
    ∀ b c, s.nextBlock b = some c → s.inForce c
  chains : ∀ t r b, s.transit? t = some r → r.first = some b ∨ r.last = some b → s.inForce b
  filling : ∀ n k, ((s.rx n).buf k).state = .filling → ∃ b, ((s.rx n).buf k).block = some b ∧ s.inForce b
  texts : ∀ n k a cs, s.holdsEntry (.textWrite n k a cs) → ∃ b, s.inForce b ∧ a = s.blockAddress b
  links : ∀ a v, s.holdsEntry (.linkWrite a v) → ∃ b, s.inForce b ∧ a = s.blockAddress b
  records : s.ringSize ≤ 256 ∧ ∀ slot ws, s.holdsEntry (.recordWrite slot ws) → slot < 256 ∧ ws.length = 8

end Sys2Proof.Machine
end

