-- ==== Sys2Proof/Certificates/Slice0/Obligations.lean ====
section
/-! DEFINITION. The statements about the model, for the provers. -/
open Sys2Proof Sys2Proof.Machine

/-! ## The step -/

/-- A step takes the command at the front of the queue and runs it with the queue's rest. -/
def Obligations.StepRunsFrontCommand : Prop :=
  ∀ (c : Instr) (rest : List Instr) (s : State), s.pending = c :: rest → step s = exec c { s with pending := rest }

/-- With no command waiting a step is one pulse of the TIMEBASE input: the divider counts it, and the thousandth returns it
to 0 and advances both clocks (R184; that the idle step is a pulse, and that the clocks
go ahead of the periods which the same pulse ends, is the model's choice, log entry 4).  With no line in
TEST that is all.  Each circuit in TEST counts the pulse in its pacing count while that stays below its character period;
a circuit in TEST whose count reaches it ends its character period in the same step (R111). -/
def Obligations.IdleStepIsOnePulse : Prop :=
  ∀ s : State, s.pending = [] →
    let pulsed := if s.divider + 1 < 1000 then { s with divider := s.divider + 1 }
      else { s with
        divider := 0
        officeTime := if s.officeTime + 1 < 864000 then s.officeTime + 1 else 0
        clock := s.clock + 1 }
    ((∀ n : Line, (s.mon n).condition ≠ .test) → step s = .next pulsed) ∧
      ((∀ n : Line, n ≠ 0 → (s.mon n).condition = .test → (s.tx n).pacing + 1 < characterPeriod (s.entry n)) →
        ∃ t, step s = .next t ∧ t = { pulsed with lines := t.lines } ∧
          ∀ n : Line, t.line n = if n ≠ 0 ∧ (s.mon n).condition = .test then
            { s.line n with tx := { s.tx n with pacing := (s.tx n).pacing + 1 } } else s.line n) ∧
      ∀ n : Line, n ≠ 0 → (s.mon n).condition = .test → characterPeriod (s.entry n) ≤ (s.tx n).pacing + 1 →
        (∀ m : Line, m ≠ 0 → m ≠ n → (s.mon m).condition ≠ .test) →
        step s = exec (.testCharacterPeriodEnd n) pulsed

/-- Every command has a next state in every state, and none touches the queue of commands. -/
def Obligations.ExecAnswersNextAndKeepsQueue : Prop :=
  ∀ (i : Instr) (s : State), ∃ t, exec i s = .next t ∧ t.pending = s.pending

/-- A write with no byte enabled changes nothing (R167, R182), and a write of the command word whose byte 0 is not enabled
acts by the code captured before: all rows that carry the same line, tag and enables then act alike (R182).  That a write of
the command word with no byte enabled takes no command, and that the rows differ in the code they carry alone, is deduced (log
entry 7). -/
def Obligations.ByteEnablesOfWrites : Prop :=
  (∀ (i : Instr) (code line : BitVec 8) (tag : BitVec 16) (s : State), commandFields i = some (code, line, tag, 0) →
      exec i s = .next s) ∧
    (∀ (s : State) (v : Word), (∀ w, exec (.argumentWrite w v 0) s = .next s) ∧
      (∀ n, exec (.receiveCellWrite n v 0) s = .next s) ∧ exec (.eventWordWrite v 0) s = .next s ∧
      exec (.enableWordWrite v 0) s = .next s ∧ exec (.informOnlyWordWrite v 0) s = .next s ∧
      exec (.deliveryReadIndexWrite v 0) s = .next s ∧ (∀ a, exec (.blockedWrite a v 0) s = .next s) ∧
      (∀ k, exec (.officeTableWrite k v 0) s = .next s)) ∧
    ∀ (i j : Instr) (code code' line : BitVec 8) (tag : BitVec 16) (be : ByteEnables) (s : State),
      commandFields i = some (code, line, tag, be) → commandFields j = some (code', line, tag, be) →
        be.getLsbD 0 = false → exec i s = exec j s

/-! ## Commands turned away (R182, R183) -/

/-- While the office is LOADING or a command is in flight every command is answered BUSY; in HALTED_CONFIG every known
command but RESET OFFICE is answered WRONG_STATE (R182).  The write is captured and nothing else is done. -/
def Obligations.BusyOfficeTurnsCommandsAway : Prop :=
  ∀ (i : Instr) (code line : BitVec 8) (tag : BitVec 16) (be : ByteEnables) (s : State),
    commandFields i = some (code, line, tag, be) → be ≠ 0 →
      let c := s.taken code line tag be
      (s.commandBusy = true →
        ∃ t, exec i s = .next t ∧ AnswersOnly s (s.captured code line tag be) t c.tag .busy 0) ∧
      (s.officeState = .haltedConfig → s.inFlight = none → 1 ≤ c.code.toNat → c.code.toNat < 11 →
        ∃ t, exec i s = .next t ∧ AnswersOnly s (s.captured code line tag be) t c.tag .wrongState 0)

/-- NO SUCH COMMAND: a merged code outside 1 to 11 is answered NO_SUCH_COMMAND, whatever row wrote it (R182). -/
def Obligations.NoSuchCommandIsAnswered : Prop :=
  ∀ (i : Instr) (code line : BitVec 8) (tag : BitVec 16) (be : ByteEnables) (s : State),
    commandFields i = some (code, line, tag, be) → be ≠ 0 → s.officeState ≠ .loading → s.inFlight = none →
      let c := s.taken code line tag be
      (c.code.toNat = 0 ∨ 11 < c.code.toNat) →
        ∃ t, exec i s = .next t ∧ AnswersOnly s (s.captured code line tag be) t c.tag .noSuchCommand 0

/-- The six commands that name a line answer BAD_LINE for a line outside 1 to 48, and change nothing (R47, R91, R119, R122,
R123, R134). -/
def Obligations.BadLineIsAnswered : Prop :=
  ∀ (i : Instr) (code line : BitVec 8) (tag : BitVec 16) (be : ByteEnables) (s : State),
    commandFields i = some (code, line, tag, be) → be ≠ 0 → s.officeState = .running → s.inFlight = none →
      let c := s.taken code line tag be
      c.code ∈ ([1, 2, 3, 6, 8, 9] : List (BitVec 8)) → (c.line.toNat = 0 ∨ 48 < c.line.toNat) →
        ∃ t, exec i s = .next t ∧ AnswersOnly s (s.captured code line tag be) t c.tag .badLine 0

/-- START LINE on a circuit that is not STOPPED, and TEST LINE on one that is not STOPPED or still finishes a message under
the stop mark, are answered WRONG_STATE and change nothing (R119, R123). -/
def Obligations.WrongStateIsAnswered : Prop :=
  ∀ (line : BitVec 8) (tag : BitVec 16) (be : ByteEnables) (s : State) (n : Line),
    (s.accepts 1 line tag be → (s.taken 1 line tag be).line.toNat = n.val → n ≠ 0 → (s.mon n).condition ≠ .stopped →
        ∃ t, exec (.startLine line tag be) s = .next t ∧
          AnswersOnly s (s.captured 1 line tag be) t (s.taken 1 line tag be).tag .wrongState 0) ∧
      (s.accepts 3 line tag be → (s.taken 3 line tag be).line.toNat = n.val → n ≠ 0 →
        ((s.mon n).condition ≠ .stopped ∨ (s.tx n).stopMark = true) →
        ∃ t, exec (.testLine line tag be) s = .next t ∧
          AnswersOnly s (s.captured 3 line tag be) t (s.taken 3 line tag be).tag .wrongState 0)

/-- SUBMIT with a bad composition area and SET SEQUENCE with a number out of range answer BAD_ARGUMENT; SUBMIT with no
free record answers NO_RECORD; CANCEL answers BAD_ARGUMENT for a bad origin pair and NOT_FOUND for a pair that no
record has.  Nothing else changes.  An area is bad when its length is 0 or above the stored length limit, when it does not
lie wholly within the 16 MiB of the store, or when it has a byte of the window or of the pool in force (R20, R47, R48). -/
def Obligations.RefusedArgumentsAreAnswered : Prop :=
  (∀ (line : BitVec 8) (tag : BitVec 16) (be : ByteEnables) (s : State),
    (s.accepts 4 line tag be → s.badComposition s.argA.toNat s.argB.toNat = true →
        ∃ t, exec (.submit line tag be) s = .next t ∧
          AnswersOnly s (s.captured 4 line tag be) t (s.taken 4 line tag be).tag .badArgument 0) ∧
      (s.accepts 4 line tag be → s.badComposition s.argA.toNat s.argB.toNat = false →
        (∀ t : TransitId, s.transit? t ≠ none) →
        ∃ t, exec (.submit line tag be) s = .next t ∧
          AnswersOnly s (s.captured 4 line tag be) t (s.taken 4 line tag be).tag .noRecord 0) ∧
      (s.accepts 5 line tag be → (isFourLetters s.argA = false ∨ s.argB.toNat = 0 ∨ 9999 < s.argB.toNat) →
        ∃ t, exec (.cancel line tag be) s = .next t ∧
          AnswersOnly s (s.captured 5 line tag be) t (s.taken 5 line tag be).tag .badArgument 0) ∧
      (s.accepts 5 line tag be → isFourLetters s.argA = true → 1 ≤ s.argB.toNat → s.argB.toNat ≤ 9999 →
        (∀ t r, s.transit? t = some r → r.state = .receiving ∨ r.origin ≠ some s.argA ∨ r.serial ≠ some s.argB.toNat) →
        ∃ t, exec (.cancel line tag be) s = .next t ∧
          AnswersOnly s (s.captured 5 line tag be) t (s.taken 5 line tag be).tag .notFound 0) ∧
      ∀ n : Line, s.accepts 8 line tag be → (s.taken 8 line tag be).line.toNat = n.val → n ≠ 0 →
        (999 < s.argA.toNat ∨ s.argB.toNat = 0 ∨ 999 < s.argB.toNat) →
        ∃ t, exec (.setSequence line tag be) s = .next t ∧
          AnswersOnly s (s.captured 8 line tag be) t (s.taken 8 line tag be).tag .badArgument 0) ∧
    ∀ (s : State) (a l : Nat), s.badComposition a l = true ↔
      l = 0 ∨ s.storedLimit < l ∨ 0x1000000 ≤ a ∨ 0x1000000 < a + l ∨
        (a < s.windowBase + 0x20000 ∧ s.windowBase < a + l) ∨
        ∃ p, s.pool = some p ∧ a < p.base + 64 * p.count ∧ p.base < a + l

/-! ## The eleven commands -/

/-- START LINE on a STOPPED circuit: the line is STARTING with its reload pending and its checks dropped, the command is in
flight, the entry's read is decided and LINE_CONDITION is posted; nothing else changes (R118, R119). -/
def Obligations.StartLineBeginsReload : Prop :=
  ∀ (line : BitVec 8) (tag : BitVec 16) (be : ByteEnables) (s : State) (n : Line), s.accepts 1 line tag be →
    (s.taken 1 line tag be).line.toNat = n.val → n ≠ 0 → (s.mon n).condition = .stopped →
      ∃ t, exec (.startLine line tag be) s = .next t ∧
        t.quiet = (State.modLine { s.captured 1 line tag be with inFlight := some (s.taken 1 line tag be) } n (fun l =>
          { l with
            rx := { l.rx with breakSeen := false }
            mon := { l.mon with
              condition := .starting, reloadPending := true, failures := 0, firstCheck := false, outstanding := none
              owed := none, timer := none, lastExpiry := none } })).quiet ∧
        Decides s t (.lineEntryRead n) ∧ Posts s t [.lineCondition] []

/-- STOP LINE on a STOPPED circuit only answers DONE.  On another circuit the line becomes STOPPED; its receiver goes OFF
with nothing held, the record that it was filling freed; its checks are dropped; its transmitter goes OFF or, out of TEST,
finishes its message under the stop mark; the line loss action runs on its queue as those changes have left it; LINE_CONDITION
is posted, the line's record is rewritten and the answer is DONE; the other lines keep their receivers, monitors and entries.  Under the laws of the device on
copies the queue is empty after it, and each pinned copy that stood in it is held with its line kept (R43, R86, R87, R106,
R122).  That words 0 to 3, with what the command sets, are the words of the record rewritten is the model's reading (DEDUCED,
log entry 9), and the order of effects inside the line loss action is its choice (DESIGN CHOICE, log entry 14). -/
def Obligations.StopLineStopsCircuit : Prop :=
  ∀ (line : BitVec 8) (tag : BitVec 16) (be : ByteEnables) (s : State) (n : Line), s.accepts 2 line tag be →
    (s.taken 2 line tag be).line.toNat = n.val → n ≠ 0 →
      ((s.mon n).condition = .stopped →
        ∃ t, exec (.stopLine line tag be) s = .next t ∧
          AnswersOnly s (s.captured 2 line tag be) t (s.taken 2 line tag be).tag .done 0) ∧
      ((s.mon n).condition ≠ .stopped →
        ∃ t, exec (.stopLine line tag be) s = .next t ∧ Answers s t (s.taken 2 line tag be).tag .done 0 ∧
          t.isPending .lineCondition = true ∧
          (∀ i ∈ ([0, 1, 2, 3] : List (Fin 8)), t.stateWritePending (.line n i) = true) ∧
          t.frame.base = (s.captured 2 line tag be).frame.base ∧
          t.inFlight = none ∧ t.submitCopy = s.submitCopy ∧ t.recent = s.recent ∧
          (∀ m, m ≠ n → (t.line m).kept = (s.line m).kept) ∧ (t.line n).entry = (s.line n).entry ∧
          t.mon n = { s.mon n with
            condition := .stopped, outstanding := none, timer := none, owed := none, firstCheck := false
            lastExpiry := none } ∧
          t.rx n = { (s.rx n).dropFilling.clear .off with breakSeen := false } ∧
          (∀ id, (s.rx n).transit = some id → t.transit? id = none) ∧
          ((s.mon n).condition ≠ .test → (s.tx n).state ≠ .stalled →
            ∃ b, OnlyStateWrites s b ∧ b.frame = (s.captured 2 line tag be).frame ∧ b.copies = s.copies ∧
              b.holdList = s.holdList ∧ (∀ m, b.queue m = s.queue m) ∧ (∀ m, m ≠ n → b.line m = s.line m) ∧
              b.mon n = t.mon n ∧ b.rx n = t.rx n ∧ t.quiet = (lineLoss n b).quiet) ∧
          (s.CopyLaws → t.queue n = [] ∧ ∀ c x, c ∈ s.queue n → s.copy? c = some x → x.pinned = true →
            c ∈ t.holdList ∧ ∃ y, t.copy? c = some y ∧ y.state = .held ∧ y.line = some n ∧ y.pinned = true) ∧
          (match (s.tx n).state with
            | .off => (t.tx n).state = .off
            | .idle => (t.tx n).state = .off
            | .service => (t.tx n).state = .off
            | .stalled => (t.tx n).state = .off ∧ (t.tx n).sending = none
            | .closing =>
              if (s.mon n).condition = .test then (t.tx n).state = .off ∧ (t.tx n).sending = none
              else (t.tx n).state = .closing ∧ (t.tx n).stopMark = true
            | _ =>
              if (s.mon n).condition = .test then (t.tx n).state = .off ∧ (t.tx n).sending = none
              else (t.tx n).state = .cutting ∧ (t.tx n).stopMark = true))

/-- TEST LINE on a STOPPED circuit whose transmitter is OFF: the condition is TEST, the receiver goes to HUNT and the
transmitter to IDLE with its pacing count 0, LINE_CONDITION is posted and the answer is DONE; nothing else changes (R43,
R95, R111, R123). -/
def Obligations.TestLineStartsTest : Prop :=
  ∀ (line : BitVec 8) (tag : BitVec 16) (be : ByteEnables) (s : State) (n : Line), s.accepts 3 line tag be →
    (s.taken 3 line tag be).line.toNat = n.val → n ≠ 0 → (s.mon n).condition = .stopped → (s.tx n).stopMark = false →
      ∃ t, exec (.testLine line tag be) s = .next t ∧
        t.quiet = ((s.captured 3 line tag be).modLine n (fun l =>
          { l with
            mon := { l.mon with condition := .test }
            rx := { l.rx.clear .hunt with
              openGroup := s.openingGroup, closeGroup := s.closingGroup, lastArrival := s.clock, shift := .letters }
            tx := { l.tx.emptyBuffers with
              state := .idle, stalledFrom := none, sending := none, next := 0, slot := none, service := none
              cutRemaining := 0, cutReturn := false, stopMark := false, shift := .unknown, lastRead := s.clock
              lastOffered := s.clock, pacing := 0 } })).quiet ∧
        Answers s t (s.taken 3 line tag be).tag .done 0 ∧ Posts s t [.lineCondition] [.command]

/-- SUBMIT with a good composition area and a free record: the lowest-numbered record is taken for line 0 with the office
time as filing time, the copy begins with the Local Position's assembler in HEADING, the command is in flight and the
first composition read is decided; nothing else changes (R1, R48, R49, R170). -/
def Obligations.SubmitBeginsCopy : Prop :=
  ∀ (line : BitVec 8) (tag : BitVec 16) (be : ByteEnables) (s : State) (id : TransitId), s.accepts 4 line tag be →
    s.badComposition s.argA.toNat s.argB.toNat = false → s.transit? id = none →
    (∀ j : TransitId, j < id → s.transit? j ≠ none) →
      ∃ t, exec (.submit line tag be) s = .next t ∧
        t.quiet = (State.modRx { (s.captured 4 line tag be).setTransit id (some (newTransit 0 s.officeTime)) with
          inFlight := some (s.taken 4 line tag be)
          submitCopy := some { address := s.argA.toNat, length := s.argB.toNat, fetched := 0, waiting := [] } } 0
          (fun r => { r.clear .heading with transit := some id })).quiet ∧
        Decides s t (.compositionRead (s.argA.toNat / 4 * 4)
          (min 16 ((s.argA.toNat + s.argB.toNat + 3) / 4 - s.argA.toNat / 4))) ∧
        Posts s t [] []

/-- CANCEL of an origin pair that some records have: it treats the records with that pair that are not RECEIVING, each copy
of an IN_TRANSIT one by its place, then considers the Copy Wait List; the answer is DONE with the number of copies freed.
The WAITING records among them are freed and stand on the Copy Wait List no more, and the lines keep their receivers,
monitors and entries (R4, R14, R20, R21).  The order in which the records and copies are treated is the model's choice (DESIGN
CHOICE, log entry 37). -/
def Obligations.CancelFreesRecords : Prop :=
  ∀ (line : BitVec 8) (tag : BitVec 16) (be : ByteEnables) (s : State), s.accepts 5 line tag be →
    isFourLetters s.argA = true → 1 ≤ s.argB.toNat → s.argB.toNat ≤ 9999 →
    (∃ id r, s.transit? id = some r ∧ r.state ≠ .receiving ∧ r.origin = some s.argA ∧ r.serial = some s.argB.toNat) →
      let r := cancelTransits ((s.captured 5 line tag be).cancelMatches s.argA s.argB.toNat) (s.captured 5 line tag be)
      ∃ t, exec (.cancel line tag be) s = .next t ∧ Answers s t (s.taken 5 line tag be).tag .done r.2 ∧
        t.quiet = (considerWaitList r.1).quiet ∧
        (∀ id : TransitId, id ∈ (s.captured 5 line tag be).cancelMatches s.argA s.argB.toNat ↔
          ∃ y, s.transit? id = some y ∧ y.state ≠ .receiving ∧ y.origin = some s.argA ∧ y.serial = some s.argB.toNat) ∧
        t.frame.base = (s.captured 5 line tag be).frame.base ∧ t.inFlight = none ∧ KeepsLines s t ∧
        ∀ id r, s.transit? id = some r → r.state = .waiting → r.origin = some s.argA → r.serial = some s.argB.toNat →
          t.transit? id = none ∧ id ∉ t.waitList

/-- What CANCEL does to one copy of the transit, by where it stands: a QUEUED and a HELD copy leave their list and are
freed; a SENDING copy in HEADING or TEXT is freed and its message cut without return; in CUTTING or STALLED it is freed and
the cut goes on without return; in CLOSING, and DELIVERING, it stays (R21). -/
def Obligations.CancelTreatsCopyByPlace : Prop :=
  ∀ (s : State) (id : TransitId) (c : CopyId) (x : Copy) (n : Line), s.copy? c = some x → x.transit = id →
    (x.state = .queued → x.line = some n →
        (cancelCopy id c s).2 = 1 ∧ (cancelCopy id c s).1.copy? c = none ∧ c ∉ (cancelCopy id c s).1.queue n) ∧
      (x.state = .held →
        (cancelCopy id c s).2 = 1 ∧ (cancelCopy id c s).1.copy? c = none ∧ c ∉ (cancelCopy id c s).1.holdList) ∧
      (x.state = .delivering → cancelCopy id c s = (s, 0)) ∧
      (x.state = .sending → x.line = some n → (s.tx n).state = .closing → cancelCopy id c s = (s, 0)) ∧
      (x.state = .sending → x.line = some n → ((s.tx n).state = .heading ∨ (s.tx n).state = .text) →
        (cancelCopy id c s).2 = 1 ∧ (cancelCopy id c s).1.copy? c = none ∧
          ((cancelCopy id c s).1.tx n).state = .cutting ∧ ((cancelCopy id c s).1.tx n).sending = none ∧
          ((cancelCopy id c s).1.tx n).cutReturn = false) ∧
      (x.state = .sending → x.line = some n → ((s.tx n).state = .cutting ∨ (s.tx n).state = .stalled) →
        (cancelCopy id c s).2 = 1 ∧ (cancelCopy id c s).1.copy? c = none ∧
          ((cancelCopy id c s).1.tx n).state = (s.tx n).state ∧ ((cancelCopy id c s).1.tx n).sending = none ∧
          ((cancelCopy id c s).1.tx n).cutRemaining = (s.tx n).cutRemaining ∧
          ((cancelCopy id c s).1.tx n).cutReturn = false)

/-- REROUTE LINE takes the line's queue through the line loss walk and what follows it, the re-examination that it calls for
and the Copy Wait List once, and answers DONE with the number of copies that left the queue in the walk, at most its length;
a line with an empty queue is left as it stands when nothing waits for copy entries; receivers, monitors and entries of all
lines are kept (R14, R87, R91).  That the entries which merged are freed at the walk's end, and that the re-examination goes
ahead of the Copy Wait List, is the model's choice (DESIGN CHOICE, log entry 14). -/
def Obligations.RerouteLineMovesQueue : Prop :=
  ∀ (line : BitVec 8) (tag : BitVec 16) (be : ByteEnables) (s : State) (n : Line), s.accepts 6 line tag be →
    (s.taken 6 line tag be).line.toNat = n.val → n ≠ 0 →
      ∃ t, exec (.rerouteLine line tag be) s = .next t ∧
        Answers s t (s.taken 6 line tag be).tag .done
          ((s.queue n).countP (fun c => decide (c ∉ (lossWalk n (s.queue n) (s.captured 6 line tag be)).1.queue n))) ∧
        t.quiet = (afterAction [n] (lossWalk n (s.queue n) (s.captured 6 line tag be))).quiet ∧
        t.frame.base = (s.captured 6 line tag be).frame.base ∧ t.inFlight = none ∧ KeepsLines s t ∧
        (s.queue n = [] → s.waitList = [] →
          AnswersOnly s (s.captured 6 line tag be) t (s.taken 6 line tag be).tag .done 0)

/-- In the walk of a circuit's queue an unpinned copy with station addressees leaves that queue; a pinned copy stays, and
nothing changes, unless the line is STOPPED, when it is held with its line kept (R83, R84, R86, R87).  The model's choice
(DESIGN CHOICE, log entry 14), of which R87 says only that the entries are freed as one event: while copies are walked no
entry is freed, each one in use stays in use for its transit, so that a division takes entries that were free when the walk
began, and at the walk's end the entries that merges have taken in, and no others, are freed. -/
def Obligations.LineLossTakesUnpinnedCopies : Prop :=
  (∀ (s : State) (n : Line) (c : CopyId) (x : Copy), n ≠ 0 → s.copy? c = some x →
    let t := (lossCopy n c s).state
    (x.pinned = false → (∀ a ∈ x.subset, a.isLiteral = false) → c ∉ t.queue n) ∧
      (x.pinned = true → (s.mon n).condition ≠ .stopped → lossCopy n c s = { state := s, held := false, merged := [] }) ∧
      (x.pinned = true → (s.mon n).condition = .stopped →
        c ∉ t.queue n ∧ t.holdList = s.holdList ++ [c] ∧
          t.copy? c = some { x with state := .held, line := some n, outNumber := none } ∧
          t.isPending .routeHold = true ∧ (lossCopy n c s).held = true ∧ (lossCopy n c s).merged = [])) ∧
    ∀ (s : State) (n : Line) (cs : List CopyId),
      let w := lossCopies n cs s
      (∀ c x, s.copy? c = some x → ∃ y, w.state.copy? c = some y ∧ y.transit = x.transit) ∧
        (∀ c, (lossWalk n cs s).1.copy? c = if c ∈ w.merged then none else w.state.copy? c) ∧
        (∀ m, (lossWalk n cs s).1.queue m = w.state.queue m) ∧ (lossWalk n cs s).1.holdList = w.state.holdList ∧
        (lossWalk n cs s).2 = w.held

/-- RETRY HELD runs the Hold List's re-examination and answers DONE with the number of copies it placed, 0 for an empty
list.  A pinned copy held for a line that is no longer STOPPED leaves the list for that line: it stands in its queue, or is
freed into the copy of its transit that stands there.  Receivers, monitors and entries of all lines are kept (R10, R89, R92).
The model's choice (DESIGN CHOICE, log entry 14), of which R89 says only that the entries are freed as one event: while copies
are walked no entry is freed, and at the walk's end those that merges have taken in, and no others. -/
def Obligations.RetryHeldReexamines : Prop :=
  (∀ (line : BitVec 8) (tag : BitVec 16) (be : ByteEnables) (s : State), s.accepts 7 line tag be →
      ∃ t, exec (.retryHeld line tag be) s = .next t ∧
        Answers s t (s.taken 7 line tag be).tag .done (reexamineHoldList (s.captured 7 line tag be)).2 ∧
        t.quiet = (reexamineHoldList (s.captured 7 line tag be)).1.quiet ∧
        t.frame.base = (s.captured 7 line tag be).frame.base ∧ t.inFlight = none ∧ KeepsLines s t ∧
        (s.holdList = [] → s.waitList = [] →
          AnswersOnly s (s.captured 7 line tag be) t (s.taken 7 line tag be).tag .done 0)) ∧
    (∀ (s : State) (c : CopyId) (x : Copy) (r : Transit) (n : Line) (excluded : List Line), n ≠ 0 →
      s.copy? c = some x → s.transit? x.transit = some r → x.pinned = true → x.line = some n →
      (s.mon n).condition ≠ .stopped → c ∉ s.queue n →
        let t := (reexamineWalk excluded [c] s).1
        (reexamineWalk excluded [c] s).2 = 1 ∧ c ∉ t.holdList ∧ (s.queuedTwin n c = none → c ∈ t.queue n) ∧
          ∀ d, s.queuedTwin n c = some d → d ∈ t.queue n ∧ c ∉ t.queue n ∧ t.copy? c = none) ∧
    ∀ (s : State) (excluded : List Line) (cs : List CopyId),
      let w := reexamineCopies excluded cs s
      (∀ c x, s.copy? c = some x → ∃ y, w.1.state.copy? c = some y ∧ y.transit = x.transit) ∧
        (∀ c, (reexamineWalk excluded cs s).1.copy? c = if c ∈ w.1.merged then none else w.1.state.copy? c) ∧
        (∀ m, (reexamineWalk excluded cs s).1.queue m = w.1.state.queue m) ∧
        (reexamineWalk excluded cs s).1.holdList = w.1.state.holdList ∧ (reexamineWalk excluded cs s).2 = w.2

/-- SET SEQUENCE with numbers in range: expected-in becomes the value of argument A, UNKNOWN for 0, and next-out the value
of argument B; the line's record is rewritten, whether or not the numbers differ from those in force; the answer is DONE and
nothing else changes (R47).  That the word with both numbers is the word of the record rewritten is the model's reading
(DEDUCED, log entry 9). -/
def Obligations.SetSequenceSetsNumbers : Prop :=
  ∀ (line : BitVec 8) (tag : BitVec 16) (be : ByteEnables) (s : State) (n : Line), s.accepts 8 line tag be →
    (s.taken 8 line tag be).line.toNat = n.val → n ≠ 0 → s.argA.toNat ≤ 999 → 1 ≤ s.argB.toNat → s.argB.toNat ≤ 999 →
      ∃ t, exec (.setSequence line tag be) s = .next t ∧
        t.quiet = ((s.captured 8 line tag be).modLine n (fun l =>
          { l with
            rx := { l.rx with expectedIn := if s.argA.toNat = 0 then none else some s.argA.toNat }
            tx := { l.tx with nextOut := s.argB.toNat } })).quiet ∧
        Answers s t (s.taken 8 line tag be).tag .done 0 ∧ Posts s t [] [.command] ∧
        t.stateWritePending (.line n 2) = true

/-- CLEAR COUNTERS (R134): a line outside 1 to 48 is answered BAD_LINE and changes nothing; otherwise, in every condition,
the seven counters are 0, DEGRADED is clear, the line's record is rewritten, also when all of them were so already, the answer
is DONE, and nothing else changes, the latches, the check state and the office stray count among it.  That the words with
DEGRADED and the counters are the words of the record rewritten is the model's reading (DEDUCED, log entry 9); any other word
holds what it held or has a write pending. -/
def Obligations.ClearCountersClears : Prop :=
  ∀ (line : BitVec 8) (tag : BitVec 16) (be : ByteEnables) (s : State), s.accepts 9 line tag be →
    let c := s.taken 9 line tag be
    ((c.line.toNat = 0 ∨ 48 < c.line.toNat) →
        ∃ t, exec (.clearCounters line tag be) s = .next t ∧ AnswersOnly s (s.captured 9 line tag be) t c.tag .badLine 0) ∧
      ∀ n : Line, n ≠ 0 → c.line.toNat = n.val →
        ∃ t, exec (.clearCounters line tag be) s = .next t ∧
          t.quiet = ((s.captured 9 line tag be).modMon n (fun m =>
            { m with
              degraded := false
              counters :=
                { parity := 0, framing := 0, heading := 0, gap := 0, checkFail := 0, fill := 0, stalledChars := 0 } })).quiet ∧
          Answers s t c.tag .done 0 ∧ Posts s t [] [.command] ∧
          (∀ i ∈ ([0, 4, 5, 6, 7] : List (Fin 8)), t.stateWritePending (.line n i) = true) ∧
          ∀ i : Fin 8, Rewritten s t (.line n i)

/-- SET TIME (R185): 864,000 or more is answered BAD_ARGUMENT and changes nothing; otherwise office time becomes argument A,
the answer is DONE and nothing else changes, the divider, the internal clock and the records' filing times among it; a
record taken after it takes the new time.  Taken after an advance of the clock its value stands; an advance after it adds
one tenth. -/
def Obligations.SetTimeSetsOfficeTime : Prop :=
  ∀ (line : BitVec 8) (tag : BitVec 16) (be : ByteEnables) (s : State), s.accepts 10 line tag be →
    let c := s.taken 10 line tag be
    (864000 ≤ s.argA.toNat →
        ∃ t, exec (.setTime line tag be) s = .next t ∧ AnswersOnly s (s.captured 10 line tag be) t c.tag .badArgument 0) ∧
      (s.argA.toNat < 864000 →
        ∃ t, exec (.setTime line tag be) s = .next t ∧
          t.quiet = ({ s.captured 10 line tag be with officeTime := s.argA.toNat }).quiet ∧
          Answers s t c.tag .done 0 ∧ Posts s t [] [.command] ∧
          (∀ n id u, takeTransit n t = some (id, u) → (u.transit? id).map Transit.filing = some s.argA.toNat) ∧
          (∃ a, exec .clockAdvance t = .next a ∧
            a.officeTime = if s.argA.toNat + 1 < 864000 then s.argA.toNat + 1 else 0) ∧
          ∃ a b, exec .clockAdvance s = .next a ∧ exec (.setTime line tag be) a = .next b ∧ b.officeTime = s.argA.toNat)

/-- RESET OFFICE, taken while RUNNING or in HALTED_CONFIG: the whole state after it.  The command stays in flight, the
office is LOADING, the FIFO holds the reset's writes and the first reads of the load pass, the clocks' divider and office
time go on, memory and the window stay, and all else is as after power-on.  The order of the reset's writes within the event
words and within the indices, and one entry a word, are the model's choice (log entry 41), and so are the values that the manual
leaves open (log entry 3) (R164, R174, R184, R186).  That the counter of free choices goes on is its choice too (log entry 12). -/
def Obligations.ResetOfficeRestartsOffice : Prop :=
  ∀ (line : BitVec 8) (tag : BitVec 16) (be : ByteEnables) (s : State), be ≠ 0 → s.officeState ≠ .loading →
    s.inFlight = none → (s.taken 11 line tag be).code = 11 →
      exec (.resetOffice line tag be) s = .next { State.reset with
        pending := s.pending
        windowK := s.windowK
        mem := (s.captured 11 line tag be).mem
        fifo := [.stateWrite [.event], .stateWrite [.enable], .stateWrite [.informOnly], .indexWrite 0,
          .stateWrite [.readIndex], .stateWrite [.office 0]] ++ (List.range 26).map FifoEntry.tableRead
        waiting := [.loadPass]
        loadDecided := 26
        readData := s.readData
        shadow := s.shadow
        inFlight := some (s.taken 11 line tag be)
        lastAnswer := s.lastAnswer
        divider := s.divider
        officeTime := s.officeTime
        choices := s.choices }

/-! ## Words the host writes and reads -/

/-- The captured words.  An argument write reaches memory and the captured argument.  A write of the Enable Word reaches
memory and the captured copy, keeps the pending set, and the interrupt output follows.  A write of the Inform-Only Word
reaches memory and the captured copy; with no 1 in bits 3 to 5 it runs nothing and nothing else changes.  With a 1 in bit
3, 4 or 5 the recovery of RX_STALL, TX_STALL or ROUTE_HOLD runs at once, in this order (the model's choice, log entry 34):
every STALLED receiver of a circuit is in HUNT after it, every STALLED transmitter has recovered, and the Hold List is
re-examined (R42, R89, R110, R131, R177, R178, R182).  The order of effects inside the recoveries is the model's choice
(DESIGN CHOICE, log entries 14 and 39). -/
def Obligations.CapturedWordWrites : Prop :=
  ∀ (v : Word) (be : ByteEnables) (s : State), be ≠ 0 →
    exec (.argumentWrite .a v be) s =
        .next { s with mem := s.mem.writeMasked (s.windowBase + 4) v be, argA := mergeWord s.argA v be } ∧
      exec (.argumentWrite .b v be) s =
        .next { s with mem := s.mem.writeMasked (s.windowBase + 8) v be, argB := mergeWord s.argB v be } ∧
      exec (.argumentWrite .c v be) s =
        .next { s with mem := s.mem.writeMasked (s.windowBase + 12) v be, argC := mergeWord s.argC v be } ∧
      (∃ t, exec (.enableWordWrite v be) s = .next t ∧
        t.quiet = ({ s with
          mem := s.mem.writeMasked (s.windowBase + 0x24) v be, enableWord := mergeWord s.enableWord v be }).quiet ∧
        t.events = s.events ∧ t.interrupt = interruptCalled s.events (mergeWord s.enableWord v be) ∧
        OnlyStateWrites s t ∧ Rewritten s t .enable) ∧
      ((enabledBits v be).getLsbD 3 = false → (enabledBits v be).getLsbD 4 = false →
        (enabledBits v be).getLsbD 5 = false →
        ∃ t, exec (.informOnlyWordWrite v be) s = .next t ∧
          t.quiet = ({ s with
            mem := s.mem.writeMasked (s.windowBase + 0x28) v be, informOnly := mergeWord s.informOnly v be }).quiet ∧
          t.events = s.events ∧ t.interrupt = s.interrupt ∧
          OnlyStateWrites s t ∧ Rewritten s t .informOnly) ∧
      ∃ u, u.quiet = ({ s with
            mem := s.mem.writeMasked (s.windowBase + 0x28) v be, informOnly := mergeWord s.informOnly v be }).quiet ∧
        u.events = s.events ∧ u.interrupt = s.interrupt ∧ OnlyStateWrites s u ∧ Rewritten s u .informOnly ∧
        let a := if (enabledBits v be).getLsbD 3 then recoverReceivers u else u
        let b := if (enabledBits v be).getLsbD 4 then recoverTransmitters a else a
        let t := settle s (if (enabledBits v be).getLsbD 5 then (reexamineHoldList b).1 else b)
        exec (.informOnlyWordWrite v be) s = .next t ∧
          ((enabledBits v be).getLsbD 3 = true →
            ∀ n : Line, n ≠ 0 → (s.rx n).state = .stalled → (t.rx n).state = .hunt ∧ (t.rx n).transit = none) ∧
          ((enabledBits v be).getLsbD 4 = true → ∀ n : Line, n ≠ 0 → (s.tx n).state = .stalled → Recovered s t n)

/-- EVENT WORD WRITE: each class whose bit the write carries as 1 in an enabled byte stops being pending and no other
does, the interrupt output follows, and the pending set goes into memory; with no recovery called for nothing else
changes.  The recoveries that the clear calls for run in the order RX_STALL, TX_STALL, ROUTE_HOLD: every STALLED receiver of
a circuit is in HUNT after the first, every STALLED transmitter has recovered after the second, and the third re-examines
the Hold List, which keeps receivers, monitors and entries of all lines (R42, R89, R110, R131, R176, R177, R179).  The order of
effects inside each recovery is the model's choice (DESIGN CHOICE, log entries 14 and 39). -/
def Obligations.EventWordWriteClears : Prop :=
  ∀ (v : Word) (be : ByteEnables) (s : State), be ≠ 0 →
    (s.clearRecovers (enabledBits v be) .rxStall = false → s.clearRecovers (enabledBits v be) .txStall = false →
      s.clearRecovers (enabledBits v be) .routeHold = false →
      ∃ t, exec (.eventWordWrite v be) s = .next t ∧
        (∀ c : EventClass, t.isPending c = (s.isPending c && !(enabledBits v be).getLsbD c.bit)) ∧
        t.interrupt = interruptCalled t.events s.enableWord ∧
        t.quiet = ({ s with mem := s.mem.writeWord (s.windowBase + 0x20) t.eventWord }).quiet ∧
        OnlyStateWrites s t ∧ Rewritten s t .event) ∧
    (s.clearRecovers (enabledBits v be) .rxStall = true → s.clearRecovers (enabledBits v be) .txStall = false →
      s.clearRecovers (enabledBits v be) .routeHold = false →
      ∃ t, exec (.eventWordWrite v be) s = .next t ∧ t.isPending .rxStall = false ∧ OnlyStateWrites s t ∧
        ∀ n : Line, n ≠ 0 → (s.rx n).state = .stalled → (t.rx n).state = .hunt ∧ (t.rx n).transit = none) ∧
    ∃ u : State, (∀ c : EventClass, u.isPending c = (s.isPending c && !(enabledBits v be).getLsbD c.bit)) ∧
      u.interrupt = interruptCalled u.events s.enableWord ∧
      u.quiet = ({ s with mem := s.mem.writeWord (s.windowBase + 0x20) u.eventWord }).quiet ∧
      OnlyStateWrites s u ∧
      let a := if s.clearRecovers (enabledBits v be) .rxStall then recoverReceivers u else u
      let b := if s.clearRecovers (enabledBits v be) .txStall then recoverTransmitters a else a
      let t := settle s (if s.clearRecovers (enabledBits v be) .routeHold then (reexamineHoldList b).1 else b)
      exec (.eventWordWrite v be) s = .next t ∧
        (s.clearRecovers (enabledBits v be) .rxStall = true →
          ∀ n : Line, n ≠ 0 → (s.rx n).state = .stalled → (t.rx n).state = .hunt ∧ (t.rx n).transit = none) ∧
        (s.clearRecovers (enabledBits v be) .txStall = true →
          ∀ n : Line, n ≠ 0 → (s.tx n).state = .stalled → Recovered s t n) ∧
        (s.clearRecovers (enabledBits v be) .rxStall = false → s.clearRecovers (enabledBits v be) .txStall = false →
          KeepsLines s t)

/-- DELIVERY READ INDEX WRITE: with v the value merged, the new read index is v when it lies from the read index on to the write
index, the read index when v is behind it, else the write index; memory takes it, and the lines keep their receivers,
monitors and entries.  The copies whose delivery numbers it passes await no longer and are freed, however many they are: each
transit's pending-copy count goes down by the number of its copies among them, and a transit of which none is left is freed;
the other awaiting copies stay.  The Copy Wait List is
considered and queue 0 looked at, and what is delivered then takes the numbers from the old write index on.  A write that
leaves the index as it was changes nothing but memory (R3, R4, R7, R14, R112, R114, R115).  That the index has moved, and the
passed slots are free, when the Copy Wait List is considered is the model's choice (DESIGN CHOICE, log entry 44), and so is the
order in which the copies are freed (DESIGN CHOICE, log entry 37). -/
def Obligations.ReadIndexWriteAcknowledges : Prop :=
  ∀ (value : Word) (be : ByteEnables) (s : State), be ≠ 0 →
    let r := s.readIndex
    let w := s.writeIndex
    let v : BitVec 16 := (mergeWord (r.setWidth 32) value be).setWidth 16
    let new := if (v - r).toNat ≤ (w - r).toNat then v else if (r - v).toNat < 32768 then r else w
    ∃ t, exec (.deliveryReadIndexWrite value be) s = .next t ∧
      t.frame = ({ s with
        readIndex := new, mem := s.mem.writeWord (s.windowBase + 0x38) (new.setWidth 32) }).frame ∧
      KeepsLines s t ∧ Rewritten s t .readIndex ∧ (∃ es ws, Appends s t es ws) ∧
      (∃ cs : List CopyId, t.writeIndex = w + BitVec.ofNat 16 cs.length ∧
        t.awaiting = s.awaiting.filter (fun p => !decide ((p.1 - r).toNat < (new - r).toNat)) ++ numberFrom w cs) ∧
      (new = r → t = { s with mem := s.mem.writeWord (s.windowBase + 0x38) (r.setWidth 32) }) ∧
      (new ≠ r →
        let u := decideState .readIndex { s with
          readIndex := new, mem := s.mem.writeWord (s.windowBase + 0x38) (new.setWidth 32) }
        let a := acknowledge r new u
        t = settle s (deliver (considerWaitList a)) ∧
          a.awaiting = s.awaiting.filter (fun p => !decide ((p.1 - r).toNat < (new - r).toNat)) ∧
          (∀ c : CopyId, (∃ p ∈ s.awaiting, (p.1 - r).toNat < (new - r).toNat ∧ p.2 = c) → a.copy? c = none) ∧
          (∀ c : CopyId, (∀ p ∈ s.awaiting, (p.1 - r).toNat < (new - r).toNat → p.2 ≠ c) → a.copy? c = s.copy? c) ∧
          ∀ (id : TransitId) (y : Transit), s.transit? id = some y →
            let k := (List.finRange 768).countP (fun c =>
              s.awaiting.any (fun p => decide ((p.1 - r).toNat < (new - r).toNat) && p.2 == c) &&
                (s.copy? c).any (fun x => x.transit == id))
            (k = 0 → a.transit? id = some y) ∧
              (0 < k → y.state = .inTransit → a.transit? id =
                if y.pendingCopies ≤ k then none else some { y with pendingCopies := y.pendingCopies - k }))

/-- A read of the office time word answers the present office time.  A plain read of a word is answered by the last
write of it in the FIFO, else from memory: a fixed write answers what was decided, a state write what the part holds now, a
read in the FIFO answers nothing, and a write that waits for room does not answer (the model's choice, log entry 35).  A read
of word 0 of a Line Status Record answers so too, but with the present word while a write of it waits for room (inferred, log
entry 35), its bits 0 and 1 being the latches as they stood; it then re-arms them, held ACTIVE to whether the circuit is
ACTIVE and the error latch to clear, and a write of the word is pending after it.  Nothing else changes (R173, R180, R181,
R184). -/
def Obligations.SubstitutedReads : Prop :=
  (∀ s : State, exec .officeTimeRead s = .next { s with readData := BitVec.ofNat 32 s.officeTime }) ∧
    (∀ (n : Line) (s : State), ∃ t, exec (.lineStatusWord0Read n) s = .next t ∧
      t.quiet = ({ s.modLine n (fun l =>
        { l with heldActive := n != 0 && l.mon.condition == Condition.active, errorLatch := false }) with
        readData := if s.stateWriteWaits (.line n 0) then s.stateWord (.line n 0)
          else s.busRead (s.windowBase + 0x400 + 32 * n.val) }).quiet ∧
      t.events = s.events ∧ t.interrupt = s.interrupt ∧ OnlyStateWrites s t ∧
      t.stateWritePending (.line n 0) = true ∧
      (if n = 0 then s.stateWord (.line n 0) = 0
        else (s.stateWord (.line n 0)).getLsbD 0 = (s.line n).heldActive ∧
          (s.stateWord (.line n 0)).getLsbD 1 = (s.line n).errorLatch)) ∧
    ∀ (s : State) (a : Nat),
      ((∀ e ∈ s.fifo, s.pendingValue a e = none) → s.busRead a = s.mem.readWord a) ∧
      (∀ (pre post : List FifoEntry) (e : FifoEntry) (v : Word), s.fifo = pre ++ e :: post →
        s.pendingValue a e = some v → (∀ d ∈ post, s.pendingValue a d = none) → s.busRead a = v) ∧
      (∀ (b v : Nat), s.pendingValue a (.linkWrite b v) = if a = b then some (BitVec.ofNat 32 v) else none) ∧
      (∀ i, s.pendingValue a (.indexWrite i) = if a = s.windowBase + 0x34 then some (i.setWidth 32) else none) ∧
      (∀ x y, s.pendingValue a (.answerWrite x y) =
        if a = s.windowBase + 0x10 then some x else if a = s.windowBase + 0x14 then some y else none) ∧
      (∀ (slot : Nat) (ws : List Word), let b := s.windowBase + 0x10000 + 32 * slot
        (∀ j : Nat, j < ws.length → a = b + 4 * j → s.pendingValue a (.recordWrite slot ws) = ws[j]?) ∧
          ((a < b ∨ b + 4 * ws.length ≤ a) → s.pendingValue a (.recordWrite slot ws) = none)) ∧
      (∀ (n : Line) (k : Buffer) (b : Nat) (cs : Vector OfficeChar 60),
        (a = b → s.pendingValue a (.textWrite n k b cs) = some 0) ∧
          (∀ j : Fin 15, a = b + 4 + 4 * j.val → ∃ v, s.pendingValue a (.textWrite n k b cs) = some v ∧
            ∀ i : Fin 4, byteOf v i.val = cs[4 * j.val + i.val].setWidth 8) ∧
          ((a < b ∨ b + 64 ≤ a) → s.pendingValue a (.textWrite n k b cs) = none)) ∧
      (∀ (ws : List StateWord),
        (∀ w ∈ ws, a = s.windowBase + w.offset → s.pendingValue a (.stateWrite ws) = some (s.stateWord w)) ∧
          ((∀ w ∈ ws, a ≠ s.windowBase + w.offset) → s.pendingValue a (.stateWrite ws) = none)) ∧
      (∀ n k b, s.pendingValue a (.textRead n k b) = none) ∧ (∀ b k, s.pendingValue a (.compositionRead b k) = none) ∧
      (∀ k, s.pendingValue a (.tableRead k) = none) ∧ ∀ n, s.pendingValue a (.lineEntryRead n) = none

/-- BLOCKED WRITE: a write to a blocked address is not carried to memory; it posts PROTECT, the protect count goes up by
one, saturating, and its word is rewritten; nothing else changes (R168).  An address that is not blocked gets the
treatment of its own row, plain memory being written by byte (log entry 8).  The treatment of an address in the window is
that of its area there, the window words that no area names being plain; outside the window the bytes of the pool in force
are blocked and all others plain (R166 to R168). -/
def Obligations.BlockedWriteProtects : Prop :=
  (∀ (s : State) (a : Nat),
    let off := (a - s.windowBase) / 4 * 4
    (s.windowBase ≤ a → a < s.windowBase + 0x20000 →
      (s.treatment a = .command ↔ off = 0) ∧
      (∀ w : Argument, s.treatment a = .argument w ↔ off = (match w with | .a => 0x04 | .b => 0x08 | .c => 0x0C)) ∧
      (s.treatment a = .event ↔ off = 0x20) ∧ (s.treatment a = .enable ↔ off = 0x24) ∧
      (s.treatment a = .informOnly ↔ off = 0x28) ∧ (s.treatment a = .readIndex ↔ off = 0x38) ∧
      (∀ n : Line, s.treatment a = .receiveCell n ↔ n ≠ 0 ∧ off = 0x100 + 8 * (n.val - 1)) ∧
      (∀ k : Fin 3072, s.treatment a = .table k ↔ off = 0x1000 + 4 * k.val) ∧
      (s.treatment a = .blocked ↔
        off = 0x10 ∨ off = 0x14 ∨ off = 0x30 ∨ off = 0x34 ∨ (0x40 ≤ off ∧ off < 0x80) ∨
          (0x100 ≤ off ∧ off < 0x280 ∧ off % 8 = 4) ∨ (0x400 ≤ off ∧ off < 0xA20) ∨ (0x10000 ≤ off ∧ off < 0x12000)) ∧
      (s.treatment a = .plain ↔
        off = 0x18 ∨ off = 0x1C ∨ off = 0x2C ∨ off = 0x3C ∨ (0x80 ≤ off ∧ off < 0x100) ∨ (0x280 ≤ off ∧ off < 0x400) ∨
          (0xA20 ≤ off ∧ off < 0x1000) ∨ (0x4000 ≤ off ∧ off < 0x10000) ∨ 0x12000 ≤ off)) ∧
    ((a < s.windowBase ∨ s.windowBase + 0x20000 ≤ a) →
      (s.treatment a = .blocked ↔ ∃ p, s.pool = some p ∧ p.base ≤ a ∧ a < p.base + 64 * p.count) ∧
      (s.treatment a = .plain ↔ ∀ p, s.pool = some p → a < p.base ∨ p.base + 64 * p.count ≤ a))) ∧
  ∀ (a : Address) (v : Word) (be : ByteEnables) (s : State), be ≠ 0 →
    (s.treatment a.toNat = .blocked →
        ∃ t, exec (.blockedWrite a v be) s = .next t ∧
          t.quiet = (s.modCounts (fun k => { k with protect := min 65535 (k.protect + 1) })).quiet ∧
          Posts s t [.protect] [] ∧ OnlyStateWrites s t ∧ Rewritten s t (.office 11)) ∧
      (s.treatment a.toNat = .plain →
        exec (.blockedWrite a v be) s = .next { s with mem := s.mem.writeMasked (a.toNat / 4 * 4) v be }) ∧
      (s.treatment a.toNat = .command →
        exec (.blockedWrite a v be) s = exec (.noSuchCommand (v.extractLsb' 0 8) (v.extractLsb' 8 8) (v.extractLsb' 16 16) be) s) ∧
      (∀ w, s.treatment a.toNat = .argument w → exec (.blockedWrite a v be) s = exec (.argumentWrite w v be) s) ∧
      (s.treatment a.toNat = .event → exec (.blockedWrite a v be) s = exec (.eventWordWrite v be) s) ∧
      (s.treatment a.toNat = .enable → exec (.blockedWrite a v be) s = exec (.enableWordWrite v be) s) ∧
      (s.treatment a.toNat = .informOnly → exec (.blockedWrite a v be) s = exec (.informOnlyWordWrite v be) s) ∧
      (s.treatment a.toNat = .readIndex → exec (.blockedWrite a v be) s = exec (.deliveryReadIndexWrite v be) s) ∧
      (∀ n, s.treatment a.toNat = .receiveCell n → exec (.blockedWrite a v be) s = exec (.receiveCellWrite n v be) s) ∧
      ∀ k, s.treatment a.toNat = .table k → exec (.blockedWrite a v be) s = exec (.officeTableWrite k v be) s

/-- OFFICE TABLE WRITE (R157): a write to a loaded table word replaces the enabled bytes of the shadow's word and of
memory's word and keeps the others, so that two words that were equal stay equal, and a two-byte field of which one byte is
written is used with one byte new and one byte old; with no byte enabled neither changes.  A word that is not loaded yet
changes in memory alone.  So does a word between the areas of the table: that is the model's choice (log entry 8).  Nothing
else of the frame changes but the pool-differs flag, for a word of the pool geometry or the ring size: in an office that is not LOADING
it is set, a write of the status word that holds it is pending, whether the flag was set already or not, and TABLE is pending
when it was clear (R155, R157, R160); that this word is the one of the record rewritten is deduced (log entry 9). -/
def Obligations.TableWriteSnoopsBytes : Prop :=
  ∀ (index : Fin 3072) (v : Word) (be : ByteEnables) (s : State), s.memoryLaw →
    let off := tableOffset index
    let geometry := decide (off = 0x1020 ∨ off = 0x1024) && s.officeState != .loading
    (inTableArea off = true → s.tableLoaded off = true →
        ∃ t, exec (.officeTableWrite index v be) s = .next t ∧
          t.frame = ({ s with mem := t.mem, shadow := t.shadow, poolDiffers := s.poolDiffers || (geometry && be != 0) }).frame ∧
          (∀ i : Fin 4,
            t.shadow.read (off + i.val) = (if be.getLsbD i.val then byteOf v i.val else s.shadow.read (off + i.val)) ∧
            t.mem.read (s.windowBase + off + i.val) =
              (if be.getLsbD i.val then byteOf v i.val else s.mem.read (s.windowBase + off + i.val))) ∧
          (∀ a, (a < off ∨ off + 4 ≤ a) → t.shadow.read a = s.shadow.read a ∧
            t.mem.read (s.windowBase + a) = s.mem.read (s.windowBase + a)) ∧
          (∀ j : Nat, j < 2 → off < 0x1100 → t.par16 (off - 0x1000 + 2 * j) =
            (if be.getLsbD (2 * j) then (byteOf v (2 * j)).toNat else s.par8 (off - 0x1000 + 2 * j)) +
              256 * (if be.getLsbD (2 * j + 1) then (byteOf v (2 * j + 1)).toNat else s.par8 (off - 0x1000 + 2 * j + 1))) ∧
          (s.mem.readWord (s.windowBase + off) = s.shadow.readWord off →
            t.mem.readWord (s.windowBase + off) = t.shadow.readWord off) ∧
          (geometry = true → be ≠ 0 → t.stateWritePending (.office 0) = true ∧
            if s.poolDiffers = true then t.events = s.events else t.isPending .table = true)) ∧
      (be = 0 → exec (.officeTableWrite index v be) s = .next s) ∧
      ((inTableArea off = false ∨ s.tableLoaded off = false) →
        exec (.officeTableWrite index v be) s = .next { s with mem := s.mem.writeMasked (s.windowBase + off) v be })

/-- A snooped write to word i of a circuit's line entry: while the line is STOPPED with no reload pending the bytes come
into force and DEGRADED is recomputed; while START LINE's reload is pending nothing more happens; otherwise the entry in
force stays, the "table differs" flag is set, a write of the status word that holds it is pending, whether the flag was set
already or not, and TABLE is pending when it was clear (R158, R159); that this word is the one of the record rewritten is
deduced (log entry 9). -/
def Obligations.LineEntryWriteByCondition : Prop :=
  ∀ (n : Line) (i : Fin 8) (index : Fin 3072) (v : Word) (be : ByteEnables) (s : State), n ≠ 0 → be ≠ 0 →
    tableOffset index = 0x1400 + 32 * (n.val - 1) + 4 * i.val → s.tableLoaded (tableOffset index) = true →
      ∃ t, exec (.officeTableWrite index v be) s = .next t ∧ (∀ m, m ≠ n → t.line m = s.line m) ∧
        (t.rx n = s.rx n ∧ t.tx n = s.tx n ∧ t.queue n = s.queue n) ∧
        (if (s.mon n).condition = .stopped ∧ (s.mon n).reloadPending = false then
          (t.line n).entry = (s.line n).entry.set i.val (mergeWord (s.line n).entry[i] v be) ∧
            t.mon n = { s.mon n with degraded := aboveThreshold (s.mon n).counters (t.line n).entry } ∧
            (t.line n).tableDiffers = (s.line n).tableDiffers
        else
          (t.line n).entry = (s.line n).entry ∧ t.mon n = s.mon n ∧
          (if (s.mon n).condition = .starting ∧ (s.mon n).reloadPending = true then
            (t.line n).tableDiffers = (s.line n).tableDiffers ∧ t.events = s.events
          else (t.line n).tableDiffers = true ∧ t.stateWritePending (.line n 0) = true ∧
            ((s.line n).tableDiffers = true → t.events = s.events) ∧ ((s.line n).tableDiffers = false → t.isPending .table = true)))

/-! ## Reset, clocks and timers -/

/-- POWER ON RESET: the whole state after it.  The window base is latched from the straps, memory keeps what it held, and
everything else takes its reset value (R165, R166, R174).  The values that the manual leaves open are the model's choice (DESIGN
CHOICE, log entry 3), and so are, in the FIFO of State.reset, the order of the reset's writes within the event words and within
the indices, and one entry a word (DESIGN CHOICE, log entry 41); that the instant stands for the time in which the pin is held
is its choice too (DESIGN CHOICE, log entry 2), and that the counter of free choices goes on (log entry 12). -/
def Obligations.PowerOnResetRestartsPart : Prop :=
  ∀ (straps : Fin 16) (s : State), exec (.powerOnReset straps) s = .next { State.reset with
    pending := s.pending, windowK := straps, mem := s.mem, choices := s.choices }

/-- CLOCK ADVANCE: the divider is 0, office time goes up by a tenth and returns to 0 after 863,999, the internal clock goes
up by one and wraps; nothing else changes (R184).  That the divider is 0 after it, and that the timers which run out are rows of
their own, is the model's (log entries 4 and 15). -/
def Obligations.ClockAdvanceCountsTenths : Prop :=
  ∀ s : State, exec .clockAdvance s = .next { s with
      divider := 0
      officeTime := if s.officeTime + 1 < 864000 then s.officeTime + 1 else 0
      clock := s.clock + 1 }

/-- The end of a character period of a line in TEST.  The transmitter does what a read of its send cell would, its pacing
count going to 0, and the character it offers goes unconverted to the line's own receiver as the period's arrival, after the
transmitter has gone on (that order is the model's choice, log entry 38).  OFF, STALLED and IDLE with nothing to choose offer
nothing; IDLE chooses the head of the queue alone, no service message, and offers the first character of the opening group,
the copy's first block being read into text buffer A (the model's choice, log entry 32).  HEADING offers the opening group,
the heading line and the address line; TEXT the body out of the text buffers, then CR LF, but nothing, the fill count going
up, while a buffer is not READY; CLOSING the closing group and the trailer, its last character ending the copy; CUTTING the
cut sequence, at whose end the copy, unless it was cancelled, returns to the head of its class with its resend count up by
one and, the line being in TEST, is taken through the line loss action, which leaves a pinned copy where it is.  In HUNT the
arrival moves the match length on; when it completes the opening group, a record marked LOOPBACK is taken and the receiver is
in HEADING.  A line that is not in TEST has no period.  That bit 7 of a designator's byte is dropped is the model's choice (log
entry 36), and that the characters offered and the resend count stay at 65,535 is deduced (log entry 22) (R26, R43, R88,
R96 to R102, R105, R111).  The order of effects inside the line loss action that takes a returned copy is the model's choice
(DESIGN CHOICE, log entry 14). -/
def Obligations.TestPeriodLoopsBack : Prop :=
  ∀ (n : Line) (s : State),
    ((s.mon n).condition ≠ .test → exec (.testCharacterPeriodEnd n) s = .next s) ∧
    (n ≠ 0 → (s.mon n).condition = .test →
      let x := s.tx n
      let loops := fun (c : OfficeChar) (u : State) =>
        exec (.testCharacterPeriodEnd n) s = .next (settle s (arrive n c u))
      let arrived := fun (f : Transmitter → Transmitter) => s.modLine n (fun l =>
        { l with tx := { f l.tx with pacing := 0 }, rx := { l.rx with lastArrival := s.clock } })
      ((x.state = .off ∨ x.state = .stalled ∨ (x.state = .idle ∧ (s.queue n = [] ∨ (s.mon n).outstanding ≠ none))) →
        exec (.testCharacterPeriodEnd n) s = .next (s.modTx n (fun z => { z with pacing := 0 }))) ∧
      -- the choice
      (x.state = .idle → (s.mon n).outstanding = none → ∀ (c : CopyId) (q : List CopyId) (y : Copy) (tr : Transit),
        s.queue n = c :: q → s.copy? c = some y → s.transit? y.transit = some tr →
        ∃ u, loops (s.openingGroup.getD 0 0) u ∧ u.frame = s.frame ∧ Posts s u [] [] ∧
          (∀ m, m ≠ n → u.line m = s.line m) ∧ u.mon n = s.mon n ∧ u.entry n = s.entry n ∧
          u.rx n = { s.rx n with lastArrival := s.clock } ∧ u.queue n = q ∧
          u.copy? c = some { y with state := .sending, outNumber := some x.nextOut } ∧
          (∀ d, d ≠ c → u.copy? d = s.copy? d) ∧ u.transits = s.transits ∧
          (u.tx n).state = .heading ∧ (u.tx n).sending = some c ∧ (u.tx n).next = 1 ∧ (u.tx n).offered = 1 ∧
          (u.tx n).latched = { opening := s.openingGroup, closing := s.closingGroup, cancel := s.cancelGroup,
                               trailer := trailerCount (s.entry n) } ∧
          (u.tx n).nextOut = (if x.nextOut = 999 then 1 else x.nextOut + 1) ∧ (u.tx n).pacing = 0 ∧
          (u.tx n).cutRemaining = 0 ∧ (u.tx n).cutReturn = false ∧ (u.tx n).slot = none ∧
          (tr.bodyLength = 0 → OnlyStateWrites s u ∧ (u.tx n).bufA.state = .empty) ∧ (u.tx n).bufB.state = .empty ∧
          ∀ b, 0 < tr.bodyLength → s.blockOfPosition tr (tr.bodyOffset.getD 0) = some b →
            Decides s u (.textRead n .a (s.blockAddress b)) ∧ (u.tx n).bufA.state = .reading) ∧
      -- a copy
      (∀ (c : CopyId) (y : Copy) (tr : Transit), x.sending = some c → s.copy? c = some y →
        s.transit? y.transit = some tr →
        (x.state = .heading →
          let heading := x.latched.opening ++ [13, 10] ++ (outgoingDesignator (s.entry n)).map charOfByte ++ [32] ++
            decimal 3 (y.outNumber.getD 0) ++ [32, rankLetter y.rank, 32] ++ codeChars (tr.origin.getD 0) ++ [32] ++
            decimal 4 (tr.serial.getD 0) ++ [13, 10] ++ joinCodes (codesOf y.subset true) ++
            (if codesOf y.subset false = [] then []
              else (if codesOf y.subset true = [] then [] else [32]) ++ [47, 73, 32] ++ joinCodes (codesOf y.subset false)) ++
            [13, 10]
          x.next < heading.length →
          loops (heading.getD x.next 0) (arrived (fun z =>
            { z with
              offered := min 65535 (z.offered + 1)
              state := if x.next + 1 < heading.length then .heading else .text
              next := if x.next + 1 < heading.length then x.next + 1 else 0 }))) ∧
        (x.state = .text →
          let p := tr.bodyOffset.getD 0 + x.next
          (x.next < tr.bodyLength → (x.buf x.current).state = .ready →
            ∃ u, loops ((x.buf x.current).chars.getD (p % 60) 0) u ∧ u.frame = s.frame ∧ Posts s u [] [] ∧
              (∀ m, m ≠ n → u.line m = s.line m) ∧ u.mon n = s.mon n ∧ u.entry n = s.entry n ∧
              u.rx n = { s.rx n with lastArrival := s.clock } ∧ u.queue n = s.queue n ∧
              u.transits = s.transits ∧ u.copies = s.copies ∧
              (u.tx n).state = .text ∧ (u.tx n).sending = some c ∧ (u.tx n).next = x.next + 1 ∧
              (u.tx n).offered = min 65535 (x.offered + 1) ∧ (u.tx n).pacing = 0 ∧
              ((x.next = 0 ∨ p % 60 = 0) ∧ (p / 60 + 1) * 60 < tr.stored →
                ∀ b, s.blockOfPosition tr ((p / 60 + 1) * 60) = some b →
                  Decides s u (.textRead n x.current.other (s.blockAddress b)) ∧
                    ((u.tx n).buf x.current.other).state = .reading) ∧
              (¬ ((x.next = 0 ∨ p % 60 = 0) ∧ (p / 60 + 1) * 60 < tr.stored) →
                OnlyStateWrites s u ∧ (u.tx n).buf x.current.other = x.buf x.current.other) ∧
              if p % 60 = 59 ∨ p + 1 = tr.stored then
                (u.tx n).current = x.current.other ∧ ((u.tx n).buf x.current).state = .empty
              else (u.tx n).current = x.current ∧ (u.tx n).buf x.current = x.buf x.current) ∧
          (x.next < tr.bodyLength → (x.buf x.current).state ≠ .ready →
            ∃ t, exec (.testCharacterPeriodEnd n) s = .next t ∧ OnlyStateWrites s t ∧ Posts s t [] [] ∧
              t.quiet = (s.modLine n (fun l =>
                { l with
                  tx := { l.tx with pacing := 0 }
                  mon := { l.mon with counters := { l.mon.counters with fill := min 65535 (l.mon.counters.fill + 1) } } })).quiet) ∧
          (tr.bodyLength ≤ x.next →
            loops (if x.next = tr.bodyLength then 13 else 10) (arrived (fun z =>
              { z with
                offered := min 65535 (z.offered + 1)
                state := if x.next = tr.bodyLength then .text else .closing
                next := if x.next = tr.bodyLength then x.next + 1 else 0 }))))) ∧
      (x.state = .closing →
        let closing := x.latched.closing ++ List.replicate x.latched.trailer 10
        (x.next + 1 < closing.length →
          loops (closing.getD x.next 0) (arrived (fun z =>
            { z with offered := min 65535 (z.offered + 1), next := x.next + 1 }))) ∧
        (closing.length ≤ x.next + 1 →
          ∃ u, loops (closing.getD x.next 0) u ∧ u.frame = s.frame ∧
            (∀ m, m ≠ n → (u.line m).kept = (s.line m).kept) ∧ u.mon n = s.mon n ∧
            u.rx n = { s.rx n with lastArrival := s.clock } ∧
            (u.tx n).state = (if x.stopMark = true ∧ (s.mon n).reloadPending = true then .off else .idle) ∧
            (u.tx n).sending = none ∧ (u.tx n).stopMark = false ∧ (u.tx n).pacing = 0 ∧
            ∀ (c : CopyId) (y : Copy) (tr : Transit), x.sending = some c → s.copy? c = some y →
              s.transit? y.transit = some tr → tr.state = .inTransit → s.waitList = [] →
              OnlyStateWrites s u ∧ u.copy? c = none ∧ u.transit? y.transit =
                (if tr.pendingCopies ≤ 1 then none else some { tr with pendingCopies := tr.pendingCopies - 1 }) ∧
              (∀ d, d ≠ c → u.copy? d = s.copy? d) ∧ ∀ m, u.queue m = s.queue m)) ∧
      (x.state = .cutting → 1 < x.cutRemaining →
        let c := (cutSequence x.latched).getD (x.latched.cutLength - x.cutRemaining) 0
        let m := advanceMatch (s.rx n).openGroup (s.rx n).openMatch c
        loops c (arrived (fun z => { z with cutRemaining := x.cutRemaining - 1 })) ∧
          ((s.rx n).state = .hunt → m ≠ (s.rx n).openGroup.length →
            exec (.testCharacterPeriodEnd n) s = .next (s.modLine n (fun l =>
              { l with
                tx := { l.tx with cutRemaining := x.cutRemaining - 1, pacing := 0 }
                rx := { l.rx with lastArrival := s.clock, openMatch := m, closeMatch := 0, holdBack := [] } })))) ∧
      (x.state = .cutting → x.cutRemaining ≤ 1 →
        let c := (cutSequence x.latched).getD (x.latched.cutLength - x.cutRemaining) 0
        let ends : TxState := if x.stopMark = true ∧ (s.mon n).reloadPending = true then .off else .idle
        let left := s.modTx n (fun z => { z.rested ends with pacing := 0 })
        ((x.cutReturn = false ∨ x.sending = none) → loops c (left.modRx n (fun r => { r with lastArrival := s.clock }))) ∧
          (x.cutReturn = true → ∀ (d : CopyId) (y : Copy), x.sending = some d → s.copy? d = some y →
            ∃ e v, Returned left v n d y e ∧
              loops c ((afterAction [n] (lossWalk n [e] v)).modRx n (fun r => { r with lastArrival := s.clock })) ∧
              ∀ z, v.copy? e = some z → z.pinned = true → s.waitList = [] → afterAction [n] (lossWalk n [e] v) = v)) ∧
      -- the arrival, with the receiver in HUNT
      ∀ (c : OfficeChar) (u : State), (u.mon n).condition = .test → (u.rx n).state = .hunt →
        let r := u.rx n
        let m := advanceMatch r.openGroup r.openMatch c
        (m ≠ r.openGroup.length → arrive n c u = u.modRx n (fun r =>
          { r with openMatch := m, closeMatch := 0, holdBack := [] })) ∧
        ∀ id : TransitId, m = r.openGroup.length → r.openGroup ≠ [] → u.transit? id = none →
          (∀ j : TransitId, j < id → u.transit? j ≠ none) →
          OnlyStateWrites u (arrive n c u) ∧ Posts u (arrive n c u) [] [] ∧
            (arrive n c u).quiet = ((u.setTransit id (some { newTransit n u.officeTime with
              flags := { ({} : Flags) with loopback := true } })).modRx n (fun r =>
                { r.clear .heading with transit := some id })).quiet)

/-- RECEIVE TIMEOUT: one is due on a circuit in HEADING, ADDRESS, TEXT, SERVICE or DISCARD, in TEST as well, once the
internal clock less the last arrival is ten times the timeout, which is brought within 5 to 600 s and is 30 s where the table
has 0.  One that is not due changes nothing.  In DISCARD the receiver goes to HUNT with the groups in force;
in HEADING, ADDRESS, TEXT and SERVICE it is STALLED and RX_STALL is posted; with RX_STALL inform-only it recovers to HUNT at
once (R30, R41, R42). -/
def Obligations.ReceiveTimeoutStalls : Prop :=
  ∀ (n : Line) (s : State),
    (let v := s.par16 0x2C;
      (s.receiveTimeoutDue n = true ↔ n ≠ 0 ∧ (s.rx n).state ∈ ([.heading, .address, .text, .service, .discard] : List RxState) ∧
        10 * (if v = 0 then 30 else max 5 (min 600 v)) ≤ (s.clock - (s.rx n).lastArrival).toNat)) ∧
    (s.receiveTimeoutDue n = false → exec (.receiveTimeout n) s = .next s) ∧
      (s.receiveTimeoutDue n = true → (s.rx n).state = .discard →
        ∃ t, exec (.receiveTimeout n) s = .next t ∧ Posts s t [] [] ∧ OnlyStateWrites s t ∧ t.quiet = (s.modRx n (fun r =>
          { r.clear .hunt with openGroup := s.openingGroup, closeGroup := s.closingGroup })).quiet) ∧
      (s.receiveTimeoutDue n = true → (s.rx n).state ≠ .discard → s.isInformOnly .rxStall = false →
        ∃ t, exec (.receiveTimeout n) s = .next t ∧ Posts s t [.rxStall] [] ∧ OnlyStateWrites s t ∧
          t.quiet = (s.modRx n (fun r => { r with state := .stalled })).quiet) ∧
      (s.receiveTimeoutDue n = true → (s.rx n).state ≠ .discard → s.isInformOnly .rxStall = true →
        ∃ t, exec (.receiveTimeout n) s = .next t ∧ Posts s t [.rxStall] [] ∧ OnlyStateWrites s t ∧ t.frame = s.frame ∧
          (t.rx n).state = .hunt ∧ (t.rx n).transit = none ∧
          ∀ m : Line, m ≠ 0 → (s.rx m).state = .stalled → (t.rx m).state = .hunt ∧ (t.rx m).transit = none)

/-- TRANSMIT STALL: one is due on a circuit in SERVICE, HEADING, TEXT, CLOSING or CUTTING, not in TEST, once the internal
clock less the last read is ten times the stall time, which is brought within 1 to 60 s and is 5 s where the table has 0.
One that is not due changes nothing; one that is due puts the transmitter in STALLED with what it does
kept and the pending slot emptied, and posts TX_STALL; nothing else changes while TX_STALL is not inform-only.  When it is
inform-only every STALLED transmitter, this one among them, recovers at once (R109, R110, R131, R178). -/
def Obligations.TransmitStallStalls : Prop :=
  ∀ (n : Line) (s : State),
    (let v := s.par16 0x2E;
      (s.transmitStallDue n = true ↔ n ≠ 0 ∧ (s.mon n).condition ≠ .test ∧
        (s.tx n).state ∈ ([.service, .heading, .text, .closing, .cutting] : List TxState) ∧
        10 * (if v = 0 then 5 else max 1 (min 60 v)) ≤ (s.clock - (s.tx n).lastRead).toNat)) ∧
    (s.transmitStallDue n = false → exec (.transmitStall n) s = .next s) ∧
      (s.transmitStallDue n = true → s.isInformOnly .txStall = false →
        ∃ t, exec (.transmitStall n) s = .next t ∧ Posts s t [.txStall] [] ∧ OnlyStateWrites s t ∧
          t.quiet = (s.modTx n (fun x => { x with state := .stalled, stalledFrom := some x.state, slot := none })).quiet) ∧
      (s.transmitStallDue n = true → s.isInformOnly .txStall = true →
        ∃ t, exec (.transmitStall n) s = .next t ∧ t.isPending .txStall = true ∧ t.frame = s.frame ∧ Recovered s t n ∧
          (∃ es ws, Appends s t es ws) ∧ ∀ m : Line, m ≠ 0 → (s.tx m).state = .stalled → Recovered s t m)

/-- ANSWER TIMER EXPIRY: one is due when the timer runs and the internal clock less its start is ten times the answer time
of the entry in force, which is brought within 1 to 60 s and is 10 s where the entry has 0.  One that is not due, and one for
line 0, changes nothing.  Otherwise the check is no longer outstanding, the check-fail
counter and the consecutive failures go up by one, and DEGRADED is recomputed; a STARTING line, and an ACTIVE one at its
failure limit, become SUSPECT with LINE_CONDITION pending.  That the error latch is set also where the counter stands at
65,535 already is the model's choice (log entry 33) (R121, R127, R132, R133). -/
def Obligations.AnswerTimerExpiryCountsFailure : Prop :=
  ∀ (n : Line) (s : State),
    (let v := (entryByte (s.entry n) 12).toNat;
      (s.answerTimerDue n = true ↔ ∃ t, (s.mon n).timer = some t ∧
        10 * (if v = 0 then 10 else max 1 (min 60 v)) ≤ (s.clock - t).toNat)) ∧
    (n = 0 ∨ s.answerTimerDue n = false → exec (.answerTimerExpiry n) s = .next s) ∧
      (n ≠ 0 → s.answerTimerDue n = true →
        let m := s.mon n
        let k := { m.counters with checkFail := min 65535 (m.counters.checkFail + 1) }
        let m1 := { m with
          outstanding := none, timer := none, lastExpiry := some s.clock, failures := min 65535 (m.failures + 1)
          counters := k, degraded := aboveThreshold k (s.entry n) }
        ((m.condition ≠ .starting ∧ (m.condition = .active → m1.failures < failureLimit (s.entry n))) →
          ∃ t, exec (.answerTimerExpiry n) s = .next t ∧ Posts s t [] [.threshold] ∧ OnlyStateWrites s t ∧
            t.quiet = (s.modLine n (fun l => { l with errorLatch := true, mon := m1 })).quiet) ∧
        ((m.condition = .starting ∨ (m.condition = .active ∧ failureLimit (s.entry n) ≤ m1.failures)) →
          ∃ t, exec (.answerTimerExpiry n) s = .next t ∧ t.frame = s.frame ∧ (∃ es ws, Appends s t es ws) ∧
            t.mon n = { m1 with condition := .suspect } ∧ t.isPending .lineCondition = true ∧
            (∀ j, j ≠ n → (t.line j).kept = (s.line j).kept)))

/-- COPY OVERDUE: a copy that is QUEUED or HELD, not overdue yet, and of an age of ten times its limit takes the overdue
flag, OVERDUE is posted, and the office overdue count goes up by one with its word rewritten; any other copy is left as it
is.  Nothing else changes.  A snooped write of a word with overdue limits does the same at once with every copy in use, by the
limits as they stand after it: the office overdue count goes up by the number of copies that have become overdue (R19, R158). -/
def Obligations.CopyOverdueSetsFlag : Prop :=
  (∀ (c : CopyId) (s : State),
    (∀ x, s.copy? c = some x →
        (x.state = .queued ∨ x.state = .held) → x.overdue = false →
        10 * s.overdueLimit x.rank ≤ (s.clock - x.queuedTime).toNat →
        ∃ t, exec (.copyOverdue c) s = .next t ∧ Posts s t [.overdue] [] ∧ OnlyStateWrites s t ∧ Rewritten s t (.office 6) ∧
          t.quiet = ((s.setCopy c (some { x with overdue := true })).modCounts
            (fun k => { k with overdue := min 65535 (k.overdue + 1) })).quiet) ∧
      ((∀ x, s.copy? c = some x → (x.state ≠ .queued ∧ x.state ≠ .held) ∨ x.overdue = true ∨
          (s.clock - x.queuedTime).toNat < 10 * s.overdueLimit x.rank) →
        exec (.copyOverdue c) s = .next s)) ∧
    ∀ (index : Fin 3072) (v : Word) (be : ByteEnables) (s : State), be ≠ 0 →
      (tableOffset index = 0x1034 ∨ tableOffset index = 0x1038) → s.tableLoaded (tableOffset index) = true →
      ∃ t, exec (.officeTableWrite index v be) s = .next t ∧ OnlyStateWrites s t ∧
        let becomes := fun (x : Copy) => (x.state == .queued || x.state == .held) && !x.overdue &&
          decide (10 * t.overdueLimit x.rank ≤ (s.clock - x.queuedTime).toNat)
        let k := (List.finRange 768).countP (fun c => (s.copy? c).any becomes)
        (∀ c, t.copy? c = (s.copy? c).map (fun x => { x with overdue := x.overdue || becomes x })) ∧
          Posts s t (if k = 0 then [] else [.overdue]) [] ∧ (0 < k → Rewritten s t (.office 6)) ∧
          t.quiet = ({ s with
            mem := s.mem.writeMasked (s.windowBase + tableOffset index) v be
            shadow := s.shadow.writeMasked (tableOffset index) v be
            copies := t.copies
            counts := { s.counts with
              overdue := if k = 0 then s.counts.overdue else min 65535 (s.counts.overdue + k) } }).quiet

/-! ## The Scan Page -/

/-- RECEIVE CELL WRITE: the write always reaches memory; a receiver that is OFF, or whose line is in TEST, takes nothing of
it; one that takes it leaves the frame and the receivers, monitors and entries of the other lines alone (R23). -/
def Obligations.ReceiveCellTouchesOneLine : Prop :=
  ∀ (n : Line) (v : Word) (be : ByteEnables) (s : State), be ≠ 0 →
    let s1 := { s with mem := s.mem.writeMasked (s.windowBase + 0xF8 + 8 * n.val) v be }
    (((s.rx n).state = .off ∨ (s.mon n).condition = .test) → exec (.receiveCellWrite n v be) s = .next s1) ∧
      (n ≠ 0 → (s.rx n).state ≠ .off → (s.mon n).condition ≠ .test →
        ∃ t, exec (.receiveCellWrite n v be) s = .next t ∧ t.frame = s1.frame ∧
          ∀ m, m ≠ n → (t.line m).kept = (s.line m).kept)

/-- A write that a circuit's receiver takes.  On a 7-UNIT line a character in HUNT moves the opening group's match on; when
that completes the group, the lowest free record is taken, the state HEADING; with none free DISCARD, a lost record counted
and RECORDS posted. On a 5-UNIT line the combination is read in the case in force: shifts set it, they and ignored entries
bring nothing, and a space returns to letters where the line asks for it.  FRAMING, and failing parity on a 7-UNIT line, are
counted and put the mutilation mark in.  A BREAK while break seen is set, or on a STOPPED line, only counts as an arrival;
otherwise it sets break seen, frees the message's record, makes the line SUSPECT.  A closing group in TEXT with nothing held
ahead completes the message: the FILLING buffer's write decided, the sequence checked, the message handed on (what copies it
gets with the Copy Wait List empty is not said), the state HUNT. The character goes to the group watch in every state;
STALLED discards and counts it. HEADING, ADDRESS and TEXT hold back as many characters as the longer match and act on the
oldest beyond that; SERVICE and DISCARD hold nothing.  A group releases what is held ahead of it and acts on the state then
in force: the closing group completes a message, ends DISCARD, and completes a service message, a CKQ owing a CKA, a CKA of
the outstanding number ending the check and restoring a STARTING or SUSPECT line to ACTIVE, another CKA counted as stray,
neither in TEST; the opening group completes a message with NO_CLOSING or drops a service message, and asks for a new
record.  A character acted on is stored and collected as `ActsOn` says; headings are said last.  The model's own: the length
limit truncates ahead of both buffers WRITING or a missing block (log entry 16), an overlong line is no service heading, has
no fields (log entry 17), a designator byte with bit 7 set equals no letter (log entry 36), the error latch is set at a
counter of 65,535 too (log entry 33) (R1, R23 to R40, R44 to R46, R107, R118, R125, R126, R130, R138 to R141). -/
def Obligations.ReceiveCellInHunt : Prop :=
  (∀ (n : Line) (v : Word) (be : ByteEnables) (s : State), be ≠ 0 → n ≠ 0 → (s.rx n).state ≠ .off →
    (s.mon n).condition ≠ .test →
    let w := enabledBits v be
    let r := s.rx n
    let s1 := { s with mem := s.mem.writeMasked (s.windowBase + 0xF8 + 8 * n.val) v be }
    let passes := w.getLsbD 9 = false ∧
      elementsAtOne (byteOf w 0) % 2 = (if parityOdd (s.entry n) then 1 else 0)
    (r.state = .hunt → sevenUnit (s.entry n) = true → w.getLsbD 10 = false → w.getLsbD 8 = false → passes →
      let m := advanceMatch r.openGroup r.openMatch (w.extractLsb' 0 7)
      (m ≠ r.openGroup.length → exec (.receiveCellWrite n v be) s = .next (s1.modRx n (fun r =>
          { r with lastArrival := s.clock, openMatch := m, closeMatch := 0, holdBack := [] }))) ∧
        (∀ id : TransitId, m = r.openGroup.length → r.openGroup ≠ [] → s.transit? id = none →
          (∀ j : TransitId, j < id → s.transit? j ≠ none) →
          ∃ t, exec (.receiveCellWrite n v be) s = .next t ∧ Posts s t [] [] ∧ OnlyStateWrites s t ∧
            t.quiet = ((s1.setTransit id (some (newTransit n s.officeTime))).modRx n (fun r =>
              { r.clear .heading with lastArrival := s.clock, transit := some id })).quiet) ∧
        (m = r.openGroup.length → r.openGroup ≠ [] → (∀ j : TransitId, s.transit? j ≠ none) →
          ∃ t, exec (.receiveCellWrite n v be) s = .next t ∧ Posts s t [.records] [] ∧ OnlyStateWrites s t ∧
            t.quiet = ((s1.modRx n (fun r => { r.clear .discard with lastArrival := s.clock })).modCounts
              (fun k => { k with lostRecords := min 65535 (k.lostRecords + 1) })).quiet)) ∧
    (sevenUnit (s.entry n) = false → w.getLsbD 10 = false → w.getLsbD 8 = false →
      let half := match r.shift with
        | .letters => 0
        | .figures => 32
      let e := (s.receiveCode (half + (w.extractLsb' 0 5).toNat)).toNat
      (e = 128 → exec (.receiveCellWrite n v be) s = .next (s1.modRx n (fun r =>
          { r with lastArrival := s.clock, shift := .letters }))) ∧
        (e = 129 → exec (.receiveCellWrite n v be) s = .next (s1.modRx n (fun r =>
          { r with lastArrival := s.clock, shift := .figures }))) ∧
        ((e = 0 ∨ 129 < e) → exec (.receiveCellWrite n v be) s = .next (s1.modRx n (fun r =>
          { r with lastArrival := s.clock }))) ∧
        (1 ≤ e → e ≤ 127 → r.state = .hunt →
          let m := advanceMatch r.openGroup r.openMatch (BitVec.ofNat 7 e)
          m ≠ r.openGroup.length → exec (.receiveCellWrite n v be) s = .next (s1.modRx n (fun r =>
            { r with
              lastArrival := s.clock, openMatch := m, closeMatch := 0, holdBack := []
              shift := if unshiftOnSpace (s.entry n) = true ∧ e = 32 then .letters else r.shift })))) ∧
    (r.state = .hunt → w.getLsbD 10 = false →
      (w.getLsbD 8 = true ∨ (sevenUnit (s.entry n) = true ∧ ¬ passes)) →
      let m := advanceMatch r.openGroup r.openMatch s.mutilationMark
      let k := if w.getLsbD 8 then
          { (s.mon n).counters with framing := min 65535 ((s.mon n).counters.framing + 1) }
        else { (s.mon n).counters with parity := min 65535 ((s.mon n).counters.parity + 1) }
      m ≠ r.openGroup.length →
      ∃ t, exec (.receiveCellWrite n v be) s = .next t ∧ Posts s t [] [.threshold] ∧ OnlyStateWrites s t ∧
        t.quiet = (s1.modLine n (fun l =>
          { l with
            errorLatch := true
            mon := { l.mon with counters := k, degraded := aboveThreshold k l.entry }
            rx := { l.rx with lastArrival := s.clock, openMatch := m, closeMatch := 0, holdBack := [] } })).quiet) ∧
    (w.getLsbD 10 = true →
      ((r.breakSeen = true ∨ (s.mon n).condition = .stopped) →
        exec (.receiveCellWrite n v be) s = .next (s1.modRx n (fun r => { r with lastArrival := s.clock }))) ∧
      (r.breakSeen = false → (s.mon n).condition ≠ .stopped →
        ∃ t, exec (.receiveCellWrite n v be) s = .next t ∧ t.frame = s1.frame ∧ (∃ es ws, Appends s t es ws) ∧
          (∀ m, m ≠ n → (t.line m).kept = (s.line m).kept) ∧
          t.rx n = { (r.dropFilling.clear .hunt) with
            lastArrival := s.clock, breakSeen := true, openGroup := s.openingGroup, closeGroup := s.closingGroup } ∧
          (∀ id, r.transit = some id → t.transit? id = none) ∧
          (t.mon n).condition = .suspect ∧ ((s.mon n).condition ≠ .suspect → t.isPending .lineCondition = true) ∧
          (t.tx n).state = (match (s.tx n).state with
            | .off => .off
            | .idle => .idle
            | .stalled => if (s.mon n).reloadPending = true then .off else .idle
            | _ => if (s.tx n).stopMark = true ∧ (s.mon n).reloadPending = true then .off else .idle) ∧
          ((s.tx n).state ≠ .off → (s.tx n).state ≠ .idle → (t.tx n).sending = none))) ∧
    ∀ (id : TransitId) (x : Transit), r.state = .text → sevenUnit (s.entry n) = true → w.getLsbD 10 = false →
      w.getLsbD 8 = false → passes → r.transit = some id → s.transit? id = some x → r.closeGroup ≠ [] →
      advanceMatch r.closeGroup r.closeMatch (w.extractLsb' 0 7) = r.closeGroup.length →
      r.holdBack.length + 1 = r.closeGroup.length →
      ∃ t, exec (.receiveCellWrite n v be) s = .next t ∧ t.frame = s1.frame ∧
        (∀ m, m ≠ n → (t.line m).kept = (s.line m).kept) ∧
        (t.rx n).state = .hunt ∧ (t.rx n).transit = none ∧ (t.rx n).openMatch = 0 ∧ (t.rx n).closeMatch = 0 ∧
        (t.rx n).holdBack = [] ∧ (t.rx n).lastArrival = s.clock ∧ (t.rx n).openGroup = s.openingGroup ∧
        (t.rx n).closeGroup = s.closingGroup ∧
        (∀ k : Buffer, r.filling = some k → ((t.rx n).buf k).state = .writing ∧
          Decides s t (.textWrite n k (s.blockAddress ((r.buf k).block.getD 0)) (r.buf k).chars)) ∧
        HandsOn s t id x ∧
        Sequenced s t n x.channel) ∧
  -- what arrives: the character, the mutilation mark, or a converted character
  (∀ (n : Line) (v : Word) (be : ByteEnables) (s : State), be ≠ 0 → n ≠ 0 → (s.rx n).state ≠ .off →
    (s.mon n).condition ≠ .test →
    let w := enabledBits v be
    let s1 := { s with mem := s.mem.writeMasked (s.windowBase + 0xF8 + 8 * n.val) v be }
    let passes := w.getLsbD 9 = false ∧
      elementsAtOne (byteOf w 0) % 2 = (if parityOdd (s.entry n) then 1 else 0)
    let e := (s.receiveCode ((match (s.rx n).shift with
      | .letters => 0
      | .figures => 32) + (w.extractLsb' 0 5).toNat)).toNat
    (sevenUnit (s.entry n) = true → w.getLsbD 10 = false → w.getLsbD 8 = false → passes →
      exec (.receiveCellWrite n v be) s = .next (settle s (arrive n (w.extractLsb' 0 7)
        (s1.modRx n (fun r => { r with lastArrival := s.clock }))))) ∧
    (sevenUnit (s.entry n) = false → w.getLsbD 10 = false → w.getLsbD 8 = false → 1 ≤ e → e ≤ 127 →
      exec (.receiveCellWrite n v be) s = .next (settle s (arrive n (BitVec.ofNat 7 e) (s1.modRx n (fun r =>
        { r with
          lastArrival := s.clock
          shift := if unshiftOnSpace (s.entry n) = true ∧ e = 32 then .letters else r.shift }))))) ∧
    (w.getLsbD 10 = false → (w.getLsbD 8 = true ∨ (sevenUnit (s.entry n) = true ∧ ¬ passes)) →
      let k := if w.getLsbD 8 then
          { (s.mon n).counters with framing := min 65535 ((s.mon n).counters.framing + 1) }
        else { (s.mon n).counters with parity := min 65535 ((s.mon n).counters.parity + 1) }
      ∃ u, Posts s u [] [.threshold] ∧ OnlyStateWrites s u ∧ u.quiet = (s1.modLine n (fun l =>
          { l with
            errorLatch := true
            mon := { l.mon with counters := k, degraded := aboveThreshold k l.entry }
            rx := { l.rx with lastArrival := s.clock } })).quiet ∧
        exec (.receiveCellWrite n v be) s = .next (settle s (arrive n s.mutilationMark u)))) ∧
  -- the arrival of a character
  (∀ (n : Line) (c : OfficeChar) (u : State), n ≠ 0 →
    let r := u.rx n
    let mo := advanceMatch r.openGroup r.openMatch c
    let mc := advanceMatch r.closeGroup r.closeMatch c
    let held := r.holdBack ++ [c]
    let holds := fun (st : RxState) => st = .heading ∨ st = .address ∨ st = .text
    let act := fun (cs : List OfficeChar) (v : State) => cs.foldl (fun t d => (assemble n d t).1) v
    let hunt := fun (v : State) => v.modRx n (fun r =>
      { r.clear .hunt with openGroup := u.openingGroup, closeGroup := u.closingGroup })
    (r.state = .stalled → arrive n c u = u.modMon n (fun m =>
      { m with counters := { m.counters with stalledChars := min 65535 (m.counters.stalledChars + 1) } })) ∧
    -- no group: what is held beyond the longer match is released
    (holds r.state → mo ≠ r.openGroup.length → mc ≠ r.closeGroup.length →
      let k := held.length - max mo mc
      let w := act (held.take k) (u.modRx n (fun r =>
        { r with openMatch := mo, closeMatch := mc, holdBack := held.drop k }))
      (holds (w.rx n).state → arrive n c u = w) ∧
        (¬ holds (w.rx n).state → arrive n c u = w.modRx n (fun r => { r with holdBack := [] }))) ∧
    (r.state = .service ∨ r.state = .discard → mo ≠ r.openGroup.length → mc ≠ r.closeGroup.length →
      arrive n c u = u.modRx n (fun r => { r with openMatch := mo, closeMatch := mc, holdBack := [] })) ∧
    -- a group: what is held ahead of it is released, and it acts on the state then in force
    (∀ g : List OfficeChar, r.state ≠ .off → r.state ≠ .stalled → r.state ≠ .hunt → g ≠ [] →
      ((g = r.closeGroup ∧ mc = g.length) ∨ (g = r.openGroup ∧ mo = g.length ∧ mc ≠ r.closeGroup.length)) →
      let ahead := if r.state = .service ∨ r.state = .discard then [] else held.take (held.length - g.length)
      let v := act ahead (u.modRx n (fun r => { r with openMatch := 0, closeMatch := 0, holdBack := [] }))
      ∃ w, w.quiet = v.quiet ∧ OnlyStateWrites v w ∧ w.events = v.events ∧
        (mc = r.closeGroup.length →
          (holds (w.rx n).state → ∀ id x, (w.rx n).transit = some id → w.transit? id = some x →
            ∃ z, Completes n (fun f => f) w z id x ∧ arrive n c u = hunt z) ∧
          ((w.rx n).state = .discard → arrive n c u = hunt w) ∧
          ∀ m : Service, (w.rx n).state = .service → (w.rx n).service = some m →
            ((w.mon n).condition = .test → arrive n c u = hunt w) ∧
            ((w.mon n).condition ≠ .test →
              (m.kind = .ckq → arrive n c u = (hunt w).modMon n (fun o => { o with owed := some m.number })) ∧
              (m.kind = .cka → (w.mon n).outstanding ≠ some m.number → arrive n c u =
                (hunt w).modCounts (fun k => { k with stray := min 65535 (k.stray + 1) })) ∧
              (m.kind = .cka → (w.mon n).outstanding = some m.number →
                let y := (hunt w).modMon n (fun o => { o with outstanding := none, timer := none, failures := 0 })
                if (w.mon n).condition = .starting ∨ (w.mon n).condition = .suspect then
                  ∃ z, Posts y z [.lineCondition] [] ∧ OnlyStateWrites y z ∧
                    z.quiet = (y.modLine n (fun l =>
                      { l with
                        mon := { l.mon with condition := .active }, rx := { l.rx with breakSeen := false } })).quiet ∧
                    arrive n c u = (if u.isInformOnly .routeHold = true then (reexamineHoldList z).1 else z)
                else arrive n c u = y))) ∧
        (mc ≠ r.closeGroup.length →
          (holds (w.rx n).state → ∀ id x, (w.rx n).transit = some id → w.transit? id = some x →
            ∃ z, Completes n (fun f => { f with noClosing := true }) w z id x ∧ Asks n z (arrive n c u)) ∧
          ((w.rx n).state = .service ∨ (w.rx n).state = .discard → Asks n w (arrive n c u))))) ∧
  -- acting on a released character
  (∀ (n : Line) (c : OfficeChar) (s : State) (id : TransitId) (x : Transit),
    ((s.rx n).state = .heading ∨ (s.rx n).state = .address ∨ (s.rx n).state = .text) → (s.rx n).transit = some id →
    s.transit? id = some x → ActsOn n c s (assemble n c s).1 (assemble n c s).2 id x) ∧
  -- headings
  (∀ (line : List OfficeChar) (overlong : Bool) (v : Service), serviceHeading line overlong = some v ↔
    overlong = false ∧ ∃ g, fields line = [match v.kind with
      | .ckq => ([67, 75, 81] : List OfficeChar)
      | .cka => [67, 75, 65], g] ∧ g.length = 3 ∧ (∀ d ∈ g, isDigit d = true) ∧ 1 ≤ v.number ∧ digitsValue g = v.number) ∧
  ∀ (designator : List Byte) (line : List OfficeChar) (overlong : Bool),
    let h := checkHeading designator line overlong
    (h.good = true ↔ overlong = false ∧ ∃ f1 f2 f3 f4 f5, fields line = [f1, f2, f3, f4, f5] ∧
      (f1.length = 3 ∧ (∀ d ∈ f1, isLetter d = true) ∧ f1.map (fun d => d.setWidth 8) = designator) ∧
      (f2.length = 3 ∧ (∀ d ∈ f2, isDigit d = true) ∧ 1 ≤ digitsValue f2) ∧
      f3 ∈ ([[69], [79], [82], [68]] : List (List OfficeChar)) ∧ (f4.length = 4 ∧ ∀ d ∈ f4, isLetter d = true) ∧
      f5.length = 4 ∧ (∀ d ∈ f5, isDigit d = true) ∧ 1 ≤ digitsValue f5) ∧
    (h.good = false → h.rank = 2) ∧
    ((overlong = true ∨ (fields line).length ≠ 5) → h.channel = none ∧ h.origin = none ∧ h.serial = none) ∧
    ∀ f1 f2 f3 f4 f5, overlong = false → fields line = [f1, f2, f3, f4, f5] →
      (h.good = true → f3 = [rankLetter h.rank]) ∧
      (h.channel = if f2.length = 3 ∧ (∀ d ∈ f2, isDigit d = true) ∧ 1 ≤ digitsValue f2 then some (digitsValue f2) else none) ∧
      (h.origin = if f4.length = 4 ∧ ∀ d ∈ f4, isLetter d = true then some (codeOfChars f4) else none) ∧
      h.serial = if f5.length = 4 ∧ (∀ d ∈ f5, isDigit d = true) ∧ 1 ≤ digitsValue f5 then some (digitsValue f5) else none

/-- SEND CELL READ: a transmitter that is OFF or STALLED, one on a line in TEST, and an IDLE one with nothing to choose answer
IDLE and only note the read; nothing is to be chosen where no CKA is owed, no CKQ is due, and the queue is empty, the line is
not ACTIVE or a check is outstanding.  Every other read answers SEND with what the line makes of the character due (`Offers`),
on a line of either kind, and goes on behind the character unless a shift combination was given for it.
The choice: an owed CKA, then a due CKQ, whose number becomes outstanding, then the head of the queue, which takes
next-out as its outgoing number and has its first block read; the character due is the first of the opening group.
A copy: HEADING gives the opening group, the heading line and the address line; TEXT gives the body from the text buffers,
with the next block's read decided at the first character of a block, time fill while a buffer is not READY, and CR LF;
CLOSING gives the closing group and the trailer, and its last character ends the copy.  A service message is whole, its
last character starting the answer timer of a CKQ or clearing the CKA owed.  CUTTING gives the cut sequence; its last character
ends the cut, and the copy that it cut, unless it was cancelled, returns to the head of its class with its resend count up by
one, and from a line that is not ACTIVE is taken through the line loss action.  A 7-UNIT line gives the seven elements and the
parity element; a 5-UNIT line gives the combination of the Send Code Table, behind a shift combination where the case changes,
with the substitute for a character that cannot be sent, time fill when that cannot be sent either, and a return to letters
after a space where the line asks for it.  That a copy's first block is read into text buffer A (log entry 32) and that bit 7 of
a designator's byte is dropped (log entry 36) are the model's choices; that the characters offered and the resend count stay at
65,535 is deduced (log entry 22) (R88, R94, R96 to R103, R105, R124, R143 to R148).  The order of effects inside the line loss
action that takes a returned copy is the model's choice (DESIGN CHOICE, log entry 14). -/
def Obligations.SendCellReadAnswers : Prop :=
  ∀ (n : Line) (s : State), n ≠ 0 →
    (((s.mon n).condition = .test ∨ (s.tx n).state = .off ∨ (s.tx n).state = .stalled ∨
        ((s.tx n).state = .idle ∧ (s.mon n).owed = none ∧ s.ckqDue n = false ∧
          (s.queue n = [] ∨ (s.mon n).condition ≠ .active ∨ (s.mon n).outstanding ≠ none))) →
      exec (.sendCellRead n) s = .next { s.modTx n (fun x => { x with lastRead := s.clock }) with readData := 0 }) ∧
    (s.ckqDue n = true ↔ checksEnabled (s.entry n) = true ∧ (s.mon n).outstanding = none ∧
      let interval := 10 * checkIntervalSeconds (s.entry n)
      let quiet := interval ≤ (s.clock - (s.tx n).lastOffered).toNat
      (((s.mon n).condition = .starting ∧ (s.mon n).firstCheck = false) ∨
        ((s.mon n).condition = .active ∧ s.queue n = [] ∧ quiet) ∨
        ((s.mon n).condition = .suspect ∧ quiet ∧ ∀ e, (s.mon n).lastExpiry = some e → interval ≤ (s.clock - e).toNat))) ∧
    ((s.mon n).condition ≠ .test →
      let x := s.tx n
      let e := s.entry n
      let ends : TxState :=
        if x.stopMark = true ∧ ((s.mon n).condition = .stopped ∨ (s.mon n).reloadPending = true) then .off else .idle
      let latchNow : Latched :=
        { opening := s.openingGroup, closing := s.closingGroup, cancel := s.cancelGroup, trailer := trailerCount e }
      let chooses := s.modTx n (fun z => { z with slot := none })
      -- the character waits behind a shift combination: nothing else changes
      let shifts := fun (o : Offer) =>
        exec (.sendCellRead n) s = .next { s.modTx n (o.onTx s.clock) with readData := o.word }
      -- the read changes the line by `f`, beside the offer's own part
      let sends := fun (o : Offer) (f : Transmitter → Transmitter) =>
        ∃ t, exec (.sendCellRead n) s = .next t ∧ OnlyStateWrites s t ∧ Posts s t [] [] ∧
          t.quiet = ({ s.modLine n (fun l => { l with tx := f (o.onTx s.clock l.tx), mon := o.onMon l.mon }) with
            readData := o.word }).quiet
      -- the choice
      (x.state = .idle → ∀ v : Service,
        ((∃ k, (s.mon n).owed = some k ∧ v = ⟨.cka, k⟩) ∨
          ((s.mon n).owed = none ∧ s.ckqDue n = true ∧ v = ⟨.ckq, (s.mon n).checkNumber⟩)) →
        ∃ o t, Offers chooses n (s.openingGroup.getD 0 0) o ∧ exec (.sendCellRead n) s = .next t ∧
          OnlyStateWrites s t ∧ Posts s t [] [] ∧
          t.quiet = ({ s.modLine n (fun l =>
            { l with
              mon := o.onMon (if v.kind = ServiceKind.ckq then
                { l.mon with
                  outstanding := some l.mon.checkNumber, firstCheck := true, timer := none
                  checkNumber := if l.mon.checkNumber = 999 then 1 else l.mon.checkNumber + 1 } else l.mon)
              tx := { o.onTx s.clock l.tx with
                state := .service, service := some v, next := if o.goesOn then 1 else 0, latched := latchNow } }) with
            readData := o.word }).quiet) ∧
      (x.state = .idle → (s.mon n).condition = .active → (s.mon n).owed = none →
        s.ckqDue n = false → (s.mon n).outstanding = none → ∀ (c : CopyId) (q : List CopyId) (y : Copy) (tr : Transit),
        s.queue n = c :: q → s.copy? c = some y → s.transit? y.transit = some tr →
        ∃ o t, Offers chooses n (s.openingGroup.getD 0 0) o ∧ exec (.sendCellRead n) s = .next t ∧
          t.frame = { s with readData := o.word }.frame ∧ KeepsLines (s.modMon n o.onMon) t ∧
          (∀ m, m ≠ n → t.line m = s.line m) ∧
          Posts s t [] [] ∧ t.queue n = q ∧
          t.copy? c = some { y with state := .sending, outNumber := some x.nextOut } ∧
          (∀ d, d ≠ c → t.copy? d = s.copy? d) ∧ t.transits = s.transits ∧
          (t.tx n).state = .heading ∧ (t.tx n).sending = some c ∧ (t.tx n).next = (if o.goesOn then 1 else 0) ∧
          (t.tx n).offered = (t.tx n).next ∧
          (t.tx n).latched = latchNow ∧ (t.tx n).nextOut = (if x.nextOut = 999 then 1 else x.nextOut + 1) ∧
          (t.tx n).cutRemaining = 0 ∧ (t.tx n).cutReturn = false ∧ (t.tx n).slot = o.slot ∧ (t.tx n).shift = o.shift ∧
          (t.tx n).lastRead = s.clock ∧ (t.tx n).lastOffered = s.clock ∧
          (tr.bodyLength = 0 → OnlyStateWrites s t ∧ (t.tx n).bufA.state = .empty) ∧ (t.tx n).bufB.state = .empty ∧
          ∀ b, 0 < tr.bodyLength → s.blockOfPosition tr (tr.bodyOffset.getD 0) = some b →
            Decides s t (.textRead n .a (s.blockAddress b)) ∧ (t.tx n).bufA.state = .reading) ∧
      -- a copy
      (∀ (c : CopyId) (y : Copy) (tr : Transit), x.sending = some c → s.copy? c = some y → s.transit? y.transit = some tr →
        (x.state = .heading →
          let heading := x.latched.opening ++ [13, 10] ++ (outgoingDesignator e).map charOfByte ++ [32] ++
            decimal 3 (y.outNumber.getD 0) ++ [32, rankLetter y.rank, 32] ++ codeChars (tr.origin.getD 0) ++ [32] ++
            decimal 4 (tr.serial.getD 0) ++ [13, 10] ++ joinCodes (codesOf y.subset true) ++
            (if codesOf y.subset false = [] then []
              else (if codesOf y.subset true = [] then [] else [32]) ++ [47, 73, 32] ++ joinCodes (codesOf y.subset false)) ++
            [13, 10]
          x.next < heading.length →
          ∃ o, Offers s n (heading.getD x.next 0) o ∧ (o.goesOn = false → shifts o) ∧
            (o.goesOn = true → sends o (fun z =>
              { z with
                offered := min 65535 (z.offered + 1)
                state := if x.next + 1 < heading.length then .heading else .text
                next := if x.next + 1 < heading.length then x.next + 1 else 0 }))) ∧
        (x.state = .text →
          let p := tr.bodyOffset.getD 0 + x.next
          (x.next < tr.bodyLength → (x.buf x.current).state = .ready →
            ∃ o, Offers s n ((x.buf x.current).chars.getD (p % 60) 0) o ∧ (o.goesOn = false → shifts o) ∧
              (o.goesOn = true → ∃ t, exec (.sendCellRead n) s = .next t ∧
              t.frame = { s with readData := o.word }.frame ∧ KeepsLines (s.modMon n o.onMon) t ∧
              (∀ m, m ≠ n → t.line m = s.line m) ∧
              Posts s t [] [] ∧ t.transits = s.transits ∧ t.copies = s.copies ∧ t.queue n = s.queue n ∧
              (t.tx n).state = .text ∧ (t.tx n).sending = some c ∧ (t.tx n).next = x.next + 1 ∧
              (t.tx n).offered = min 65535 (x.offered + 1) ∧ (t.tx n).lastOffered = s.clock ∧
              (t.tx n).slot = none ∧ (t.tx n).shift = o.shift ∧
              ((x.next = 0 ∨ p % 60 = 0) ∧ (p / 60 + 1) * 60 < tr.stored →
                ∀ b, s.blockOfPosition tr ((p / 60 + 1) * 60) = some b →
                  Decides s t (.textRead n x.current.other (s.blockAddress b)) ∧
                    ((t.tx n).buf x.current.other).state = .reading) ∧
              (¬ ((x.next = 0 ∨ p % 60 = 0) ∧ (p / 60 + 1) * 60 < tr.stored) →
                OnlyStateWrites s t ∧ (t.tx n).buf x.current.other = x.buf x.current.other) ∧
              if p % 60 = 59 ∨ p + 1 = tr.stored then
                (t.tx n).current = x.current.other ∧ ((t.tx n).buf x.current).state = .empty
              else (t.tx n).current = x.current ∧ (t.tx n).buf x.current = x.buf x.current)) ∧
          (x.next < tr.bodyLength → (x.buf x.current).state ≠ .ready → x.slot = none →
            ∃ t, exec (.sendCellRead n) s = .next t ∧
              (if sevenUnit e = true then GivesSeven e 0 true t.readData else t.readData = 0x300) ∧ OnlyStateWrites s t ∧
              Posts s t [] [] ∧
              t.quiet = ({ s.modLine n (fun l =>
                { l with
                  tx := { l.tx with lastRead := s.clock, lastOffered := s.clock }
                  mon := { l.mon with counters := { l.mon.counters with fill := min 65535 (l.mon.counters.fill + 1) } } })
                with readData := t.readData }).quiet) ∧
          (tr.bodyLength ≤ x.next →
            ∃ o, Offers s n (if x.next = tr.bodyLength then 13 else 10) o ∧ (o.goesOn = false → shifts o) ∧
              (o.goesOn = true → sends o (fun z =>
                { z with
                  offered := min 65535 (z.offered + 1)
                  state := if x.next = tr.bodyLength then .text else .closing
                  next := if x.next = tr.bodyLength then x.next + 1 else 0 }))))) ∧
      (x.state = .closing →
        let closing := x.latched.closing ++ List.replicate x.latched.trailer 10
        ∃ o, Offers s n (closing.getD x.next 0) o ∧ (o.goesOn = false → shifts o) ∧
          (o.goesOn = true → x.next + 1 < closing.length →
            sends o (fun z => { z with offered := min 65535 (z.offered + 1), next := x.next + 1 })) ∧
          (o.goesOn = true → closing.length ≤ x.next + 1 →
            ∃ t, exec (.sendCellRead n) s = .next t ∧
              t.frame = { s with readData := o.word }.frame ∧ KeepsLines (s.modMon n o.onMon) t ∧
              (t.tx n).state = ends ∧ (t.tx n).sending = none ∧ (t.tx n).stopMark = false ∧ (t.tx n).shift = o.shift ∧
              ∀ (c : CopyId) (y : Copy) (tr : Transit), x.sending = some c → s.copy? c = some y →
                s.transit? y.transit = some tr → tr.state = .inTransit → s.waitList = [] →
                OnlyStateWrites s t ∧ t.copy? c = none ∧ t.transit? y.transit =
                  (if tr.pendingCopies ≤ 1 then none else some { tr with pendingCopies := tr.pendingCopies - 1 }) ∧
                (∀ d, d ≠ c → t.copy? d = s.copy? d) ∧ ∀ m, t.queue m = s.queue m)) ∧
      -- a service message
      (∀ v : Service, x.state = .service → x.service = some v →
        let message := x.latched.opening ++ [13, 10] ++
          (if v.kind = ServiceKind.ckq then ([67, 75, 81] : List OfficeChar) else [67, 75, 65]) ++ [32] ++ decimal 3 v.number ++ [13, 10] ++ x.latched.closing ++
          List.replicate x.latched.trailer 10
        ∃ o, Offers s n (message.getD x.next 0) o ∧ (o.goesOn = false → shifts o) ∧
          (o.goesOn = true → x.next + 1 < message.length → sends o (fun z => { z with next := x.next + 1 })) ∧
          (o.goesOn = true → message.length ≤ x.next + 1 →
            ∃ t, exec (.sendCellRead n) s = .next t ∧ OnlyStateWrites s t ∧ Posts s t [] [] ∧
              t.frame = { s with readData := o.word }.frame ∧ (∀ m, m ≠ n → t.line m = s.line m) ∧
              t.rx n = s.rx n ∧ t.queue n = s.queue n ∧ (t.tx n).state = ends ∧ (t.tx n).service = none ∧
              (t.tx n).lastOffered = s.clock ∧ (t.tx n).stopMark = false ∧ (t.tx n).shift = o.shift ∧
              t.mon n = o.onMon (match v.kind with
                | .ckq => { s.mon n with
                  timer := if (s.mon n).outstanding = some v.number ∧ (s.mon n).timer = none then some s.clock
                    else (s.mon n).timer }
                | .cka => { s.mon n with
                  owed := if (s.mon n).owed = some v.number then none else (s.mon n).owed }))) ∧
      -- the cut sequence, on a line of either kind
      (x.state = .cutting → 1 < x.cutRemaining →
        let c := (cutSequence x.latched).getD (x.latched.cutLength - x.cutRemaining) 0
        (sevenUnit e = true → x.slot = none →
          ∃ k : Byte, k.extractLsb' 0 7 = c ∧ elementsAtOne k % 2 = (if parityOdd e then 1 else 0) ∧
            exec (.sendCellRead n) s = .next { s.modTx n (fun y =>
              { y with lastRead := s.clock, lastOffered := s.clock, cutRemaining := x.cutRemaining - 1 }) with
              readData := k.setWidth 32 ||| 0x100 }) ∧
        (sevenUnit e = false →
          let d := if ((s.sendCode c).extractLsb' 5 2).toNat = 3 then s.sendSubstitute else c
          let cls := ((s.sendCode d).extractLsb' 5 2).toNat
          let k := (s.sendCode d).extractLsb' 0 5
          (∀ z, x.slot = some z →
            exec (.sendCellRead n) s = .next { s.modTx n (fun y =>
              { y with
                lastRead := s.clock, lastOffered := s.clock, cutRemaining := x.cutRemaining - 1, slot := none
                shift := if unshiftOnSpace e = true ∧ z.char = 32 then .letters else x.shift }) with
              readData := z.combination.setWidth 32 ||| 0x100 }) ∧
          (x.slot = none → (cls = 2 ∨ (cls = 0 ∧ x.shift = .letters) ∨ (cls = 1 ∧ x.shift = .figures)) →
            exec (.sendCellRead n) s = .next { s.modTx n (fun y =>
              { y with
                lastRead := s.clock, lastOffered := s.clock, cutRemaining := x.cutRemaining - 1
                shift := if unshiftOnSpace e = true ∧ d = 32 then .letters else x.shift }) with
              readData := k.setWidth 32 ||| 0x100 }) ∧
          (x.slot = none → cls = 0 → x.shift ≠ .letters →
            exec (.sendCellRead n) s = .next { s.modTx n (fun y =>
              { y with lastRead := s.clock, lastOffered := s.clock, shift := .letters, slot := some ⟨d, k.setWidth 8⟩ })
              with readData := s.lettersShift.setWidth 32 ||| 0x100 }) ∧
          (x.slot = none → cls = 1 → x.shift ≠ .figures →
            exec (.sendCellRead n) s = .next { s.modTx n (fun y =>
              { y with lastRead := s.clock, lastOffered := s.clock, shift := .figures, slot := some ⟨d, k.setWidth 8⟩ })
              with readData := s.figuresShift.setWidth 32 ||| 0x100 }) ∧
          (x.slot = none → cls = 3 →
            ∃ t, exec (.sendCellRead n) s = .next t ∧ OnlyStateWrites s t ∧ Posts s t [] [] ∧
              t.quiet = ({ s.modLine n (fun l =>
                { l with
                  tx := { l.tx with
                    lastRead := s.clock, lastOffered := s.clock, cutRemaining := x.cutRemaining - 1 }
                  mon := { l.mon with counters := { l.mon.counters with fill := min 65535 (l.mon.counters.fill + 1) } } })
                with readData := 0x300 }).quiet))) ∧
      (x.state = .cutting → x.cutRemaining ≤ 1 →
        ∃ o, Offers s n ((cutSequence x.latched).getD (x.latched.cutLength - x.cutRemaining) 0) o ∧
          (o.goesOn = false → shifts o) ∧
          (o.goesOn = true → (x.cutReturn = false ∨ x.sending = none) → sends o (fun z => z.rested ends)) ∧
          (o.goesOn = true → x.cutReturn = true → ∀ (c : CopyId) (y : Copy), x.sending = some c → s.copy? c = some y →
            let left := s.modLine n (fun l =>
              { l with tx := (o.onTx s.clock l.tx).rested ends, mon := o.onMon l.mon })
            ∃ d v, Returned left v n c y d ∧
              exec (.sendCellRead n) s = .next (settle s { (if (s.mon n).condition = .active then considerWaitList v
                else afterAction [n] (lossWalk n [d] v)) with readData := o.word }) ∧
              (s.waitList = [] → considerWaitList v = v) ∧
              (∀ z, v.copy? d = some z → z.pinned = true → (s.mon n).condition ≠ .stopped → s.waitList = [] →
                afterAction [n] (lossWalk n [d] v) = v))))

/-! ## The memory port -/

/-- A text block write reaches memory as a link of 0 and its 60 characters, one a byte, and no other byte changes; its
buffer, when WRITING, is FREE and keeps its characters.  A SUBMIT copy that waited for the buffer goes on: the first character
that waits is acted on as a released one, and the others follow it, or the copy ends, POOL_LOW or truncated (how the copy goes
on with further characters stands with the composition reads).  A text block read gives its buffer, when READING, the low 7 bits
of the block's 60 bytes, READY; a read of an abandoned text is only counted off.  Nothing else changes.
Deduced, and no rule's own words: that the low 7 bits are taken of a pool block's bytes, as they are of a composition area's
(log entry 28); that a read of an abandoned text stays in its place in the FIFO and its buffer counts it off (log entry 20);
that at the stored length limit the message is truncated ahead of a missing block (`ActsOn`, log entry 16); and what an
overlong or faulted local heading leaves (log entry 17) (R16, R37, R49, R101, R104). -/
def Obligations.TextBlocksCarriedOut : Prop :=
  (∀ (s : State) (n : Line) (k : Buffer) (a : Nat) (cs : Vector OfficeChar 60) (rest : List FifoEntry),
      s.memoryLaw → s.fifo = .textWrite n k a cs :: rest →
      (n = 0 → ∀ x, s.submitCopy = some x → x.waiting = []) →
        ∃ m : Memory, exec .textBlockWriteDone s = .next (({ s with fifo := rest, mem := m }).modRx n (fun r : Receiver =>
            r.setBuf k (if (r.buf k).state = BlockState.writing then
              { r.buf k with state := .free, count := 0, block := none } else r.buf k))) ∧
          m.readWord a = 0 ∧ (∀ i : Fin 60, m.read (a + 4 + i.val) = cs[i].setWidth 8) ∧
          ∀ b, (b < a ∨ a + 64 ≤ b) → m.read b = s.mem.read b) ∧
    (∀ (s : State) (k : Buffer) (a : Nat) (cs : Vector OfficeChar 60) (rest : List FifoEntry) (x : SubmitCopy) (c : OfficeChar)
      (more : List OfficeChar) (id : TransitId) (r : Transit),
      s.memoryLaw → s.fifo = .textWrite 0 k a cs :: rest → s.submitCopy = some x → x.waiting = c :: more →
      ((s.rx 0).buf k).state = .writing → (s.rx 0).transit = some id → s.transit? id = some r →
      ((s.rx 0).state = .heading ∨ (s.rx 0).state = .address ∨ (s.rx 0).state = .text) →
        ∃ (m : Memory) (w : State) (f : Fate),
          m.readWord a = 0 ∧ (∀ i : Fin 60, m.read (a + 4 + i.val) = cs[i].setWidth 8) ∧
          (∀ b, (b < a ∨ a + 64 ≤ b) → m.read b = s.mem.read b) ∧
          ActsOn 0 c (({ s with
            fifo := rest, mem := m, submitCopy := some { x with waiting := [] } }).modRx 0 (fun r : Receiver =>
              r.setBuf k { r.buf k with state := .free, count := 0, block := none })) w f id r ∧
          exec .textBlockWriteDone s = .next (settle s (match f with
            | .goesOn => submitChars more w
            | .truncated => endSubmit .done id.val w
            | _ => endSubmit .poolLow 0 w))) ∧
    ∀ (s : State) (n : Line) (k : Buffer) (a : Nat) (rest : List FifoEntry), s.fifo = .textRead n k a :: rest →
      exec .textBlockReadDone s = .next (({ s with fifo := rest }).modTx n (fun x : Transmitter =>
        x.setBuf k (if 0 < (x.buf k).stale then { x.buf k with stale := (x.buf k).stale - 1 }
          else if (x.buf k).state = TextState.reading then
            { x.buf k with
              state := .ready, chars := (List.range 60).map (fun i => (s.mem.read (a + 4 + i)).setWidth 7) }
          else x.buf k)))

/-- A read of the load pass that is not its last: the words memory holds are taken into the shadow, the read is counted,
and the line entries it carries come into force, DEGRADED recomputed with their thresholds; the office stays LOADING.  That
the entries come into force with the read that carries them, and DEGRADED with them, is deduced (log entry 27): the rules say
it of snooped writes and of the reload only.  When the load pass waits
first for a place, its next read joins in the place that has fallen free, ahead of the blocks that wait behind it; when
another block waits first, or the load pass does not wait, no read joins (R152, R154, R171). -/
def Obligations.TableReadLoadsShadow : Prop :=
  ∀ (s : State) (k : Nat) (rest : List FifoEntry), s.memoryLaw → s.fifo = .tableRead k :: rest →
    s.loadDone + 1 < 144 → s.officeState = .loading →
      ∃ t, exec .tableReadDone s = .next t ∧ t.mem = s.mem ∧ t.officeState = .loading ∧ t.loadDone = s.loadDone + 1 ∧
        t.transits = s.transits ∧ t.copies = s.copies ∧ t.clock = s.clock ∧ t.officeTime = s.officeTime ∧
        (∀ j, j < (tableSpan k).2 →
          t.shadow.readWord ((tableSpan k).1 + 4 * j) = s.mem.readWord (s.windowBase + (tableSpan k).1 + 4 * j)) ∧
        (∀ a, (a < (tableSpan k).1 ∨ (tableSpan k).1 + 4 * (tableSpan k).2 ≤ a) → t.shadow.read a = s.shadow.read a) ∧
        (∀ n : Line, n ≠ 0 →
          if 8 ≤ k ∧ k < 32 ∧ (n.val - 1) / 2 = k - 8 then
            (∀ i : Fin 8, (t.line n).entry[i] = s.mem.readWord (s.windowBase + 0x1400 + 32 * (n.val - 1) + 4 * i.val)) ∧
              (t.mon n).degraded = aboveThreshold (s.mon n).counters (t.line n).entry
          else t.line n = s.line n) ∧
        (s.waiting.head? ≠ some .loadPass → t.loadDecided = s.loadDecided ∧ OnlyStateWrites { s with fifo := rest } t) ∧
        ∀ ws, s.waiting = .loadPass :: ws → rest.length < 32 →
          ∃ j ws', 0 < j ∧ t.loadDecided = s.loadDecided + j ∧
            Appends { s with fifo := rest, waiting := ws } t
              ((List.range j).map (fun i => .tableRead (s.loadDecided + i))) ws'

/-- The last read of the load pass: with a good pool geometry the office is RUNNING with that pool, every block free and
the ring size in force; with a bad one it is HALTED_CONFIG with neither.  TABLE is pending, and a RESET OFFICE in flight is
answered DONE (R15, R156, R164).  That the read's line entries come into force with it is deduced (log entry 27). -/
def Obligations.LoadPassEnds : Prop :=
  ∀ (s : State) (k : Nat) (rest : List FifoEntry), s.fifo = .tableRead k :: rest → 144 ≤ s.loadDone + 1 →
    let s1 := { s with fifo := rest }
    let s2 := loadTable k s1
    let p : Pool := { base := s2.tablePoolBase, count := s2.tablePoolCount }
    ∃ t, exec .tableReadDone s = .next t ∧ t.mem = s.mem ∧ t.shadow = s2.shadow ∧ t.lines = s2.lines ∧
      t.poolDiffers = false ∧ t.isPending .table = true ∧
      (s2.badGeometry p = true → t.officeState = .haltedConfig ∧ t.pool = none ∧ t.ringSize = 0) ∧
      (s2.badGeometry p = false →
        t.officeState = .running ∧ t.pool = some p ∧ t.ringSize = s2.tableRingSize ∧ t.freeCount = p.count ∧
          t.freeHead = some 0 ∧ t.freeTail = some (p.count - 1) ∧
          ∀ b, b < p.count → t.nextBlock b = if b + 1 < p.count then some (b + 1) else none) ∧
      (∀ c, s.inFlight = some c → Answers s1 t c.tag .done 0)

/-- START LINE's reload is carried out: the entry memory holds comes into force and into the shadow, reload is NONE and the
line no longer differs from its table, the receiver is in HUNT and LETTERS, the transmitter is IDLE with its shift UNKNOWN and
its last character offered at this moment, DEGRADED is recomputed, a STARTING line without checks is ACTIVE and one with checks
stays STARTING, a line that a stall recovery has made SUSPECT meanwhile stays SUSPECT, and START LINE is answered DONE.  With
the stop mark set the transmitter goes on with its message as it stands, but for its shift, which is UNKNOWN then as well;
that it is so under the stop mark too is deduced (log entry 40) (R95, R120, R121, R149). -/
def Obligations.LineEntryReadStartsLine : Prop :=
  ∀ (s : State) (n : Line) (rest : List FifoEntry) (c : Command), s.memoryLaw → n ≠ 0 →
    s.fifo = .lineEntryRead n :: rest → ((s.mon n).condition = .starting ∨ (s.mon n).condition = .suspect) →
    s.inFlight = some c →
      ∃ t, exec .lineEntryReadDone s = .next t ∧ t.mem = s.mem ∧ Answers { s with fifo := rest } t c.tag .done 0 ∧
        (∀ i : Fin 8, (t.line n).entry[i] = s.mem.readWord (s.windowBase + 0x1400 + 32 * (n.val - 1) + 4 * i.val) ∧
          t.shadow.readWord (0x1400 + 32 * (n.val - 1) + 4 * i.val) = (t.line n).entry[i]) ∧
        (t.line n).tableDiffers = false ∧ (t.mon n).reloadPending = false ∧
        (t.mon n).condition = (if (s.mon n).condition = .suspect then .suspect
          else if checksEnabled (t.line n).entry then .starting else .active) ∧
        (t.mon n).degraded = aboveThreshold (s.mon n).counters (t.line n).entry ∧
        (t.rx n).state = .hunt ∧ (t.rx n).shift = .letters ∧ (t.rx n).lastArrival = s.clock ∧
        (t.rx n).openMatch = 0 ∧ (t.rx n).transit = none ∧
        ((s.tx n).stopMark = false → (t.tx n).state = .idle ∧ (t.tx n).sending = none ∧ (t.tx n).shift = .unknown ∧
          (t.tx n).lastRead = s.clock ∧ (t.tx n).lastOffered = s.clock) ∧
        ((s.tx n).stopMark = true → (s.tx n).state ≠ .heading → (s.tx n).state ≠ .text →
          t.tx n = { s.tx n with shift := .unknown }) ∧
        (∀ m, m ≠ n → (t.line m).kept = (s.line m).kept)

/-- A composition read is carried out while the Local Position's assembler is in TEXT with a FILLING buffer that has room:
the characters, the low 7 bits of the area's bytes, go into the buffer in order, the stored length goes up with them, and
the next read is decided while the area has more.  With the last of the area the message completes: the FILLING buffer's
write is decided, the message is handed on without a sequence check, the copy ends with the assembler OFF, and SUBMIT is
answered DUPLICATE, or DONE with the transit id.  While both buffers are WRITING the copy waits with the characters that it
has read.  A first character for which there is no block ends the copy with the transit freed and POOL_LOW posted and
answered; one that would exceed the stored length limit completes the message as TRUNCATED, answered DONE.
In HEADING and ADDRESS as in TEXT the characters are taken one by one, each acted on as a circuit's receiver acts on a released
one (`ActsOn` of line 0: a local heading of three fields, a fault in it counting nowhere, the pool reserve test refusing it
with its record freed), until the copy waits, ends POOL_LOW or truncated, or has taken all; then it reads on or completes, a
heading or address line that has not ended as it stands.  What copies a completed message gets when the Copy Wait List is empty
is not said here.  Deduced: with the stored length at its limit the copy is truncated, and does not wait, while both buffers are
WRITING, and no block is looked for (log entry 16); an overlong local heading leaves its fields absent, and a faulted one of
three fields keeps those well formed (log entry 17) (R31, R34 to R37, R39, R40, R44, R46, R49, R170). -/
def Obligations.CompositionReadFillsText : Prop :=
  (∀ (s : State) (start words : Nat) (rest : List FifoEntry) (x : SubmitCopy) (id : TransitId) (r : Transit),
    s.fifo = .compositionRead start words :: rest → s.submitCopy = some x → (s.rx 0).state = .text →
    (s.rx 0).transit = some id → s.transit? id = some r →
    let cs := (List.range (min (start + 4 * words) (x.address + x.length) - (x.address + x.fetched))).map
      (fun i => ((s.mem.read (x.address + x.fetched + i)).setWidth 7 : OfficeChar))
    (∀ k : Buffer, (s.rx 0).filling = some k → ((s.rx 0).buf k).count + cs.length < 60 →
      r.stored + cs.length ≤ s.storedLimit →
        (x.fetched + cs.length < x.length →
          ∃ t, exec .compositionReadDone s = .next t ∧ t.frame.base = s.frame.base ∧
            t.submitCopy = some { x with fetched := x.fetched + cs.length } ∧
            ((t.rx 0).buf k).count = ((s.rx 0).buf k).count + cs.length ∧
            (∀ i : Nat, i < cs.length → ((t.rx 0).buf k).chars[((s.rx 0).buf k).count + i]? = cs[i]?) ∧
            t.transit? id = some { r with stored := r.stored + cs.length } ∧
            Decides { s with fifo := rest } t (.compositionRead ((x.address + x.fetched + cs.length) / 4 * 4)
              (min 16 ((x.address + x.length + 3) / 4 - (x.address + x.fetched + cs.length) / 4)))) ∧
        (x.length ≤ x.fetched + cs.length →
          ∃ t, exec .compositionReadDone s = .next t ∧ t.frame.base = s.frame.base ∧ t.submitCopy = none ∧
            (t.rx 0).state = .off ∧ (t.rx 0).transit = none ∧ ((t.rx 0).buf k).state = .writing ∧
            (∀ i : Nat, i < cs.length → ((t.rx 0).buf k).chars[((s.rx 0).buf k).count + i]? = cs[i]?) ∧
            Decides { s with fifo := rest } t (.textWrite 0 k (s.blockAddress (((s.rx 0).buf k).block.getD 0))
              ((t.rx 0).buf k).chars) ∧
            HandsOn s t id r ∧
            ∀ c, s.inFlight = some c →
              (s.isDuplicate r → Answers { s with fifo := rest } t c.tag .duplicate 0) ∧
              (¬ s.isDuplicate r → Answers { s with fifo := rest } t c.tag .done id.val))) ∧
    ((s.rx 0).bufA.state = .writing → (s.rx 0).bufB.state = .writing → r.stored < s.storedLimit → cs ≠ [] →
      exec .compositionReadDone s = .next { s with
        fifo := rest, submitCopy := some { x with fetched := x.fetched + cs.length, waiting := cs } }) ∧
    ((s.rx 0).filling = none → ((s.rx 0).bufA.state = .free ∨ (s.rx 0).bufB.state = .free) → s.freeCount = 0 →
      r.stored < s.storedLimit → cs ≠ [] →
        ∃ t, exec .compositionReadDone s = .next t ∧ t.frame.base = s.frame.base ∧ t.submitCopy = none ∧
          (t.rx 0).state = .off ∧ (t.rx 0).transit = none ∧ t.transit? id = none ∧ t.isPending .poolLow = true ∧
          t.counts = { s.counts with lostPool := min 65535 (s.counts.lostPool + 1) } ∧
          ∀ c, s.inFlight = some c → Answers { s with fifo := rest } t c.tag .poolLow 0) ∧
    (s.storedLimit ≤ r.stored → cs ≠ [] →
      ∃ t, exec .compositionReadDone s = .next t ∧ t.frame.base = s.frame.base ∧ t.submitCopy = none ∧
        (t.rx 0).state = .off ∧ (t.rx 0).transit = none ∧
        HandsOn s t id { r with flags := { r.flags with truncated := true } } ∧
        ∀ c, s.inFlight = some c → Answers { s with fifo := rest } t c.tag .done id.val)) ∧
  (∀ (s : State) (start words : Nat) (rest : List FifoEntry) (x : SubmitCopy),
    s.fifo = .compositionRead start words :: rest → s.submitCopy = some x →
    let cs := (List.range (min (start + 4 * words) (x.address + x.length) - (x.address + x.fetched))).map
      (fun i => ((s.mem.read (x.address + x.fetched + i)).setWidth 7 : OfficeChar))
    exec .compositionReadDone s = .next (settle s (submitChars cs { s with
      fifo := rest, submitCopy := some { x with fetched := x.fetched + cs.length } }))) ∧
  (∀ (u : State) (x : SubmitCopy) (id : TransitId) (r : Transit), u.submitCopy = some x → (u.rx 0).transit = some id →
    u.transit? id = some r → ((u.rx 0).state = .heading ∨ (u.rx 0).state = .address ∨ (u.rx 0).state = .text) →
    let waits := (u.rx 0).bufA.state = .writing ∧ (u.rx 0).bufB.state = .writing ∧ r.stored < u.storedLimit
    (∀ (c : OfficeChar) (cs : List OfficeChar),
      (waits → submitChars (c :: cs) u = { u with submitCopy := some { x with waiting := c :: cs } }) ∧
      (¬ waits → ∃ w f, ActsOn 0 c u w f id r ∧
        (f = .goesOn → submitChars (c :: cs) u = submitChars cs w) ∧
        (f = .refused ∨ f = .lostPool → submitChars (c :: cs) u = endSubmit .poolLow 0 w) ∧
        (f = .truncated → submitChars (c :: cs) u = endSubmit .done id.val w))) ∧
    (x.fetched < x.length → ∃ e, e = FifoEntry.compositionRead ((x.address + x.fetched) / 4 * 4)
        (min 16 ((x.address + x.length + 3) / 4 - (x.address + x.fetched) / 4)) ∧
      Decides u (submitChars [] u) e ∧ (submitChars [] u).quiet = u.quiet) ∧
    (x.length ≤ x.fetched → ∃ v, Completes 0 (fun f => f) u v id r ∧
      (u.isDuplicate (r.completing (u.rx 0).state (fun f => f)) → submitChars [] u = endSubmit .duplicate 0 v) ∧
      (¬ u.isDuplicate (r.completing (u.rx 0).state (fun f => f)) → submitChars [] u = endSubmit .done id.val v))) ∧
  (∀ (code : AnswerCode) (result : Nat) (v : State) (c : Command), v.inFlight = some c →
    let t := endSubmit code result v
    Answers v t c.tag code result ∧ t.submitCopy = none ∧ t.rx 0 = (v.rx 0).clear .off ∧ t.transits = v.transits ∧
      t.copies = v.copies ∧ t.frame.base = v.frame.base ∧ t.counts = v.counts ∧ ∀ n, n ≠ 0 → t.line n = v.line n) ∧
  ∀ (line : List OfficeChar) (overlong : Bool),
    let h := checkLocalHeading line overlong
    (h.good = true ↔ overlong = false ∧ ∃ f1 f2 f3, fields line = [f1, f2, f3] ∧
      f1 ∈ ([[69], [79], [82], [68]] : List (List OfficeChar)) ∧ (f2.length = 4 ∧ ∀ d ∈ f2, isLetter d = true) ∧
      f3.length = 4 ∧ (∀ d ∈ f3, isDigit d = true) ∧ 1 ≤ digitsValue f3) ∧
    h.channel = none ∧ (h.good = false → h.rank = 2) ∧
    ((overlong = true ∨ (fields line).length ≠ 3) → h.origin = none ∧ h.serial = none) ∧
    ∀ f1 f2 f3, overlong = false → fields line = [f1, f2, f3] →
      (h.good = true → f1 = [rankLetter h.rank]) ∧
      (h.origin = if f2.length = 4 ∧ ∀ d ∈ f2, isLetter d = true then some (codeOfChars f2) else none) ∧
      h.serial = if f3.length = 4 ∧ (∀ d ∈ f3, isDigit d = true) ∧ 1 ≤ digitsValue f3 then some (digitsValue f3) else none

/-- An own write is carried out: it leaves the FIFO and memory takes it.  A link word, a delivery record of a ring slot, the
write index and the answer's two words are written as decided; each word of a state write is written with the value the
part holds at that moment.  Nothing else changes, and an entry of another kind stays (R16, R112, R172, R183). -/
def Obligations.OwnWritesCarriedOut : Prop :=
  ∀ (s : State) (e : FifoEntry) (rest : List FifoEntry), s.fifo = e :: rest →
    (∀ a v, e = .linkWrite a v → exec .ownWriteCarriedOut s =
        .next { s with fifo := rest, mem := s.mem.writeWord a (BitVec.ofNat 32 v) }) ∧
      (∀ slot ws, e = .recordWrite slot ws → exec .ownWriteCarriedOut s =
        .next { s with fifo := rest, mem := s.mem.writeWords (s.windowBase + 0x10000 + 32 * slot) ws }) ∧
      (∀ i, e = .indexWrite i → exec .ownWriteCarriedOut s =
        .next { s with fifo := rest, mem := s.mem.writeWord (s.windowBase + 0x34) (i.setWidth 32) }) ∧
      (∀ x y, e = .answerWrite x y → exec .ownWriteCarriedOut s = .next { s with
        fifo := rest, mem := (s.mem.writeWord (s.windowBase + 0x10) x).writeWord (s.windowBase + 0x14) y }) ∧
      (∀ ws, e = .stateWrite ws → s.memoryLaw →
        ∃ m, exec .ownWriteCarriedOut s = .next { s with fifo := rest, mem := m } ∧
          (∀ w ∈ ws, m.readWord (s.windowBase + w.offset) = s.stateWord w) ∧
          ∀ a, (∀ w ∈ ws, a < s.windowBase + w.offset ∨ s.windowBase + w.offset + 4 ≤ a) → m.read a = s.mem.read a) ∧
      (s.ownWrite e = none → exec .ownWriteCarriedOut s = .next s)

/-- A block that waited joins when a place is free: an entry goes to the FIFO's tail, and nothing more is decided then, not a
write of office word 0 either: that is the model's choice (DESIGN CHOICE, log entry 43); an answer goes there too, becomes the
answer last decided, ends the command in flight when it is that command's, and posts COMMAND.  With no place free, and with
none waiting, nothing changes; that all an answer brings happens as it joins is deduced (log entry 11).  A delivery that
waited needs two places, and with one place free it waits on: that is the model's choice (log entry 10), the rules having its
two entries join one after the other.  With queue 0 empty or the ring full it waits no more; else the record of the head of
queue 0 and the write index join side by side, the copy is DELIVERING under that number with DELIVERY pending, and the delivery
goes on down queue 0.  The load pass, when its turn comes, joins its next read, and more while the FIFO has room and nothing
else waits; while reads are left it waits again, behind the blocks that wait (R112, R154, R171, R183). -/
def Obligations.WaitingBlocksJoin : Prop :=
  ∀ (s : State) (rest : List Waiter),
    (s.waiting = [] → exec .fifoEntryJoin s = .next s) ∧
      (∀ w, s.waiting = w :: rest → 32 ≤ s.fifo.length → exec .fifoEntryJoin s = .next s) ∧
      (∀ e, s.waiting = .entry e :: rest → s.fifo.length < 32 →
        exec .fifoEntryJoin s = .next { s with fifo := s.fifo ++ [e], waiting := rest }) ∧
      (∀ x y ends, s.waiting = .answer x y ends :: rest → s.fifo.length < 32 →
        ∃ t, exec .fifoEntryJoin s = .next t ∧ t.lastAnswer = (x, y) ∧ Posts s t [.command] [] ∧
          (∃ es ws, Appends { s with waiting := rest } t (.answerWrite x y :: es) ws) ∧
          t.quiet = ({ s with inFlight := if ends then none else s.inFlight }).quiet) ∧
      (s.waiting = .delivery :: rest → s.fifo.length = 31 → exec .fifoEntryJoin s = .next s) ∧
      (s.waiting = .delivery :: rest → s.fifo.length < 31 → (s.queue 0 = [] ∨ s.ringSize ≤ s.ringFill) →
        exec .fifoEntryJoin s = .next { s with waiting := rest }) ∧
      (∀ (c : CopyId) (q : List CopyId) (x : Copy) (y : Transit), s.waiting = .delivery :: rest → s.fifo.length < 31 →
        s.ringFill < s.ringSize → s.queue 0 = c :: q → s.copy? c = some x → s.transit? x.transit = some y →
        ∃ t, exec .fifoEntryJoin s = .next t ∧ t.frame = s.frame ∧ KeepsLines s t ∧ t.transits = s.transits ∧
          Posts s t [.delivery] [] ∧ t.copy? c = some { x with state := .delivering } ∧
          (∃ es ws, Appends { s with waiting := rest } t
            (.recordWrite (s.writeIndex.toNat % s.ringSize) (s.deliveryRecord c x y) ::
              .indexWrite (s.writeIndex + 1) :: es) ws) ∧
          ∃ (cs : List CopyId) (k : Nat), t.awaiting = s.awaiting ++ numberFrom s.writeIndex (c :: cs) ∧
            t.writeIndex = s.writeIndex + BitVec.ofNat 16 (cs.length + 1) ∧ t.queue 0 = q.drop k ∧
            (∀ d ∈ cs, d ∈ q) ∧ ∀ d, d ≠ c → d ∉ cs → t.copy? d = s.copy? d) ∧
      (s.waiting = .loadPass :: rest → s.fifo.length < 32 → s.loadDecided < 144 →
        (rest = [] ∨ ∃ w ∈ rest, w ≠ .delivery) → .loadPass ∉ rest →
        let j := if rest = [] then min (32 - s.fifo.length) (144 - s.loadDecided) else 1
        exec .fifoEntryJoin s = .next { s with
          fifo := s.fifo ++ (List.range j).map (fun i => .tableRead (s.loadDecided + i))
          loadDecided := s.loadDecided + j
          waiting := if s.loadDecided + j < 144 then rest ++ [.loadPass] else rest })

/-! ## The laws of the device -/

/-- The laws hold at power-on reset, whose values are the model's choice where the manual leaves them open (DESIGN CHOICE, log
entries 1 to 3). -/
def Obligations.LawsHoldAtReset : Prop :=
  State.reset.memoryLaw ∧ State.reset.interruptLaw ∧ State.reset.fifoLaw ∧ State.reset.ringLaw ∧
    State.reset.recentLaw ∧ State.reset.numbersLaw ∧ State.reset.degradedLaw ∧ State.reset.poolLaw ∧ State.reset.clockLaw ∧
    State.reset.blockLaw ∧ State.reset.LineLaws ∧ State.reset.CopyLaws ∧ State.reset.StoreLaw

/-- Every step keeps the canonical form of the message store and the shadow, which is the model's own (log entry 1); and it keeps the law of the Table Shadow, that
every loaded word of it equals memory's word in every office state, with the laws of the FIFO and the pool's blocks on which
that rests (R152). -/
def Obligations.StepKeepsMemoryLaw : Prop :=
  (∀ s t : State, s.memoryLaw → step s = .next t → t.memoryLaw) ∧
    ∀ s t : State, s.memoryLaw → s.poolLaw → s.ringLaw → s.StoreLaw → step s = .next t → t.StoreLaw

/-- Every step keeps the interrupt law: the output is asserted exactly when some class is both pending and enabled
(R177). -/
def Obligations.StepKeepsInterruptLaw : Prop :=
  ∀ s t : State, s.interruptLaw → step s = .next t → t.interruptLaw

/-- Every step keeps the FIFO within its 32 entries (R170, R171). -/
def Obligations.StepKeepsFifoLaw : Prop :=
  ∀ s t : State, s.fifoLaw → step s = .next t → t.fifoLaw

/-- Every step keeps the law of the Delivery Ring, that the write index less the read index never passes the ring size,
together with the count of the load pass's reads that it rests on (R114, R154). -/
def Obligations.StepKeepsRingLaw : Prop :=
  ∀ s t : State, s.ringLaw → step s = .next t → t.ringLaw

/-- Every step keeps expected-in numbers UNKNOWN or 1 to 999, and next-out, check and received channel numbers 1 to 999
(R124); and it keeps the Recent-Origin List within 64 pairs, no two alike (R46). -/
def Obligations.StepKeepsNumbersAndRecentLaw : Prop :=
  ∀ s t : State, s.numbersLaw → s.recentLaw → step s = .next t → t.numbersLaw ∧ t.recentLaw

/-- Every step keeps DEGRADED equal to whether an error counter is above its threshold, and the counters within 65,535
(R132, R133). -/
def Obligations.StepKeepsDegradedLaw : Prop :=
  ∀ s t : State, s.degradedLaw → step s = .next t → t.degradedLaw

/-- Every step keeps a good pool in force exactly while the office is RUNNING, and office time and the divider in their
ranges (R156, R166, R184); and it keeps the law that the free blocks and the blocks chained to transits are together the
block count in force (R18).  An allocation takes the head of the free-block chain, none when no block is free: the next
block becomes the head, head and tail are absent once the chain is empty, the count goes down by one, and the block stands
at the end of the transit's chain; behind an earlier block the link table leads to it and its link-word write is decided
(R16, R17).  A release puts a whole chain behind the tail of the free-block chain and writes no link to memory (R18). -/
def Obligations.StepKeepsPoolAndClockLaw : Prop :=
  (∀ s t : State, s.poolLaw → s.clockLaw → step s = .next t → t.poolLaw ∧ t.clockLaw) ∧
    (∀ s t : State, s.poolLaw → s.ringLaw → s.blockLaw → step s = .next t → t.blockLaw) ∧
    (∀ (s : State) (t : TransitId), s.freeHead = none ∨ s.freeCount = 0 → allocateBlock t s = none) ∧
    (∀ (s : State) (t : TransitId) (r : Transit) (b : Nat), s.transit? t = some r → s.freeHead = some b →
      s.freeCount ≠ 0 → ∃ s', allocateBlock t s = some (b, s') ∧ s'.freeCount = s.freeCount - 1 ∧
        (if s.freeCount = 1 then s'.freeHead = none ∧ s'.freeTail = none
          else s'.freeHead = s.nextBlock b ∧ s'.freeTail = s.freeTail) ∧
        (r.last = none → s'.transit? t = some { r with first := some b, last := some b, blocks := 1 } ∧
          s'.nextBlock b = none ∧ ∀ k, k ≠ b → s'.nextBlock k = s.nextBlock k) ∧
        ∀ l, r.last = some l → l ≠ b → l < s.links.length →
          s'.transit? t = some { r with last := some b, blocks := r.blocks + 1 } ∧
            s'.nextBlock l = some b ∧ s'.nextBlock b = none ∧ (∀ k, k ≠ b → k ≠ l → s'.nextBlock k = s.nextBlock k) ∧
            Decides s s' (.linkWrite (s.blockAddress l) (s.blockAddress b))) ∧
    ∀ (s : State) (t : TransitId) (r : Transit) (f l : Nat), s.transit? t = some r → r.first = some f → r.last = some l →
      (∀ e, s.freeTail = some e → e < s.links.length) →
      let s' := freeTransit t s
      s'.transit? t = none ∧ s'.freeCount = s.freeCount + r.blocks ∧ s'.freeTail = some l ∧
        s'.freeHead = (match s.freeHead with | some h => some h | none => some f) ∧
        (∀ k, s'.nextBlock k = if s.freeTail = some k then some f else s.nextBlock k) ∧ OnlyStateWrites s s'

/-- No command but the memory port's own writes changes a byte of a blocked area or of the pool in force (R168). -/
def Obligations.OnlyOwnWritesReachBlockedBytes : Prop :=
  ∀ (i : Instr) (s t : State) (a : Nat), s.memoryLaw → s.poolLaw → s.treatment a = .blocked →
    i ≠ .textBlockWriteDone → i ≠ .ownWriteCarriedOut → exec i s = .next t → t.mem.read a = s.mem.read a

/-! ## Queues, sequence, ranks and addressees -/

/-- A copy put into a line queue goes behind the copies of its own rank, or, returning after a cut or a stall, ahead of
them; a queue whose ranks never decrease from head to tail stays so, and holds the same copies with the new one (R8).  A
copy placed without a QUEUED copy of its transit in the queue becomes QUEUED there, with no outgoing number; with one, that
one takes the merged values, moves to the place of the arrival and is tested for overdue, and the arriving entry is to be freed
by the event that placed it (R6, R8, R10, R19, R87); of the merged values the list of second-route addressees, for which R10's
table has no field, is the model's choice (DESIGN CHOICE, log entry 24), and so is that the entry is freed at the end of that
event and not in the placement (DESIGN CHOICE, log entry 14); then a rank 0 copy on a circuit makes the cut test and queue 0 is looked
at (R104, R112).  Each copy entry freed, one alone or several as one event, lowers its transit's pending-copy count by one, and
at 0 the transit is freed (R3, R4, R7).  Every step keeps the laws
of the device on copies: of their places, a SENDING copy in a sending position among them, their order, their transits, of which
none came from the circuit that its copy waits for or is sent on, and their number, together with the laws of transmitters and
of the command in flight on which they rest (R3, R6, R8, R9, R10, R106). -/
def Obligations.InsertCopyKeepsRankOrder : Prop :=
  (∀ (s : State) (atHead : Bool) (q : List CopyId) (c : CopyId), q.Pairwise (fun x y => s.rankOf x ≤ s.rankOf y) →
    (s.insertCopy atHead q c (s.rankOf c)).Pairwise (fun x y => s.rankOf x ≤ s.rankOf y) ∧
      ∃ before after, q = before ++ after ∧ s.insertCopy atHead q c (s.rankOf c) = before ++ c :: after ∧
        (∀ x ∈ before, if atHead then s.rankOf x < s.rankOf c else s.rankOf x ≤ s.rankOf c) ∧
        (∀ x ∈ after, if atHead then s.rankOf c ≤ s.rankOf x else s.rankOf c < s.rankOf x)) ∧
    (∀ (s : State) (n : Line) (c : CopyId) (x : Copy) (atHead : Bool), s.copy? c = some x → s.queuedTwin n c = none →
      ∃ m : State, placeInQueue n c atHead s =
          { state := queueChanged n (if n = 0 then deliver m else if x.rank = 0 then cutTest n m else m), merged := [] } ∧
        m.copy? c = some { x with state := .queued, line := some n, outNumber := none } ∧
        m.queue n = s.insertCopy atHead (s.queue n) c x.rank ∧
        (∀ d, d ≠ c → m.copy? d = s.copy? d) ∧ (∀ k, k ≠ n → m.queue k = s.queue k) ∧ m.transits = s.transits) ∧
    (∀ (s : State) (n : Line) (c d : CopyId) (x y : Copy) (t : Transit) (atHead : Bool), s.copy? c = some x →
      s.queuedTwin n c = some d → s.copy? d = some y → s.transit? y.transit = some t →
      let subset := t.resolved.filter (fun a => y.subset.contains a || x.subset.contains a)
      let z : Copy := { y with
        subset := subset
        seconds := uniteSeconds subset y x
        rank := min y.rank x.rank
        dual := false
        pinned := y.pinned || x.pinned
        sendLength := s.sendLengthOn n t subset
        queuedTime := if s.since x.queuedTime ≤ s.since y.queuedTime then y.queuedTime else x.queuedTime
        overdue := y.overdue || x.overdue
        resend := max y.resend x.resend }
      ∃ m : State, placeInQueue n c atHead s =
          { state := queueChanged n (if n = 0 then deliver m else if z.rank = 0 then cutTest n m else m), merged := [c] } ∧
        m.copy? d = some { z with overdue := z.overdue || s.overdueDue z } ∧
        m.queue n = (s.setCopy d (some z)).insertCopy atHead ((s.queue n).filter (fun e => e != d)) d z.rank ∧
        (∀ e, e ≠ d → m.copy? e = s.copy? e) ∧ (∀ k, k ≠ n → m.queue k = s.queue k) ∧ m.transits = s.transits) ∧
    (∀ (s : State) (c : CopyId) (x : Copy) (r : Transit), s.copy? c = some x → s.transit? x.transit = some r →
      r.state = .inTransit →
      (freeCopy c s).copy? c = none ∧ (∀ d, d ≠ c → (freeCopy c s).copy? d = s.copy? d) ∧
        (freeCopy c s).transit? x.transit =
          (if r.pendingCopies ≤ 1 then none else some { r with pendingCopies := r.pendingCopies - 1 }) ∧
        ∀ t, t ≠ x.transit → (freeCopy c s).transit? t = s.transit? t) ∧
    (∀ (s : State) (cs : List CopyId),
      (∀ c, (freeAll cs s).copy? c = if c ∈ cs then none else s.copy? c) ∧
        ∀ (id : TransitId) (r : Transit), s.transit? id = some r → r.state = .inTransit → 0 < r.pendingCopies →
          let k := (List.finRange 768).countP (fun c => cs.contains c && (s.copy? c).any (fun x => x.transit == id))
          (freeAll cs s).transit? id =
            if r.pendingCopies ≤ k then none else some { r with pendingCopies := r.pendingCopies - k }) ∧
    ∀ s t : State, s.ringLaw → s.LineLaws → s.CopyLaws → step s = .next t → t.LineLaws ∧ t.CopyLaws

/-- The channel sequence check: an expected number is in order, the d numbers after it up to the gap window are a gap of
d, the w numbers before it a repeat, and any other is out of range; with no expected number nothing is checked (R45). -/
def Obligations.SequenceCasesByDistance : Prop :=
  ∀ (e g w d : Nat), isChannel e → 1 ≤ g → g ≤ 99 → 1 ≤ w → w ≤ 99 → d < 999 →
    let n := (e - 1 + d) % 999 + 1
    sequenceCase none n g w = .unchecked ∧
      sequenceCase (some e) n g w =
        (if d = 0 then .inOrder else if d ≤ g then .gap d else if 999 - w ≤ d then .repeated else .outOfRange)

/-- The effective rank of an addressee (R66): an action addressee takes the message rank, an information addressee the
larger of it and 2, so that rank 0 means an action addressee of an Emergency message, and only such a one is given a second
route; a copy that gathers addressees takes the smallest of their ranks, and the local copy of a plan, which the addressees
routed to line 0 join, the message rank. -/
def Obligations.EffectiveRankOfAddressees : Prop :=
  (∀ r : Rank, effectiveRank r true = r ∧ (effectiveRank r false).val = max r.val 2) ∧
    (∀ (r : Rank) (a : Bool), effectiveRank r a = 0 ↔ r = 0 ∧ a = true) ∧
    (∀ (ps : List Placement) (d : Dest), (∃ p ∈ ps, p.dest = d) →
      (∃ p ∈ ps, p.dest = d ∧ p.rank = (gatherAt ps d).rank) ∧ ∀ p ∈ ps, p.dest = d → (gatherAt ps d).rank ≤ p.rank) ∧
    (∀ (s : State) (t : TransitId) (tr : Transit) (excluded twins : List Line) (plan : Bool) (a : Addressee),
      ∀ p ∈ s.placeAddressee t tr excluded twins plan a,
        p.rank = effectiveRank tr.messageRank a.action ∧ (p.second = true → a.action = true ∧ tr.messageRank = 0)) ∧
    ∀ (s : State) (t : TransitId) (tr : Transit) (g : PlanItem), g ∈ s.copyPlan t tr → g.dest = .localPosition →
      g.rank = tr.messageRank ∧
        g.subset = ((tr.resolved.flatMap (s.placeAddressee t tr [] [] true)).filter (fun p =>
          decide (p.dest = .localPosition))).map Placement.who

/-- The backlog of a circuit (R75) is Q times p over 1,000 rounded up to a whole number, formed exactly and taken as 65,535
above that; p is the entry's character period brought within 100 to 20,000, and Q = 0 gives 0. -/
def Obligations.BacklogRoundsUp : Prop :=
  ∀ (s : State) (n : Line) (t : TransitId) (r : Rank),
    let q := s.charactersAhead n t r
    let p := characterPeriod (s.entry n)
    p = max 100 (min 20000 (entryPair (s.entry n) 8)) ∧ s.backlog n t r ≤ 65535 ∧ (q = 0 → s.backlog n t r = 0) ∧
      (q * p ≤ 65535000 → q * p ≤ 1000 * s.backlog n t r ∧ 1000 * s.backlog n t r < q * p + 1000) ∧
      (65535000 < q * p → s.backlog n t r = 65535)

/-- The resolver's lists: at most 24 tokens, at most 48 resolved addressees, each target once, and every reason that
reception had set still set (R54, R57, R62, R64). -/
def Obligations.ResolverListsAreBounded : Prop :=
  ∀ (s : State) (source : Line) (address : List OfficeChar) (reasons : Reasons),
    let x := s.resolve source address reasons
    x.tokens.length ≤ 24 ∧ x.resolved.length ≤ 48 ∧ (x.resolved.map Addressee.target).Nodup ∧
      (∀ y : Reason, reasons.has y = true → x.reasons.has y = true) ∧
      (x.localOnly = true ↔ x.resolved = []) ∧
      (x.resolved = [] → x.reasons.has .addressed = true ∨ x.reasons.has .addressFault = true)
end

