-- ==== Sys2Proof/Laws/State.lean ====
section
/-! SUPPORT. What each basic update of the state does to each field: one lemma a field and update, true by unfolding. -/
namespace Sys2Proof.Machine.State

/-! ## forward -/

@[simp] theorem forward_pending (s : State) (a : Nat) (v : Word) (be : ByteEnables) :
    (s.forward a v be).pending = s.pending := rfl
@[simp] theorem forward_windowK (s : State) (a : Nat) (v : Word) (be : ByteEnables) :
    (s.forward a v be).windowK = s.windowK := rfl
@[simp] theorem forward_mem (s : State) (a : Nat) (v : Word) (be : ByteEnables) :
    (s.forward a v be).mem = s.mem.writeMasked a v be := rfl
@[simp] theorem forward_fifo (s : State) (a : Nat) (v : Word) (be : ByteEnables) :
    (s.forward a v be).fifo = s.fifo := rfl
@[simp] theorem forward_waiting (s : State) (a : Nat) (v : Word) (be : ByteEnables) :
    (s.forward a v be).waiting = s.waiting := rfl
@[simp] theorem forward_readData (s : State) (a : Nat) (v : Word) (be : ByteEnables) :
    (s.forward a v be).readData = s.readData := rfl
@[simp] theorem forward_officeState (s : State) (a : Nat) (v : Word) (be : ByteEnables) :
    (s.forward a v be).officeState = s.officeState := rfl
@[simp] theorem forward_shadow (s : State) (a : Nat) (v : Word) (be : ByteEnables) :
    (s.forward a v be).shadow = s.shadow := rfl
@[simp] theorem forward_loadDecided (s : State) (a : Nat) (v : Word) (be : ByteEnables) :
    (s.forward a v be).loadDecided = s.loadDecided := rfl
@[simp] theorem forward_loadDone (s : State) (a : Nat) (v : Word) (be : ByteEnables) :
    (s.forward a v be).loadDone = s.loadDone := rfl
@[simp] theorem forward_pool (s : State) (a : Nat) (v : Word) (be : ByteEnables) :
    (s.forward a v be).pool = s.pool := rfl
@[simp] theorem forward_ringSize (s : State) (a : Nat) (v : Word) (be : ByteEnables) :
    (s.forward a v be).ringSize = s.ringSize := rfl
@[simp] theorem forward_poolDiffers (s : State) (a : Nat) (v : Word) (be : ByteEnables) :
    (s.forward a v be).poolDiffers = s.poolDiffers := rfl
@[simp] theorem forward_transits (s : State) (a : Nat) (v : Word) (be : ByteEnables) :
    (s.forward a v be).transits = s.transits := rfl
@[simp] theorem forward_copies (s : State) (a : Nat) (v : Word) (be : ByteEnables) :
    (s.forward a v be).copies = s.copies := rfl
@[simp] theorem forward_lines (s : State) (a : Nat) (v : Word) (be : ByteEnables) :
    (s.forward a v be).lines = s.lines := rfl
@[simp] theorem forward_holdList (s : State) (a : Nat) (v : Word) (be : ByteEnables) :
    (s.forward a v be).holdList = s.holdList := rfl
@[simp] theorem forward_waitList (s : State) (a : Nat) (v : Word) (be : ByteEnables) :
    (s.forward a v be).waitList = s.waitList := rfl
@[simp] theorem forward_awaiting (s : State) (a : Nat) (v : Word) (be : ByteEnables) :
    (s.forward a v be).awaiting = s.awaiting := rfl
@[simp] theorem forward_links (s : State) (a : Nat) (v : Word) (be : ByteEnables) :
    (s.forward a v be).links = s.links := rfl
@[simp] theorem forward_freeHead (s : State) (a : Nat) (v : Word) (be : ByteEnables) :
    (s.forward a v be).freeHead = s.freeHead := rfl
@[simp] theorem forward_freeTail (s : State) (a : Nat) (v : Word) (be : ByteEnables) :
    (s.forward a v be).freeTail = s.freeTail := rfl
@[simp] theorem forward_freeCount (s : State) (a : Nat) (v : Word) (be : ByteEnables) :
    (s.forward a v be).freeCount = s.freeCount := rfl
@[simp] theorem forward_recent (s : State) (a : Nat) (v : Word) (be : ByteEnables) :
    (s.forward a v be).recent = s.recent := rfl
@[simp] theorem forward_submitCopy (s : State) (a : Nat) (v : Word) (be : ByteEnables) :
    (s.forward a v be).submitCopy = s.submitCopy := rfl
@[simp] theorem forward_writeIndex (s : State) (a : Nat) (v : Word) (be : ByteEnables) :
    (s.forward a v be).writeIndex = s.writeIndex := rfl
@[simp] theorem forward_readIndex (s : State) (a : Nat) (v : Word) (be : ByteEnables) :
    (s.forward a v be).readIndex = s.readIndex := rfl
@[simp] theorem forward_counts (s : State) (a : Nat) (v : Word) (be : ByteEnables) :
    (s.forward a v be).counts = s.counts := rfl
@[simp] theorem forward_events (s : State) (a : Nat) (v : Word) (be : ByteEnables) :
    (s.forward a v be).events = s.events := rfl
@[simp] theorem forward_enableWord (s : State) (a : Nat) (v : Word) (be : ByteEnables) :
    (s.forward a v be).enableWord = s.enableWord := rfl
@[simp] theorem forward_informOnly (s : State) (a : Nat) (v : Word) (be : ByteEnables) :
    (s.forward a v be).informOnly = s.informOnly := rfl
@[simp] theorem forward_interrupt (s : State) (a : Nat) (v : Word) (be : ByteEnables) :
    (s.forward a v be).interrupt = s.interrupt := rfl
@[simp] theorem forward_commandWord (s : State) (a : Nat) (v : Word) (be : ByteEnables) :
    (s.forward a v be).commandWord = s.commandWord := rfl
@[simp] theorem forward_argA (s : State) (a : Nat) (v : Word) (be : ByteEnables) :
    (s.forward a v be).argA = s.argA := rfl
@[simp] theorem forward_argB (s : State) (a : Nat) (v : Word) (be : ByteEnables) :
    (s.forward a v be).argB = s.argB := rfl
@[simp] theorem forward_argC (s : State) (a : Nat) (v : Word) (be : ByteEnables) :
    (s.forward a v be).argC = s.argC := rfl
@[simp] theorem forward_inFlight (s : State) (a : Nat) (v : Word) (be : ByteEnables) :
    (s.forward a v be).inFlight = s.inFlight := rfl
@[simp] theorem forward_lastAnswer (s : State) (a : Nat) (v : Word) (be : ByteEnables) :
    (s.forward a v be).lastAnswer = s.lastAnswer := rfl
@[simp] theorem forward_divider (s : State) (a : Nat) (v : Word) (be : ByteEnables) :
    (s.forward a v be).divider = s.divider := rfl
@[simp] theorem forward_officeTime (s : State) (a : Nat) (v : Word) (be : ByteEnables) :
    (s.forward a v be).officeTime = s.officeTime := rfl
@[simp] theorem forward_clock (s : State) (a : Nat) (v : Word) (be : ByteEnables) :
    (s.forward a v be).clock = s.clock := rfl
@[simp] theorem forward_choices (s : State) (a : Nat) (v : Word) (be : ByteEnables) :
    (s.forward a v be).choices = s.choices := rfl

/-! ## pushEntry -/

@[simp] theorem pushEntry_pending (s : State) (e : FifoEntry) : (s.pushEntry e).pending = s.pending := rfl
@[simp] theorem pushEntry_windowK (s : State) (e : FifoEntry) : (s.pushEntry e).windowK = s.windowK := rfl
@[simp] theorem pushEntry_mem (s : State) (e : FifoEntry) : (s.pushEntry e).mem = s.mem := rfl
@[simp] theorem pushEntry_fifo (s : State) (e : FifoEntry) : (s.pushEntry e).fifo = s.fifo ++ [e] := rfl
@[simp] theorem pushEntry_waiting (s : State) (e : FifoEntry) : (s.pushEntry e).waiting = s.waiting := rfl
@[simp] theorem pushEntry_readData (s : State) (e : FifoEntry) : (s.pushEntry e).readData = s.readData := rfl
@[simp] theorem pushEntry_officeState (s : State) (e : FifoEntry) : (s.pushEntry e).officeState = s.officeState := rfl
@[simp] theorem pushEntry_shadow (s : State) (e : FifoEntry) : (s.pushEntry e).shadow = s.shadow := rfl
@[simp] theorem pushEntry_loadDecided (s : State) (e : FifoEntry) : (s.pushEntry e).loadDecided = s.loadDecided := rfl
@[simp] theorem pushEntry_loadDone (s : State) (e : FifoEntry) : (s.pushEntry e).loadDone = s.loadDone := rfl
@[simp] theorem pushEntry_pool (s : State) (e : FifoEntry) : (s.pushEntry e).pool = s.pool := rfl
@[simp] theorem pushEntry_ringSize (s : State) (e : FifoEntry) : (s.pushEntry e).ringSize = s.ringSize := rfl
@[simp] theorem pushEntry_poolDiffers (s : State) (e : FifoEntry) : (s.pushEntry e).poolDiffers = s.poolDiffers := rfl
@[simp] theorem pushEntry_transits (s : State) (e : FifoEntry) : (s.pushEntry e).transits = s.transits := rfl
@[simp] theorem pushEntry_copies (s : State) (e : FifoEntry) : (s.pushEntry e).copies = s.copies := rfl
@[simp] theorem pushEntry_lines (s : State) (e : FifoEntry) : (s.pushEntry e).lines = s.lines := rfl
@[simp] theorem pushEntry_holdList (s : State) (e : FifoEntry) : (s.pushEntry e).holdList = s.holdList := rfl
@[simp] theorem pushEntry_waitList (s : State) (e : FifoEntry) : (s.pushEntry e).waitList = s.waitList := rfl
@[simp] theorem pushEntry_awaiting (s : State) (e : FifoEntry) : (s.pushEntry e).awaiting = s.awaiting := rfl
@[simp] theorem pushEntry_links (s : State) (e : FifoEntry) : (s.pushEntry e).links = s.links := rfl
@[simp] theorem pushEntry_freeHead (s : State) (e : FifoEntry) : (s.pushEntry e).freeHead = s.freeHead := rfl
@[simp] theorem pushEntry_freeTail (s : State) (e : FifoEntry) : (s.pushEntry e).freeTail = s.freeTail := rfl
@[simp] theorem pushEntry_freeCount (s : State) (e : FifoEntry) : (s.pushEntry e).freeCount = s.freeCount := rfl
@[simp] theorem pushEntry_recent (s : State) (e : FifoEntry) : (s.pushEntry e).recent = s.recent := rfl
@[simp] theorem pushEntry_submitCopy (s : State) (e : FifoEntry) : (s.pushEntry e).submitCopy = s.submitCopy := rfl
@[simp] theorem pushEntry_writeIndex (s : State) (e : FifoEntry) : (s.pushEntry e).writeIndex = s.writeIndex := rfl
@[simp] theorem pushEntry_readIndex (s : State) (e : FifoEntry) : (s.pushEntry e).readIndex = s.readIndex := rfl
@[simp] theorem pushEntry_counts (s : State) (e : FifoEntry) : (s.pushEntry e).counts = s.counts := rfl
@[simp] theorem pushEntry_events (s : State) (e : FifoEntry) : (s.pushEntry e).events = s.events := rfl
@[simp] theorem pushEntry_enableWord (s : State) (e : FifoEntry) : (s.pushEntry e).enableWord = s.enableWord := rfl
@[simp] theorem pushEntry_informOnly (s : State) (e : FifoEntry) : (s.pushEntry e).informOnly = s.informOnly := rfl
@[simp] theorem pushEntry_interrupt (s : State) (e : FifoEntry) : (s.pushEntry e).interrupt = s.interrupt := rfl
@[simp] theorem pushEntry_commandWord (s : State) (e : FifoEntry) : (s.pushEntry e).commandWord = s.commandWord := rfl
@[simp] theorem pushEntry_argA (s : State) (e : FifoEntry) : (s.pushEntry e).argA = s.argA := rfl
@[simp] theorem pushEntry_argB (s : State) (e : FifoEntry) : (s.pushEntry e).argB = s.argB := rfl
@[simp] theorem pushEntry_argC (s : State) (e : FifoEntry) : (s.pushEntry e).argC = s.argC := rfl
@[simp] theorem pushEntry_inFlight (s : State) (e : FifoEntry) : (s.pushEntry e).inFlight = s.inFlight := rfl
@[simp] theorem pushEntry_lastAnswer (s : State) (e : FifoEntry) : (s.pushEntry e).lastAnswer = s.lastAnswer := rfl
@[simp] theorem pushEntry_divider (s : State) (e : FifoEntry) : (s.pushEntry e).divider = s.divider := rfl
@[simp] theorem pushEntry_officeTime (s : State) (e : FifoEntry) : (s.pushEntry e).officeTime = s.officeTime := rfl
@[simp] theorem pushEntry_clock (s : State) (e : FifoEntry) : (s.pushEntry e).clock = s.clock := rfl
@[simp] theorem pushEntry_choices (s : State) (e : FifoEntry) : (s.pushEntry e).choices = s.choices := rfl

/-! ## wait -/

@[simp] theorem wait_pending (s : State) (w : Waiter) : (s.wait w).pending = s.pending := rfl
@[simp] theorem wait_windowK (s : State) (w : Waiter) : (s.wait w).windowK = s.windowK := rfl
@[simp] theorem wait_mem (s : State) (w : Waiter) : (s.wait w).mem = s.mem := rfl
@[simp] theorem wait_fifo (s : State) (w : Waiter) : (s.wait w).fifo = s.fifo := rfl
@[simp] theorem wait_waiting (s : State) (w : Waiter) : (s.wait w).waiting = s.waiting ++ [w] := rfl
@[simp] theorem wait_readData (s : State) (w : Waiter) : (s.wait w).readData = s.readData := rfl
@[simp] theorem wait_officeState (s : State) (w : Waiter) : (s.wait w).officeState = s.officeState := rfl
@[simp] theorem wait_shadow (s : State) (w : Waiter) : (s.wait w).shadow = s.shadow := rfl
@[simp] theorem wait_loadDecided (s : State) (w : Waiter) : (s.wait w).loadDecided = s.loadDecided := rfl
@[simp] theorem wait_loadDone (s : State) (w : Waiter) : (s.wait w).loadDone = s.loadDone := rfl
@[simp] theorem wait_pool (s : State) (w : Waiter) : (s.wait w).pool = s.pool := rfl
@[simp] theorem wait_ringSize (s : State) (w : Waiter) : (s.wait w).ringSize = s.ringSize := rfl
@[simp] theorem wait_poolDiffers (s : State) (w : Waiter) : (s.wait w).poolDiffers = s.poolDiffers := rfl
@[simp] theorem wait_transits (s : State) (w : Waiter) : (s.wait w).transits = s.transits := rfl
@[simp] theorem wait_copies (s : State) (w : Waiter) : (s.wait w).copies = s.copies := rfl
@[simp] theorem wait_lines (s : State) (w : Waiter) : (s.wait w).lines = s.lines := rfl
@[simp] theorem wait_holdList (s : State) (w : Waiter) : (s.wait w).holdList = s.holdList := rfl
@[simp] theorem wait_waitList (s : State) (w : Waiter) : (s.wait w).waitList = s.waitList := rfl
@[simp] theorem wait_awaiting (s : State) (w : Waiter) : (s.wait w).awaiting = s.awaiting := rfl
@[simp] theorem wait_links (s : State) (w : Waiter) : (s.wait w).links = s.links := rfl
@[simp] theorem wait_freeHead (s : State) (w : Waiter) : (s.wait w).freeHead = s.freeHead := rfl
@[simp] theorem wait_freeTail (s : State) (w : Waiter) : (s.wait w).freeTail = s.freeTail := rfl
@[simp] theorem wait_freeCount (s : State) (w : Waiter) : (s.wait w).freeCount = s.freeCount := rfl
@[simp] theorem wait_recent (s : State) (w : Waiter) : (s.wait w).recent = s.recent := rfl
@[simp] theorem wait_submitCopy (s : State) (w : Waiter) : (s.wait w).submitCopy = s.submitCopy := rfl
@[simp] theorem wait_writeIndex (s : State) (w : Waiter) : (s.wait w).writeIndex = s.writeIndex := rfl
@[simp] theorem wait_readIndex (s : State) (w : Waiter) : (s.wait w).readIndex = s.readIndex := rfl
@[simp] theorem wait_counts (s : State) (w : Waiter) : (s.wait w).counts = s.counts := rfl
@[simp] theorem wait_events (s : State) (w : Waiter) : (s.wait w).events = s.events := rfl
@[simp] theorem wait_enableWord (s : State) (w : Waiter) : (s.wait w).enableWord = s.enableWord := rfl
@[simp] theorem wait_informOnly (s : State) (w : Waiter) : (s.wait w).informOnly = s.informOnly := rfl
@[simp] theorem wait_interrupt (s : State) (w : Waiter) : (s.wait w).interrupt = s.interrupt := rfl
@[simp] theorem wait_commandWord (s : State) (w : Waiter) : (s.wait w).commandWord = s.commandWord := rfl
@[simp] theorem wait_argA (s : State) (w : Waiter) : (s.wait w).argA = s.argA := rfl
@[simp] theorem wait_argB (s : State) (w : Waiter) : (s.wait w).argB = s.argB := rfl
@[simp] theorem wait_argC (s : State) (w : Waiter) : (s.wait w).argC = s.argC := rfl
@[simp] theorem wait_inFlight (s : State) (w : Waiter) : (s.wait w).inFlight = s.inFlight := rfl
@[simp] theorem wait_lastAnswer (s : State) (w : Waiter) : (s.wait w).lastAnswer = s.lastAnswer := rfl
@[simp] theorem wait_divider (s : State) (w : Waiter) : (s.wait w).divider = s.divider := rfl
@[simp] theorem wait_officeTime (s : State) (w : Waiter) : (s.wait w).officeTime = s.officeTime := rfl
@[simp] theorem wait_clock (s : State) (w : Waiter) : (s.wait w).clock = s.clock := rfl
@[simp] theorem wait_choices (s : State) (w : Waiter) : (s.wait w).choices = s.choices := rfl

/-! ## setEvents -/

@[simp] theorem setEvents_pending (s : State) (e : BitVec 13) : (s.setEvents e).pending = s.pending := rfl
@[simp] theorem setEvents_windowK (s : State) (e : BitVec 13) : (s.setEvents e).windowK = s.windowK := rfl
@[simp] theorem setEvents_mem (s : State) (e : BitVec 13) : (s.setEvents e).mem = s.mem := rfl
@[simp] theorem setEvents_fifo (s : State) (e : BitVec 13) : (s.setEvents e).fifo = s.fifo := rfl
@[simp] theorem setEvents_waiting (s : State) (e : BitVec 13) : (s.setEvents e).waiting = s.waiting := rfl
@[simp] theorem setEvents_readData (s : State) (e : BitVec 13) : (s.setEvents e).readData = s.readData := rfl
@[simp] theorem setEvents_officeState (s : State) (e : BitVec 13) : (s.setEvents e).officeState = s.officeState := rfl
@[simp] theorem setEvents_shadow (s : State) (e : BitVec 13) : (s.setEvents e).shadow = s.shadow := rfl
@[simp] theorem setEvents_loadDecided (s : State) (e : BitVec 13) : (s.setEvents e).loadDecided = s.loadDecided := rfl
@[simp] theorem setEvents_loadDone (s : State) (e : BitVec 13) : (s.setEvents e).loadDone = s.loadDone := rfl
@[simp] theorem setEvents_pool (s : State) (e : BitVec 13) : (s.setEvents e).pool = s.pool := rfl
@[simp] theorem setEvents_ringSize (s : State) (e : BitVec 13) : (s.setEvents e).ringSize = s.ringSize := rfl
@[simp] theorem setEvents_poolDiffers (s : State) (e : BitVec 13) : (s.setEvents e).poolDiffers = s.poolDiffers := rfl
@[simp] theorem setEvents_transits (s : State) (e : BitVec 13) : (s.setEvents e).transits = s.transits := rfl
@[simp] theorem setEvents_copies (s : State) (e : BitVec 13) : (s.setEvents e).copies = s.copies := rfl
@[simp] theorem setEvents_lines (s : State) (e : BitVec 13) : (s.setEvents e).lines = s.lines := rfl
@[simp] theorem setEvents_holdList (s : State) (e : BitVec 13) : (s.setEvents e).holdList = s.holdList := rfl
@[simp] theorem setEvents_waitList (s : State) (e : BitVec 13) : (s.setEvents e).waitList = s.waitList := rfl
@[simp] theorem setEvents_awaiting (s : State) (e : BitVec 13) : (s.setEvents e).awaiting = s.awaiting := rfl
@[simp] theorem setEvents_links (s : State) (e : BitVec 13) : (s.setEvents e).links = s.links := rfl
@[simp] theorem setEvents_freeHead (s : State) (e : BitVec 13) : (s.setEvents e).freeHead = s.freeHead := rfl
@[simp] theorem setEvents_freeTail (s : State) (e : BitVec 13) : (s.setEvents e).freeTail = s.freeTail := rfl
@[simp] theorem setEvents_freeCount (s : State) (e : BitVec 13) : (s.setEvents e).freeCount = s.freeCount := rfl
@[simp] theorem setEvents_recent (s : State) (e : BitVec 13) : (s.setEvents e).recent = s.recent := rfl
@[simp] theorem setEvents_submitCopy (s : State) (e : BitVec 13) : (s.setEvents e).submitCopy = s.submitCopy := rfl
@[simp] theorem setEvents_writeIndex (s : State) (e : BitVec 13) : (s.setEvents e).writeIndex = s.writeIndex := rfl
@[simp] theorem setEvents_readIndex (s : State) (e : BitVec 13) : (s.setEvents e).readIndex = s.readIndex := rfl
@[simp] theorem setEvents_counts (s : State) (e : BitVec 13) : (s.setEvents e).counts = s.counts := rfl
@[simp] theorem setEvents_events (s : State) (e : BitVec 13) : (s.setEvents e).events = e := rfl
@[simp] theorem setEvents_enableWord (s : State) (e : BitVec 13) : (s.setEvents e).enableWord = s.enableWord := rfl
@[simp] theorem setEvents_informOnly (s : State) (e : BitVec 13) : (s.setEvents e).informOnly = s.informOnly := rfl
@[simp] theorem setEvents_interrupt (s : State) (e : BitVec 13) :
    (s.setEvents e).interrupt = interruptCalled e s.enableWord := rfl
@[simp] theorem setEvents_commandWord (s : State) (e : BitVec 13) : (s.setEvents e).commandWord = s.commandWord := rfl
@[simp] theorem setEvents_argA (s : State) (e : BitVec 13) : (s.setEvents e).argA = s.argA := rfl
@[simp] theorem setEvents_argB (s : State) (e : BitVec 13) : (s.setEvents e).argB = s.argB := rfl
@[simp] theorem setEvents_argC (s : State) (e : BitVec 13) : (s.setEvents e).argC = s.argC := rfl
@[simp] theorem setEvents_inFlight (s : State) (e : BitVec 13) : (s.setEvents e).inFlight = s.inFlight := rfl
@[simp] theorem setEvents_lastAnswer (s : State) (e : BitVec 13) : (s.setEvents e).lastAnswer = s.lastAnswer := rfl
@[simp] theorem setEvents_divider (s : State) (e : BitVec 13) : (s.setEvents e).divider = s.divider := rfl
@[simp] theorem setEvents_officeTime (s : State) (e : BitVec 13) : (s.setEvents e).officeTime = s.officeTime := rfl
@[simp] theorem setEvents_clock (s : State) (e : BitVec 13) : (s.setEvents e).clock = s.clock := rfl
@[simp] theorem setEvents_choices (s : State) (e : BitVec 13) : (s.setEvents e).choices = s.choices := rfl

/-! ## setEnable -/

@[simp] theorem setEnable_pending (s : State) (w : Word) : (s.setEnable w).pending = s.pending := rfl
@[simp] theorem setEnable_windowK (s : State) (w : Word) : (s.setEnable w).windowK = s.windowK := rfl
@[simp] theorem setEnable_mem (s : State) (w : Word) : (s.setEnable w).mem = s.mem := rfl
@[simp] theorem setEnable_fifo (s : State) (w : Word) : (s.setEnable w).fifo = s.fifo := rfl
@[simp] theorem setEnable_waiting (s : State) (w : Word) : (s.setEnable w).waiting = s.waiting := rfl
@[simp] theorem setEnable_readData (s : State) (w : Word) : (s.setEnable w).readData = s.readData := rfl
@[simp] theorem setEnable_officeState (s : State) (w : Word) : (s.setEnable w).officeState = s.officeState := rfl
@[simp] theorem setEnable_shadow (s : State) (w : Word) : (s.setEnable w).shadow = s.shadow := rfl
@[simp] theorem setEnable_loadDecided (s : State) (w : Word) : (s.setEnable w).loadDecided = s.loadDecided := rfl
@[simp] theorem setEnable_loadDone (s : State) (w : Word) : (s.setEnable w).loadDone = s.loadDone := rfl
@[simp] theorem setEnable_pool (s : State) (w : Word) : (s.setEnable w).pool = s.pool := rfl
@[simp] theorem setEnable_ringSize (s : State) (w : Word) : (s.setEnable w).ringSize = s.ringSize := rfl
@[simp] theorem setEnable_poolDiffers (s : State) (w : Word) : (s.setEnable w).poolDiffers = s.poolDiffers := rfl
@[simp] theorem setEnable_transits (s : State) (w : Word) : (s.setEnable w).transits = s.transits := rfl
@[simp] theorem setEnable_copies (s : State) (w : Word) : (s.setEnable w).copies = s.copies := rfl
@[simp] theorem setEnable_lines (s : State) (w : Word) : (s.setEnable w).lines = s.lines := rfl
@[simp] theorem setEnable_holdList (s : State) (w : Word) : (s.setEnable w).holdList = s.holdList := rfl
@[simp] theorem setEnable_waitList (s : State) (w : Word) : (s.setEnable w).waitList = s.waitList := rfl
@[simp] theorem setEnable_awaiting (s : State) (w : Word) : (s.setEnable w).awaiting = s.awaiting := rfl
@[simp] theorem setEnable_links (s : State) (w : Word) : (s.setEnable w).links = s.links := rfl
@[simp] theorem setEnable_freeHead (s : State) (w : Word) : (s.setEnable w).freeHead = s.freeHead := rfl
@[simp] theorem setEnable_freeTail (s : State) (w : Word) : (s.setEnable w).freeTail = s.freeTail := rfl
@[simp] theorem setEnable_freeCount (s : State) (w : Word) : (s.setEnable w).freeCount = s.freeCount := rfl
@[simp] theorem setEnable_recent (s : State) (w : Word) : (s.setEnable w).recent = s.recent := rfl
@[simp] theorem setEnable_submitCopy (s : State) (w : Word) : (s.setEnable w).submitCopy = s.submitCopy := rfl
@[simp] theorem setEnable_writeIndex (s : State) (w : Word) : (s.setEnable w).writeIndex = s.writeIndex := rfl
@[simp] theorem setEnable_readIndex (s : State) (w : Word) : (s.setEnable w).readIndex = s.readIndex := rfl
@[simp] theorem setEnable_counts (s : State) (w : Word) : (s.setEnable w).counts = s.counts := rfl
@[simp] theorem setEnable_events (s : State) (w : Word) : (s.setEnable w).events = s.events := rfl
@[simp] theorem setEnable_enableWord (s : State) (w : Word) : (s.setEnable w).enableWord = w := rfl
@[simp] theorem setEnable_informOnly (s : State) (w : Word) : (s.setEnable w).informOnly = s.informOnly := rfl
@[simp] theorem setEnable_interrupt (s : State) (w : Word) :
    (s.setEnable w).interrupt = interruptCalled s.events w := rfl
@[simp] theorem setEnable_commandWord (s : State) (w : Word) : (s.setEnable w).commandWord = s.commandWord := rfl
@[simp] theorem setEnable_argA (s : State) (w : Word) : (s.setEnable w).argA = s.argA := rfl
@[simp] theorem setEnable_argB (s : State) (w : Word) : (s.setEnable w).argB = s.argB := rfl
@[simp] theorem setEnable_argC (s : State) (w : Word) : (s.setEnable w).argC = s.argC := rfl
@[simp] theorem setEnable_inFlight (s : State) (w : Word) : (s.setEnable w).inFlight = s.inFlight := rfl
@[simp] theorem setEnable_lastAnswer (s : State) (w : Word) : (s.setEnable w).lastAnswer = s.lastAnswer := rfl
@[simp] theorem setEnable_divider (s : State) (w : Word) : (s.setEnable w).divider = s.divider := rfl
@[simp] theorem setEnable_officeTime (s : State) (w : Word) : (s.setEnable w).officeTime = s.officeTime := rfl
@[simp] theorem setEnable_clock (s : State) (w : Word) : (s.setEnable w).clock = s.clock := rfl
@[simp] theorem setEnable_choices (s : State) (w : Word) : (s.setEnable w).choices = s.choices := rfl

/-! ## setTransit -/

@[simp] theorem setTransit_pending (s : State) (t : TransitId) (r : Option Transit) :
    (s.setTransit t r).pending = s.pending := rfl
@[simp] theorem setTransit_windowK (s : State) (t : TransitId) (r : Option Transit) :
    (s.setTransit t r).windowK = s.windowK := rfl
@[simp] theorem setTransit_mem (s : State) (t : TransitId) (r : Option Transit) : (s.setTransit t r).mem = s.mem := rfl
@[simp] theorem setTransit_fifo (s : State) (t : TransitId) (r : Option Transit) :
    (s.setTransit t r).fifo = s.fifo := rfl
@[simp] theorem setTransit_waiting (s : State) (t : TransitId) (r : Option Transit) :
    (s.setTransit t r).waiting = s.waiting := rfl
@[simp] theorem setTransit_readData (s : State) (t : TransitId) (r : Option Transit) :
    (s.setTransit t r).readData = s.readData := rfl
@[simp] theorem setTransit_officeState (s : State) (t : TransitId) (r : Option Transit) :
    (s.setTransit t r).officeState = s.officeState := rfl
@[simp] theorem setTransit_shadow (s : State) (t : TransitId) (r : Option Transit) :
    (s.setTransit t r).shadow = s.shadow := rfl
@[simp] theorem setTransit_loadDecided (s : State) (t : TransitId) (r : Option Transit) :
    (s.setTransit t r).loadDecided = s.loadDecided := rfl
@[simp] theorem setTransit_loadDone (s : State) (t : TransitId) (r : Option Transit) :
    (s.setTransit t r).loadDone = s.loadDone := rfl
@[simp] theorem setTransit_pool (s : State) (t : TransitId) (r : Option Transit) :
    (s.setTransit t r).pool = s.pool := rfl
@[simp] theorem setTransit_ringSize (s : State) (t : TransitId) (r : Option Transit) :
    (s.setTransit t r).ringSize = s.ringSize := rfl
@[simp] theorem setTransit_poolDiffers (s : State) (t : TransitId) (r : Option Transit) :
    (s.setTransit t r).poolDiffers = s.poolDiffers := rfl
@[simp] theorem setTransit_transits (s : State) (t : TransitId) (r : Option Transit) :
    (s.setTransit t r).transits = s.transits.set t.val r t.isLt := rfl
@[simp] theorem setTransit_copies (s : State) (t : TransitId) (r : Option Transit) :
    (s.setTransit t r).copies = s.copies := rfl
@[simp] theorem setTransit_lines (s : State) (t : TransitId) (r : Option Transit) :
    (s.setTransit t r).lines = s.lines := rfl
@[simp] theorem setTransit_holdList (s : State) (t : TransitId) (r : Option Transit) :
    (s.setTransit t r).holdList = s.holdList := rfl
@[simp] theorem setTransit_waitList (s : State) (t : TransitId) (r : Option Transit) :
    (s.setTransit t r).waitList = s.waitList := rfl
@[simp] theorem setTransit_awaiting (s : State) (t : TransitId) (r : Option Transit) :
    (s.setTransit t r).awaiting = s.awaiting := rfl
@[simp] theorem setTransit_links (s : State) (t : TransitId) (r : Option Transit) :
    (s.setTransit t r).links = s.links := rfl
@[simp] theorem setTransit_freeHead (s : State) (t : TransitId) (r : Option Transit) :
    (s.setTransit t r).freeHead = s.freeHead := rfl
@[simp] theorem setTransit_freeTail (s : State) (t : TransitId) (r : Option Transit) :
    (s.setTransit t r).freeTail = s.freeTail := rfl
@[simp] theorem setTransit_freeCount (s : State) (t : TransitId) (r : Option Transit) :
    (s.setTransit t r).freeCount = s.freeCount := rfl
@[simp] theorem setTransit_recent (s : State) (t : TransitId) (r : Option Transit) :
    (s.setTransit t r).recent = s.recent := rfl
@[simp] theorem setTransit_submitCopy (s : State) (t : TransitId) (r : Option Transit) :
    (s.setTransit t r).submitCopy = s.submitCopy := rfl
@[simp] theorem setTransit_writeIndex (s : State) (t : TransitId) (r : Option Transit) :
    (s.setTransit t r).writeIndex = s.writeIndex := rfl
@[simp] theorem setTransit_readIndex (s : State) (t : TransitId) (r : Option Transit) :
    (s.setTransit t r).readIndex = s.readIndex := rfl
@[simp] theorem setTransit_counts (s : State) (t : TransitId) (r : Option Transit) :
    (s.setTransit t r).counts = s.counts := rfl
@[simp] theorem setTransit_events (s : State) (t : TransitId) (r : Option Transit) :
    (s.setTransit t r).events = s.events := rfl
@[simp] theorem setTransit_enableWord (s : State) (t : TransitId) (r : Option Transit) :
    (s.setTransit t r).enableWord = s.enableWord := rfl
@[simp] theorem setTransit_informOnly (s : State) (t : TransitId) (r : Option Transit) :
    (s.setTransit t r).informOnly = s.informOnly := rfl
@[simp] theorem setTransit_interrupt (s : State) (t : TransitId) (r : Option Transit) :
    (s.setTransit t r).interrupt = s.interrupt := rfl
@[simp] theorem setTransit_commandWord (s : State) (t : TransitId) (r : Option Transit) :
    (s.setTransit t r).commandWord = s.commandWord := rfl
@[simp] theorem setTransit_argA (s : State) (t : TransitId) (r : Option Transit) :
    (s.setTransit t r).argA = s.argA := rfl
@[simp] theorem setTransit_argB (s : State) (t : TransitId) (r : Option Transit) :
    (s.setTransit t r).argB = s.argB := rfl
@[simp] theorem setTransit_argC (s : State) (t : TransitId) (r : Option Transit) :
    (s.setTransit t r).argC = s.argC := rfl
@[simp] theorem setTransit_inFlight (s : State) (t : TransitId) (r : Option Transit) :
    (s.setTransit t r).inFlight = s.inFlight := rfl
@[simp] theorem setTransit_lastAnswer (s : State) (t : TransitId) (r : Option Transit) :
    (s.setTransit t r).lastAnswer = s.lastAnswer := rfl
@[simp] theorem setTransit_divider (s : State) (t : TransitId) (r : Option Transit) :
    (s.setTransit t r).divider = s.divider := rfl
@[simp] theorem setTransit_officeTime (s : State) (t : TransitId) (r : Option Transit) :
    (s.setTransit t r).officeTime = s.officeTime := rfl
@[simp] theorem setTransit_clock (s : State) (t : TransitId) (r : Option Transit) :
    (s.setTransit t r).clock = s.clock := rfl
@[simp] theorem setTransit_choices (s : State) (t : TransitId) (r : Option Transit) :
    (s.setTransit t r).choices = s.choices := rfl

/-! ## setCopy -/

@[simp] theorem setCopy_pending (s : State) (c : CopyId) (r : Option Copy) : (s.setCopy c r).pending = s.pending := rfl
@[simp] theorem setCopy_windowK (s : State) (c : CopyId) (r : Option Copy) : (s.setCopy c r).windowK = s.windowK := rfl
@[simp] theorem setCopy_mem (s : State) (c : CopyId) (r : Option Copy) : (s.setCopy c r).mem = s.mem := rfl
@[simp] theorem setCopy_fifo (s : State) (c : CopyId) (r : Option Copy) : (s.setCopy c r).fifo = s.fifo := rfl
@[simp] theorem setCopy_waiting (s : State) (c : CopyId) (r : Option Copy) : (s.setCopy c r).waiting = s.waiting := rfl
@[simp] theorem setCopy_readData (s : State) (c : CopyId) (r : Option Copy) :
    (s.setCopy c r).readData = s.readData := rfl
@[simp] theorem setCopy_officeState (s : State) (c : CopyId) (r : Option Copy) :
    (s.setCopy c r).officeState = s.officeState := rfl
@[simp] theorem setCopy_shadow (s : State) (c : CopyId) (r : Option Copy) : (s.setCopy c r).shadow = s.shadow := rfl
@[simp] theorem setCopy_loadDecided (s : State) (c : CopyId) (r : Option Copy) :
    (s.setCopy c r).loadDecided = s.loadDecided := rfl
@[simp] theorem setCopy_loadDone (s : State) (c : CopyId) (r : Option Copy) :
    (s.setCopy c r).loadDone = s.loadDone := rfl
@[simp] theorem setCopy_pool (s : State) (c : CopyId) (r : Option Copy) : (s.setCopy c r).pool = s.pool := rfl
@[simp] theorem setCopy_ringSize (s : State) (c : CopyId) (r : Option Copy) :
    (s.setCopy c r).ringSize = s.ringSize := rfl
@[simp] theorem setCopy_poolDiffers (s : State) (c : CopyId) (r : Option Copy) :
    (s.setCopy c r).poolDiffers = s.poolDiffers := rfl
@[simp] theorem setCopy_transits (s : State) (c : CopyId) (r : Option Copy) :
    (s.setCopy c r).transits = s.transits := rfl
@[simp] theorem setCopy_copies (s : State) (c : CopyId) (r : Option Copy) :
    (s.setCopy c r).copies = s.copies.set c.val r c.isLt := rfl
@[simp] theorem setCopy_lines (s : State) (c : CopyId) (r : Option Copy) : (s.setCopy c r).lines = s.lines := rfl
@[simp] theorem setCopy_holdList (s : State) (c : CopyId) (r : Option Copy) :
    (s.setCopy c r).holdList = s.holdList := rfl
@[simp] theorem setCopy_waitList (s : State) (c : CopyId) (r : Option Copy) :
    (s.setCopy c r).waitList = s.waitList := rfl
@[simp] theorem setCopy_awaiting (s : State) (c : CopyId) (r : Option Copy) :
    (s.setCopy c r).awaiting = s.awaiting := rfl
@[simp] theorem setCopy_links (s : State) (c : CopyId) (r : Option Copy) : (s.setCopy c r).links = s.links := rfl
@[simp] theorem setCopy_freeHead (s : State) (c : CopyId) (r : Option Copy) :
    (s.setCopy c r).freeHead = s.freeHead := rfl
@[simp] theorem setCopy_freeTail (s : State) (c : CopyId) (r : Option Copy) :
    (s.setCopy c r).freeTail = s.freeTail := rfl
@[simp] theorem setCopy_freeCount (s : State) (c : CopyId) (r : Option Copy) :
    (s.setCopy c r).freeCount = s.freeCount := rfl
@[simp] theorem setCopy_recent (s : State) (c : CopyId) (r : Option Copy) : (s.setCopy c r).recent = s.recent := rfl
@[simp] theorem setCopy_submitCopy (s : State) (c : CopyId) (r : Option Copy) :
    (s.setCopy c r).submitCopy = s.submitCopy := rfl
@[simp] theorem setCopy_writeIndex (s : State) (c : CopyId) (r : Option Copy) :
    (s.setCopy c r).writeIndex = s.writeIndex := rfl
@[simp] theorem setCopy_readIndex (s : State) (c : CopyId) (r : Option Copy) :
    (s.setCopy c r).readIndex = s.readIndex := rfl
@[simp] theorem setCopy_counts (s : State) (c : CopyId) (r : Option Copy) : (s.setCopy c r).counts = s.counts := rfl
@[simp] theorem setCopy_events (s : State) (c : CopyId) (r : Option Copy) : (s.setCopy c r).events = s.events := rfl
@[simp] theorem setCopy_enableWord (s : State) (c : CopyId) (r : Option Copy) :
    (s.setCopy c r).enableWord = s.enableWord := rfl
@[simp] theorem setCopy_informOnly (s : State) (c : CopyId) (r : Option Copy) :
    (s.setCopy c r).informOnly = s.informOnly := rfl
@[simp] theorem setCopy_interrupt (s : State) (c : CopyId) (r : Option Copy) :
    (s.setCopy c r).interrupt = s.interrupt := rfl
@[simp] theorem setCopy_commandWord (s : State) (c : CopyId) (r : Option Copy) :
    (s.setCopy c r).commandWord = s.commandWord := rfl
@[simp] theorem setCopy_argA (s : State) (c : CopyId) (r : Option Copy) : (s.setCopy c r).argA = s.argA := rfl
@[simp] theorem setCopy_argB (s : State) (c : CopyId) (r : Option Copy) : (s.setCopy c r).argB = s.argB := rfl
@[simp] theorem setCopy_argC (s : State) (c : CopyId) (r : Option Copy) : (s.setCopy c r).argC = s.argC := rfl
@[simp] theorem setCopy_inFlight (s : State) (c : CopyId) (r : Option Copy) :
    (s.setCopy c r).inFlight = s.inFlight := rfl
@[simp] theorem setCopy_lastAnswer (s : State) (c : CopyId) (r : Option Copy) :
    (s.setCopy c r).lastAnswer = s.lastAnswer := rfl
@[simp] theorem setCopy_divider (s : State) (c : CopyId) (r : Option Copy) : (s.setCopy c r).divider = s.divider := rfl
@[simp] theorem setCopy_officeTime (s : State) (c : CopyId) (r : Option Copy) :
    (s.setCopy c r).officeTime = s.officeTime := rfl
@[simp] theorem setCopy_clock (s : State) (c : CopyId) (r : Option Copy) : (s.setCopy c r).clock = s.clock := rfl
@[simp] theorem setCopy_choices (s : State) (c : CopyId) (r : Option Copy) : (s.setCopy c r).choices = s.choices := rfl

/-! ## modCounts -/

@[simp] theorem modCounts_pending (s : State) (f : OfficeCounts → OfficeCounts) :
    (s.modCounts f).pending = s.pending := rfl
@[simp] theorem modCounts_windowK (s : State) (f : OfficeCounts → OfficeCounts) :
    (s.modCounts f).windowK = s.windowK := rfl
@[simp] theorem modCounts_mem (s : State) (f : OfficeCounts → OfficeCounts) : (s.modCounts f).mem = s.mem := rfl
@[simp] theorem modCounts_fifo (s : State) (f : OfficeCounts → OfficeCounts) : (s.modCounts f).fifo = s.fifo := rfl
@[simp] theorem modCounts_waiting (s : State) (f : OfficeCounts → OfficeCounts) :
    (s.modCounts f).waiting = s.waiting := rfl
@[simp] theorem modCounts_readData (s : State) (f : OfficeCounts → OfficeCounts) :
    (s.modCounts f).readData = s.readData := rfl
@[simp] theorem modCounts_officeState (s : State) (f : OfficeCounts → OfficeCounts) :
    (s.modCounts f).officeState = s.officeState := rfl
@[simp] theorem modCounts_shadow (s : State) (f : OfficeCounts → OfficeCounts) :
    (s.modCounts f).shadow = s.shadow := rfl
@[simp] theorem modCounts_loadDecided (s : State) (f : OfficeCounts → OfficeCounts) :
    (s.modCounts f).loadDecided = s.loadDecided := rfl
@[simp] theorem modCounts_loadDone (s : State) (f : OfficeCounts → OfficeCounts) :
    (s.modCounts f).loadDone = s.loadDone := rfl
@[simp] theorem modCounts_pool (s : State) (f : OfficeCounts → OfficeCounts) : (s.modCounts f).pool = s.pool := rfl
@[simp] theorem modCounts_ringSize (s : State) (f : OfficeCounts → OfficeCounts) :
    (s.modCounts f).ringSize = s.ringSize := rfl
@[simp] theorem modCounts_poolDiffers (s : State) (f : OfficeCounts → OfficeCounts) :
    (s.modCounts f).poolDiffers = s.poolDiffers := rfl
@[simp] theorem modCounts_transits (s : State) (f : OfficeCounts → OfficeCounts) :
    (s.modCounts f).transits = s.transits := rfl
@[simp] theorem modCounts_copies (s : State) (f : OfficeCounts → OfficeCounts) :
    (s.modCounts f).copies = s.copies := rfl
@[simp] theorem modCounts_lines (s : State) (f : OfficeCounts → OfficeCounts) : (s.modCounts f).lines = s.lines := rfl
@[simp] theorem modCounts_holdList (s : State) (f : OfficeCounts → OfficeCounts) :
    (s.modCounts f).holdList = s.holdList := rfl
@[simp] theorem modCounts_waitList (s : State) (f : OfficeCounts → OfficeCounts) :
    (s.modCounts f).waitList = s.waitList := rfl
@[simp] theorem modCounts_awaiting (s : State) (f : OfficeCounts → OfficeCounts) :
    (s.modCounts f).awaiting = s.awaiting := rfl
@[simp] theorem modCounts_links (s : State) (f : OfficeCounts → OfficeCounts) : (s.modCounts f).links = s.links := rfl
@[simp] theorem modCounts_freeHead (s : State) (f : OfficeCounts → OfficeCounts) :
    (s.modCounts f).freeHead = s.freeHead := rfl
@[simp] theorem modCounts_freeTail (s : State) (f : OfficeCounts → OfficeCounts) :
    (s.modCounts f).freeTail = s.freeTail := rfl
@[simp] theorem modCounts_freeCount (s : State) (f : OfficeCounts → OfficeCounts) :
    (s.modCounts f).freeCount = s.freeCount := rfl
@[simp] theorem modCounts_recent (s : State) (f : OfficeCounts → OfficeCounts) :
    (s.modCounts f).recent = s.recent := rfl
@[simp] theorem modCounts_submitCopy (s : State) (f : OfficeCounts → OfficeCounts) :
    (s.modCounts f).submitCopy = s.submitCopy := rfl
@[simp] theorem modCounts_writeIndex (s : State) (f : OfficeCounts → OfficeCounts) :
    (s.modCounts f).writeIndex = s.writeIndex := rfl
@[simp] theorem modCounts_readIndex (s : State) (f : OfficeCounts → OfficeCounts) :
    (s.modCounts f).readIndex = s.readIndex := rfl
@[simp] theorem modCounts_counts (s : State) (f : OfficeCounts → OfficeCounts) :
    (s.modCounts f).counts = f s.counts := rfl
@[simp] theorem modCounts_events (s : State) (f : OfficeCounts → OfficeCounts) :
    (s.modCounts f).events = s.events := rfl
@[simp] theorem modCounts_enableWord (s : State) (f : OfficeCounts → OfficeCounts) :
    (s.modCounts f).enableWord = s.enableWord := rfl
@[simp] theorem modCounts_informOnly (s : State) (f : OfficeCounts → OfficeCounts) :
    (s.modCounts f).informOnly = s.informOnly := rfl
@[simp] theorem modCounts_interrupt (s : State) (f : OfficeCounts → OfficeCounts) :
    (s.modCounts f).interrupt = s.interrupt := rfl
@[simp] theorem modCounts_commandWord (s : State) (f : OfficeCounts → OfficeCounts) :
    (s.modCounts f).commandWord = s.commandWord := rfl
@[simp] theorem modCounts_argA (s : State) (f : OfficeCounts → OfficeCounts) : (s.modCounts f).argA = s.argA := rfl
@[simp] theorem modCounts_argB (s : State) (f : OfficeCounts → OfficeCounts) : (s.modCounts f).argB = s.argB := rfl
@[simp] theorem modCounts_argC (s : State) (f : OfficeCounts → OfficeCounts) : (s.modCounts f).argC = s.argC := rfl
@[simp] theorem modCounts_inFlight (s : State) (f : OfficeCounts → OfficeCounts) :
    (s.modCounts f).inFlight = s.inFlight := rfl
@[simp] theorem modCounts_lastAnswer (s : State) (f : OfficeCounts → OfficeCounts) :
    (s.modCounts f).lastAnswer = s.lastAnswer := rfl
@[simp] theorem modCounts_divider (s : State) (f : OfficeCounts → OfficeCounts) :
    (s.modCounts f).divider = s.divider := rfl
@[simp] theorem modCounts_officeTime (s : State) (f : OfficeCounts → OfficeCounts) :
    (s.modCounts f).officeTime = s.officeTime := rfl
@[simp] theorem modCounts_clock (s : State) (f : OfficeCounts → OfficeCounts) : (s.modCounts f).clock = s.clock := rfl
@[simp] theorem modCounts_choices (s : State) (f : OfficeCounts → OfficeCounts) :
    (s.modCounts f).choices = s.choices := rfl

/-! ## modLine -/

@[simp] theorem modLine_pending (s : State) (n : Line) (f : LineState → LineState) :
    (s.modLine n f).pending = s.pending := rfl
@[simp] theorem modLine_windowK (s : State) (n : Line) (f : LineState → LineState) :
    (s.modLine n f).windowK = s.windowK := rfl
@[simp] theorem modLine_mem (s : State) (n : Line) (f : LineState → LineState) : (s.modLine n f).mem = s.mem := rfl
@[simp] theorem modLine_fifo (s : State) (n : Line) (f : LineState → LineState) : (s.modLine n f).fifo = s.fifo := rfl
@[simp] theorem modLine_waiting (s : State) (n : Line) (f : LineState → LineState) :
    (s.modLine n f).waiting = s.waiting := rfl
@[simp] theorem modLine_readData (s : State) (n : Line) (f : LineState → LineState) :
    (s.modLine n f).readData = s.readData := rfl
@[simp] theorem modLine_officeState (s : State) (n : Line) (f : LineState → LineState) :
    (s.modLine n f).officeState = s.officeState := rfl
@[simp] theorem modLine_shadow (s : State) (n : Line) (f : LineState → LineState) :
    (s.modLine n f).shadow = s.shadow := rfl
@[simp] theorem modLine_loadDecided (s : State) (n : Line) (f : LineState → LineState) :
    (s.modLine n f).loadDecided = s.loadDecided := rfl
@[simp] theorem modLine_loadDone (s : State) (n : Line) (f : LineState → LineState) :
    (s.modLine n f).loadDone = s.loadDone := rfl
@[simp] theorem modLine_pool (s : State) (n : Line) (f : LineState → LineState) : (s.modLine n f).pool = s.pool := rfl
@[simp] theorem modLine_ringSize (s : State) (n : Line) (f : LineState → LineState) :
    (s.modLine n f).ringSize = s.ringSize := rfl
@[simp] theorem modLine_poolDiffers (s : State) (n : Line) (f : LineState → LineState) :
    (s.modLine n f).poolDiffers = s.poolDiffers := rfl
@[simp] theorem modLine_transits (s : State) (n : Line) (f : LineState → LineState) :
    (s.modLine n f).transits = s.transits := rfl
@[simp] theorem modLine_copies (s : State) (n : Line) (f : LineState → LineState) :
    (s.modLine n f).copies = s.copies := rfl
@[simp] theorem modLine_lines (s : State) (n : Line) (f : LineState → LineState) :
    (s.modLine n f).lines = s.lines.set n.val (f s.lines[n]) n.isLt := rfl
@[simp] theorem modLine_holdList (s : State) (n : Line) (f : LineState → LineState) :
    (s.modLine n f).holdList = s.holdList := rfl
@[simp] theorem modLine_waitList (s : State) (n : Line) (f : LineState → LineState) :
    (s.modLine n f).waitList = s.waitList := rfl
@[simp] theorem modLine_awaiting (s : State) (n : Line) (f : LineState → LineState) :
    (s.modLine n f).awaiting = s.awaiting := rfl
@[simp] theorem modLine_links (s : State) (n : Line) (f : LineState → LineState) :
    (s.modLine n f).links = s.links := rfl
@[simp] theorem modLine_freeHead (s : State) (n : Line) (f : LineState → LineState) :
    (s.modLine n f).freeHead = s.freeHead := rfl
@[simp] theorem modLine_freeTail (s : State) (n : Line) (f : LineState → LineState) :
    (s.modLine n f).freeTail = s.freeTail := rfl
@[simp] theorem modLine_freeCount (s : State) (n : Line) (f : LineState → LineState) :
    (s.modLine n f).freeCount = s.freeCount := rfl
@[simp] theorem modLine_recent (s : State) (n : Line) (f : LineState → LineState) :
    (s.modLine n f).recent = s.recent := rfl
@[simp] theorem modLine_submitCopy (s : State) (n : Line) (f : LineState → LineState) :
    (s.modLine n f).submitCopy = s.submitCopy := rfl
@[simp] theorem modLine_writeIndex (s : State) (n : Line) (f : LineState → LineState) :
    (s.modLine n f).writeIndex = s.writeIndex := rfl
@[simp] theorem modLine_readIndex (s : State) (n : Line) (f : LineState → LineState) :
    (s.modLine n f).readIndex = s.readIndex := rfl
@[simp] theorem modLine_counts (s : State) (n : Line) (f : LineState → LineState) :
    (s.modLine n f).counts = s.counts := rfl
@[simp] theorem modLine_events (s : State) (n : Line) (f : LineState → LineState) :
    (s.modLine n f).events = s.events := rfl
@[simp] theorem modLine_enableWord (s : State) (n : Line) (f : LineState → LineState) :
    (s.modLine n f).enableWord = s.enableWord := rfl
@[simp] theorem modLine_informOnly (s : State) (n : Line) (f : LineState → LineState) :
    (s.modLine n f).informOnly = s.informOnly := rfl
@[simp] theorem modLine_interrupt (s : State) (n : Line) (f : LineState → LineState) :
    (s.modLine n f).interrupt = s.interrupt := rfl
@[simp] theorem modLine_commandWord (s : State) (n : Line) (f : LineState → LineState) :
    (s.modLine n f).commandWord = s.commandWord := rfl
@[simp] theorem modLine_argA (s : State) (n : Line) (f : LineState → LineState) : (s.modLine n f).argA = s.argA := rfl
@[simp] theorem modLine_argB (s : State) (n : Line) (f : LineState → LineState) : (s.modLine n f).argB = s.argB := rfl
@[simp] theorem modLine_argC (s : State) (n : Line) (f : LineState → LineState) : (s.modLine n f).argC = s.argC := rfl
@[simp] theorem modLine_inFlight (s : State) (n : Line) (f : LineState → LineState) :
    (s.modLine n f).inFlight = s.inFlight := rfl
@[simp] theorem modLine_lastAnswer (s : State) (n : Line) (f : LineState → LineState) :
    (s.modLine n f).lastAnswer = s.lastAnswer := rfl
@[simp] theorem modLine_divider (s : State) (n : Line) (f : LineState → LineState) :
    (s.modLine n f).divider = s.divider := rfl
@[simp] theorem modLine_officeTime (s : State) (n : Line) (f : LineState → LineState) :
    (s.modLine n f).officeTime = s.officeTime := rfl
@[simp] theorem modLine_clock (s : State) (n : Line) (f : LineState → LineState) :
    (s.modLine n f).clock = s.clock := rfl
@[simp] theorem modLine_choices (s : State) (n : Line) (f : LineState → LineState) :
    (s.modLine n f).choices = s.choices := rfl

/-! ## popEntry -/

@[simp] theorem popEntry_pending (s : State) : (Machine.popEntry s).pending = s.pending := rfl
@[simp] theorem popEntry_windowK (s : State) : (Machine.popEntry s).windowK = s.windowK := rfl
@[simp] theorem popEntry_mem (s : State) : (Machine.popEntry s).mem = s.mem := rfl
@[simp] theorem popEntry_fifo (s : State) : (Machine.popEntry s).fifo = s.fifo.tail := rfl
@[simp] theorem popEntry_waiting (s : State) : (Machine.popEntry s).waiting = s.waiting := rfl
@[simp] theorem popEntry_readData (s : State) : (Machine.popEntry s).readData = s.readData := rfl
@[simp] theorem popEntry_officeState (s : State) : (Machine.popEntry s).officeState = s.officeState := rfl
@[simp] theorem popEntry_shadow (s : State) : (Machine.popEntry s).shadow = s.shadow := rfl
@[simp] theorem popEntry_loadDecided (s : State) : (Machine.popEntry s).loadDecided = s.loadDecided := rfl
@[simp] theorem popEntry_loadDone (s : State) : (Machine.popEntry s).loadDone = s.loadDone := rfl
@[simp] theorem popEntry_pool (s : State) : (Machine.popEntry s).pool = s.pool := rfl
@[simp] theorem popEntry_ringSize (s : State) : (Machine.popEntry s).ringSize = s.ringSize := rfl
@[simp] theorem popEntry_poolDiffers (s : State) : (Machine.popEntry s).poolDiffers = s.poolDiffers := rfl
@[simp] theorem popEntry_transits (s : State) : (Machine.popEntry s).transits = s.transits := rfl
@[simp] theorem popEntry_copies (s : State) : (Machine.popEntry s).copies = s.copies := rfl
@[simp] theorem popEntry_lines (s : State) : (Machine.popEntry s).lines = s.lines := rfl
@[simp] theorem popEntry_holdList (s : State) : (Machine.popEntry s).holdList = s.holdList := rfl
@[simp] theorem popEntry_waitList (s : State) : (Machine.popEntry s).waitList = s.waitList := rfl
@[simp] theorem popEntry_awaiting (s : State) : (Machine.popEntry s).awaiting = s.awaiting := rfl
@[simp] theorem popEntry_links (s : State) : (Machine.popEntry s).links = s.links := rfl
@[simp] theorem popEntry_freeHead (s : State) : (Machine.popEntry s).freeHead = s.freeHead := rfl
@[simp] theorem popEntry_freeTail (s : State) : (Machine.popEntry s).freeTail = s.freeTail := rfl
@[simp] theorem popEntry_freeCount (s : State) : (Machine.popEntry s).freeCount = s.freeCount := rfl
@[simp] theorem popEntry_recent (s : State) : (Machine.popEntry s).recent = s.recent := rfl
@[simp] theorem popEntry_submitCopy (s : State) : (Machine.popEntry s).submitCopy = s.submitCopy := rfl
@[simp] theorem popEntry_writeIndex (s : State) : (Machine.popEntry s).writeIndex = s.writeIndex := rfl
@[simp] theorem popEntry_readIndex (s : State) : (Machine.popEntry s).readIndex = s.readIndex := rfl
@[simp] theorem popEntry_counts (s : State) : (Machine.popEntry s).counts = s.counts := rfl
@[simp] theorem popEntry_events (s : State) : (Machine.popEntry s).events = s.events := rfl
@[simp] theorem popEntry_enableWord (s : State) : (Machine.popEntry s).enableWord = s.enableWord := rfl
@[simp] theorem popEntry_informOnly (s : State) : (Machine.popEntry s).informOnly = s.informOnly := rfl
@[simp] theorem popEntry_interrupt (s : State) : (Machine.popEntry s).interrupt = s.interrupt := rfl
@[simp] theorem popEntry_commandWord (s : State) : (Machine.popEntry s).commandWord = s.commandWord := rfl
@[simp] theorem popEntry_argA (s : State) : (Machine.popEntry s).argA = s.argA := rfl
@[simp] theorem popEntry_argB (s : State) : (Machine.popEntry s).argB = s.argB := rfl
@[simp] theorem popEntry_argC (s : State) : (Machine.popEntry s).argC = s.argC := rfl
@[simp] theorem popEntry_inFlight (s : State) : (Machine.popEntry s).inFlight = s.inFlight := rfl
@[simp] theorem popEntry_lastAnswer (s : State) : (Machine.popEntry s).lastAnswer = s.lastAnswer := rfl
@[simp] theorem popEntry_divider (s : State) : (Machine.popEntry s).divider = s.divider := rfl
@[simp] theorem popEntry_officeTime (s : State) : (Machine.popEntry s).officeTime = s.officeTime := rfl
@[simp] theorem popEntry_clock (s : State) : (Machine.popEntry s).clock = s.clock := rfl
@[simp] theorem popEntry_choices (s : State) : (Machine.popEntry s).choices = s.choices := rfl

/-! ## popWaiter -/

@[simp] theorem popWaiter_pending (s : State) : (Machine.popWaiter s).pending = s.pending := rfl
@[simp] theorem popWaiter_windowK (s : State) : (Machine.popWaiter s).windowK = s.windowK := rfl
@[simp] theorem popWaiter_mem (s : State) : (Machine.popWaiter s).mem = s.mem := rfl
@[simp] theorem popWaiter_fifo (s : State) : (Machine.popWaiter s).fifo = s.fifo := rfl
@[simp] theorem popWaiter_waiting (s : State) : (Machine.popWaiter s).waiting = s.waiting.tail := rfl
@[simp] theorem popWaiter_readData (s : State) : (Machine.popWaiter s).readData = s.readData := rfl
@[simp] theorem popWaiter_officeState (s : State) : (Machine.popWaiter s).officeState = s.officeState := rfl
@[simp] theorem popWaiter_shadow (s : State) : (Machine.popWaiter s).shadow = s.shadow := rfl
@[simp] theorem popWaiter_loadDecided (s : State) : (Machine.popWaiter s).loadDecided = s.loadDecided := rfl
@[simp] theorem popWaiter_loadDone (s : State) : (Machine.popWaiter s).loadDone = s.loadDone := rfl
@[simp] theorem popWaiter_pool (s : State) : (Machine.popWaiter s).pool = s.pool := rfl
@[simp] theorem popWaiter_ringSize (s : State) : (Machine.popWaiter s).ringSize = s.ringSize := rfl
@[simp] theorem popWaiter_poolDiffers (s : State) : (Machine.popWaiter s).poolDiffers = s.poolDiffers := rfl
@[simp] theorem popWaiter_transits (s : State) : (Machine.popWaiter s).transits = s.transits := rfl
@[simp] theorem popWaiter_copies (s : State) : (Machine.popWaiter s).copies = s.copies := rfl
@[simp] theorem popWaiter_lines (s : State) : (Machine.popWaiter s).lines = s.lines := rfl
@[simp] theorem popWaiter_holdList (s : State) : (Machine.popWaiter s).holdList = s.holdList := rfl
@[simp] theorem popWaiter_waitList (s : State) : (Machine.popWaiter s).waitList = s.waitList := rfl
@[simp] theorem popWaiter_awaiting (s : State) : (Machine.popWaiter s).awaiting = s.awaiting := rfl
@[simp] theorem popWaiter_links (s : State) : (Machine.popWaiter s).links = s.links := rfl
@[simp] theorem popWaiter_freeHead (s : State) : (Machine.popWaiter s).freeHead = s.freeHead := rfl
@[simp] theorem popWaiter_freeTail (s : State) : (Machine.popWaiter s).freeTail = s.freeTail := rfl
@[simp] theorem popWaiter_freeCount (s : State) : (Machine.popWaiter s).freeCount = s.freeCount := rfl
@[simp] theorem popWaiter_recent (s : State) : (Machine.popWaiter s).recent = s.recent := rfl
@[simp] theorem popWaiter_submitCopy (s : State) : (Machine.popWaiter s).submitCopy = s.submitCopy := rfl
@[simp] theorem popWaiter_writeIndex (s : State) : (Machine.popWaiter s).writeIndex = s.writeIndex := rfl
@[simp] theorem popWaiter_readIndex (s : State) : (Machine.popWaiter s).readIndex = s.readIndex := rfl
@[simp] theorem popWaiter_counts (s : State) : (Machine.popWaiter s).counts = s.counts := rfl
@[simp] theorem popWaiter_events (s : State) : (Machine.popWaiter s).events = s.events := rfl
@[simp] theorem popWaiter_enableWord (s : State) : (Machine.popWaiter s).enableWord = s.enableWord := rfl
@[simp] theorem popWaiter_informOnly (s : State) : (Machine.popWaiter s).informOnly = s.informOnly := rfl
@[simp] theorem popWaiter_interrupt (s : State) : (Machine.popWaiter s).interrupt = s.interrupt := rfl
@[simp] theorem popWaiter_commandWord (s : State) : (Machine.popWaiter s).commandWord = s.commandWord := rfl
@[simp] theorem popWaiter_argA (s : State) : (Machine.popWaiter s).argA = s.argA := rfl
@[simp] theorem popWaiter_argB (s : State) : (Machine.popWaiter s).argB = s.argB := rfl
@[simp] theorem popWaiter_argC (s : State) : (Machine.popWaiter s).argC = s.argC := rfl
@[simp] theorem popWaiter_inFlight (s : State) : (Machine.popWaiter s).inFlight = s.inFlight := rfl
@[simp] theorem popWaiter_lastAnswer (s : State) : (Machine.popWaiter s).lastAnswer = s.lastAnswer := rfl
@[simp] theorem popWaiter_divider (s : State) : (Machine.popWaiter s).divider = s.divider := rfl
@[simp] theorem popWaiter_officeTime (s : State) : (Machine.popWaiter s).officeTime = s.officeTime := rfl
@[simp] theorem popWaiter_clock (s : State) : (Machine.popWaiter s).clock = s.clock := rfl
@[simp] theorem popWaiter_choices (s : State) : (Machine.popWaiter s).choices = s.choices := rfl

end Sys2Proof.Machine.State
end

