-- ==== Sys2Proof/Laws/Frame.lean ====
section
/-! SUPPORT. The frames of the shared operations: what each operation of the relay leaves alone.  `frame` is what no
operation of the relay changes; `still` is what the moving of copies leaves of each line, with the Recent-Origin List and
the count of free choices. -/
namespace Sys2Proof.Machine

/-- What the moving of copies leaves alone beyond the frame. -/
structure Still where
  kept : Line → Kept
  recent : List (StationCode × Nat)
  choices : Nat

/-- The still part of a state. -/
def State.still (s : State) : Still := ⟨fun n => (s.line n).kept, s.recent, s.choices⟩

/-! ## Lines -/

theorem State.line_modLine (s : State) (n m : Line) (f : LineState → LineState) :
    (s.modLine n f).line m = if m = n then f (s.line n) else s.line m := by
  unfold State.line State.modLine
  by_cases h : m = n
  · subst h; simp
  · have : n.val ≠ m.val := fun e => h (Fin.ext e.symm)
    simp [h, this]

@[simp] theorem State.line_modLine_same (s : State) (n : Line) (f : LineState → LineState) :
    (s.modLine n f).line n = f (s.line n) := by simp [State.line_modLine]

theorem State.line_modLine_other (s : State) {n m : Line} (f : LineState → LineState) (h : m ≠ n) :
    (s.modLine n f).line m = s.line m := by simp [State.line_modLine, h]

/-- A change of a line that keeps what a line keeps leaves the still part alone. -/
theorem State.modLine_still (s : State) (n : Line) (f : LineState → LineState) (h : ∀ l, (f l).kept = l.kept) :
    (s.modLine n f).still = s.still := by
  unfold State.still
  congr 1
  funext m
  rw [State.line_modLine]
  split
  · rename_i e; subst e; exact h _
  · rfl

/-! ## Basic updates -/

@[simp] theorem State.pushEntry_frame (s : State) (e : FifoEntry) : (s.pushEntry e).frame = s.frame := rfl
@[simp] theorem State.pushEntry_still (s : State) (e : FifoEntry) : (s.pushEntry e).still = s.still := rfl
@[simp] theorem State.wait_frame (s : State) (w : Waiter) : (s.wait w).frame = s.frame := rfl
@[simp] theorem State.wait_still (s : State) (w : Waiter) : (s.wait w).still = s.still := rfl
@[simp] theorem State.setEvents_frame (s : State) (e : BitVec 13) : (s.setEvents e).frame = s.frame := rfl
@[simp] theorem State.setEvents_still (s : State) (e : BitVec 13) : (s.setEvents e).still = s.still := rfl
@[simp] theorem State.setTransit_frame (s : State) (t : TransitId) (r : Option Transit) : (s.setTransit t r).frame = s.frame := rfl
@[simp] theorem State.setTransit_still (s : State) (t : TransitId) (r : Option Transit) : (s.setTransit t r).still = s.still := rfl
@[simp] theorem State.setCopy_frame (s : State) (c : CopyId) (r : Option Copy) : (s.setCopy c r).frame = s.frame := rfl
@[simp] theorem State.setCopy_still (s : State) (c : CopyId) (r : Option Copy) : (s.setCopy c r).still = s.still := rfl
@[simp] theorem State.modCounts_frame (s : State) (f : OfficeCounts → OfficeCounts) : (s.modCounts f).frame = s.frame := rfl
@[simp] theorem State.modCounts_still (s : State) (f : OfficeCounts → OfficeCounts) : (s.modCounts f).still = s.still := rfl
@[simp] theorem State.modTransit_frame (s : State) (t : TransitId) (f : Transit → Transit) : (s.modTransit t f).frame = s.frame := rfl
@[simp] theorem State.modTransit_still (s : State) (t : TransitId) (f : Transit → Transit) : (s.modTransit t f).still = s.still := rfl
@[simp] theorem State.modCopy_frame (s : State) (c : CopyId) (f : Copy → Copy) : (s.modCopy c f).frame = s.frame := rfl
@[simp] theorem State.modCopy_still (s : State) (c : CopyId) (f : Copy → Copy) : (s.modCopy c f).still = s.still := rfl

@[simp] theorem State.modLine_frame (s : State) (n : Line) (f : LineState → LineState) : (s.modLine n f).frame = s.frame := rfl
@[simp] theorem State.modRx_frame (s : State) (n : Line) (f : Receiver → Receiver) : (s.modRx n f).frame = s.frame := rfl
@[simp] theorem State.modTx_frame (s : State) (n : Line) (f : Transmitter → Transmitter) : (s.modTx n f).frame = s.frame := rfl
@[simp] theorem State.modMon_frame (s : State) (n : Line) (f : Monitor → Monitor) : (s.modMon n f).frame = s.frame := rfl
@[simp] theorem State.setQueue_frame (s : State) (n : Line) (q : List CopyId) : (s.setQueue n q).frame = s.frame := rfl

@[simp] theorem State.setQueue_still (s : State) (n : Line) (q : List CopyId) : (s.setQueue n q).still = s.still :=
  s.modLine_still n _ (fun _ => rfl)

@[simp] theorem State.modTx_still (s : State) (n : Line) (f : Transmitter → Transmitter) : (s.modTx n f).still = s.still :=
  s.modLine_still n _ (fun _ => rfl)

/-! ## The FIFO, events and answers -/

@[simp] theorem decideEntry_frame (e : FifoEntry) (s : State) :
    (decideEntry e s).frame = s.frame := by
  unfold decideEntry
  repeat' split
  all_goals simp

@[simp] theorem decideEntry_still (e : FifoEntry) (s : State) :
    (decideEntry e s).still = s.still := by
  unfold decideEntry
  repeat' split
  all_goals simp

@[simp] theorem decideStateWord_frame (w : StateWord) (s : State) :
    (decideStateWord w s).frame = s.frame := by
  unfold decideStateWord
  repeat' split
  all_goals simp

@[simp] theorem decideStateWord_still (w : StateWord) (s : State) :
    (decideStateWord w s).still = s.still := by
  unfold decideStateWord
  repeat' split
  all_goals simp

@[simp] theorem decideState_frame (w : StateWord) (s : State) :
    (decideState w s).frame = s.frame := by
  unfold decideState
  repeat' split
  all_goals simp

@[simp] theorem decideState_still (w : StateWord) (s : State) :
    (decideState w s).still = s.still := by
  unfold decideState
  repeat' split
  all_goals simp

@[simp] theorem freeCountsChanged_frame (s : State) : (freeCountsChanged s).frame = s.frame := decideState_frame ..
@[simp] theorem freeCountsChanged_still (s : State) : (freeCountsChanged s).still = s.still := decideState_still ..
@[simp] theorem copyCountsChanged_frame (s : State) : (copyCountsChanged s).frame = s.frame := decideState_frame ..
@[simp] theorem copyCountsChanged_still (s : State) : (copyCountsChanged s).still = s.still := decideState_still ..
@[simp] theorem queueChanged_frame (n : Line) (s : State) : (queueChanged n s).frame = s.frame := decideState_frame ..
@[simp] theorem queueChanged_still (n : Line) (s : State) : (queueChanged n s).still = s.still := decideState_still ..
@[simp] theorem holdListChanged_frame (s : State) : (holdListChanged s).frame = s.frame := decideState_frame ..
@[simp] theorem holdListChanged_still (s : State) : (holdListChanged s).still = s.still := decideState_still ..

@[simp] theorem post_frame (c : EventClass) (s : State) :
    (post c s).frame = s.frame := by
  unfold post
  repeat' split
  all_goals simp

@[simp] theorem post_still (c : EventClass) (s : State) :
    (post c s).still = s.still := by
  unfold post
  repeat' split
  all_goals simp

/-- An answer changes the FIFO, what waits, the pending set, the answer last decided and the command in flight. -/
@[simp] theorem joinAnswer_base (x y : Word) (ends : Bool) (s : State) :
    (joinAnswer x y ends s).frame.base = s.frame.base := by
  unfold joinAnswer
  simp only [post_frame]
  rfl

@[simp] theorem joinAnswer_still (x y : Word) (ends : Bool) (s : State) :
    (joinAnswer x y ends s).still = s.still := by
  unfold joinAnswer
  simp only [post_still]
  rfl

@[simp] theorem decideAnswer_base (tag : BitVec 16) (code : AnswerCode) (k : Nat) (ends : Bool) (s : State) :
    (decideAnswer tag code k ends s).frame.base = s.frame.base := by
  unfold decideAnswer
  split <;> simp

@[simp] theorem decideAnswer_still (tag : BitVec 16) (code : AnswerCode) (k : Nat) (ends : Bool) (s : State) :
    (decideAnswer tag code k ends s).still = s.still := by
  unfold decideAnswer
  split <;> simp

@[simp] theorem answer_base (tag : BitVec 16) (code : AnswerCode) (k : Nat) (s : State) :
    (answer tag code k s).frame.base = s.frame.base := by simp [answer]

@[simp] theorem answer_still (tag : BitVec 16) (code : AnswerCode) (k : Nat) (s : State) :
    (answer tag code k s).still = s.still := by simp [answer]

@[simp] theorem answerInFlight_base (code : AnswerCode) (k : Nat) (s : State) :
    (answerInFlight code k s).frame.base = s.frame.base := by
  unfold answerInFlight
  split <;> simp

@[simp] theorem answerInFlight_still (code : AnswerCode) (k : Nat) (s : State) :
    (answerInFlight code k s).still = s.still := by
  unfold answerInFlight
  split <;> simp

theorem foldl_frame {α : Type} (f : State → α → State) (h : ∀ s a, (f s a).frame = s.frame) (l : List α) (s : State) :
    (l.foldl f s).frame = s.frame := by
  induction l generalizing s with
  | nil => rfl
  | cons a l ih => rw [List.foldl_cons, ih, h]

theorem foldl_still {α : Type} (f : State → α → State) (h : ∀ s a, (f s a).still = s.still) (l : List α) (s : State) :
    (l.foldl f s).still = s.still := by
  induction l generalizing s with
  | nil => rfl
  | cons a l ih => rw [List.foldl_cons, ih, h]

@[simp] theorem rewriteLine_frame (n : Line) (is : List (Fin 8)) (s : State) : (rewriteLine n is s).frame = s.frame :=
  foldl_frame _ (fun s i => decideState_frame (.line n i) s) _ _

@[simp] theorem rewriteLine_still (n : Line) (is : List (Fin 8)) (s : State) : (rewriteLine n is s).still = s.still :=
  foldl_still _ (fun s i => decideState_still (.line n i) s) _ _

@[simp] theorem settle_frame (old new : State) : (settle old new).frame = new.frame :=
  foldl_frame _ (fun s w => decideState_frame w s) _ _

@[simp] theorem settle_still (old new : State) : (settle old new).still = new.still :=
  foldl_still _ (fun s w => decideState_still w s) _ _

@[simp] theorem State.forCircuits_frame (s : State) (f : Line → State → State)
    (h : ∀ n s, (f n s).frame = s.frame) : (s.forCircuits f).frame = s.frame :=
  foldl_frame _ (fun s n => h n s) _ _


/-! ## Records, copies and blocks -/

@[simp] theorem releaseChain_frame (f l : Option Nat) (b : Nat) (s : State) :
    (releaseChain f l b s).frame = s.frame := by
  unfold releaseChain
  split <;> rfl

@[simp] theorem releaseChain_still (f l : Option Nat) (b : Nat) (s : State) :
    (releaseChain f l b s).still = s.still := by
  unfold releaseChain
  split <;> rfl

theorem allocateBlock_frame {t : TransitId} {s s' : State} {b : Nat} (h : allocateBlock t s = some (b, s')) :
    s'.frame = s.frame ∧ s'.still = s.still := by
  unfold allocateBlock at h
  repeat' split at h
  all_goals cases h
  all_goals first
    | exact ⟨by simp only [freeCountsChanged_frame]; rfl, by simp only [freeCountsChanged_still]; rfl⟩
    | exact ⟨by simp only [freeCountsChanged_frame, decideEntry_frame]; rfl,
        by simp only [freeCountsChanged_still, decideEntry_still]; rfl⟩

theorem takeTransit_frame {n : Line} {s s' : State} {t : TransitId} (h : takeTransit n s = some (t, s')) :
    s'.frame = s.frame ∧ s'.still = s.still := by
  unfold takeTransit at h
  split at h
  · cases h
  · cases h
    exact ⟨by simp, by simp⟩


@[simp] theorem freeTransit_frame (t : TransitId) (s : State) : (freeTransit t s).frame = s.frame := by
  unfold freeTransit
  split
  · rfl
  · dsimp only
    split <;> simp only [copyCountsChanged_frame, freeCountsChanged_frame] <;> exact releaseChain_frame ..

@[simp] theorem freeTransit_still (t : TransitId) (s : State) : (freeTransit t s).still = s.still := by
  unfold freeTransit
  split
  · rfl
  · dsimp only
    split <;> simp only [copyCountsChanged_still, freeCountsChanged_still] <;> exact releaseChain_still ..


@[simp] theorem addReason_frame (t : TransitId) (x : Reason) (s : State) :
    (addReason t x s).frame = s.frame := by
  unfold addReason
  simp

@[simp] theorem addReason_still (t : TransitId) (x : Reason) (s : State) :
    (addReason t x s).still = s.still := by
  unfold addReason
  simp

@[simp] theorem freeCopy_frame (c : CopyId) (s : State) :
    (freeCopy c s).frame = s.frame := by
  unfold freeCopy
  dsimp only
  repeat' split
  all_goals simp

@[simp] theorem freeAll_frame (cs : List CopyId) (s : State) : (freeAll cs s).frame = s.frame := by
  induction cs generalizing s with
  | nil => rfl
  | cons c cs ih => exact (ih _).trans (freeCopy_frame c s)

@[simp] theorem freeCopy_still (c : CopyId) (s : State) :
    (freeCopy c s).still = s.still := by
  unfold freeCopy
  dsimp only
  repeat' split
  all_goals simp

@[simp] theorem freeAll_still (cs : List CopyId) (s : State) : (freeAll cs s).still = s.still := by
  induction cs generalizing s with
  | nil => rfl
  | cons c cs ih => exact (ih _).trans (freeCopy_still c s)

@[simp] theorem testOverdue_frame (c : CopyId) (s : State) :
    (testOverdue c s).frame = s.frame := by
  unfold testOverdue
  repeat' split
  all_goals simp

@[simp] theorem testOverdue_still (c : CopyId) (s : State) :
    (testOverdue c s).still = s.still := by
  unfold testOverdue
  repeat' split
  all_goals simp

@[simp] theorem recomputeDegraded_frame (n : Line) (s : State) :
    (recomputeDegraded n s).frame = s.frame := by
  unfold recomputeDegraded
  dsimp only
  split <;> simp

@[simp] theorem raiseError_frame (n : Line) (w : ErrorCounter) (d : Nat) (s : State) :
    (raiseError n w d s).frame = s.frame := by
  unfold raiseError
  all_goals simp

@[simp] theorem raiseFill_frame (n : Line) (s : State) :
    (raiseFill n s).frame = s.frame := by
  unfold raiseFill
  all_goals simp

@[simp] theorem raiseStalledChars_frame (n : Line) (s : State) :
    (raiseStalledChars n s).frame = s.frame := by
  unfold raiseStalledChars
  all_goals simp

/-! ## Queues and the Local Position -/

@[simp] theorem startCut_frame (n : Line) (b : Bool) (s : State) :
    (startCut n b s).frame = s.frame := by
  unfold startCut
  simp

@[simp] theorem startCut_still (n : Line) (b : Bool) (s : State) :
    (startCut n b s).still = s.still := by
  unfold startCut
  simp

@[simp] theorem cutTest_frame (n : Line) (s : State) :
    (cutTest n s).frame = s.frame := by
  unfold cutTest
  repeat' split
  all_goals simp

@[simp] theorem cutTest_still (n : Line) (s : State) :
    (cutTest n s).still = s.still := by
  unfold cutTest
  repeat' split
  all_goals simp

@[simp] theorem takeDelivery_frame (s : State) : (takeDelivery s).frame = s.frame := by
  unfold takeDelivery
  repeat' split
  all_goals first
    | simp; done
    | (simp only [post_frame]; rfl)

@[simp] theorem takeDelivery_still (s : State) : (takeDelivery s).still = s.still := by
  unfold takeDelivery
  repeat' split
  all_goals first
    | simp; done
    | (simp only [post_still]; exact State.setQueue_still ..)


@[simp] theorem deliverLoop_frame (k : Nat) (s : State) : (deliverLoop k s).frame = s.frame := by
  induction k generalizing s with
  | zero => rfl
  | succ k ih =>
    unfold deliverLoop
    repeat' split
    all_goals simp [ih]

@[simp] theorem deliverLoop_still (k : Nat) (s : State) : (deliverLoop k s).still = s.still := by
  induction k generalizing s with
  | zero => rfl
  | succ k ih =>
    unfold deliverLoop
    repeat' split
    all_goals simp [ih]

@[simp] theorem deliver_frame (s : State) :
    (deliver s).frame = s.frame := by
  unfold deliver
  all_goals simp

@[simp] theorem deliver_still (s : State) :
    (deliver s).still = s.still := by
  unfold deliver
  all_goals simp

@[simp] theorem afterPlacement_frame (n : Line) (r : Rank) (s : State) :
    (afterPlacement n r s).frame = s.frame := by
  unfold afterPlacement
  repeat' split
  all_goals simp

@[simp] theorem afterPlacement_still (n : Line) (r : Rank) (s : State) :
    (afterPlacement n r s).still = s.still := by
  unfold afterPlacement
  repeat' split
  all_goals simp

@[simp] theorem placeInQueue_frame (n : Line) (c : CopyId) (b : Bool) (s : State) :
    (placeInQueue n c b s).state.frame = s.frame := by
  unfold placeInQueue
  repeat' split
  all_goals simp

@[simp] theorem placeInQueue_still (n : Line) (c : CopyId) (b : Bool) (s : State) :
    (placeInQueue n c b s).state.still = s.still := by
  unfold placeInQueue
  repeat' split
  all_goals simp

@[simp] theorem countRoute_frame (r : Route) (s : State) :
    (countRoute r s).frame = s.frame := by
  unfold countRoute
  split <;> simp

@[simp] theorem countRoute_still (r : Route) (s : State) :
    (countRoute r s).still = s.still := by
  unfold countRoute
  split <;> simp

@[simp] theorem placeOnCircuit_frame (n : Line) (c : CopyId) (s : State) :
    (placeOnCircuit n c s).state.frame = s.frame := by
  unfold placeOnCircuit
  repeat' split
  all_goals simp

@[simp] theorem placeOnCircuit_still (n : Line) (c : CopyId) (s : State) :
    (placeOnCircuit n c s).state.still = s.still := by
  unfold placeOnCircuit
  repeat' split
  all_goals simp

@[simp] theorem placeLocally_frame (c : CopyId) (s : State) :
    (placeLocally c s).state.frame = s.frame := by
  unfold placeLocally
  all_goals simp

@[simp] theorem placeLocally_still (c : CopyId) (s : State) :
    (placeLocally c s).state.still = s.still := by
  unfold placeLocally
  all_goals simp

@[simp] theorem holdCopy_frame (c : CopyId) (k : Option Line) (s : State) : (holdCopy c k s).frame = s.frame := by
  unfold holdCopy
  simp only [holdListChanged_frame, post_frame]
  rfl

@[simp] theorem holdCopy_still (c : CopyId) (k : Option Line) (s : State) : (holdCopy c k s).still = s.still := by
  unfold holdCopy
  simp only [holdListChanged_still, post_still]
  rfl


/-! ## Moves -/

@[simp] theorem Placed.followedBy_state (p q : Placed) : (p.followedBy q).state = q.state := rfl

@[simp] theorem Placed.finish_frame (p : Placed) : p.finish.1.frame = p.state.frame := freeAll_frame _ _

@[simp] theorem placeOnHold_frame (c : CopyId) (k : Option Line) (s : State) : (placeOnHold c k s).state.frame = s.frame :=
  holdCopy_frame c k s

@[simp] theorem placeGroup_frame (c : CopyId) (d : Dest) (s : State) :
    (placeGroup c d s).state.frame = s.frame := by
  unfold placeGroup
  split <;> simp

@[simp] theorem Placed.finish_still (p : Placed) : p.finish.1.still = p.state.still := freeAll_still _ _

@[simp] theorem placeOnHold_still (c : CopyId) (k : Option Line) (s : State) : (placeOnHold c k s).state.still = s.still :=
  holdCopy_still c k s

@[simp] theorem placeGroup_still (c : CopyId) (d : Dest) (s : State) :
    (placeGroup c d s).state.still = s.still := by
  unfold placeGroup
  split <;> simp

@[simp] theorem placeGroups_frame (l : List (CopyId × Dest)) (s : State) : (placeGroups l s).state.frame = s.frame := by
  induction l generalizing s with
  | nil => rfl
  | cons a l ih => simp [placeGroups, ih]

@[simp] theorem takeEntries_frame (x : Copy) (l : List PlanItem) (s : State) : (takeEntries x l s).1.frame = s.frame := by
  induction l generalizing s with
  | nil => rfl
  | cons a l ih =>
    rw [takeEntries]
    generalize lowestFree s.copies = o
    cases o with
    | none => rfl
    | some c => exact (ih _).trans (by simp)

@[simp] theorem placeGroups_still (l : List (CopyId × Dest)) (s : State) : (placeGroups l s).state.still = s.still := by
  induction l generalizing s with
  | nil => rfl
  | cons a l ih => simp [placeGroups, ih]

@[simp] theorem takeEntries_still (x : Copy) (l : List PlanItem) (s : State) : (takeEntries x l s).1.still = s.still := by
  induction l generalizing s with
  | nil => rfl
  | cons a l ih =>
    rw [takeEntries]
    generalize lowestFree s.copies = o
    cases o with
    | none => rfl
    | some c => exact (ih _).trans (by simp)

@[simp] theorem moveOut_frame (l : List Line) (c : CopyId) (x : Copy) (s : State) :
    (moveOut l c x s).state.frame = s.frame := by
  unfold moveOut
  repeat' split
  all_goals simp

@[simp] theorem moveOut_still (l : List Line) (c : CopyId) (x : Copy) (s : State) :
    (moveOut l c x s).state.still = s.still := by
  unfold moveOut
  repeat' split
  all_goals simp

@[simp] theorem unqueue_frame (n : Line) (c : CopyId) (s : State) :
    (unqueue n c s).frame = s.frame := by
  unfold unqueue
  simp

@[simp] theorem unqueue_still (n : Line) (c : CopyId) (s : State) :
    (unqueue n c s).still = s.still := by
  unfold unqueue
  simp

@[simp] theorem lossCopy_frame (n : Line) (c : CopyId) (s : State) :
    (lossCopy n c s).state.frame = s.frame := by
  unfold lossCopy
  repeat' split
  all_goals simp

@[simp] theorem lossCopy_still (n : Line) (c : CopyId) (s : State) :
    (lossCopy n c s).state.still = s.still := by
  unfold lossCopy
  repeat' split
  all_goals simp

@[simp] theorem lossCopies_frame (n : Line) (l : List CopyId) (s : State) : (lossCopies n l s).state.frame = s.frame := by
  induction l generalizing s with
  | nil => rfl
  | cons a l ih => simp [lossCopies, ih]

@[simp] theorem lossWalk_frame (n : Line) (l : List CopyId) (s : State) : (lossWalk n l s).1.frame = s.frame :=
  (Placed.finish_frame _).trans (lossCopies_frame n l s)

@[simp] theorem lossCopies_still (n : Line) (l : List CopyId) (s : State) : (lossCopies n l s).state.still = s.still := by
  induction l generalizing s with
  | nil => rfl
  | cons a l ih => simp [lossCopies, ih]

@[simp] theorem lossWalk_still (n : Line) (l : List CopyId) (s : State) : (lossWalk n l s).1.still = s.still :=
  (Placed.finish_still _).trans (lossCopies_still n l s)

@[simp] theorem unhold_frame (c : CopyId) (s : State) :
    (unhold c s).frame = s.frame := (holdListChanged_frame _).trans rfl

@[simp] theorem unhold_still (c : CopyId) (s : State) :
    (unhold c s).still = s.still := (holdListChanged_still _).trans rfl

@[simp] theorem reexamineCopy_frame (l : List Line) (c : CopyId) (s : State) :
    (reexamineCopy l c s).1.state.frame = s.frame := by
  unfold reexamineCopy
  dsimp only
  repeat' split
  all_goals simp

@[simp] theorem reexamineCopy_still (l : List Line) (c : CopyId) (s : State) :
    (reexamineCopy l c s).1.state.still = s.still := by
  unfold reexamineCopy
  dsimp only
  repeat' split
  all_goals simp

@[simp] theorem reexamineCopies_frame (e : List Line) (l : List CopyId) (s : State) :
    (reexamineCopies e l s).1.state.frame = s.frame := by
  induction l generalizing s with
  | nil => rfl
  | cons a l ih => simp [reexamineCopies, ih]

@[simp] theorem reexamineWalk_frame (e : List Line) (l : List CopyId) (s : State) :
    (reexamineWalk e l s).1.frame = s.frame :=
  (Placed.finish_frame _).trans (reexamineCopies_frame e l s)

@[simp] theorem reexamineCopies_still (e : List Line) (l : List CopyId) (s : State) :
    (reexamineCopies e l s).1.state.still = s.still := by
  induction l generalizing s with
  | nil => rfl
  | cons a l ih => simp [reexamineCopies, ih]

@[simp] theorem reexamineWalk_still (e : List Line) (l : List CopyId) (s : State) :
    (reexamineWalk e l s).1.still = s.still :=
  (Placed.finish_still _).trans (reexamineCopies_still e l s)

@[simp] theorem reexamine_frame (l : List Line) (s : State) :
    (reexamine l s).1.frame = s.frame := by
  unfold reexamine
  simp

@[simp] theorem reexamine_still (l : List Line) (s : State) :
    (reexamine l s).1.still = s.still := by
  unfold reexamine
  simp

@[simp] theorem reexamineIfInformOnly_frame (l : List Line) (b : Bool) (s : State) :
    (reexamineIfInformOnly l b s).frame = s.frame := by
  unfold reexamineIfInformOnly
  repeat' split
  all_goals simp

@[simp] theorem reexamineIfInformOnly_still (l : List Line) (b : Bool) (s : State) :
    (reexamineIfInformOnly l b s).still = s.still := by
  unfold reexamineIfInformOnly
  repeat' split
  all_goals simp

@[simp] theorem allocateItems_frame (t : TransitId) (l : List PlanItem) (s : State) :
    (allocateItems t l s).state.frame = s.frame := by
  induction l generalizing s with
  | nil => rfl
  | cons a l ih =>
    rw [allocateItems]
    generalize lowestFree s.copies = o
    cases o with
    | none => rfl
    | some c => exact (ih _).trans (by simp)

@[simp] theorem allocatePlan_frame (t : TransitId) (tr : Transit) (l : List PlanItem) (s : State) :
    (allocatePlan t tr l s).1.frame = s.frame := by
  unfold allocatePlan
  simp only [Placed.finish_frame, allocateItems_frame, copyCountsChanged_frame]
  rfl

@[simp] theorem allocateItems_still (t : TransitId) (l : List PlanItem) (s : State) :
    (allocateItems t l s).state.still = s.still := by
  induction l generalizing s with
  | nil => rfl
  | cons a l ih =>
    rw [allocateItems]
    generalize lowestFree s.copies = o
    cases o with
    | none => rfl
    | some c => exact (ih _).trans (by simp)

@[simp] theorem allocatePlan_still (t : TransitId) (tr : Transit) (l : List PlanItem) (s : State) :
    (allocatePlan t tr l s).1.still = s.still := by
  unfold allocatePlan
  simp only [Placed.finish_still, allocateItems_still, copyCountsChanged_still]
  rfl

@[simp] theorem considerHead_frame (s : State) :
    (considerHead s).1.frame = s.frame := by
  unfold considerHead
  dsimp only
  repeat' split
  all_goals simp

@[simp] theorem considerHead_still (s : State) :
    (considerHead s).1.still = s.still := by
  unfold considerHead
  dsimp only
  repeat' split
  all_goals simp

@[simp] theorem considerLoop_frame (k : Nat) (s : State) : (considerLoop k s).frame = s.frame := by
  induction k generalizing s with
  | zero => rfl
  | succ k ih =>
    unfold considerLoop
    dsimp only
    split <;> simp [ih]

@[simp] theorem considerLoop_still (k : Nat) (s : State) : (considerLoop k s).still = s.still := by
  induction k generalizing s with
  | zero => rfl
  | succ k ih =>
    unfold considerLoop
    dsimp only
    split <;> simp [ih]

@[simp] theorem considerWaitList_frame (s : State) :
    (considerWaitList s).frame = s.frame := by
  unfold considerWaitList
  simp

@[simp] theorem considerWaitList_still (s : State) :
    (considerWaitList s).still = s.still := by
  unfold considerWaitList
  simp

@[simp] theorem afterAction_frame (l : List Line) (r : State × Bool) : (afterAction l r).frame = r.1.frame := by
  simp [afterAction]

@[simp] theorem afterAction_still (l : List Line) (r : State × Bool) : (afterAction l r).still = r.1.still := by
  simp [afterAction]

@[simp] theorem lineLoss_frame (n : Line) (s : State) :
    (lineLoss n s).frame = s.frame := by
  unfold lineLoss
  simp

@[simp] theorem lineLoss_still (n : Line) (s : State) :
    (lineLoss n s).still = s.still := by
  unfold lineLoss
  simp

@[simp] theorem reexamineHoldList_frame (s : State) :
    (reexamineHoldList s).1.frame = s.frame := by
  unfold reexamineHoldList
  simp

@[simp] theorem reexamineHoldList_still (s : State) :
    (reexamineHoldList s).1.still = s.still := by
  unfold reexamineHoldList
  simp

@[simp] theorem relayTransit_frame (t : TransitId) (s : State) : (relayTransit t s).frame = s.frame := by
  unfold relayTransit
  dsimp only
  split
  · rfl
  · split
    · simp
    · simp only [copyCountsChanged_frame, post_frame]
      rfl

@[simp] theorem relayTransit_still (t : TransitId) (s : State) : (relayTransit t s).still = s.still := by
  unfold relayTransit
  dsimp only
  split
  · rfl
  · split
    · simp
    · simp only [copyCountsChanged_still, post_still]
      rfl

/-! ## Transmitters -/

@[simp] theorem forgetShift_frame (n : Line) (s : State) : (forgetShift n s).frame = s.frame := by
  unfold forgetShift
  simp

@[simp] theorem forgetShift_still (n : Line) (s : State) : (forgetShift n s).still = s.still := by
  unfold forgetShift
  simp

@[simp] theorem endMessage_frame (n : Line) (st : TxState) (s : State) :
    (endMessage n st s).frame = s.frame := by
  unfold endMessage
  simp

@[simp] theorem endMessage_still (n : Line) (st : TxState) (s : State) :
    (endMessage n st s).still = s.still := by
  unfold endMessage
  simp

@[simp] theorem returnCopy_frame (n : Line) (c : CopyId) (s : State) :
    (returnCopy n c s).frame = s.frame := by
  unfold returnCopy
  split
  · rfl
  · dsimp only
    split <;> simp

@[simp] theorem returnCopy_still (n : Line) (c : CopyId) (s : State) :
    (returnCopy n c s).still = s.still := by
  unfold returnCopy
  split
  · rfl
  · dsimp only
    split <;> simp

@[simp] theorem leaveSending_frame (n : Line) (st : TxState) (b : Bool) (s : State) :
    (leaveSending n st b s).frame = s.frame := by
  unfold leaveSending
  dsimp only
  repeat' split
  all_goals simp

@[simp] theorem leaveSending_still (n : Line) (st : TxState) (b : Bool) (s : State) :
    (leaveSending n st b s).still = s.still := by
  unfold leaveSending
  dsimp only
  repeat' split
  all_goals simp

@[simp] theorem startTimer_frame (n : Line) (k : Nat) (s : State) :
    (startTimer n k s).frame = s.frame := by
  unfold startTimer
  repeat' split
  all_goals simp

@[simp] theorem abandonService_frame (n : Line) (s : State) :
    (abandonService n s).frame = s.frame := by
  unfold abandonService
  repeat' split
  all_goals simp

@[simp] theorem decideTextRead_frame (n : Line) (k : Buffer) (t : Transit) (p : Nat) (s : State) :
    (decideTextRead n k t p s).frame = s.frame := by
  unfold decideTextRead
  repeat' split
  all_goals simp

@[simp] theorem decideTextRead_still (n : Line) (k : Buffer) (t : Transit) (p : Nat) (s : State) :
    (decideTextRead n k t p s).still = s.still := by
  unfold decideTextRead
  repeat' split
  all_goals simp

@[simp] theorem enterSending_frame (n : Line) (c : CopyId) (s : State) :
    (enterSending n c s).frame = s.frame := by
  unfold enterSending
  split
  · rfl
  · dsimp only
    repeat' split
    all_goals simp

@[simp] theorem enterSending_still (n : Line) (c : CopyId) (s : State) :
    (enterSending n c s).still = s.still := by
  unfold enterSending
  split
  · rfl
  · dsimp only
    repeat' split
    all_goals simp

@[simp] theorem beginService_frame (n : Line) (v : Service) (s : State) :
    (beginService n v s).frame = s.frame := by
  unfold beginService
  simp

@[simp] theorem beginService_still (n : Line) (v : Service) (s : State) :
    (beginService n v s).still = s.still := by
  unfold beginService
  simp

@[simp] theorem beginCkq_frame (n : Line) (s : State) :
    (beginCkq n s).frame = s.frame := by
  unfold beginCkq
  simp

@[simp] theorem beginCopy_frame (n : Line) (s : State) :
    (beginCopy n s).frame = s.frame := by
  unfold beginCopy
  dsimp only
  repeat' split
  all_goals simp

@[simp] theorem beginCopy_still (n : Line) (s : State) :
    (beginCopy n s).still = s.still := by
  unfold beginCopy
  dsimp only
  repeat' split
  all_goals simp

@[simp] theorem choose_frame (n : Line) (s : State) :
    (choose n s).frame = s.frame := by
  unfold choose
  dsimp only
  repeat' split
  all_goals simp

@[simp] theorem endCopy_frame (n : Line) (s : State) :
    (endCopy n s).frame = s.frame := by
  unfold endCopy
  dsimp only
  repeat' split
  all_goals simp

@[simp] theorem endCopy_still (n : Line) (s : State) :
    (endCopy n s).still = s.still := by
  unfold endCopy
  dsimp only
  repeat' split
  all_goals simp

@[simp] theorem endService_frame (n : Line) (v : Service) (s : State) :
    (endService n v s).frame = s.frame := by
  unfold endService
  dsimp only
  repeat' split
  all_goals simp

@[simp] theorem afterBodyChar_frame (n : Line) (t : Transit) (p : Nat) (s : State) :
    (afterBodyChar n t p s).frame = s.frame := by
  unfold afterBodyChar
  dsimp only
  repeat' split
  all_goals simp

@[simp] theorem afterBodyChar_still (n : Line) (t : Transit) (p : Nat) (s : State) :
    (afterBodyChar n t p s).still = s.still := by
  unfold afterBodyChar
  dsimp only
  repeat' split
  all_goals simp

@[simp] theorem advance_frame (n : Line) (s : State) :
    (advance n s).frame = s.frame := by
  unfold advance
  dsimp only
  repeat' split
  all_goals simp

@[simp] theorem stampOffered_frame (n : Line) (s : State) :
    (stampOffered n s).frame = s.frame := by
  unfold stampOffered
  simp

@[simp] theorem stampOffered_still (n : Line) (s : State) :
    (stampOffered n s).still = s.still := by
  unfold stampOffered
  simp

@[simp] theorem giveFill_frame (n : Line) (s : State) :
    (giveFill n s).1.frame = s.frame := by
  unfold giveFill
  simp

@[simp] theorem giveChar_frame (n : Line) (c : OfficeChar) (k : Byte) (s : State) :
    (giveChar n c k s).1.frame = s.frame := by
  unfold giveChar
  simp

@[simp] theorem giveDue_frame (n : Line) (s : State) :
    (giveDue n s).1.frame = s.frame := by
  unfold giveDue
  repeat' split
  all_goals simp

@[simp] theorem readSendCell_frame (n : Line) (s : State) :
    (readSendCell n s).1.frame = s.frame := by
  unfold readSendCell
  dsimp only
  repeat' split
  all_goals simp

@[simp] theorem testPeriod_frame (n : Line) (s : State) :
    (testPeriod n s).1.frame = s.frame := by
  unfold testPeriod
  dsimp only
  repeat' split
  all_goals simp

@[simp] theorem startTransmitter_frame (n : Line) (s : State) :
    (startTransmitter n s).frame = s.frame := by
  unfold startTransmitter
  simp

@[simp] theorem startTransmitter_still (n : Line) (s : State) :
    (startTransmitter n s).still = s.still := by
  unfold startTransmitter
  simp

/-! ## The Line Monitor and recoveries of transmitters -/

@[simp] theorem abandonMessage_frame (n : Line) (b : Bool) (s : State) :
    (abandonMessage n b s).frame = s.frame := by
  unfold abandonMessage
  simp

@[simp] theorem abandonMessage_still (n : Line) (b : Bool) (s : State) :
    (abandonMessage n b s).still = s.still := by
  unfold abandonMessage
  simp

@[simp] theorem tellSuspect_frame (n : Line) (s : State) :
    (tellSuspect n s).frame = s.frame := by
  unfold tellSuspect
  split <;> simp

@[simp] theorem tellSuspect_still (n : Line) (s : State) :
    (tellSuspect n s).still = s.still := by
  unfold tellSuspect
  split <;> simp

@[simp] theorem changeCondition_frame (n : Line) (c : Condition) (s : State) :
    (changeCondition n c s).frame = s.frame := by
  unfold changeCondition
  simp

@[simp] theorem setCondition_frame (n : Line) (c : Condition) (s : State) :
    (setCondition n c s).frame = s.frame := by
  unfold setCondition
  simp

@[simp] theorem becomeActive_frame (n : Line) (s : State) :
    (becomeActive n s).frame = s.frame := by
  unfold becomeActive
  dsimp only
  split <;> simp

@[simp] theorem becomeSuspect_frame (n : Line) (s : State) :
    (becomeSuspect n s).frame = s.frame := by
  unfold becomeSuspect
  simp

@[simp] theorem makeSuspect_frame (n : Line) (s : State) :
    (makeSuspect n s).frame = s.frame := by
  unfold makeSuspect
  split <;> simp

@[simp] theorem recoverTransmitter_frame (n : Line) (s : State) :
    (recoverTransmitter n s).frame = s.frame := by
  unfold recoverTransmitter
  dsimp only
  split
  · simp only [makeSuspect_frame, leaveSending_frame, abandonService_frame, forgetShift_frame]
  · rfl

@[simp] theorem recoverTransmitters_frame (s : State) :
    (recoverTransmitters s).frame = s.frame := by
  unfold recoverTransmitters
  simp

@[simp] theorem stallTransmitter_frame (n : Line) (s : State) :
    (stallTransmitter n s).frame = s.frame := by
  unfold stallTransmitter
  dsimp only
  split <;> simp

@[simp] theorem tellBreak_frame (n : Line) (s : State) :
    (tellBreak n s).frame = s.frame := by
  unfold tellBreak
  split <;> simp

@[simp] theorem reportBreak_frame (n : Line) (s : State) :
    (reportBreak n s).frame = s.frame := by
  unfold reportBreak
  simp

@[simp] theorem receiveCkq_frame (n : Line) (k : Nat) (s : State) :
    (receiveCkq n k s).frame = s.frame := by
  unfold receiveCkq
  simp

@[simp] theorem receiveCka_frame (n : Line) (k : Nat) (s : State) :
    (receiveCka n k s).frame = s.frame := by
  unfold receiveCka
  dsimp only
  repeat' split
  all_goals simp

@[simp] theorem expireCheck_frame (n : Line) (s : State) :
    (expireCheck n s).frame = s.frame := by
  unfold expireCheck
  dsimp only
  repeat' split
  all_goals simp

/-! ## Receivers -/

@[simp] theorem enterHunt_frame (n : Line) (s : State) :
    (enterHunt n s).frame = s.frame := by
  unfold enterHunt
  simp

@[simp] theorem enterDiscard_frame (n : Line) (s : State) :
    (enterDiscard n s).frame = s.frame := by
  unfold enterDiscard
  simp

@[simp] theorem dropHoldBack_frame (n : Line) (s : State) :
    (dropHoldBack n s).frame = s.frame := by
  unfold dropHoldBack
  simp

@[simp] theorem abandonReception_frame (n : Line) (st : RxState) (s : State) :
    (abandonReception n st s).frame = s.frame := by
  unfold abandonReception
  dsimp only
  split <;> simp

@[simp] theorem recoverReceiver_frame (n : Line) (s : State) :
    (recoverReceiver n s).frame = s.frame := by
  unfold recoverReceiver
  repeat' split
  all_goals simp

@[simp] theorem recoverReceivers_frame (s : State) :
    (recoverReceivers s).frame = s.frame := by
  unfold recoverReceivers
  simp

@[simp] theorem startReceiver_frame (n : Line) (s : State) :
    (startReceiver n s).frame = s.frame := by
  unfold startReceiver
  simp

@[simp] theorem stopReceiver_frame (n : Line) (s : State) :
    (stopReceiver n s).frame = s.frame := by
  unfold stopReceiver
  simp

@[simp] theorem putChar_frame (n : Line) (k : Buffer) (t : TransitId) (c : OfficeChar) (s : State) :
    (putChar n k t c s).frame = s.frame := by
  unfold putChar
  dsimp only
  split <;> simp

@[simp] theorem storeChar_frame (n : Line) (c : OfficeChar) (s : State) : (storeChar n c s).1.frame = s.frame := by
  unfold storeChar
  dsimp only
  repeat' split
  all_goals try (simp; done)
  rename_i h
  simp only [putChar_frame]
  exact (allocateBlock_frame h).1


@[simp] theorem flushFilling_frame (n : Line) (s : State) :
    (flushFilling n s).frame = s.frame := by
  unfold flushFilling
  dsimp only
  split <;> simp

@[simp] theorem checkSequence_frame (n : Line) (t : TransitId) (k : Nat) (s : State) :
    (checkSequence n t k s).frame = s.frame := by
  unfold checkSequence
  dsimp only
  split <;> simp

@[simp] theorem faultUnendedHeading_frame (n : Line) (t : TransitId) (s : State) :
    (faultUnendedHeading n t s).frame = s.frame := by
  unfold faultUnendedHeading
  dsimp only
  split <;> simp

@[simp] theorem completeEarly_frame (n : Line) (t : TransitId) (s : State) :
    (completeEarly n t s).frame = s.frame := by
  unfold completeEarly
  split <;> simp

@[simp] theorem resolveAndRelay_frame (t : TransitId) (a : List OfficeChar) (s : State) :
    (resolveAndRelay t a s).frame = s.frame := by
  unfold resolveAndRelay
  repeat' split
  all_goals simp

@[simp] theorem handOn_frame (t : TransitId) (a : List OfficeChar) (s : State) : (handOn t a s).1.frame = s.frame := by
  unfold handOn
  repeat' split
  all_goals first
    | simp; done
    | (simp only [resolveAndRelay_frame]; rfl)

@[simp] theorem completeMessage_frame (n : Line) (f : Flags → Flags) (s : State) :
    (completeMessage n f s).1.frame = s.frame := by
  unfold completeMessage
  dsimp only
  split
  · rfl
  · simp only [handOn_frame]
    split
    · split <;> simp
    · simp


@[simp] theorem dropMessage_frame (n : Line) (s : State) :
    (dropMessage n s).frame = s.frame := by
  unfold dropMessage
  dsimp only
  split <;> simp

@[simp] theorem refuseMessage_frame (n : Line) (s : State) :
    (refuseMessage n s).frame = s.frame := by
  unfold refuseMessage
  simp

@[simp] theorem losePool_frame (n : Line) (s : State) :
    (losePool n s).frame = s.frame := by
  unfold losePool
  simp

@[simp] theorem truncateMessage_frame (n : Line) (s : State) :
    (truncateMessage n s).frame = s.frame := by
  unfold truncateMessage
  simp

theorem storeThen_frame (n : Line) (c : OfficeChar) (k : State → State × Fate) (h : ∀ s, (k s).1.frame = s.frame)
    (s : State) : (storeThen n c k s).1.frame = s.frame := by
  unfold storeThen
  dsimp only
  split <;> simp [h]


@[simp] theorem enterService_frame (n : Line) (v : Service) (s : State) :
    (enterService n v s).frame = s.frame := by
  unfold enterService
  dsimp only
  split <;> simp

@[simp] theorem reserveTest_frame (n : Line) (r : Rank) (s : State) :
    (reserveTest n r s).1.frame = s.frame := by
  unfold reserveTest
  repeat' split
  all_goals simp

@[simp] theorem takeHeading_frame (n : Line) (h : HeadingCheck) (s : State) :
    (takeHeading n h s).1.frame = s.frame := by
  unfold takeHeading
  dsimp only
  repeat' split
  all_goals simp

@[simp] theorem endHeading_frame (n : Line) (s : State) :
    (endHeading n s).1.frame = s.frame := by
  unfold endHeading
  dsimp only
  repeat' split
  all_goals simp

@[simp] theorem assembleHeading_frame (n : Line) (c : OfficeChar) (s : State) :
    (assembleHeading n c s).1.frame = s.frame := by
  unfold assembleHeading
  dsimp only
  split
  · exact storeThen_frame n c _ (fun s => by split <;> simp) s
  · exact storeThen_frame n c _ (fun s => by simp) s

@[simp] theorem assembleAddress_frame (n : Line) (c : OfficeChar) (s : State) :
    (assembleAddress n c s).1.frame = s.frame := by
  unfold assembleAddress
  dsimp only
  split
  · exact storeThen_frame n c _ (fun s => by simp) s
  · split
    · rw [storeThen_frame n c _ (fun s => rfl)]
      simp only [State.modRx_frame]
      split <;> simp
    · exact storeThen_frame n c _ (fun s => by repeat' split
                                               all_goals simp) s

@[simp] theorem assemble_frame (n : Line) (c : OfficeChar) (s : State) : (assemble n c s).1.frame = s.frame := by
  unfold assemble
  split
  · simp
  · simp
  · exact storeThen_frame n c _ (fun s => rfl) s
  · rfl

@[simp] theorem releaseChars_frame (n : Line) (cs : List OfficeChar) (s : State) :
    (releaseChars n cs s).frame = s.frame :=
  foldl_frame _ (fun s c => assemble_frame n c s) _ _

@[simp] theorem askRecord_frame (n : Line) (s : State) : (askRecord n s).frame = s.frame := by
  unfold askRecord
  split
  · rename_i h
    dsimp only
    split <;> simp [(takeTransit_frame h).1]
  · simp


@[simp] theorem completeService_frame (n : Line) (s : State) :
    (completeService n s).frame = s.frame := by
  unfold completeService
  dsimp only
  repeat' split
  all_goals simp

@[simp] theorem closingActs_frame (n : Line) (s : State) :
    (closingActs n s).frame = s.frame := by
  unfold closingActs
  split <;> simp

@[simp] theorem openingActs_frame (n : Line) (s : State) :
    (openingActs n s).frame = s.frame := by
  unfold openingActs
  split <;> simp

@[simp] theorem receiverStateChanged_frame (n : Line) (was : RxState) (s : State) :
    (receiverStateChanged n was s).frame = s.frame := by
  unfold receiverStateChanged
  split <;> simp

theorem recognise_frame (n : Line) (cs : List OfficeChar) (f : Line → State → State)
    (h : ∀ n s, (f n s).frame = s.frame) (s : State) : (recognise n cs f s).frame = s.frame := by
  simp [recognise, h]

@[simp] theorem arriveWatching_frame (n : Line) (c : OfficeChar) (s : State) : (arriveWatching n c s).frame = s.frame := by
  unfold arriveWatching
  dsimp only
  split
  · exact recognise_frame _ _ _ closingActs_frame _
  · split
    · exact recognise_frame _ _ _ openingActs_frame _
    · simp


@[simp] theorem arrive_frame (n : Line) (c : OfficeChar) (s : State) :
    (arrive n c s).frame = s.frame := by
  unfold arrive
  split <;> simp

@[simp] theorem arriveBreak_frame (n : Line) (s : State) :
    (arriveBreak n s).frame = s.frame := by
  unfold arriveBreak
  dsimp only
  split <;> simp

@[simp] theorem takeWrite_frame (n : Line) (v : Word) (be : ByteEnables) (s : State) :
    (takeWrite n v be s).frame = s.frame := by
  unfold takeWrite
  dsimp only
  split <;> simp

@[simp] theorem expireReception_frame (n : Line) (s : State) :
    (expireReception n s).frame = s.frame := by
  unfold expireReception
  dsimp only
  repeat' split
  all_goals simp

end Sys2Proof.Machine
end

