-- ==== Sys2Proof/Laws/Relay.lean ====
section
/-! SUPPORT. What an operation of the relay can do, said once: `Does s t` is a run of the few changes below, and every
operation of Chapters 1 to 7 is such a run.  A law of the device that each of the changes keeps is kept by them all. -/
namespace Sys2Proof.Machine

/-- The numbers of one line (R124). -/
def LineState.numbers (l : LineState) : Prop :=
  (∀ k, l.rx.expectedIn = some k → isChannel k) ∧ isChannel l.tx.nextOut ∧ isChannel l.mon.checkNumber

/-- DEGRADED and the counters of one line (R132, R133). -/
def LineState.degradedOk (l : LineState) : Prop :=
  l.mon.degraded = aboveThreshold l.mon.counters l.entry ∧ (∀ k ∈ l.mon.counters.errors, k ≤ 65535) ∧
    l.mon.counters.fill ≤ 65535 ∧ l.mon.counters.stalledChars ≤ 65535

/-- Every channel number a record holds is one that the record held before, or 1 to 999. -/
def ChannelsFrom (s : State) (tr : Vector (Option Transit) 256) : Prop :=
  ∀ (id : TransitId) r k, tr[id] = some r → r.channel = some k →
    isChannel k ∨ ∃ r', s.transit? id = some r' ∧ r'.channel = some k

/-- The pool chain of a record: its first block, its last and their number (1.1). -/
@[simp] def Transit.chain (r : Transit) : Option Nat × Option Nat × Nat := (r.first, r.last, r.blocks)

/-- The pool chain of a record or of none. -/
def chainOf (r : Option Transit) : Option Nat × Option Nat × Nat := (r.map Transit.chain).getD (none, none, 0)

/-- Every record holds the pool chain that it held before; one that was free holds none. -/
def SameChains (s : State) (tr : Vector (Option Transit) 256) : Prop :=
  ∀ id : TransitId, chainOf tr[id] = chainOf (s.transit? id)

/-- The state once the head of the free-block chain has joined a transit's chain (R17). -/
def State.allocated (s : State) (t : TransitId) (r : Transit) (b : Nat) : State :=
  let s1 : State := { s with
    freeHead := if s.freeCount = 1 then none else s.nextBlock b
    freeTail := if s.freeCount = 1 then none else s.freeTail
    freeCount := s.freeCount - 1
    links := s.links.set b none }
  match r.last with
  | none => s1.setTransit t (some { r with first := some b, last := some b, blocks := 1 })
  | some l =>
    { s1 with links := s1.links.set l (some b) }.setTransit t (some { r with last := some b, blocks := r.blocks + 1 })

/-- What an operation of the relay can do. -/
inductive Does : State → State → Prop
  | refl (s : State) : Does s s
  | trans {a b c : State} : Does a b → Does b c → Does a c
  | entry (s : State) (e : FifoEntry) : e.isTableRead = false → Does s (decideEntry e s)
  | posts (s : State) (c : EventClass) : Does s (post c s)
  | waitDelivery (s : State) : Does s (s.wait .delivery)
  | delivery (s : State) : s.ringHasSlot = true → s.deliveryRoom = true → Does s (takeDelivery s)
  | transits (s : State) (tr : Vector (Option Transit) 256) : ChannelsFrom s tr → SameChains s tr →
      Does s { s with transits := tr }
  | copies (s : State) (x : Vector (Option Copy) 768) : Does s { s with copies := x }
  | lists (s : State) (hold : List CopyId) (wait : List TransitId) :
      Does s { s with holdList := hold, waitList := wait }
  | release (s : State) (t : TransitId) (r : Transit) : s.transit? t = some r →
      Does s (releaseChain r.first r.last r.blocks (s.setTransit t none))
  | allocate (s : State) (t : TransitId) (r : Transit) (b : Nat) : s.freeHead = some b → s.freeCount ≠ 0 →
      s.transit? t = some r → Does s (s.allocated t r b)
  | counts (s : State) (k : OfficeCounts) : Does s { s with counts := k }
  | line (s : State) (n : Line) (f : LineState → LineState) : (s.numbersLaw → (f (s.line n)).numbers) →
      ((s.line n).degradedOk → (f (s.line n)).degradedOk) → Does s (s.modLine n f)
  | error (s : State) (n : Line) (which : ErrorCounter) (d : Nat) : Does s (raiseError n which d s)
  | recent (s : State) (p : StationCode × Nat) : p ∉ s.recent → Does s { s with recent := addRecent s.recent p }
  | choice (s : State) : Does s { s with choices := s.choices + 1 }

/-! ## The changes themselves -/

theorem numbersLaw_line {s : State} (h : s.numbersLaw) (n : Line) : (s.line n).numbers := h.1 n

@[simp] theorem decideEntry_does {s0 s : State} (e : FifoEntry) (h : Does s0 s) (he : e.isTableRead = false) :
    Does s0 (decideEntry e s) := h.trans (.entry s e he)

@[simp] theorem post_does {s0 s : State} (c : EventClass) (h : Does s0 s) : Does s0 (post c s) := h.trans (.posts s c)

@[simp] theorem setCopy_does {s0 s : State} (c : CopyId) (x : Option Copy) (h : Does s0 s) : Does s0 (s.setCopy c x) :=
  h.trans (.copies s _)

@[simp] theorem modCopy_does {s0 s : State} (c : CopyId) (f : Copy → Copy) (h : Does s0 s) : Does s0 (s.modCopy c f) :=
  h.trans (.copies s _)

@[simp] theorem modCounts_does {s0 s : State} (f : OfficeCounts → OfficeCounts) (h : Does s0 s) :
    Does s0 (s.modCounts f) := h.trans (.counts s _)

theorem setTransit_does {s0 s : State} (t : TransitId) (r : Option Transit) (h : Does s0 s)
    (hr : ∀ x k, r = some x → x.channel = some k → isChannel k ∨ ∃ r', s.transit? t = some r' ∧ r'.channel = some k)
    (hc : chainOf r = chainOf (s.transit? t)) : Does s0 (s.setTransit t r) := by
  refine h.trans (.transits s _ ?_ ?_)
  · intro id x k hx hk
    by_cases e : id = t
    · subst e
      exact hr x k (by simpa using hx) hk
    · have : t.val ≠ id.val := fun q => e (Fin.ext q.symm)
      exact .inr ⟨x, by simpa [State.transit?, this] using hx, hk⟩
  · intro id
    by_cases e : id = t
    · subst e
      simpa using hc
    · have : t.val ≠ id.val := fun q => e (Fin.ext q.symm)
      simp [State.transit?, this]

@[simp] theorem modTransit_does {s0 s : State} (t : TransitId) (f : Transit → Transit) (h : Does s0 s)
    (hf : ∀ r, ((f r).channel = r.channel ∨ (f r).channel = none) ∧ (f r).first = r.first ∧ (f r).last = r.last ∧
      (f r).blocks = r.blocks) : Does s0 (s.modTransit t f) := by
  refine setTransit_does t _ h ?_ ?_
  · intro x k hx hk
    obtain ⟨r, hr, rfl⟩ := Option.map_eq_some_iff.mp hx
    rcases (hf r).1 with e | e
    · exact .inr ⟨r, hr, e ▸ hk⟩
    · rw [e] at hk
      cases hk
  · unfold chainOf
    cases s.transit? t with
    | none => rfl
    | some r =>
      obtain ⟨-, h1, h2, h3⟩ := hf r
      simp [h1, h2, h3]

/-- A record put back changed, its channel kept. -/
theorem setTransit_kept_does {s0 s : State} {t : TransitId} {r x : Transit} (h : Does s0 s) (hr : s.transit? t = some r)
    (hx : x.channel = r.channel) (hc : x.chain = r.chain := by rfl) : Does s0 (s.setTransit t (some x)) :=
  setTransit_does t _ h (fun y k e hk => by
    cases e
    exact .inr ⟨r, hr, hx ▸ hk⟩) (by rw [hr]; exact congrArg (fun c => (some c).getD (none, none, 0)) hc)

theorem modLine_does {s0 s : State} (n : Line) (f : LineState → LineState) (h : Does s0 s)
    (h1 : s.numbersLaw → (f (s.line n)).numbers) (h2 : (s.line n).degradedOk → (f (s.line n)).degradedOk) :
    Does s0 (s.modLine n f) := h.trans (.line s n f h1 h2)

@[simp] theorem setQueue_does {s0 s : State} (n : Line) (q : List CopyId) (h : Does s0 s) : Does s0 (s.setQueue n q) :=
  modLine_does n _ h (fun w => numbersLaw_line w n) id

@[simp] theorem modRx_does {s0 s : State} (n : Line) (f : Receiver → Receiver) (h : Does s0 s)
    (hf : ∀ r, (f r).expectedIn = r.expectedIn) : Does s0 (s.modRx n f) :=
  modLine_does n _ h (fun w => ⟨fun k hk => (w.1 n).1 k (by rw [← hf]; exact hk), (w.1 n).2⟩) id

theorem isChannel_nextNumber {k : Nat} (h : isChannel k) : isChannel (nextNumber k) := by
  unfold isChannel nextNumber at *
  split <;> omega

@[simp] theorem modTx_does {s0 s : State} (n : Line) (f : Transmitter → Transmitter) (h : Does s0 s)
    (hf : ∀ t, (f t).nextOut = t.nextOut ∨ (f t).nextOut = nextNumber t.nextOut) : Does s0 (s.modTx n f) :=
  modLine_does n _ h (fun w => ⟨(w.1 n).1, by
    rcases hf (s.tx n) with e | e
    · exact e ▸ (w.1 n).2.1
    · exact e ▸ isChannel_nextNumber (w.1 n).2.1, (w.1 n).2.2⟩) id

@[simp] theorem modMon_does {s0 s : State} (n : Line) (f : Monitor → Monitor) (h : Does s0 s)
    (h1 : ∀ m, (f m).degraded = m.degraded) (h2 : ∀ m, (f m).counters = m.counters)
    (h3 : ∀ m, (f m).checkNumber = m.checkNumber ∨ (f m).checkNumber = nextNumber m.checkNumber) :
    Does s0 (s.modMon n f) :=
  modLine_does n _ h (fun w => ⟨(w.1 n).1, (w.1 n).2.1, by
    rcases h3 (s.mon n) with e | e
    · exact e ▸ (w.1 n).2.2
    · exact e ▸ isChannel_nextNumber (w.1 n).2.2⟩) (fun d => by
    unfold LineState.degradedOk at *
    simpa [h1, h2] using d)

@[simp] theorem raiseError_does {s0 s : State} (n : Line) (which : ErrorCounter) (d : Nat) (h : Does s0 s) :
    Does s0 (raiseError n which d s) := h.trans (.error s n which d)

theorem sat16_le (n d : Nat) : sat16 n d ≤ 65535 := Nat.min_le_left ..

@[simp] theorem raiseFill_does {s0 s : State} (n : Line) (h : Does s0 s) : Does s0 (raiseFill n s) := by
  unfold raiseFill
  exact modLine_does n _ h (fun w => numbersLaw_line w n) (fun d => ⟨d.1, d.2.1, sat16_le _ _, d.2.2.2⟩)

@[simp] theorem raiseStalledChars_does {s0 s : State} (n : Line) (h : Does s0 s) :
    Does s0 (raiseStalledChars n s) := by
  unfold raiseStalledChars
  exact modLine_does n _ h (fun w => numbersLaw_line w n) (fun d => ⟨d.1, d.2.1, d.2.2.1, sat16_le _ _⟩)

theorem foldl_does {α : Type} {s0 : State} (f : State → α → State) (hf : ∀ s a, Does s0 s → Does s0 (f s a)) (l : List α)
    {s : State} (h : Does s0 s) : Does s0 (l.foldl f s) := by
  induction l generalizing s with
  | nil => exact h
  | cons a l ih => exact ih (hf s a h)

@[simp] theorem FifoEntry.isTableRead_textWrite (n : Line) (k : Buffer) (a : Nat) (cs : Vector OfficeChar 60) :
    (FifoEntry.textWrite n k a cs).isTableRead = false := id rfl
@[simp] theorem FifoEntry.isTableRead_textRead (n : Line) (k : Buffer) (a : Nat) :
    (FifoEntry.textRead n k a).isTableRead = false := id rfl
@[simp] theorem Receiver.clear_expectedIn (r : Receiver) (st : RxState) : (r.clear st).expectedIn = r.expectedIn := id rfl
@[simp] theorem Receiver.dropFilling_expectedIn (r : Receiver) : r.dropFilling.expectedIn = r.expectedIn := id rfl
@[simp] theorem Receiver.setBuf_expectedIn (r : Receiver) (k : Buffer) (x : BlockBuffer) :
    (r.setBuf k x).expectedIn = r.expectedIn := id rfl
@[simp] theorem Transmitter.emptyBuffers_nextOut (t : Transmitter) : t.emptyBuffers.nextOut = t.nextOut := id rfl
@[simp] theorem Transmitter.setBuf_nextOut (t : Transmitter) (k : Buffer) (x : TextBuffer) :
    (t.setBuf k x).nextOut = t.nextOut := id rfl

/-! ## The operations -/

@[simp] theorem decideStateWord_does {s0 s : State} (w : StateWord) (h : Does s0 s) :
    Does s0 (decideStateWord w s) := by
  unfold decideStateWord
  split
  · exact h
  · exact decideEntry_does _ h rfl

@[simp] theorem decideState_does {s0 s : State} (w : StateWord) (h : Does s0 s) : Does s0 (decideState w s) := by
  unfold decideState
  split
  · split
    · exact h
    · exact decideStateWord_does _ (decideEntry_does _ h rfl)
  · exact decideStateWord_does _ h

@[simp] theorem freeCountsChanged_does {s0 s : State} (h : Does s0 s) : Does s0 (freeCountsChanged s) :=
  decideState_does _ h

@[simp] theorem copyCountsChanged_does {s0 s : State} (h : Does s0 s) : Does s0 (copyCountsChanged s) :=
  decideState_does _ h

@[simp] theorem queueChanged_does {s0 s : State} (n : Line) (h : Does s0 s) : Does s0 (queueChanged n s) :=
  decideState_does _ h

@[simp] theorem holdListChanged_does {s0 s : State} (h : Does s0 s) : Does s0 (holdListChanged s) :=
  decideState_does _ h

@[simp] theorem settle_does {s0 s : State} (old : State) (h : Does s0 s) : Does s0 (settle old s) :=
  foldl_does _ (fun s w h => decideState_does w h) _ h

@[simp] theorem rewriteLine_does {s0 s : State} (n : Line) (is : List (Fin 8)) (h : Does s0 s) : Does s0 (rewriteLine n is s) :=
  foldl_does _ (fun _ i h => decideState_does (.line n i) h) _ h

theorem forCircuits_does {s0 s : State} (f : Line → State → State) (h : Does s0 s)
    (hf : ∀ n s, Does s0 s → Does s0 (f n s)) : Does s0 (s.forCircuits f) :=
  foldl_does _ (fun s n h => hf n s h) _ h

theorem allocateBlock_does {s0 s s' : State} {t : TransitId} {b : Nat} (h : Does s0 s)
    (e : allocateBlock t s = some (b, s')) : Does s0 s' := by
  unfold allocateBlock at e
  dsimp only at e
  split at e
  · rename_i hr hb
    split at e
    · cases e
    · rename_i hc
      have g := h.trans (.allocate s t _ _ hr hc hb)
      unfold State.allocated at g
      split at e
      · rename_i hl
        rw [hl] at g
        cases e
        exact freeCountsChanged_does g
      · rename_i hl
        rw [hl] at g
        cases e
        exact freeCountsChanged_does (decideEntry_does _ g rfl)
  · cases e

/-- The place given is free. -/
theorem lowestFree_free {α : Type} {n : Nat} {v : Vector (Option α) n} {i : Fin n} (h : lowestFree v = some i) :
    v[i] = none := by
  unfold lowestFree at h
  obtain ⟨j, hj, rfl⟩ := Option.map_eq_some_iff.mp h
  rw [List.findFinIdx?_eq_some_iff] at hj
  simpa using hj.1

theorem takeTransit_does {s0 s s' : State} {n : Line} {t : TransitId} (h : Does s0 s)
    (e : takeTransit n s = some (t, s')) : Does s0 s' := by
  unfold takeTransit at e
  split at e
  · cases e
  · cases e
    rename_i ht
    exact freeCountsChanged_does (setTransit_does _ _ h (fun x k hx hk => by cases hx; cases hk)
      (by rw [show s.transit? t = none from lowestFree_free ht]; rfl))

@[simp] theorem freeTransit_does {s0 s : State} (t : TransitId) (h : Does s0 s) : Does s0 (freeTransit t s) := by
  unfold freeTransit
  split
  · exact h
  · rename_i r hr
    have g := h.trans (.release s t r hr)
    dsimp only
    split
    · exact copyCountsChanged_does (freeCountsChanged_does (g.trans (.lists _ _ _)))
    · exact freeCountsChanged_does (g.trans (.lists _ _ _))

@[simp] theorem addReason_does {s0 s : State} (t : TransitId) (x : Reason) (h : Does s0 s) :
    Does s0 (addReason t x s) := by
  unfold addReason
  try dsimp only
  all_goals first
    | exact h
    | simp (maxDischargeDepth := 60) [h]

@[simp] theorem freeCopy_does {s0 s : State} (c : CopyId) (h : Does s0 s) : Does s0 (freeCopy c s) := by
  unfold freeCopy
  dsimp only
  split
  · exact h
  · split
    · exact copyCountsChanged_does (setCopy_does _ _ h)
    · rename_i r hr
      have := setTransit_kept_does (copyCountsChanged_does (setCopy_does _ none h)) hr
        (x := { r with pendingCopies := r.pendingCopies - 1 }) rfl
      split
      · exact freeTransit_does _ this
      · exact this

@[simp] theorem freeAll_does {s0 s : State} (cs : List CopyId) (h : Does s0 s) : Does s0 (freeAll cs s) := by
  induction cs generalizing s with
  | nil => exact h
  | cons c cs ih => exact ih (freeCopy_does c h)

theorem finish_does {s0 : State} {p : Placed} (h : Does s0 p.state) : Does s0 p.finish.1 := freeAll_does _ h

@[simp] theorem testOverdue_does {s0 s : State} (c : CopyId) (h : Does s0 s) :
    Does s0 (testOverdue c s) := by
  unfold testOverdue
  try dsimp only
  repeat' split
  all_goals first
    | exact h
    | simp (maxDischargeDepth := 60) [h]

@[simp] theorem startCut_does {s0 s : State} (n : Line) (b : Bool) (h : Does s0 s) :
    Does s0 (startCut n b s) := by
  unfold startCut
  try dsimp only
  all_goals first
    | exact h
    | simp (maxDischargeDepth := 60) [h]

@[simp] theorem cutTest_does {s0 s : State} (n : Line) (h : Does s0 s) :
    Does s0 (cutTest n s) := by
  unfold cutTest
  try dsimp only
  repeat' split
  all_goals first
    | exact h
    | simp (maxDischargeDepth := 60) [h]

@[simp] theorem deliverLoop_does {s0 s : State} (k : Nat) (h : Does s0 s) : Does s0 (deliverLoop k s) := by
  induction k generalizing s with
  | zero => exact h
  | succ k ih =>
    unfold deliverLoop
    split
    · exact h
    · rename_i hs
      simp only [Bool.or_eq_true, not_or, Bool.not_eq_true, Bool.not_eq_false'] at hs
      split
      · exact ih (queueChanged_does 0 (h.trans (.delivery s (by simpa using hs.2) ‹_›)))
      · split
        · exact h
        · exact h.trans (.waitDelivery s)

@[simp] theorem deliver_does {s0 s : State}  (h : Does s0 s) :
    Does s0 (deliver s) := by
  unfold deliver
  try dsimp only
  all_goals first
    | exact h
    | simp (maxDischargeDepth := 60) [h]

@[simp] theorem afterPlacement_does {s0 s : State} (n : Line) (r : Rank) (h : Does s0 s) :
    Does s0 (afterPlacement n r s) := by
  unfold afterPlacement
  try dsimp only
  repeat' split
  all_goals first
    | exact h
    | simp (maxDischargeDepth := 60) [h]

@[simp] theorem placeInQueue_does {s0 s : State} (n : Line) (c : CopyId) (b : Bool) (h : Does s0 s) :
    Does s0 (placeInQueue n c b s).state := by
  unfold placeInQueue
  try dsimp only
  repeat' split
  all_goals first
    | exact h
    | simp (maxDischargeDepth := 60) [h]

@[simp] theorem countRoute_does {s0 s : State} (r : Route) (h : Does s0 s) :
    Does s0 (countRoute r s) := by
  unfold countRoute
  try dsimp only
  repeat' split
  all_goals first
    | exact h
    | simp (maxDischargeDepth := 60) [h]

@[simp] theorem placeOnCircuit_does {s0 s : State} (n : Line) (c : CopyId) (h : Does s0 s) :
    Does s0 (placeOnCircuit n c s).state := by
  unfold placeOnCircuit
  try dsimp only
  repeat' split
  all_goals first
    | exact h
    | simp (maxDischargeDepth := 60) [h]

@[simp] theorem placeLocally_does {s0 s : State} (c : CopyId) (h : Does s0 s) :
    Does s0 (placeLocally c s).state := by
  unfold placeLocally
  try dsimp only
  all_goals first
    | exact h
    | simp (maxDischargeDepth := 60) [h]

@[simp] theorem holdCopy_does {s0 s : State} (c : CopyId) (k : Option Line) (h : Does s0 s) :
    Does s0 (holdCopy c k s) :=
  holdListChanged_does (post_does _ ((modCopy_does c _ h).trans (.lists _ _ _)))

@[simp] theorem placeOnHold_does {s0 s : State} (c : CopyId) (k : Option Line) (h : Does s0 s) :
    Does s0 (placeOnHold c k s).state := holdCopy_does c k h

@[simp] theorem placeGroup_does {s0 s : State} (c : CopyId) (d : Dest) (h : Does s0 s) :
    Does s0 (placeGroup c d s).state := by
  unfold placeGroup
  try dsimp only
  repeat' split
  all_goals first
    | exact h
    | simp (maxDischargeDepth := 60) [h]

@[simp] theorem placeGroups_does {s0 s : State} (l : List (CopyId × Dest)) (h : Does s0 s) : Does s0 (placeGroups l s).state := by
  induction l generalizing s with
  | nil => exact h
  | cons a l ih => exact ih (placeGroup_does _ _ h)

@[simp] theorem takeEntries_does {s0 s : State} (x : Copy) (l : List PlanItem) (h : Does s0 s) :
    Does s0 (takeEntries x l s).1 := by
  induction l generalizing s with
  | nil => exact h
  | cons a l ih =>
    rw [takeEntries]
    generalize lowestFree s.copies = o
    cases o with
    | none => exact h
    | some c => exact ih (copyCountsChanged_does (modTransit_does _ _ (setCopy_does _ _ h) (fun _ => ⟨.inl rfl, rfl, rfl, rfl⟩)))

@[simp] theorem moveOut_does {s0 s : State} (l : List Line) (c : CopyId) (x : Copy) (h : Does s0 s) :
    Does s0 (moveOut l c x s).state := by
  unfold moveOut
  dsimp only
  split
  · exact holdCopy_does _ _ h
  · exact placeGroup_does _ _ (setCopy_does _ _ h)
  · split
    · exact placeGroups_does _ (takeEntries_does _ _ (setCopy_does _ _ h))
    · exact holdCopy_does _ _ (post_does _ h)

@[simp] theorem unqueue_does {s0 s : State} (n : Line) (c : CopyId) (h : Does s0 s) :
    Does s0 (unqueue n c s) := by
  unfold unqueue
  try dsimp only
  all_goals first
    | exact h
    | simp (maxDischargeDepth := 60) [h]

@[simp] theorem lossCopy_does {s0 s : State} (n : Line) (c : CopyId) (h : Does s0 s) :
    Does s0 (lossCopy n c s).state := by
  unfold lossCopy
  try dsimp only
  repeat' split
  all_goals first
    | exact h
    | simp (maxDischargeDepth := 60) [h]

@[simp] theorem lossCopies_does {s0 s : State} (n : Line) (l : List CopyId) (h : Does s0 s) :
    Does s0 (lossCopies n l s).state := by
  induction l generalizing s with
  | nil => exact h
  | cons a l ih => exact ih (lossCopy_does _ _ h)

@[simp] theorem lossWalk_does {s0 s : State} (n : Line) (l : List CopyId) (h : Does s0 s) : Does s0 (lossWalk n l s).1 :=
  finish_does (lossCopies_does n l h)

@[simp] theorem unhold_does {s0 s : State} (c : CopyId) (h : Does s0 s) : Does s0 (unhold c s) :=
  holdListChanged_does (h.trans (.lists s _ _))

@[simp] theorem reexamineCopy_does {s0 s : State} (l : List Line) (c : CopyId) (h : Does s0 s) :
    Does s0 (reexamineCopy l c s).1.state := by
  unfold reexamineCopy
  dsimp only
  split
  · exact h
  · split
    · split
      · exact h
      · split
        · exact h
        · exact placeOnCircuit_does _ _ (unhold_does _ h)
    · split
      · exact h
      · split
        · exact placeGroups_does _ (takeEntries_does _ _ (setCopy_does _ _ (unhold_does _ h)))
        · exact post_does _ h
      · split
        · exact placeGroups_does _ (takeEntries_does _ _ (setCopy_does _ _ h))
        · exact post_does _ h

@[simp] theorem reexamineCopies_does {s0 s : State} (e : List Line) (l : List CopyId) (h : Does s0 s) :
    Does s0 (reexamineCopies e l s).1.state := by
  induction l generalizing s with
  | nil => exact h
  | cons a l ih => exact ih (reexamineCopy_does _ _ h)

@[simp] theorem reexamineWalk_does {s0 s : State} (e : List Line) (l : List CopyId) (h : Does s0 s) :
    Does s0 (reexamineWalk e l s).1 :=
  finish_does (reexamineCopies_does e l h)

@[simp] theorem reexamine_does {s0 s : State} (l : List Line) (h : Does s0 s) :
    Does s0 (reexamine l s).1 := by
  unfold reexamine
  try dsimp only
  all_goals first
    | exact h
    | simp (maxDischargeDepth := 60) [h]

@[simp] theorem reexamineIfInformOnly_does {s0 s : State} (l : List Line) (b : Bool) (h : Does s0 s) :
    Does s0 (reexamineIfInformOnly l b s) := by
  unfold reexamineIfInformOnly
  try dsimp only
  repeat' split
  all_goals first
    | exact h
    | simp (maxDischargeDepth := 60) [h]

@[simp] theorem allocateItems_does {s0 s : State} (t : TransitId) (l : List PlanItem) (h : Does s0 s) :
    Does s0 (allocateItems t l s).state := by
  induction l generalizing s with
  | nil => exact h
  | cons a l ih =>
    rw [allocateItems]
    generalize lowestFree s.copies = o
    cases o with
    | none => exact h
    | some c => exact ih (placeGroup_does _ _ (copyCountsChanged_does (setCopy_does _ _ h)))

theorem allocatePlan_does {s0 s : State} {t : TransitId} {tr : Transit} (l : List PlanItem) (h : Does s0 s)
    (ht : s.transit? t = some tr) : Does s0 (allocatePlan t tr l s).1 :=
  finish_does (allocateItems_does t l (copyCountsChanged_does
    ((modCounts_does _ (setTransit_kept_does h ht
      (x := { tr with state := .inTransit, pendingCopies := l.length, need := none }) rfl)).trans (.lists _ _ _))))

@[simp] theorem considerHead_does {s0 s : State} (h : Does s0 s) : Does s0 (considerHead s).1 := by
  unfold considerHead
  dsimp only
  split
  · exact h
  · split
    · exact h
    · rename_i tr ht
      split
      · exact h
      · split
        · exact reexamineIfInformOnly_does _ _ (allocatePlan_does _ h ht)
        · exact setTransit_kept_does h ht (x := { tr with need := some _ }) rfl

@[simp] theorem considerLoop_does {s0 s : State} (k : Nat) (h : Does s0 s) : Does s0 (considerLoop k s) := by
  induction k generalizing s with
  | zero => exact h
  | succ k ih =>
    unfold considerLoop
    dsimp only
    split
    · exact ih (considerHead_does h)
    · exact considerHead_does h

@[simp] theorem considerWaitList_does {s0 s : State}  (h : Does s0 s) :
    Does s0 (considerWaitList s) := by
  unfold considerWaitList
  try dsimp only
  all_goals first
    | exact h
    | simp (maxDischargeDepth := 60) [h]

theorem afterAction_does {s0 : State} (l : List Line) {r : State × Bool} (h : Does s0 r.1) : Does s0 (afterAction l r) :=
  considerWaitList_does (reexamineIfInformOnly_does l r.2 h)

@[simp] theorem lineLoss_does {s0 s : State} (n : Line) (h : Does s0 s) : Does s0 (lineLoss n s) :=
  afterAction_does _ (lossWalk_does _ _ h)

@[simp] theorem reexamineHoldList_does {s0 s : State}  (h : Does s0 s) :
    Does s0 (reexamineHoldList s).1 := by
  unfold reexamineHoldList
  try dsimp only
  all_goals first
    | exact h
    | simp (maxDischargeDepth := 60) [h]

@[simp] theorem relayTransit_does {s0 s : State} (t : TransitId) (h : Does s0 s) : Does s0 (relayTransit t s) := by
  unfold relayTransit
  dsimp only
  split
  · exact h
  · rename_i tr ht
    split
    · exact afterAction_does _ (allocatePlan_does _ h ht)
    · exact copyCountsChanged_does (post_does _
        ((setTransit_kept_does h ht (x := { tr with state := .waiting, need := some _ }) rfl).trans (.lists _ _ _)))

@[simp] theorem forgetShift_does {s0 s : State} (n : Line) (h : Does s0 s) : Does s0 (forgetShift n s) := by
  unfold forgetShift
  simp (maxDischargeDepth := 60) [h]

@[simp] theorem endMessage_does {s0 s : State} (n : Line) (st : TxState) (h : Does s0 s) :
    Does s0 (endMessage n st s) := by
  unfold endMessage
  try dsimp only
  all_goals first
    | exact h
    | simp (maxDischargeDepth := 60) [h]

@[simp] theorem returnCopy_does {s0 s : State} (n : Line) (c : CopyId) (h : Does s0 s) :
    Does s0 (returnCopy n c s) := by
  unfold returnCopy
  dsimp only
  split
  · exact h
  · have := fun x y d => testOverdue_does d (finish_does (placeInQueue_does n c true (setCopy_does x y h)))
    split
    · exact considerWaitList_does (this ..)
    · exact afterAction_does _ (lossWalk_does _ _ (this ..))

@[simp] theorem leaveSending_does {s0 s : State} (n : Line) (st : TxState) (b : Bool) (h : Does s0 s) :
    Does s0 (leaveSending n st b s) := by
  unfold leaveSending
  try dsimp only
  repeat' split
  all_goals first
    | exact h
    | simp (maxDischargeDepth := 60) [h]

@[simp] theorem startTimer_does {s0 s : State} (n : Line) (k : Nat) (h : Does s0 s) :
    Does s0 (startTimer n k s) := by
  unfold startTimer
  try dsimp only
  repeat' split
  all_goals first
    | exact h
    | simp (maxDischargeDepth := 60) [h]

@[simp] theorem abandonService_does {s0 s : State} (n : Line) (h : Does s0 s) :
    Does s0 (abandonService n s) := by
  unfold abandonService
  try dsimp only
  repeat' split
  all_goals first
    | exact h
    | simp (maxDischargeDepth := 60) [h]

@[simp] theorem decideTextRead_does {s0 s : State} (n : Line) (k : Buffer) (t : Transit) (p : Nat) (h : Does s0 s) :
    Does s0 (decideTextRead n k t p s) := by
  unfold decideTextRead
  try dsimp only
  repeat' split
  all_goals first
    | exact h
    | simp (maxDischargeDepth := 60) [h]

@[simp] theorem enterSending_does {s0 s : State} (n : Line) (c : CopyId) (h : Does s0 s) :
    Does s0 (enterSending n c s) := by
  unfold enterSending
  try dsimp only
  repeat' split
  all_goals first
    | exact h
    | simp (maxDischargeDepth := 60) [h]

@[simp] theorem beginService_does {s0 s : State} (n : Line) (v : Service) (h : Does s0 s) :
    Does s0 (beginService n v s) := by
  unfold beginService
  try dsimp only
  all_goals first
    | exact h
    | simp (maxDischargeDepth := 60) [h]

@[simp] theorem beginCkq_does {s0 s : State} (n : Line) (h : Does s0 s) : Does s0 (beginCkq n s) := by
  unfold beginCkq
  dsimp only
  exact beginService_does _ _ (modLine_does n _ h
    (fun w => ⟨(w.1 n).1, (w.1 n).2.1, isChannel_nextNumber (w.1 n).2.2⟩) id)

@[simp] theorem beginCopy_does {s0 s : State} (n : Line) (h : Does s0 s) :
    Does s0 (beginCopy n s) := by
  unfold beginCopy
  try dsimp only
  repeat' split
  all_goals first
    | exact h
    | simp (maxDischargeDepth := 60) [h]

@[simp] theorem choose_does {s0 s : State} (n : Line) (h : Does s0 s) :
    Does s0 (choose n s) := by
  unfold choose
  try dsimp only
  repeat' split
  all_goals first
    | exact h
    | simp (maxDischargeDepth := 60) [h]

@[simp] theorem endCopy_does {s0 s : State} (n : Line) (h : Does s0 s) :
    Does s0 (endCopy n s) := by
  unfold endCopy
  try dsimp only
  repeat' split
  all_goals first
    | exact h
    | simp (maxDischargeDepth := 60) [h]

@[simp] theorem endService_does {s0 s : State} (n : Line) (v : Service) (h : Does s0 s) :
    Does s0 (endService n v s) := by
  unfold endService
  try dsimp only
  repeat' split
  all_goals first
    | exact h
    | simp (maxDischargeDepth := 60) [h]

@[simp] theorem afterBodyChar_does {s0 s : State} (n : Line) (t : Transit) (p : Nat) (h : Does s0 s) :
    Does s0 (afterBodyChar n t p s) := by
  unfold afterBodyChar
  try dsimp only
  repeat' split
  all_goals first
    | exact h
    | simp (maxDischargeDepth := 60) [h]

@[simp] theorem advance_does {s0 s : State} (n : Line) (h : Does s0 s) :
    Does s0 (advance n s) := by
  unfold advance
  try dsimp only
  repeat' split
  all_goals first
    | exact h
    | simp (maxDischargeDepth := 60) [h]

@[simp] theorem stampOffered_does {s0 s : State} (n : Line) (h : Does s0 s) :
    Does s0 (stampOffered n s) := by
  unfold stampOffered
  try dsimp only
  all_goals first
    | exact h
    | simp (maxDischargeDepth := 60) [h]

@[simp] theorem giveFill_does {s0 s : State} (n : Line) (h : Does s0 s) :
    Does s0 (giveFill n s).1 := by
  unfold giveFill
  try dsimp only
  all_goals first
    | exact h
    | simp (maxDischargeDepth := 60) [h]

@[simp] theorem giveChar_does {s0 s : State} (n : Line) (c : OfficeChar) (k : Byte) (h : Does s0 s) :
    Does s0 (giveChar n c k s).1 := by
  unfold giveChar
  try dsimp only
  all_goals first
    | exact h
    | simp (maxDischargeDepth := 60) [h]

@[simp] theorem giveDue_does {s0 s : State} (n : Line) (h : Does s0 s) :
    Does s0 (giveDue n s).1 := by
  unfold giveDue
  try dsimp only
  repeat' split
  all_goals first
    | exact h
    | simp (maxDischargeDepth := 60) [h]

@[simp] theorem readSendCell_does {s0 s : State} (n : Line) (h : Does s0 s) :
    Does s0 (readSendCell n s).1 := by
  unfold readSendCell
  try dsimp only
  repeat' split
  all_goals first
    | exact h
    | simp (maxDischargeDepth := 60) [h]

@[simp] theorem testPeriod_does {s0 s : State} (n : Line) (h : Does s0 s) :
    Does s0 (testPeriod n s).1 := by
  unfold testPeriod
  try dsimp only
  repeat' split
  all_goals first
    | exact h
    | simp (maxDischargeDepth := 60) [h]

@[simp] theorem startTransmitter_does {s0 s : State} (n : Line) (h : Does s0 s) :
    Does s0 (startTransmitter n s) := by
  unfold startTransmitter
  try dsimp only
  all_goals first
    | exact h
    | simp (maxDischargeDepth := 60) [h]

@[simp] theorem abandonMessage_does {s0 s : State} (n : Line) (b : Bool) (h : Does s0 s) :
    Does s0 (abandonMessage n b s) := by
  unfold abandonMessage
  try dsimp only
  all_goals first
    | exact h
    | simp (maxDischargeDepth := 60) [h]

@[simp] theorem tellSuspect_does {s0 s : State} (n : Line) (h : Does s0 s) :
    Does s0 (tellSuspect n s) := by
  unfold tellSuspect
  try dsimp only
  repeat' split
  all_goals first
    | exact h
    | simp (maxDischargeDepth := 60) [h]

@[simp] theorem changeCondition_does {s0 s : State} (n : Line) (c : Condition) (h : Does s0 s) :
    Does s0 (changeCondition n c s) := by
  unfold changeCondition
  exact modLine_does n _ h (fun w => numbersLaw_line w n) id

@[simp] theorem setCondition_does {s0 s : State} (n : Line) (c : Condition) (h : Does s0 s) :
    Does s0 (setCondition n c s) := by
  unfold setCondition
  try dsimp only
  all_goals first
    | exact h
    | simp (maxDischargeDepth := 60) [h]

@[simp] theorem becomeActive_does {s0 s : State} (n : Line) (h : Does s0 s) :
    Does s0 (becomeActive n s) := by
  unfold becomeActive
  try dsimp only
  repeat' split
  all_goals first
    | exact h
    | simp (maxDischargeDepth := 60) [h]

@[simp] theorem becomeSuspect_does {s0 s : State} (n : Line) (h : Does s0 s) :
    Does s0 (becomeSuspect n s) := by
  unfold becomeSuspect
  try dsimp only
  all_goals first
    | exact h
    | simp (maxDischargeDepth := 60) [h]

@[simp] theorem makeSuspect_does {s0 s : State} (n : Line) (h : Does s0 s) :
    Does s0 (makeSuspect n s) := by
  unfold makeSuspect
  try dsimp only
  repeat' split
  all_goals first
    | exact h
    | simp (maxDischargeDepth := 60) [h]

@[simp] theorem recoverTransmitter_does {s0 s : State} (n : Line) (h : Does s0 s) :
    Does s0 (recoverTransmitter n s) := by
  unfold recoverTransmitter
  try dsimp only
  repeat' split
  all_goals first
    | exact h
    | simp (maxDischargeDepth := 60) [h]

@[simp] theorem recoverTransmitters_does {s0 s : State} (h : Does s0 s) : Does s0 (recoverTransmitters s) :=
  forCircuits_does _ h (fun n _ h => recoverTransmitter_does n h)

@[simp] theorem stallTransmitter_does {s0 s : State} (n : Line) (h : Does s0 s) : Does s0 (stallTransmitter n s) := by
  unfold stallTransmitter
  dsimp only
  have := post_does .txStall (modTx_does n
    (fun t => { t with state := .stalled, stalledFrom := some t.state, slot := none }) h (fun t => .inl rfl))
  split
  · exact recoverTransmitters_does this
  · exact this

@[simp] theorem tellBreak_does {s0 s : State} (n : Line) (h : Does s0 s) :
    Does s0 (tellBreak n s) := by
  unfold tellBreak
  try dsimp only
  repeat' split
  all_goals first
    | exact h
    | simp (maxDischargeDepth := 60) [h]

@[simp] theorem reportBreak_does {s0 s : State} (n : Line) (h : Does s0 s) :
    Does s0 (reportBreak n s) := by
  unfold reportBreak
  try dsimp only
  all_goals first
    | exact h
    | simp (maxDischargeDepth := 60) [h]

@[simp] theorem receiveCkq_does {s0 s : State} (n : Line) (k : Nat) (h : Does s0 s) :
    Does s0 (receiveCkq n k s) := by
  unfold receiveCkq
  try dsimp only
  all_goals first
    | exact h
    | simp (maxDischargeDepth := 60) [h]

@[simp] theorem receiveCka_does {s0 s : State} (n : Line) (k : Nat) (h : Does s0 s) :
    Does s0 (receiveCka n k s) := by
  unfold receiveCka
  try dsimp only
  repeat' split
  all_goals first
    | exact h
    | simp (maxDischargeDepth := 60) [h]

@[simp] theorem expireCheck_does {s0 s : State} (n : Line) (h : Does s0 s) :
    Does s0 (expireCheck n s) := by
  unfold expireCheck
  try dsimp only
  repeat' split
  all_goals first
    | exact h
    | simp (maxDischargeDepth := 60) [h]

@[simp] theorem enterHunt_does {s0 s : State} (n : Line) (h : Does s0 s) :
    Does s0 (enterHunt n s) := by
  unfold enterHunt
  try dsimp only
  all_goals first
    | exact h
    | simp (maxDischargeDepth := 60) [h]

@[simp] theorem enterDiscard_does {s0 s : State} (n : Line) (h : Does s0 s) :
    Does s0 (enterDiscard n s) := by
  unfold enterDiscard
  try dsimp only
  all_goals first
    | exact h
    | simp (maxDischargeDepth := 60) [h]

@[simp] theorem dropHoldBack_does {s0 s : State} (n : Line) (h : Does s0 s) : Does s0 (dropHoldBack n s) :=
  modRx_does n _ h (fun r => by split <;> rfl)

@[simp] theorem abandonReception_does {s0 s : State} (n : Line) (st : RxState) (h : Does s0 s) :
    Does s0 (abandonReception n st s) := by
  unfold abandonReception
  try dsimp only
  repeat' split
  all_goals first
    | exact h
    | simp (maxDischargeDepth := 60) [h]

@[simp] theorem recoverReceiver_does {s0 s : State} (n : Line) (h : Does s0 s) :
    Does s0 (recoverReceiver n s) := by
  unfold recoverReceiver
  try dsimp only
  repeat' split
  all_goals first
    | exact h
    | simp (maxDischargeDepth := 60) [h]

@[simp] theorem recoverReceivers_does {s0 s : State} (h : Does s0 s) : Does s0 (recoverReceivers s) :=
  forCircuits_does _ h (fun n _ h => recoverReceiver_does n h)

@[simp] theorem startReceiver_does {s0 s : State} (n : Line) (h : Does s0 s) :
    Does s0 (startReceiver n s) := by
  unfold startReceiver
  try dsimp only
  all_goals first
    | exact h
    | simp (maxDischargeDepth := 60) [h]

@[simp] theorem stopReceiver_does {s0 s : State} (n : Line) (h : Does s0 s) :
    Does s0 (stopReceiver n s) := by
  unfold stopReceiver
  try dsimp only
  all_goals first
    | exact h
    | simp (maxDischargeDepth := 60) [h]

@[simp] theorem putChar_does {s0 s : State} (n : Line) (k : Buffer) (t : TransitId) (c : OfficeChar) (h : Does s0 s) :
    Does s0 (putChar n k t c s) := by
  unfold putChar
  try dsimp only
  repeat' split
  all_goals first
    | exact h
    | simp (maxDischargeDepth := 60) [h]

@[simp] theorem storeChar_does {s0 s : State} (n : Line) (c : OfficeChar) (h : Does s0 s) :
    Does s0 (storeChar n c s).1 := by
  unfold storeChar
  dsimp only
  repeat' split
  all_goals try first
    | exact h
    | (simp (maxDischargeDepth := 60) [h]; done)
  rename_i e
  refine putChar_does _ _ _ _ (Does.trans ?_ (.choice _))
  exact modRx_does _ _ (allocateBlock_does h e) (fun r => rfl)

@[simp] theorem flushFilling_does {s0 s : State} (n : Line) (h : Does s0 s) :
    Does s0 (flushFilling n s) := by
  unfold flushFilling
  try dsimp only
  repeat' split
  all_goals first
    | exact h
    | simp (maxDischargeDepth := 60) [h]

@[simp] theorem post_transits (c : EventClass) (s : State) : (post c s).transits = s.transits := by
  have : ∀ e s, (decideEntry e s).transits = s.transits := fun e s => by unfold decideEntry; split <;> rfl
  unfold post decideState decideStateWord
  dsimp only
  split
  · rfl
  · split
    · rfl
    · rw [this]
      rfl

@[simp] theorem raiseError_transits (n : Line) (w : ErrorCounter) (d : Nat) (s : State) :
    (raiseError n w d s).transits = s.transits := by
  unfold raiseError recomputeDegraded
  dsimp only
  split
  · rw [post_transits]; rfl
  · rfl

/-- The expected-in number set from the channel number of a record. -/
theorem expectNext_does {s0 s : State} (n : Line) {t : TransitId} {r : Transit} {k : Nat} (h : Does s0 s)
    (ht : s.transit? t = some r) (hk : r.channel = some k) :
    Does s0 (s.modRx n (fun r => { r with expectedIn := some (nextNumber k) })) :=
  modLine_does n _ h (fun w => ⟨fun j hj => by
    cases hj
    exact isChannel_nextNumber (w.2 t r k ht hk), (w.1 n).2⟩) id

theorem checkSequence_does {s0 s : State} (n : Line) {t : TransitId} {r : Transit} {k : Nat} (h : Does s0 s)
    (ht : s.transit? t = some r) (hk : r.channel = some k) : Does s0 (checkSequence n t k s) := by
  unfold checkSequence
  dsimp only
  split
  · exact expectNext_does n h ht hk
  · exact expectNext_does n h ht hk
  · exact expectNext_does n (post_does _ (raiseError_does n _ _ h)) (by simpa [State.transit?] using ht) hk
  · exact h
  · refine expectNext_does n (t := t) (r := { r with
          flags := { r.flags with sequenceReset := true }
          reasons := r.reasons.add .sequenceReset })
      (post_does _ (modCounts_does _ (modTransit_does t _ h (fun _ => ⟨.inl rfl, rfl, rfl, rfl⟩)))) ?_ hk
    unfold State.transit?
    rw [post_transits]
    unfold State.modCounts State.modTransit State.setTransit
    simp [ht]

@[simp] theorem faultUnendedHeading_does {s0 s : State} (n : Line) (t : TransitId) (h : Does s0 s) :
    Does s0 (faultUnendedHeading n t s) := by
  unfold faultUnendedHeading
  try dsimp only
  repeat' split
  all_goals first
    | exact h
    | simp (maxDischargeDepth := 60) [h]

@[simp] theorem completeEarly_does {s0 s : State} (n : Line) (t : TransitId) (h : Does s0 s) :
    Does s0 (completeEarly n t s) := by
  unfold completeEarly
  try dsimp only
  repeat' split
  all_goals first
    | exact h
    | simp (maxDischargeDepth := 60) [h]

@[simp] theorem resolveAndRelay_does {s0 s : State} (t : TransitId) (a : List OfficeChar) (h : Does s0 s) :
    Does s0 (resolveAndRelay t a s) := by
  unfold resolveAndRelay
  split
  · exact h
  · rename_i r ht
    exact relayTransit_does t (setTransit_kept_does h ht rfl)

@[simp] theorem handOn_does {s0 s : State} (t : TransitId) (a : List OfficeChar) (h : Does s0 s) :
    Does s0 (handOn t a s).1 := by
  unfold handOn
  repeat' split
  all_goals try first
    | exact h
    | (simp (maxDischargeDepth := 60) [h]; done)
  rename_i hc
  exact resolveAndRelay_does _ _ (h.trans (.recent s _ (by simpa using hc)))

@[simp] theorem completeMessage_does {s0 s : State} (n : Line) (f : Flags → Flags) (h : Does s0 s) :
    Does s0 (completeMessage n f s).1 := by
  unfold completeMessage
  dsimp only
  split
  · exact h
  · rename_i t _
    have h4 := modRx_does n (fun r => { r with transit := none })
      (modTransit_does t (fun r => { r with reasons := r.flagReasons })
        (modTransit_does t (fun r => { r with flags := f r.flags })
          (completeEarly_does n t (flushFilling_does n h)) (fun _ => ⟨.inl rfl, rfl, rfl, rfl⟩)) (fun _ => ⟨.inl rfl, rfl, rfl, rfl⟩))
      (fun _ => rfl)
    revert h4
    generalize State.modRx _ _ _ = s4
    intro h4
    apply handOn_does
    cases ht : s4.transit? t with
    | none => exact h4
    | some r =>
      dsimp only
      cases hk : r.channel with
      | none => exact h4
      | some k =>
        dsimp only
        split
        · exact h4
        · exact checkSequence_does n h4 ht hk

@[simp] theorem dropMessage_does {s0 s : State} (n : Line) (h : Does s0 s) :
    Does s0 (dropMessage n s) := by
  unfold dropMessage
  try dsimp only
  repeat' split
  all_goals first
    | exact h
    | simp (maxDischargeDepth := 60) [h]

@[simp] theorem refuseMessage_does {s0 s : State} (n : Line) (h : Does s0 s) :
    Does s0 (refuseMessage n s) := by
  unfold refuseMessage
  try dsimp only
  all_goals first
    | exact h
    | simp (maxDischargeDepth := 60) [h]

@[simp] theorem losePool_does {s0 s : State} (n : Line) (h : Does s0 s) :
    Does s0 (losePool n s) := by
  unfold losePool
  try dsimp only
  all_goals first
    | exact h
    | simp (maxDischargeDepth := 60) [h]

@[simp] theorem truncateMessage_does {s0 s : State} (n : Line) (h : Does s0 s) : Does s0 (truncateMessage n s) :=
  enterDiscard_does n (completeMessage_does n _ h)

theorem storeThen_does {s0 s : State} (n : Line) (c : OfficeChar) (k : State → State × Fate) (h : Does s0 s)
    (hk : ∀ s, Does s0 s → Does s0 (k s).1) : Does s0 (storeThen n c k s).1 := by
  unfold storeThen
  dsimp only
  have := storeChar_does n c h
  split
  · exact hk _ this
  · exact hk _ this
  · exact truncateMessage_does n this
  · exact losePool_does n this

@[simp] theorem enterService_does {s0 s : State} (n : Line) (v : Service) (h : Does s0 s) :
    Does s0 (enterService n v s) := by
  unfold enterService
  try dsimp only
  repeat' split
  all_goals first
    | exact h
    | simp (maxDischargeDepth := 60) [h]

@[simp] theorem reserveTest_does {s0 s : State} (n : Line) (r : Rank) (h : Does s0 s) :
    Does s0 (reserveTest n r s).1 := by
  unfold reserveTest
  try dsimp only
  repeat' split
  all_goals first
    | exact h
    | simp (maxDischargeDepth := 60) [h]

theorem takeHeading_does {s0 s : State} (n : Line) (x : HeadingCheck) (h : Does s0 s)
    (hc : ∀ k, x.channel = some k → isChannel k) : Does s0 (takeHeading n x s).1 := by
  unfold takeHeading
  dsimp only
  split
  · exact h
  · rename_i t _
    have h1 : ∀ f : Transit → Transit, (∀ r, (f r).channel = x.channel) → (∀ r, (f r).chain = r.chain) →
        Does s0 (s.modTransit t f) := fun f hf hg =>
      setTransit_does t _ h (fun y k hy hk => by
        obtain ⟨r, _, rfl⟩ := Option.map_eq_some_iff.mp hy
        exact .inl (hc k (by rw [← hf r]; exact hk))) (by
          unfold chainOf
          cases s.transit? t with
          | none => rfl
          | some r => exact congrArg (fun c => (some c).getD (none, none, 0)) (hg r))
    split
    · exact reserveTest_does _ _ (h1 _ (fun _ => rfl) (fun _ => rfl))
    · exact reserveTest_does _ _ (raiseError_does _ _ _ (h1 _ (fun _ => rfl) (fun _ => rfl)))

theorem numberField_channel {f : List OfficeChar} {k : Nat} (h : numberField 3 1 999 f = some k) : isChannel k := by
  unfold numberField at h
  split at h
  · rename_i g
    simp only [Bool.and_eq_true, decide_eq_true_eq] at g
    cases h
    exact ⟨g.1.2, g.2⟩
  · cases h

theorem checkHeading_channel (d : List Byte) (cs : List OfficeChar) (b : Bool) (k : Nat)
    (h : (checkHeading d cs b).channel = some k) : isChannel k := by
  unfold checkHeading at h
  dsimp only at h
  split at h
  · cases h
  · split at h
    · exact numberField_channel h
    · cases h

theorem checkLocalHeading_channel (cs : List OfficeChar) (b : Bool) (k : Nat)
    (h : (checkLocalHeading cs b).channel = some k) : isChannel k := by
  unfold checkLocalHeading at h
  dsimp only at h
  split at h
  · cases h
  · split at h <;> cases h

@[simp] theorem endHeading_does {s0 s : State} (n : Line) (h : Does s0 s) : Does s0 (endHeading n s).1 := by
  unfold endHeading
  dsimp only
  split
  · exact takeHeading_does n _ h (checkLocalHeading_channel _ _)
  · split
    · exact enterService_does _ _ h
    · exact takeHeading_does n _ h (checkHeading_channel _ _ _)

@[simp] theorem assembleHeading_does {s0 s : State} (n : Line) (c : OfficeChar) (h : Does s0 s) :
    Does s0 (assembleHeading n c s).1 := by
  unfold assembleHeading
  dsimp only
  split
  · refine storeThen_does n c _ h (fun s h => ?_)
    split
    · exact endHeading_does n h
    · exact h
  · refine storeThen_does n c _ h (fun s h => ?_)
    exact modRx_does n (fun r => if r.heading.length < 40 then { r with heading := r.heading ++ [c] }
      else { r with overlong := true }) h (fun r => by split <;> rfl)

@[simp] theorem assembleAddress_does {s0 s : State} (n : Line) (c : OfficeChar) (h : Does s0 s) :
    Does s0 (assembleAddress n c s).1 := by
  unfold assembleAddress
  dsimp only
  split
  · refine storeThen_does n c _ h (fun s h => ?_)
    exact modRx_does n (fun r => { r with addressEnded := r.addressEnded || r.address != [] }) h (fun r => rfl)
  · split
    · refine storeThen_does n c _ (modRx_does n _ ?_ (fun r => rfl)) (fun s h => h)
      split
      · exact h
      · exact modTransit_does _ _ h (fun _ => ⟨.inl rfl, rfl, rfl, rfl⟩)
    · refine storeThen_does n c _ h (fun s h => ?_)
      split
      · exact modRx_does n (fun r => { r with address := r.address ++ [c] }) h (fun r => rfl)
      · split
        · exact h
        · exact addReason_does _ _ h

@[simp] theorem assemble_does {s0 s : State} (n : Line) (c : OfficeChar) (h : Does s0 s) :
    Does s0 (assemble n c s).1 := by
  unfold assemble
  split
  · exact assembleHeading_does n c h
  · exact assembleAddress_does n c h
  · exact storeThen_does n c _ h (fun s h => h)
  · exact h

@[simp] theorem releaseChars_does {s0 s : State} (n : Line) (cs : List OfficeChar) (h : Does s0 s) :
    Does s0 (releaseChars n cs s) :=
  foldl_does _ (fun s c h => assemble_does n c h) _ h

@[simp] theorem askRecord_does {s0 s : State} (n : Line) (h : Does s0 s) : Does s0 (askRecord n s) := by
  unfold askRecord
  split
  · rename_i t s1 e
    have := modRx_does n (fun r => { r.clear .heading with transit := some t }) (takeTransit_does h e) (fun r => rfl)
    dsimp only
    split
    · exact modTransit_does _ _ this (fun _ => ⟨.inl rfl, rfl, rfl, rfl⟩)
    · exact this
  · simp (maxDischargeDepth := 60) [h]

@[simp] theorem completeService_does {s0 s : State} (n : Line) (h : Does s0 s) :
    Does s0 (completeService n s) := by
  unfold completeService
  try dsimp only
  repeat' split
  all_goals first
    | exact h
    | simp (maxDischargeDepth := 60) [h]

@[simp] theorem closingActs_does {s0 s : State} (n : Line) (h : Does s0 s) :
    Does s0 (closingActs n s) := by
  unfold closingActs
  try dsimp only
  repeat' split
  all_goals first
    | exact h
    | simp (maxDischargeDepth := 60) [h]

@[simp] theorem openingActs_does {s0 s : State} (n : Line) (h : Does s0 s) :
    Does s0 (openingActs n s) := by
  unfold openingActs
  try dsimp only
  repeat' split
  all_goals first
    | exact h
    | simp (maxDischargeDepth := 60) [h]

theorem receiverStateChanged_does {s0 s : State} (n : Line) (was : RxState) (h : Does s0 s) :
    Does s0 (receiverStateChanged n was s) := by
  unfold receiverStateChanged
  split
  · exact h
  · exact decideState_does _ h

theorem recognise_does {s0 s : State} (n : Line) (cs : List OfficeChar) (f : Line → State → State) (h : Does s0 s)
    (hf : ∀ n s, Does s0 s → Does s0 (f n s)) : Does s0 (recognise n cs f s) :=
  hf _ _ (receiverStateChanged_does _ _ (releaseChars_does _ _ (modRx_does n _ h (fun r => rfl))))

theorem arriveWatching_does {s0 s : State} (n : Line) (c : OfficeChar) (h : Does s0 s) :
    Does s0 (arriveWatching n c s) := by
  unfold arriveWatching
  dsimp only
  split
  · exact recognise_does n _ _ h (fun n _ h => closingActs_does n h)
  · split
    · exact recognise_does n _ _ h (fun n _ h => openingActs_does n h)
    · exact dropHoldBack_does n (releaseChars_does n _
        (modLine_does n _ h (fun w => ⟨fun k hk => (w.1 n).1 k hk, (w.1 n).2⟩) id))

@[simp] theorem arrive_does {s0 s : State} (n : Line) (c : OfficeChar) (h : Does s0 s) : Does s0 (arrive n c s) := by
  unfold arrive
  split
  · exact h
  · exact raiseStalledChars_does n h
  · exact arriveWatching_does n c h

@[simp] theorem arriveBreak_does {s0 s : State} (n : Line) (h : Does s0 s) :
    Does s0 (arriveBreak n s) := by
  unfold arriveBreak
  try dsimp only
  repeat' split
  all_goals first
    | exact h
    | simp (maxDischargeDepth := 60) [h]

@[simp] theorem takeWrite_does {s0 s : State} (n : Line) (v : Word) (be : ByteEnables) (h : Does s0 s) :
    Does s0 (takeWrite n v be s) := by
  unfold takeWrite
  try dsimp only
  repeat' split
  all_goals first
    | exact h
    | simp (maxDischargeDepth := 60) [h]

@[simp] theorem expireReception_does {s0 s : State} (n : Line) (h : Does s0 s) : Does s0 (expireReception n s) := by
  unfold expireReception
  dsimp only
  have := post_does .rxStall (modRx_does n (fun r => { r with state := .stalled }) h (fun r => rfl))
  split
  · exact enterHunt_does _ h
  · split
    · exact recoverReceivers_does this
    · exact this

end Sys2Proof.Machine
end

