-- ==== Sys2Proof/Laws/Kept.lean ====
section
/-! SUPPORT. The laws of the device under the operations of the relay: each change of `Does` keeps them, so every operation
does.  What the own-access FIFO and the waiting list become is said once, as `Grows`. -/
namespace Sys2Proof.Machine

/-! ## What joins and what waits -/

/-- A waiter that an operation of the relay may add: neither the load pass nor one of its reads. -/
def Waiter.ofRelay : Waiter → Bool
  | .entry e => !e.isTableRead
  | .loadPass => false
  | _ => true

/-- The FIFO and the waiting list grow behind what was there, with nothing of the load pass; what was pending stays
pending; awaiting copies stay in front; the two indices stay within the ring. -/
structure Grows (s t : State) : Prop where
  entries : ∃ es, t.fifo = s.fifo ++ es ∧ ∀ e ∈ es, e.isTableRead = false
  waits : ∃ ws, t.waiting = s.waiting ++ ws ∧ ∀ w ∈ ws, w.ofRelay = true
  room : s.fifoLaw → t.fifoLaw
  pending : ∀ c : EventClass, s.isPending c = true → t.isPending c = true
  called : s.interruptLaw → t.interruptLaw
  awaits : ∃ more, t.awaiting = s.awaiting ++ more
  read : t.readIndex = s.readIndex
  ring : t.ringSize = s.ringSize
  filled : s.ringFill ≤ s.ringSize → t.ringFill ≤ t.ringSize

theorem Grows.refl (s : State) : Grows s s where
  entries := ⟨[], by simp⟩
  waits := ⟨[], by simp⟩
  room := id
  pending := fun _ => id
  called := id
  awaits := ⟨[], by simp⟩
  read := rfl
  ring := rfl
  filled := id

theorem Grows.trans {a b c : State} (h : Grows a b) (g : Grows b c) : Grows a c where
  entries := by
    obtain ⟨x, hx, px⟩ := h.entries
    obtain ⟨y, hy, py⟩ := g.entries
    refine ⟨x ++ y, by rw [hy, hx, List.append_assoc], fun e he => ?_⟩
    rcases List.mem_append.mp he with m | m
    · exact px e m
    · exact py e m
  waits := by
    obtain ⟨x, hx, px⟩ := h.waits
    obtain ⟨y, hy, py⟩ := g.waits
    refine ⟨x ++ y, by rw [hy, hx, List.append_assoc], fun e he => ?_⟩
    rcases List.mem_append.mp he with m | m
    · exact px e m
    · exact py e m
  room := fun w => g.room (h.room w)
  pending := fun k w => g.pending k (h.pending k w)
  called := fun w => g.called (h.called w)
  awaits := by
    obtain ⟨x, hx⟩ := h.awaits
    obtain ⟨y, hy⟩ := g.awaits
    exact ⟨x ++ y, by rw [hy, hx, List.append_assoc]⟩
  read := g.read.trans h.read
  ring := g.ring.trans h.ring
  filled := fun w => g.filled (h.filled w)

/-- A change that leaves all of this alone. -/
theorem Grows.of_eq {s t : State} (h1 : t.fifo = s.fifo) (h2 : t.waiting = s.waiting) (h3 : t.events = s.events)
    (h4 : t.interrupt = s.interrupt) (h5 : t.enableWord = s.enableWord) (h6 : t.awaiting = s.awaiting)
    (h7 : t.readIndex = s.readIndex) (h8 : t.writeIndex = s.writeIndex) (h9 : t.ringSize = s.ringSize) : Grows s t where
  entries := ⟨[], by simp [h1]⟩
  waits := ⟨[], by simp [h2]⟩
  room := fun w => by unfold State.fifoLaw at *; rwa [h1]
  pending := fun c w => by unfold State.isPending at *; rwa [h3]
  called := fun w => by unfold State.interruptLaw at *; rwa [h3, h4, h5]
  awaits := ⟨[], by simp [h6]⟩
  read := h7
  ring := h9
  filled := fun w => by unfold State.ringFill at *; rwa [h7, h8, h9]

theorem decideEntry_grows (e : FifoEntry) (s : State) (he : e.isTableRead = false) : Grows s (decideEntry e s) := by
  unfold decideEntry
  split
  · rename_i h
    refine { Grows.of_eq (s := s) (t := { s with waiting := s.waiting }) rfl rfl rfl rfl rfl rfl rfl rfl rfl with
      entries := ⟨[e], rfl, by simpa using he⟩
      room := fun _ => ?_ }
    unfold State.mayJoin at h
    simp only [Bool.and_eq_true, decide_eq_true_eq] at h
    unfold State.fifoLaw State.pushEntry
    simp only [List.length_append, List.length_singleton]
    exact h.1
  · exact { Grows.of_eq (s := s) (t := { s with fifo := s.fifo }) rfl rfl rfl rfl rfl rfl rfl rfl rfl with
      waits := ⟨[.entry e], rfl, by simp [Waiter.ofRelay, he]⟩ }

theorem decideStateWord_grows (w : StateWord) (s : State) : Grows s (decideStateWord w s) := by
  unfold decideStateWord
  split
  · exact .refl s
  · exact decideEntry_grows _ s rfl

theorem decideState_grows (w : StateWord) (s : State) : Grows s (decideState w s) := by
  unfold decideState
  split
  · split
    · exact .refl s
    · exact (decideEntry_grows _ s rfl).trans (decideStateWord_grows _ _)
  · exact decideStateWord_grows _ s

theorem EventClass.bit_inj {c d : EventClass} (h : c.bit = d.bit) : c = d := by
  cases c <;> cases d <;> first | rfl | cases h

theorem EventClass.bit_lt (c : EventClass) : c.bit < 13 := by cases c <;> decide

/-- The classes pending after one has been added to the set. -/
theorem isPending_setEvents_or (s : State) (c d : EventClass) :
    (s.setEvents (s.events ||| BitVec.twoPow 13 c.bit)).isPending d = (s.isPending d || d == c) := by
  unfold State.isPending State.setEvents
  simp only [BitVec.getLsbD_or, BitVec.getLsbD_twoPow]
  have hd := d.bit_lt
  by_cases e : d = c
  · subst e
    simp [hd]
  · have : c.bit ≠ d.bit := fun q => e (EventClass.bit_inj q.symm)
    simp [this, e]

theorem setEvents_grows (c : EventClass) (s : State) : Grows s (s.setEvents (s.events ||| BitVec.twoPow 13 c.bit)) :=
  { Grows.of_eq (s := s) (t := { s with events := s.events }) rfl rfl rfl rfl rfl rfl rfl rfl rfl with
    pending := fun d w => by rw [isPending_setEvents_or]; simp [w]
    called := fun _ => rfl }

theorem post_grows (c : EventClass) (s : State) : Grows s (post c s) := by
  unfold post
  split
  · exact .refl s
  · exact (setEvents_grows c s).trans (decideState_grows _ _)

theorem takeDelivery_grows (s : State) (h1 : s.ringHasSlot = true) (h2 : s.fifo.length + 2 ≤ Config.fifoCapacity) :
    Grows s (takeDelivery s) := by
  unfold takeDelivery
  dsimp only
  have base : ∀ q, Grows s (s.setQueue 0 q) := fun q => .of_eq rfl rfl rfl rfl rfl rfl rfl rfl rfl
  split
  · exact .refl s
  · split
    · exact base _
    · split
      · exact base _
      · refine Grows.trans (b := _) ?_ (post_grows _ _)
        have fill : (s.writeIndex + 1 - s.readIndex).toNat ≤ s.ringSize := by
          unfold State.ringHasSlot at h1
          simp only [decide_eq_true_eq] at h1
          have e : s.writeIndex + 1 - s.readIndex = (s.writeIndex - s.readIndex) + 1 := by
            simp only [BitVec.sub_eq_add_neg]
            ac_rfl
          rw [e, BitVec.toNat_add]
          exact (Nat.mod_le _ _).trans h1
        exact
          { entries := ⟨[_, _], List.append_assoc .., by simp [FifoEntry.isTableRead]⟩
            waits := ⟨[], by simp [State.modCopy, State.setCopy, State.pushEntry, State.setQueue, State.modLine]⟩
            room := fun _ => by
              unfold State.fifoLaw
              simpa [State.modCopy, State.setCopy, State.pushEntry, State.setQueue, State.modLine] using h2
            pending := fun c w => w
            called := fun w => w
            awaits := ⟨[_], rfl⟩
            read := rfl
            ring := rfl
            filled := fun _ => fill }

theorem recomputeDegraded_grows (n : Line) (s : State) : Grows s (recomputeDegraded n s) := by
  unfold recomputeDegraded
  dsimp only
  have : ∀ f, Grows s (s.modMon n f) := fun f => .of_eq rfl rfl rfl rfl rfl rfl rfl rfl rfl
  split
  · exact (this _).trans (post_grows _ _)
  · exact this _

theorem raiseError_grows (n : Line) (w : ErrorCounter) (d : Nat) (s : State) : Grows s (raiseError n w d s) := by
  unfold raiseError
  have : ∀ f, Grows s (s.modLine n f) := fun f => .of_eq rfl rfl rfl rfl rfl rfl rfl rfl rfl
  exact (this _).trans (recomputeDegraded_grows _ _)

/-- A release changes the pool chains alone. -/
theorem releaseChain_only (f l : Option Nat) (b : Nat) (s : State) : ∃ links head tail count,
    releaseChain f l b s = { s with links := links, freeHead := head, freeTail := tail, freeCount := count } := by
  unfold releaseChain
  split <;> exact ⟨_, _, _, _, rfl⟩

/-- An allocation changes the pool chains and one record alone. -/
theorem allocated_only (s : State) (t : TransitId) (r : Transit) (b : Nat) : ∃ links head tail count first,
    s.allocated t r b = { s with links := links, freeHead := head, freeTail := tail, freeCount := count }.setTransit t
      (some { r with first := first, last := some b, blocks := r.last.elim 0 (fun _ => r.blocks) + 1 }) := by
  unfold State.allocated
  dsimp only
  split <;> rename_i h <;> rw [h] <;> exact ⟨_, _, _, _, _, rfl⟩

/-- Every operation of the relay makes the FIFO and the waiting list grow. -/
theorem Does.grows {s t : State} (h : Does s t) : Grows s t := by
  induction h with
  | refl s => exact .refl s
  | trans _ _ h g => exact h.trans g
  | entry s e he => exact decideEntry_grows e s he
  | posts s c => exact post_grows c s
  | waitDelivery s =>
    exact { Grows.of_eq (s := s) (t := { s with fifo := s.fifo }) rfl rfl rfl rfl rfl rfl rfl rfl rfl with
      waits := ⟨[.delivery], rfl, by simp [Waiter.ofRelay]⟩ }
  | delivery s h1 h2 =>
    unfold State.deliveryRoom at h2
    simp only [Bool.and_eq_true, decide_eq_true_eq] at h2
    exact takeDelivery_grows s h1 h2.2
  | error s n w d => exact raiseError_grows n w d s
  | release s t r _ =>
    obtain ⟨_, _, _, _, e⟩ := releaseChain_only r.first r.last r.blocks (s.setTransit t none)
    rw [e]
    exact .of_eq rfl rfl rfl rfl rfl rfl rfl rfl rfl
  | allocate s t r b _ _ _ =>
    obtain ⟨_, _, _, _, _, e⟩ := allocated_only s t r b
    rw [e]
    exact .of_eq rfl rfl rfl rfl rfl rfl rfl rfl rfl
  | _ => exact .of_eq rfl rfl rfl rfl rfl rfl rfl rfl rfl

/-! ## The numbers of the lines -/

theorem numbersLaw_of_eq {s t : State} (h : s.numbersLaw) (hl : ∀ n, (t.line n).numbers)
    (ht : t.transits = s.transits) : t.numbersLaw :=
  ⟨hl, fun id r k hr hk => h.2 id r k (by unfold State.transit? at *; rwa [ht] at hr) hk⟩

theorem post_lines (c : EventClass) (s : State) : (post c s).lines = s.lines := by
  have : ∀ e s, (decideEntry e s).lines = s.lines := fun e s => by unfold decideEntry; split <;> rfl
  unfold post decideState decideStateWord
  dsimp only
  split
  · rfl
  · split
    · rfl
    · rw [this]
      rfl

theorem decideEntry_lines (e : FifoEntry) (s : State) : (decideEntry e s).lines = s.lines := by
  unfold decideEntry
  split <;> rfl

theorem decideEntry_transits (e : FifoEntry) (s : State) : (decideEntry e s).transits = s.transits := by
  unfold decideEntry
  split <;> rfl

/-- What an error counter's rise makes of the lines. -/
theorem raiseError_line (n m : Line) (w : ErrorCounter) (d : Nat) (s : State) :
    (raiseError n w d s).line m = if m = n then
      { s.line n with
        errorLatch := true
        mon := { (s.line n).mon with
          counters := (s.line n).mon.counters.raise w d
          degraded := aboveThreshold ((s.line n).mon.counters.raise w d) (s.line n).entry } }
    else s.line m := by
  unfold raiseError recomputeDegraded State.mon State.entry State.modMon
  dsimp only
  split
  · show (post _ _).lines[m] = _
    rw [post_lines]
    show (State.modLine _ _ _).line m = _
    by_cases e : m = n
    · subst e; simp
    · simp [State.line_modLine, e]
  · by_cases e : m = n
    · subst e; simp
    · simp [State.line_modLine, e]

theorem takeDelivery_kept (s : State) : (takeDelivery s).transits = s.transits ∧
    ∀ n, ∃ q, (takeDelivery s).line n = { s.line n with queue := q } := by
  have base : ∀ q, (s.setQueue 0 q).transits = s.transits ∧ ∀ n, ∃ p, (s.setQueue 0 q).line n = { s.line n with queue := p } := by
    refine fun q => ⟨rfl, fun n => ?_⟩
    unfold State.setQueue
    rw [State.line_modLine]
    split
    · rename_i e; subst e; exact ⟨_, rfl⟩
    · exact ⟨_, rfl⟩
  unfold takeDelivery
  dsimp only
  split
  · exact ⟨rfl, fun n => ⟨_, rfl⟩⟩
  · split
    · exact base _
    · split
      · exact base _
      · refine ⟨by rw [post_transits]; rfl, fun n => ?_⟩
        obtain ⟨p, hp⟩ := (base _).2 n
        refine ⟨p, Eq.trans ?_ hp⟩
        unfold State.line
        rw [post_lines]
        rfl

theorem numbersLaw_setTransit {s : State} (t : TransitId) (x : Option Transit) (w : s.numbersLaw)
    (hx : ∀ r k, x = some r → r.channel = some k → isChannel k) : (s.setTransit t x).numbersLaw := by
  refine ⟨w.1, fun id r k hr hk => ?_⟩
  by_cases e : id = t
  · subst e
    exact hx r k (by simpa [State.transit?, State.setTransit] using hr) hk
  · have : t.val ≠ id.val := fun q => e (Fin.ext q.symm)
    refine w.2 id r k ?_ hk
    simpa [State.transit?, State.setTransit, this] using hr

theorem Does.numbersLaw {s t : State} (h : Does s t) : s.numbersLaw → t.numbersLaw := by
  induction h with
  | trans _ _ h g => exact fun w => g (h w)
  | entry s e _ =>
    exact fun w => numbersLaw_of_eq w (fun n => by unfold State.line; rw [decideEntry_lines]; exact w.1 n)
      (decideEntry_transits e s)
  | posts s c =>
    exact fun w => numbersLaw_of_eq w (fun n => by unfold State.line; rw [post_lines]; exact w.1 n) (post_transits c s)
  | delivery s _ _ =>
    refine fun w => numbersLaw_of_eq w (fun n => ?_) (takeDelivery_kept s).1
    obtain ⟨q, hq⟩ := (takeDelivery_kept s).2 n
    rw [hq]
    exact w.1 n
  | release s t r _ =>
    obtain ⟨_, _, _, _, e⟩ := releaseChain_only r.first r.last r.blocks (s.setTransit t none)
    rw [e]
    exact fun w => numbersLaw_setTransit t none w (fun _ _ h => by cases h)
  | allocate s t r b _ _ hr =>
    obtain ⟨_, _, _, _, _, e⟩ := allocated_only s t r b
    rw [e]
    exact fun w => numbersLaw_setTransit t _ w (fun x k hx hk => by cases hx; exact w.2 t r k hr hk)
  | transits s tr ht _ =>
    refine fun w => ⟨w.1, fun id r k hr hk => ?_⟩
    rcases ht id r k hr hk with h | ⟨r', h1, h2⟩
    · exact h
    · exact w.2 id r' k h1 h2
  | line s n f h1 _ =>
    refine fun w => numbersLaw_of_eq w (fun m => ?_) rfl
    rw [State.line_modLine]
    split
    · exact h1 w
    · exact w.1 m
  | error s n which d =>
    refine fun w => numbersLaw_of_eq w (fun m => ?_) (raiseError_transits n which d s)
    rw [raiseError_line]
    split
    · rename_i e; subst e; exact w.1 m
    · exact w.1 m
  | _ => exact id

theorem Counters.raise_le {k : Counters} {w : ErrorCounter} {d : Nat} (h : ∀ x ∈ k.errors, x ≤ 65535) :
    ∀ x ∈ (k.raise w d).errors, x ≤ 65535 := by
  intro x hx
  simp only [Counters.errors, List.mem_cons, List.not_mem_nil, or_false] at h hx
  cases w <;> simp only [Counters.raise] at hx <;>
    rcases hx with e | e | e | e | e <;> subst e <;> first | exact sat16_le _ _ | exact h _ (by simp)

theorem Counters.raise_fill (k : Counters) (w : ErrorCounter) (d : Nat) :
    (k.raise w d).fill = k.fill ∧ (k.raise w d).stalledChars = k.stalledChars := by
  cases w <;> exact ⟨rfl, rfl⟩

theorem Does.degradedLaw {s t : State} (h : Does s t) : s.degradedLaw → t.degradedLaw := by
  induction h with
  | trans _ _ h g => exact fun w => g (h w)
  | entry s e _ => exact fun w n => by unfold State.mon State.entry State.line; rw [decideEntry_lines]; exact w n
  | posts s c => exact fun w n => by unfold State.mon State.entry State.line; rw [post_lines]; exact w n
  | delivery s _ _ =>
    intro w n
    obtain ⟨q, hq⟩ := (takeDelivery_kept s).2 n
    unfold State.mon State.entry
    rw [hq]
    exact w n
  | line s n f _ h2 =>
    intro w m
    unfold State.mon State.entry
    rw [State.line_modLine]
    split
    · exact h2 (w n)
    · exact w m
  | error s n which d =>
    intro w m
    unfold State.mon State.entry
    rw [raiseError_line]
    split
    · obtain ⟨_, h2, h3, h4⟩ := w n
      exact ⟨rfl, Counters.raise_le h2, le_of_eq_of_le (Counters.raise_fill _ _ _).1 h3,
        le_of_eq_of_le (Counters.raise_fill _ _ _).2 h4⟩
    · exact w m
  | release s t r _ =>
    obtain ⟨_, _, _, _, e⟩ := releaseChain_only r.first r.last r.blocks (s.setTransit t none)
    rw [e]
    exact id
  | allocate s t r b _ _ _ =>
    obtain ⟨_, _, _, _, _, e⟩ := allocated_only s t r b
    rw [e]
    exact id
  | _ => exact id

/-! ## The Recent-Origin List -/

theorem addRecent_law {l : List (StationCode × Nat)} {p : StationCode × Nat} (h : l.length ≤ 64 ∧ l.Nodup) (hp : p ∉ l) :
    (addRecent l p).length ≤ 64 ∧ (addRecent l p).Nodup := by
  unfold addRecent Config.recentOriginCapacity
  constructor
  · split <;> simp <;> omega
  · rw [List.nodup_append]
    refine ⟨?_, by simp, ?_⟩
    · split
      · exact h.2
      · exact h.2.sublist (List.drop_sublist _ _)
    · intro x hx y hy e
      simp only [List.mem_singleton] at hy
      subst e
      subst hy
      split at hx
      · exact hp hx
      · exact hp (List.mem_of_mem_drop hx)

theorem Does.recentLaw {s t : State} (h : Does s t) : s.recentLaw → t.recentLaw := by
  have post_recent : ∀ c s, (post c s).recent = s.recent := fun c s => congrArg Still.recent (post_still c s)
  induction h with
  | trans _ _ h g => exact fun w => g (h w)
  | entry s e _ =>
    intro w
    have e1 : (decideEntry e s).recent = s.recent := congrArg Still.recent (decideEntry_still e s)
    unfold State.recentLaw
    rw [e1]
    exact w
  | posts s c =>
    intro w
    unfold State.recentLaw
    rw [post_recent]
    exact w
  | delivery s _ _ =>
    intro w
    have e1 : (takeDelivery s).recent = s.recent := congrArg Still.recent (takeDelivery_still s)
    unfold State.recentLaw
    rw [e1]
    exact w
  | error s n which d =>
    intro w
    unfold State.recentLaw raiseError recomputeDegraded
    dsimp only
    split
    · rw [post_recent]; exact w
    · exact w
  | recent s p hp => exact fun w => addRecent_law w hp
  | release s t r _ =>
    obtain ⟨_, _, _, _, e⟩ := releaseChain_only r.first r.last r.blocks (s.setTransit t none)
    rw [e]
    exact id
  | allocate s t r b _ _ _ =>
    obtain ⟨_, _, _, _, _, e⟩ := allocated_only s t r b
    rw [e]
    exact id
  | _ => exact id

end Sys2Proof.Machine
end

