-- ==== Sys2Proof/Laws/Answer.lean ====
section
/-! SUPPORT. What deciding entries, posting a class, answering a command and the state writes of a step's end do to the
FIFO, the waiting list, the pending set and everything else. -/
namespace Sys2Proof.Machine

/-! ## Everything else -/

@[simp] theorem pushEntry_quiet (s : State) (e : FifoEntry) : (s.pushEntry e).quiet = s.quiet := rfl
@[simp] theorem wait_quiet (s : State) (w : Waiter) : (s.wait w).quiet = s.quiet := rfl

@[simp] theorem decideEntry_quiet (e : FifoEntry) (s : State) : (decideEntry e s).quiet = s.quiet := by
  unfold decideEntry
  split <;> rfl

@[simp] theorem decideStateWord_quiet (w : StateWord) (s : State) : (decideStateWord w s).quiet = s.quiet := by
  unfold decideStateWord
  split <;> simp

@[simp] theorem decideState_quiet (w : StateWord) (s : State) : (decideState w s).quiet = s.quiet := by
  unfold decideState
  repeat' split
  all_goals simp

@[simp] theorem post_quiet (c : EventClass) (s : State) : (post c s).quiet = s.quiet := by
  unfold post
  split
  · rfl
  · rw [decideState_quiet]; rfl

theorem foldl_quiet {α : Type} (f : State → α → State) (h : ∀ s a, (f s a).quiet = s.quiet) (l : List α) (s : State) :
    (l.foldl f s).quiet = s.quiet := by
  induction l generalizing s with
  | nil => rfl
  | cons a l ih => rw [List.foldl_cons, ih, h]

@[simp] theorem rewriteLine_quiet (n : Line) (is : List (Fin 8)) (s : State) : (rewriteLine n is s).quiet = s.quiet :=
  foldl_quiet _ (fun s i => decideState_quiet (.line n i) s) _ _

@[simp] theorem settle_quiet (old s : State) : (settle old s).quiet = s.quiet :=
  foldl_quiet _ (fun s w => decideState_quiet w s) _ _

@[simp] theorem answer_quiet (tag : BitVec 16) (code : AnswerCode) (k : Nat) (s : State) :
    (answer tag code k s).quiet = s.quiet := by
  unfold answer decideAnswer joinAnswer
  split
  · rw [post_quiet]; rfl
  · rfl

/-- Two states with the same rest have the same fields there. -/
theorem quiet_line {s t : State} (h : t.quiet = s.quiet) (n : Line) : t.line n = s.line n := by
  show t.quiet.line n = s.quiet.line n
  rw [h]

/-! ## The pending set -/

@[simp] theorem decideEntry_isPending (e : FifoEntry) (s : State) (c : EventClass) :
    (decideEntry e s).isPending c = s.isPending c := by
  unfold decideEntry
  split <;> rfl

@[simp] theorem decideStateWord_isPending (w : StateWord) (s : State) (c : EventClass) :
    (decideStateWord w s).isPending c = s.isPending c := by
  unfold decideStateWord
  split <;> simp

@[simp] theorem decideState_isPending (w : StateWord) (s : State) (c : EventClass) :
    (decideState w s).isPending c = s.isPending c := by
  unfold decideState
  repeat' split
  all_goals simp

@[simp] theorem post_isPending (c d : EventClass) (s : State) : (post c s).isPending d = (s.isPending d || d == c) := by
  unfold post
  split
  · rename_i h
    by_cases e : d = c
    · subst e; simp [h]
    · simp [e]
  · rw [decideState_isPending, isPending_setEvents_or]

@[simp] theorem rewriteLine_isPending (n : Line) (is : List (Fin 8)) (s : State) (c : EventClass) :
    (rewriteLine n is s).isPending c = s.isPending c := by
  unfold rewriteLine
  induction is generalizing s with
  | nil => rfl
  | cons i is ih => rw [List.foldl_cons, ih, decideState_isPending]

@[simp] theorem settle_isPending (old s : State) (c : EventClass) : (settle old s).isPending c = s.isPending c := by
  unfold settle
  generalize changedWords old s = l
  induction l generalizing s with
  | nil => rfl
  | cons w l ih => rw [List.foldl_cons, ih, decideState_isPending]

/-! ## The FIFO and the waiting list -/

theorem Appends.refl (s : State) : Appends s s [] [] := by simp [Appends]

theorem Appends.trans {a b c : State} {es es' : List FifoEntry} {ws ws' : List Waiter} (h : Appends a b es ws)
    (g : Appends b c es' ws') : Appends a c (es ++ es') (ws ++ ws') := by
  obtain ⟨h1, h2⟩ := h
  obtain ⟨g1, g2⟩ := g
  exact ⟨by rw [g1, h1, List.append_assoc], by rw [g2, h2, List.append_assoc]⟩

theorem Grows.appends {s t : State} (h : Grows s t) : ∃ es ws, Appends s t es ws := by
  obtain ⟨es, he, _⟩ := h.entries
  obtain ⟨ws, hw, _⟩ := h.waits
  exact ⟨es, ws, he, hw⟩

theorem decideEntry_decides (e : FifoEntry) (s : State) : Decides s (decideEntry e s) e := by
  unfold decideEntry
  split
  · exact ⟨[e], [], ⟨rfl, by simp [State.pushEntry]⟩, .inl (by simp)⟩
  · exact ⟨[], [.entry e], ⟨by simp [State.wait], rfl⟩, .inr (by simp)⟩

/-- An entry decided in a part of a step was decided in the step. -/
theorem Decides.lift {a b c d : State} {e : FifoEntry} (h : Decides b c e) (hab : ∃ es ws, Appends a b es ws)
    (hcd : ∃ es ws, Appends c d es ws) : Decides a d e := by
  obtain ⟨es, ws, h1, h2⟩ := h
  obtain ⟨es1, ws1, h3⟩ := hab
  obtain ⟨es2, ws2, h4⟩ := hcd
  refine ⟨_, _, (h3.trans h1).trans h4, ?_⟩
  rcases h2 with h | h
  · exact .inl (by simp [h])
  · exact .inr (by simp [h])

/-! ## Deliveries of a step (R112) -/

theorem numberFrom_append (k : BitVec 16) (as bs : List CopyId) :
    numberFrom k (as ++ bs) = numberFrom k as ++ numberFrom (k + BitVec.ofNat 16 as.length) bs := by
  induction as generalizing k with
  | nil => simp [numberFrom]
  | cons a as ih =>
    simp only [List.cons_append, numberFrom, ih, List.length_cons]
    congr 3
    rw [BitVec.add_assoc, Nat.add_comm, BitVec.ofNat_add]
    rfl

/-- The copies delivered between two states took the delivery numbers from the write index on. -/
def Delivers (s t : State) : Prop :=
  ∃ cs : List CopyId, t.awaiting = s.awaiting ++ numberFrom s.writeIndex cs ∧
    t.writeIndex = s.writeIndex + BitVec.ofNat 16 cs.length

theorem Delivers.of_eq {s t : State} (h1 : t.awaiting = s.awaiting) (h2 : t.writeIndex = s.writeIndex) : Delivers s t :=
  ⟨[], by simp [h1, numberFrom], by simp [h2]⟩

theorem Delivers.trans {a b c : State} (h : Delivers a b) (g : Delivers b c) : Delivers a c := by
  obtain ⟨as, h1, h2⟩ := h
  obtain ⟨bs, g1, g2⟩ := g
  refine ⟨as ++ bs, ?_, ?_⟩
  · rw [g1, h1, h2, numberFrom_append, List.append_assoc]
  · rw [g2, h2, List.length_append, BitVec.ofNat_add, BitVec.add_assoc]

theorem Delivers.of_quiet {s t : State} (h : t.quiet = s.quiet) : Delivers s t := by
  have h1 := congrArg State.awaiting h
  have h2 := congrArg State.writeIndex h
  exact .of_eq h1 h2

theorem takeDelivery_delivers (s : State) : Delivers s (takeDelivery s) := by
  unfold takeDelivery
  dsimp only
  split
  · exact .of_eq rfl rfl
  · rename_i c q _
    split
    · exact .of_eq rfl rfl
    · split
      · exact .of_eq rfl rfl
      · refine Delivers.trans ?_ (.of_quiet (post_quiet .delivery _))
        exact ⟨[c], rfl, rfl⟩

/-- Deliveries are the one thing that an operation of the relay does to the awaiting copies and the write index. -/
theorem Does.delivers {s t : State} (h : Does s t) : Delivers s t := by
  induction h with
  | trans _ _ h g => exact h.trans g
  | entry s e _ => exact .of_quiet (decideEntry_quiet e s)
  | posts s c => exact .of_quiet (post_quiet c s)
  | delivery s _ _ => exact takeDelivery_delivers s
  | error s n w d =>
    unfold raiseError recomputeDegraded
    dsimp only
    split
    · refine Delivers.trans ?_ (.of_quiet (post_quiet .threshold _))
      exact .of_eq rfl rfl
    · exact .of_eq rfl rfl
  | release s t r _ =>
    obtain ⟨_, _, _, _, e⟩ := releaseChain_only r.first r.last r.blocks (s.setTransit t none)
    rw [e]
    exact .of_eq rfl rfl
  | allocate s t r b _ _ _ =>
    obtain ⟨_, _, _, _, _, e⟩ := allocated_only s t r b
    rw [e]
    exact .of_eq rfl rfl
  | _ => exact .of_eq rfl rfl

/-! ## Steps that decide state writes alone -/

/-! ## Pool blocks -/

/-- A sum in which one term has changed. -/
theorem sum_changed {α : Type} {l : List α} (f g : α → Nat) (a : α) (hl : l.Nodup) (ha : a ∈ l)
    (h : ∀ x, x ≠ a → f x = g x) : (l.map f).sum + g a = (l.map g).sum + f a := by
  induction l with
  | nil => cases ha
  | cons x l ih =>
    obtain ⟨hx, hn⟩ := List.nodup_cons.mp hl
    simp only [List.map_cons, List.sum_cons]
    rcases List.mem_cons.mp ha with e | m
    · subst e
      have : l.map f = l.map g := List.map_congr_left fun y hy => h y (fun e => hx (e ▸ hy))
      rw [this]
      omega
    · have := ih hn m
      have := h x (fun e => hx (e ▸ m))
      omega

/-- The blocks of a record or of none. -/
def blocksOf (r : Option Transit) : Nat := r.elim 0 Transit.blocks

theorem chainedBlocks_setTransit (s : State) (t : TransitId) (r : Option Transit) :
    (s.setTransit t r).chainedBlocks + blocksOf (s.transit? t) = s.chainedBlocks + blocksOf r := by
  have e := sum_changed (fun x : TransitId => blocksOf ((s.setTransit t r).transit? x)) (fun x => blocksOf (s.transit? x)) t
    (List.nodup_finRange 256) (List.mem_finRange t) (fun x hx => by
      have : t.val ≠ x.val := fun q => hx (Fin.ext q.symm)
      simp [State.transit?, State.setTransit, this])
  have : (s.setTransit t r).transit? t = r := by simp [State.transit?, State.setTransit]
  rw [this] at e
  exact e

theorem blockLaw_of_eq {s t : State} (w : s.blockLaw) (h1 : t.transits = s.transits) (h2 : t.freeCount = s.freeCount)
    (h3 : t.pool = s.pool) : t.blockLaw := by
  unfold State.blockLaw State.chainedBlocks State.transit? at *
  rwa [h1, h2, h3]

theorem blockLaw_of_quiet {s t : State} (w : s.blockLaw) (h : t.quiet = s.quiet) : t.blockLaw := by
  have h1 := congrArg State.transits h
  have h2 := congrArg State.freeCount h
  have h3 := congrArg State.pool h
  exact blockLaw_of_eq w h1 h2 h3

/-- A record put back with its chain lengthened or released, and the free count changed by as much. -/
theorem blockLaw_setTransit {s : State} (t : TransitId) (r : Option Transit) (links : List (Option Nat))
    (head tail : Option Nat) (count : Nat) (w : s.blockLaw)
    (hc : count + blocksOf r = s.freeCount + blocksOf (s.transit? t))
    (hr : ∀ x, r = some x → (x.first.isSome ↔ 0 < x.blocks) ∧ (x.last.isSome ↔ 0 < x.blocks)) :
    (({ s with links := links, freeHead := head, freeTail := tail, freeCount := count } : State).setTransit t r).blockLaw := by
  have e := chainedBlocks_setTransit s t r
  have n := w.1
  refine ⟨?_, fun id x hx => ?_⟩
  · show count + (s.setTransit t r).chainedBlocks = s.pool.elim 0 Pool.count
    omega
  · by_cases q : id = t
    · subst q
      exact hr x (by simpa [State.transit?, State.setTransit] using hx)
    · have : t.val ≠ id.val := fun e => q (Fin.ext e.symm)
      exact w.2 id x (by simpa [State.transit?, State.setTransit, this] using hx)

/-- Every operation of the relay keeps the law of the pool blocks. -/
theorem Does.blockLaw {s t : State} (h : Does s t) : s.blockLaw → t.blockLaw := by
  induction h with
  | trans _ _ h g => exact fun w => g (h w)
  | entry s e _ => exact fun w => blockLaw_of_quiet w (decideEntry_quiet e s)
  | posts s c => exact fun w => blockLaw_of_quiet w (post_quiet c s)
  | delivery s _ _ =>
    intro w
    unfold takeDelivery
    dsimp only
    split
    · exact w
    · split
      · exact blockLaw_of_eq w rfl rfl rfl
      · split
        · exact blockLaw_of_eq w rfl rfl rfl
        · refine blockLaw_of_quiet ?_ (post_quiet _ _)
          exact blockLaw_of_eq w rfl rfl rfl
  | transits s tr _ ht =>
    intro w
    have hb : ∀ id : TransitId, blocksOf tr[id] = blocksOf (s.transit? id) := fun id => by
      have e := congrArg (fun c => c.2.2) (ht id)
      revert e
      unfold chainOf blocksOf
      cases tr[id] <;> cases s.transit? id <;> exact fun e => e
    refine ⟨?_, fun id x hx => ?_⟩
    · have : ({ s with transits := tr } : State).chainedBlocks = s.chainedBlocks :=
        congrArg List.sum (List.map_congr_left fun id _ => hb id)
      rw [this]
      exact w.1
    · have e := ht id
      have hx : tr[id] = some x := hx
      rw [hx] at e
      cases hr : s.transit? id with
      | none =>
        rw [hr] at e
        simp only [chainOf, Option.map_some, Option.getD_some, Option.map_none, Option.getD_none, Transit.chain,
          Prod.mk.injEq] at e
        simp [e.1, e.2.1, e.2.2]
      | some r =>
        rw [hr] at e
        simp only [chainOf, Option.map_some, Option.getD_some, Transit.chain, Prod.mk.injEq] at e
        rw [e.1, e.2.1, e.2.2]
        exact w.2 id r hr
  | release s t r hr =>
    intro w
    have q := w.2 t r hr
    unfold releaseChain
    split
    · exact blockLaw_setTransit t none _ _ _ _ w (by rw [hr]; rfl) (fun _ e => by cases e)
    · rename_i hn
      have : r.blocks = 0 := by
        by_contra hb
        have hb : 0 < r.blocks := Nat.pos_of_ne_zero hb
        obtain ⟨f, hf⟩ := Option.isSome_iff_exists.mp (q.1.mpr hb)
        obtain ⟨l, hl⟩ := Option.isSome_iff_exists.mp (q.2.mpr hb)
        exact hn f l hf hl
      exact blockLaw_setTransit t none s.links s.freeHead s.freeTail s.freeCount w
        (by rw [hr]; simp [blocksOf, this]) (fun _ e => by cases e)
  | allocate s t r b _ hc hr =>
    intro w
    have q := w.2 t r hr
    unfold State.allocated
    dsimp only
    split
    · rename_i hl
      have : r.blocks = 0 := by
        by_contra hb
        have := q.2.mpr (Nat.pos_of_ne_zero hb)
        rw [hl] at this
        cases this
      exact blockLaw_setTransit t _ _ _ _ _ w (by rw [hr]; simp only [blocksOf, Option.elim_some, this]; omega)
        (fun _ e => by cases e; simp)
    · rename_i l hl
      have : 0 < r.blocks := q.2.mp (by rw [hl]; rfl)
      exact blockLaw_setTransit t _ _ _ _ _ w (by rw [hr]; simp only [blocksOf, Option.elim_some]; omega)
        (fun _ e => by cases e; simp [q.1, this])
  | error s n which d =>
    intro w
    unfold raiseError recomputeDegraded
    dsimp only
    split
    · refine blockLaw_of_quiet ?_ (post_quiet _ _)
      exact blockLaw_of_eq w rfl rfl rfl
    · exact blockLaw_of_eq w rfl rfl rfl
  | _ => exact fun w => blockLaw_of_eq w rfl rfl rfl

/-! ## State writes alone -/

theorem OnlyStateWrites.appends {s t : State} (h : OnlyStateWrites s t) : ∃ es ws, Appends s t es ws := by
  obtain ⟨es, ws, h, _⟩ := h
  exact ⟨es, ws, h⟩

theorem OnlyStateWrites.of_eq {s t : State} (hf : t.fifo = s.fifo) (hw : t.waiting = s.waiting) : OnlyStateWrites s t :=
  ⟨[], [], by simp [Appends, hf, hw], by simp, by simp⟩

theorem OnlyStateWrites.refl (s : State) : OnlyStateWrites s s := .of_eq rfl rfl

theorem OnlyStateWrites.trans {a b c : State} (h : OnlyStateWrites a b) (g : OnlyStateWrites b c) : OnlyStateWrites a c := by
  obtain ⟨es, ws, h1, h2, h3⟩ := h
  obtain ⟨es', ws', g1, g2, g3⟩ := g
  refine ⟨_, _, h1.trans g1, fun e he => ?_, fun w hw => ?_⟩
  · exact (List.mem_append.mp he).elim (h2 e) (g2 e)
  · exact (List.mem_append.mp hw).elim (h3 w) (g3 w)

theorem decideEntry_onlyStateWrites (ws : List StateWord) (s : State) :
    OnlyStateWrites s (decideEntry (.stateWrite ws) s) := by
  unfold decideEntry
  split
  · exact ⟨[.stateWrite ws], [], ⟨rfl, by simp [State.pushEntry]⟩, by simp [FifoEntry.isStateWrite], by simp⟩
  · exact ⟨[], [.entry (.stateWrite ws)], ⟨by simp [State.wait], rfl⟩, by simp, by simp [FifoEntry.isStateWrite]⟩

theorem decideStateWord_onlyStateWrites (w : StateWord) (s : State) : OnlyStateWrites s (decideStateWord w s) := by
  unfold decideStateWord
  split
  · exact .refl s
  · exact decideEntry_onlyStateWrites _ s

theorem decideState_onlyStateWrites (w : StateWord) (s : State) : OnlyStateWrites s (decideState w s) := by
  unfold decideState
  split
  · split
    · exact .refl s
    · exact (decideEntry_onlyStateWrites _ s).trans (decideStateWord_onlyStateWrites _ _)
  · exact decideStateWord_onlyStateWrites _ s

theorem post_onlyStateWrites (c : EventClass) (s : State) : OnlyStateWrites s (post c s) := by
  unfold post
  split
  · exact .refl s
  · exact (OnlyStateWrites.of_eq (t := s.setEvents _) rfl rfl).trans (decideState_onlyStateWrites ..)

theorem foldl_onlyStateWrites {α : Type} (f : State → α → State) (h : ∀ s a, OnlyStateWrites s (f s a)) (l : List α)
    (s : State) : OnlyStateWrites s (l.foldl f s) := by
  induction l generalizing s with
  | nil => exact .refl s
  | cons a l ih => exact (h s a).trans (ih _)

theorem rewriteLine_onlyStateWrites (n : Line) (is : List (Fin 8)) (s : State) : OnlyStateWrites s (rewriteLine n is s) :=
  foldl_onlyStateWrites _ (fun s i => decideState_onlyStateWrites (.line n i) s) _ _

theorem settle_onlyStateWrites (old s : State) : OnlyStateWrites s (settle old s) :=
  foldl_onlyStateWrites _ (fun s w => decideState_onlyStateWrites w s) _ _

theorem recomputeDegraded_onlyStateWrites (n : Line) (s : State) : OnlyStateWrites s (recomputeDegraded n s) := by
  unfold recomputeDegraded
  dsimp only
  split
  · exact (OnlyStateWrites.of_eq (t := s.modMon n _) rfl rfl).trans (post_onlyStateWrites ..)
  · exact .of_eq rfl rfl

theorem raiseError_onlyStateWrites (n : Line) (w : ErrorCounter) (d : Nat) (s : State) :
    OnlyStateWrites s (raiseError n w d s) :=
  (OnlyStateWrites.of_eq (t := s.modLine n _) rfl rfl).trans (recomputeDegraded_onlyStateWrites ..)

theorem releaseChain_onlyStateWrites (f l : Option Nat) (b : Nat) (s : State) :
    OnlyStateWrites s (releaseChain f l b s) := by
  unfold releaseChain
  split <;> exact .of_eq rfl rfl

theorem freeTransit_onlyStateWrites (t : TransitId) (s : State) : OnlyStateWrites s (freeTransit t s) := by
  unfold freeTransit
  split
  · exact .refl s
  · dsimp only
    have h : ∀ f l b (u : State) (x : List TransitId),
        OnlyStateWrites u (freeCountsChanged { releaseChain f l b u with waitList := x }) := fun f l b u x =>
      ((releaseChain_onlyStateWrites f l b u).trans (.of_eq (t := { releaseChain f l b u with waitList := x }) rfl rfl)).trans
        (decideState_onlyStateWrites ..)
    have g : ∀ f l b x, OnlyStateWrites s (freeCountsChanged { releaseChain f l b (s.setTransit t none) with waitList := x }) :=
      fun f l b x => (OnlyStateWrites.of_eq (t := s.setTransit t none) rfl rfl).trans (h ..)
    split
    · exact (g ..).trans (decideState_onlyStateWrites ..)
    · exact g ..

theorem takeTransit_onlyStateWrites {n : Line} {s s' : State} {t : TransitId} (h : takeTransit n s = some (t, s')) :
    OnlyStateWrites s s' := by
  unfold takeTransit at h
  split at h
  · cases h
  · cases h
    exact (OnlyStateWrites.of_eq (t := s.setTransit _ _) rfl rfl).trans (decideState_onlyStateWrites ..)

theorem abandonReception_onlyStateWrites (n : Line) (st : RxState) (s : State) :
    OnlyStateWrites s (abandonReception n st s) := by
  unfold abandonReception
  dsimp only
  split
  · exact .of_eq rfl rfl
  · exact (OnlyStateWrites.of_eq (t := s.modRx n _) rfl rfl).trans (freeTransit_onlyStateWrites ..)

theorem recoverReceiver_onlyStateWrites (n : Line) (s : State) : OnlyStateWrites s (recoverReceiver n s) := by
  unfold recoverReceiver
  split
  · exact (abandonReception_onlyStateWrites ..).trans (.of_eq rfl rfl)
  · exact .refl s

theorem recoverReceivers_onlyStateWrites (s : State) : OnlyStateWrites s (recoverReceivers s) :=
  foldl_onlyStateWrites _ (fun s n => recoverReceiver_onlyStateWrites n s) _ _

/-! ## Answers -/

/-- An answer is decided: it joins the FIFO with COMMAND posted, or it waits. -/
theorem decideAnswer_answers (tag : BitVec 16) (code : AnswerCode) (k : Nat) (ends : Bool) (s : State) :
    Answers s (decideAnswer tag code k ends s) tag code k := by
  unfold decideAnswer
  split
  · unfold joinAnswer
    obtain ⟨es, ws, h1, h2⟩ := (post_grows .command { s.pushEntry
      (.answerWrite (answerWord tag code) (BitVec.ofNat 32 k)) with
        lastAnswer := (answerWord tag code, BitVec.ofNat 32 k)
        inFlight := if ends then none else s.inFlight }).appends
    refine ⟨[.answerWrite (answerWord tag code) (BitVec.ofNat 32 k)] ++ es, ws,
      ⟨by rw [h1, ← List.append_assoc]; rfl, h2⟩, .inl ⟨by simp, ?_, by simp⟩⟩
    exact congrArg Frame.lastAnswer (post_frame .command _)
  · exact ⟨[], [.answer _ _ ends], ⟨by simp [State.wait], rfl⟩, .inr ⟨ends, by simp⟩⟩

/-- An answer decided in a part of a step is the answer of the step. -/
theorem Answers.lift {a b c d : State} {tag : BitVec 16} {code : AnswerCode} {k : Nat} (h : Answers b c tag code k)
    (hab : ∃ es ws, Appends a b es ws) (hcd : ∃ es ws, Appends c d es ws) (hl : d.lastAnswer = c.lastAnswer)
    (hp : c.isPending .command = true → d.isPending .command = true) : Answers a d tag code k := by
  obtain ⟨es, ws, h1, h2⟩ := h
  obtain ⟨es1, ws1, h3⟩ := hab
  obtain ⟨es2, ws2, h4⟩ := hcd
  refine ⟨_, _, (h3.trans h1).trans h4, ?_⟩
  rcases h2 with ⟨x, y, z⟩ | ⟨e, x⟩
  · exact .inl ⟨by simp [x], hl.trans y, hp z⟩
  · exact .inr ⟨e, by simp [x]⟩

theorem settle_grows (old s : State) : Grows s (settle old s) := (settle_does old (.refl s)).grows

theorem decideAnswer_appends (tag : BitVec 16) (code : AnswerCode) (k : Nat) (ends : Bool) (s : State) :
    ∃ es ws, Appends s (decideAnswer tag code k ends s) es ws := by
  obtain ⟨es, ws, h, _⟩ := decideAnswer_answers tag code k ends s
  exact ⟨es, ws, h⟩

/-- The classes pending after an answer has been decided. -/
theorem decideAnswer_isPending (tag : BitVec 16) (code : AnswerCode) (k : Nat) (ends : Bool) (s : State) (c : EventClass) :
    (decideAnswer tag code k ends s).isPending c = (s.isPending c || (s.mayJoin && c == .command)) := by
  unfold decideAnswer
  split
  · rename_i h
    unfold joinAnswer
    rw [post_isPending, h]
    rfl
  · rename_i h
    simp only [h, Bool.false_and, Bool.or_false]
    rfl

/-- A command that is only answered: from the state after its capture to the end of the step. -/
theorem answer_settled {s s1 : State} (old : State) (tag : BitVec 16) (code : AnswerCode) (k : Nat)
    (hf : s1.fifo = s.fifo) (hw : s1.waiting = s.waiting) (he : s1.events = s.events) :
    AnswersOnly s s1 (settle old (answer tag code k s1)) tag code k := by
  refine ⟨by simp, ?_, ?_⟩
  · have h := decideAnswer_answers tag code k false s1
    exact h.lift ⟨[], [], by simp [Appends, hf, hw]⟩ (settle_grows _ _).appends
      (congrArg Frame.lastAnswer (settle_frame old _)) (by intro x; rwa [settle_isPending])
  · have hp : ∀ c, s1.isPending c = s.isPending c := fun c => by unfold State.isPending; rw [he]
    intro c
    rw [settle_isPending, answer, decideAnswer_isPending, hp]
    refine ⟨fun h => by simp [h], by simp, fun h => ?_⟩
    simp only [Bool.or_eq_true, Bool.and_eq_true, beq_iff_eq] at h
    rcases h with h | h
    · exact .inl h
    · exact .inr (.inr (by simp [h.2]))

/-! ## The state writes of a step's end -/

/-- A step that changes no status word decides no write of one. -/
theorem settle_same {old s : State} (h : ∀ w ∈ statusWords, old.statusValue w = s.statusValue w) : settle old s = s := by
  have : changedWords old s = [] := by
    unfold changedWords
    rw [List.filter_eq_nil_iff]
    intro w hw
    simp [h w hw]
  unfold settle
  rw [this]
  rfl

@[simp] theorem settle_self (s : State) : settle s s = s := settle_same (fun _ _ => rfl)

/-- What a line shows in its status record. -/
def LineState.shown (l : LineState) (sendingNumber : Nat) (overdue : Nat) : List Nat × List Bool × List Nat :=
  ([l.queue.length, overdue, (match l.tx.sending with | some c => c.val | none => 1023), sendingNumber, l.tx.nextOut,
      l.rx.expectedIn.getD 0],
    [l.heldActive, l.errorLatch, l.mon.degraded, l.mon.reloadPending, l.tableDiffers],
    [l.mon.condition.code, l.tx.state.code, l.rx.state.code, l.mon.checkNumber, l.mon.outstanding.getD 0,
      l.mon.owed.getD 0, l.mon.failures, l.mon.counters.parity, l.mon.counters.framing, l.mon.counters.heading,
      l.mon.counters.gap, l.mon.counters.checkFail, l.mon.counters.fill, l.mon.counters.stalledChars])

/-- Two states that show the same write no status word. -/
theorem settle_shown {old s : State} (h1 : s.officeState = old.officeState) (h2 : s.poolDiffers = old.poolDiffers)
    (h3 : s.windowK = old.windowK) (h4 : s.pool = old.pool) (h5 : s.ringSize = old.ringSize)
    (h6 : s.freeCount = old.freeCount) (h7 : s.freeTransits = old.freeTransits) (h8 : s.copies = old.copies)
    (h9 : s.waitList = old.waitList) (h10 : s.holdList = old.holdList) (h11 : s.counts = old.counts)
    (hl : ∀ n, (s.line n).queue = (old.line n).queue ∧ (s.tx n).sending = (old.tx n).sending ∧
      (s.line n).shown (s.sendingNumber n) 0 = (old.line n).shown (old.sendingNumber n) 0) : settle old s = s := by
  have ho : ∀ cs, s.overdueIn cs = old.overdueIn cs := fun cs => by
    unfold State.overdueIn State.copy?
    rw [h8]
  refine settle_same (fun w _ => ?_)
  have hn : ∀ n i, old.lineWord n i = s.lineWord n i := by
    intro n i
    obtain ⟨hq, ht, hs⟩ := hl n
    simp only [LineState.shown, Prod.mk.injEq, List.cons.injEq, and_true] at hs
    unfold State.tx at ht
    unfold State.lineWord
    simp only [hs, hq, ht, ho]
  cases w with
  | office i =>
    unfold State.statusValue State.officeWordWith State.freeCopies
    simp only [h1, h2, h3, h4, h5, h6, h7, h8, h9, h10, h11, ho]
  | line n i => exact hn n i
  | event => simp [statusWords] at *
  | enable => simp [statusWords] at *
  | informOnly => simp [statusWords] at *
  | readIndex => simp [statusWords] at *

/-! ## Words rewritten (R172) -/

/-- A write that is pending stays so while entries and waiters only join behind. -/
theorem Appends.stateWritePending {s t : State} {es : List FifoEntry} {ws : List Waiter} (h : Appends s t es ws)
    {w : StateWord} (hw : s.stateWritePending w = true) : t.stateWritePending w = true := by
  unfold State.stateWritePending State.stateWriteWaits at *
  rw [h.1, h.2, List.any_append, List.any_append]
  simp only [Bool.or_eq_true] at hw ⊢
  rcases hw with hw | hw <;> simp [hw]

theorem decideEntry_pending {w : StateWord} {ws : List StateWord} (hw : w ∈ ws) (s : State) :
    (decideEntry (.stateWrite ws) s).stateWritePending w = true := by
  unfold decideEntry
  split <;> simp [State.stateWritePending, State.stateWriteWaits, State.pushEntry, State.wait, FifoEntry.covers, hw]

theorem decideStateWord_pending (w : StateWord) (s : State) : (decideStateWord w s).stateWritePending w = true := by
  unfold decideStateWord
  split
  · assumption
  · exact decideEntry_pending (by simp) s

/-- After a state write has been decided a write of the word is pending. -/
theorem decideState_pending (w : StateWord) (s : State) : (decideState w s).stateWritePending w = true := by
  unfold decideState
  split
  · split
    · assumption
    · obtain ⟨es, ws, h⟩ := (decideStateWord_grows (.office 0) (decideEntry (.stateWrite [.office _]) s)).appends
      exact h.stateWritePending (decideEntry_pending (by simp) s)
  · exact decideStateWord_pending _ s

theorem foldl_decideState_pending (l : List StateWord) (s : State) {w : StateWord} (hw : w ∈ l) :
    (l.foldl (fun s w => decideState w s) s).stateWritePending w = true := by
  induction l generalizing s with
  | nil => cases hw
  | cons v l ih =>
    rw [List.foldl_cons]
    rcases List.mem_cons.mp hw with e | e
    · subst e
      obtain ⟨es, ws, h⟩ :=
        (foldl_does (s0 := decideState w s) _ (fun s w h => decideState_does w h) l (.refl _)).grows.appends
      exact h.stateWritePending (decideState_pending w s)
    · exact ih _ e

/-- Every word of a record that a command has rewritten has a write pending. -/
theorem rewriteLine_pending (n : Line) (is : List (Fin 8)) (s : State) {i : Fin 8} (hi : i ∈ is) :
    (rewriteLine n is s).stateWritePending (.line n i) = true := by
  have h : rewriteLine n is s = (is.map (StateWord.line n)).foldl (fun t w => decideState w t) s := by
    rw [List.foldl_map]
    rfl
  rw [h]
  exact foldl_decideState_pending _ _ (List.mem_map_of_mem hi)

/-- The value of a status word does not turn on the FIFO, what waits, or the pending set. -/
theorem statusValue_quiet {s t : State} (h : t.quiet = s.quiet) {w : StateWord} (hw : w ∈ statusWords) :
    t.statusValue w = s.statusValue w := by
  cases w with
  | office i =>
    have e : ∀ s : State, s.statusValue (.office i) = s.quiet.officeWordWith 0 i := fun _ => rfl
    rw [e, e, h]
  | line n i =>
    have e : ∀ s : State, s.statusValue (.line n i) = s.quiet.lineWord n i := fun _ => rfl
    rw [e, e, h]
  | event => simp [statusWords] at hw
  | enable => simp [statusWords] at hw
  | informOnly => simp [statusWords] at hw
  | readIndex => simp [statusWords] at hw

/-- At the end of a step every status word holds what it held when the step began, or a write of it is pending. -/
theorem settle_rewritten (old s : State) {w : StateWord} (hw : w ∈ statusWords) :
    (settle old s).statusValue w = old.statusValue w ∨ (settle old s).stateWritePending w = true := by
  by_cases e : old.statusValue w = s.statusValue w
  · exact .inl ((statusValue_quiet (settle_quiet old s) hw).trans e.symm)
  · exact .inr (foldl_decideState_pending _ _ (by simp [changedWords, hw, e]))

theorem line_mem_statusWords (n : Line) (i : Fin 8) : StateWord.line n i ∈ statusWords := by
  simp [statusWords]

theorem office_mem_statusWords (i : Fin 16) : StateWord.office i ∈ statusWords := by
  simp [statusWords]

/-- A word of a line's record at the end of a step. -/
theorem settle_rewritten_line (old s : State) (n : Line) (i : Fin 8) : Rewritten old (settle old s) (.line n i) :=
  settle_rewritten old s (line_mem_statusWords n i)

/-- A word of the office record, other than the one with the FIFO count, at the end of a step. -/
theorem settle_rewritten_office (old s : State) (i : Fin 16) (hi : i ≠ 0) : Rewritten old (settle old s) (.office i) := by
  have e : ∀ s : State, s.statusValue (.office i) = s.stateWord (.office i) := by
    intro s
    show s.officeWordWith 0 i = s.officeWordWith s.fifo.length i
    have : i.val ≠ 0 := fun q => hi (Fin.ext q)
    unfold State.officeWordWith
    generalize i.val = k at *
    split
    · exact absurd rfl this
    all_goals rfl
  have h := settle_rewritten old s (office_mem_statusWords i)
  rwa [e, e] at h

end Sys2Proof.Machine
end

