-- ==== Sys2Proof/Laws/Commands.lean ====
section
/-! SUPPORT. The twelve rows that write the command word: each is one write, and what a command that is taken, turned away
or answered at once leaves, said once over its effect. -/
namespace Sys2Proof.Machine

/-! ## Lines changed twice -/

@[simp] theorem modLine_quiet (s : State) (n : Line) (f : LineState → LineState) :
    (s.modLine n f).quiet = s.quiet.modLine n f := rfl

@[simp] theorem modLine_modLine (s : State) (n : Line) (f g : LineState → LineState) :
    (s.modLine n f).modLine n g = s.modLine n (fun l => g (f l)) := by
  unfold State.modLine
  simp

/-- A change of a line matters only at what the line holds. -/
theorem modLine_congr (s : State) (n : Line) {f g : LineState → LineState} (h : f (s.line n) = g (s.line n)) :
    s.modLine n f = s.modLine n g := by
  unfold State.modLine
  rw [show f s.lines[n] = g s.lines[n] from h]

theorem officeState_of_frame {s t : State} (h : t.frame = s.frame) : t.officeState = s.officeState :=
  congrArg (fun f : Frame => f.base.officeState) h

theorem keepsLines_of_still {s t : State} (h : t.still = s.still) : KeepsLines s t :=
  ⟨fun n => congrFun (congrArg Still.kept h) n, congrArg Still.recent h, congrArg Still.choices h⟩

/-! ## The lowest free place -/

theorem lowestFree_eq_some {α : Type} {n : Nat} (v : Vector (Option α) n) (i : Fin n) (h : v[i] = none)
    (hj : ∀ j : Fin n, j < i → v[j] ≠ none) : lowestFree v = some i := by
  have : v.toList.findFinIdx? Option.isNone = some (Fin.cast v.length_toList.symm i) := by
    rw [List.findFinIdx?_eq_some_iff]
    have e : v[i.val] = none := h
    refine ⟨by simp [e], fun j q => ?_⟩
    have e' : v[j.val]'(by simpa using j.isLt) ≠ none := hj (Fin.cast v.length_toList j) q
    cases x : v[j.val]'(by simpa using j.isLt) with
    | none => exact absurd x e'
    | some r => simp [x]
  simp [lowestFree, this]

theorem lowestFree_eq_none {α : Type} {n : Nat} (v : Vector (Option α) n) (h : ∀ i : Fin n, v[i] ≠ none) :
    lowestFree v = none := by
  unfold lowestFree
  simp only [Option.map_eq_none_iff, List.findFinIdx?_eq_none_iff]
  intro x hx
  obtain ⟨i, hi, rfl⟩ := List.mem_iff_getElem.mp hx
  have e : v[i]'(by simpa using hi) ≠ none := h ⟨i, by simpa using hi⟩
  cases x : v[i]'(by simpa using hi) with
  | none => exact absurd x e
  | some r => simp [x]

/-! ## The write of the command word -/

/-- A row that writes the command word is that write. -/
theorem exec_command {i : Instr} {code line : BitVec 8} {tag : BitVec 16} {be : ByteEnables} {s : State}
    (h : commandFields i = some (code, line, tag, be)) : exec i s = commandWrite code line tag be s := by
  cases i <;> simp [commandFields] at h <;> obtain ⟨rfl, rfl, rfl, rfl⟩ := h <;> rfl

/-- A command that leaves the office state alone ends its step with the state writes it calls for. -/
theorem commandWrite_settles {code line : BitVec 8} {tag : BitVec 16} {be : ByteEnables} {s s2 : State} (hb : be ≠ 0)
    (h : takeCommand (s.taken code line tag be) (s.captured code line tag be) = s2) (ho : s2.officeState = s.officeState) :
    commandWrite code line tag be s = .next (settle s s2) := by
  unfold commandWrite
  have h' : takeCommand (captureCommand (commandWordOf code line tag) be s).capturedCommand
      (captureCommand (commandWordOf code line tag) be s) = s2 := h
  rw [if_neg hb]
  dsimp only
  rw [h', if_neg (by unfold resetMade; rw [ho]; simp)]
  rfl

theorem answer_officeState (tag : BitVec 16) (code : AnswerCode) (k : Nat) (s : State) :
    (answer tag code k s).officeState = s.officeState := congrArg Base.officeState (answer_base tag code k s)

/-- A command that is only answered changes nothing but what its write's capture does. -/
theorem exec_answersOnly {i : Instr} {code line : BitVec 8} {tag : BitVec 16} {be : ByteEnables} {s : State}
    (h : commandFields i = some (code, line, tag, be)) (hb : be ≠ 0) {ac : AnswerCode} {k : Nat}
    (ht : takeCommand (s.taken code line tag be) (s.captured code line tag be) =
      answer (s.taken code line tag be).tag ac k (s.captured code line tag be)) :
    ∃ t, exec i s = .next t ∧ AnswersOnly s (s.captured code line tag be) t (s.taken code line tag be).tag ac k :=
  ⟨_, (exec_command h).trans (commandWrite_settles hb ht (answer_officeState ..)),
    answer_settled (s := s) _ _ _ _ rfl rfl rfl⟩

/-- A RUNNING office with no command in flight takes a known command. -/
theorem takeCommand_known {code line : BitVec 8} {tag : BitVec 16} {be : ByteEnables} {s : State} {k : CommandKind}
    (hr : s.officeState = .running) (hi : s.inFlight = none)
    (hk : commandKind (s.taken code line tag be).code = some k) :
    takeCommand (s.taken code line tag be) (s.captured code line tag be) =
      commandEffect k (s.taken code line tag be) (s.captured code line tag be) := by
  unfold takeCommand
  rw [if_neg (by show ¬ s.commandBusy = true; unfold State.commandBusy; simp [hr, hi]), hk]
  simp only
  rw [if_neg (by show ¬ (s.officeState = _ ∧ _); simp [hr])]

theorem takeCommand_accepted {code line : BitVec 8} {tag : BitVec 16} {be : ByteEnables} {s : State} {k : CommandKind}
    (ha : s.accepts code line tag be) (hk : commandKind code = some k) :
    takeCommand (s.taken code line tag be) (s.captured code line tag be) =
      commandEffect k (s.taken code line tag be) (s.captured code line tag be) :=
  takeCommand_known ha.2.1 ha.2.2.1 (by rw [ha.2.2.2]; exact hk)

/-- An accepted command runs its effect, and its state writes end the step. -/
theorem exec_accepted {i : Instr} {code line : BitVec 8} {tag : BitVec 16} {be : ByteEnables} {s s2 : State}
    {k : CommandKind} (h : commandFields i = some (code, line, tag, be)) (ha : s.accepts code line tag be)
    (hk : commandKind code = some k)
    (h2 : commandEffect k (s.taken code line tag be) (s.captured code line tag be) = s2)
    (ho : s2.officeState = s.officeState) : exec i s = .next (settle s s2) := by
  rw [exec_command h]
  exact commandWrite_settles ha.1 ((takeCommand_accepted ha hk).trans h2) ho

theorem circuitOf_eq_none {l : BitVec 8} (h : l.toNat = 0 ∨ 48 < l.toNat) : circuitOf l = none := by
  unfold circuitOf
  rw [dif_neg (by omega)]

theorem circuitOf_eq_some {l : BitVec 8} {n : Line} (h : l.toNat = n.val) (hn : n ≠ 0) : circuitOf l = some n := by
  have : n.val ≠ 0 := fun e => hn (Fin.ext e)
  unfold circuitOf
  rw [dif_pos (by omega)]
  exact congrArg some (Fin.ext h)

/-! ## Commands that end with their answer -/

/-- An answer decided at the end of an effect is the answer of the step. -/
theorem settle_answers {s s1 : State} (old : State) (tag : BitVec 16) (code : AnswerCode) (k : Nat) (ends : Bool)
    (hg : ∃ es ws, Appends s s1 es ws) : Answers s (settle old (decideAnswer tag code k ends s1)) tag code k :=
  (decideAnswer_answers tag code k ends s1).lift hg (settle_grows _ _).appends
    (congrArg Frame.lastAnswer (settle_frame old _)) (by intro x; rwa [settle_isPending])

/-- What a step leaves whose command has an effect that ends with an answer. -/
theorem exec_done {i : Instr} {code line : BitVec 8} {tag : BitVec 16} {be : ByteEnables} {s s2 : State} {k : CommandKind}
    {ac : AnswerCode} {r : Nat} (h : commandFields i = some (code, line, tag, be)) (ha : s.accepts code line tag be)
    (hk : commandKind code = some k)
    (h2 : commandEffect k (s.taken code line tag be) (s.captured code line tag be) =
      answer (s.taken code line tag be).tag ac r s2)
    (ho : s2.officeState = s.officeState) (hg : ∃ es ws, Appends s s2 es ws) :
    ∃ a, exec i s = .next (settle s a) ∧ (settle s a).quiet = s2.quiet ∧
      Answers s (settle s a) (s.taken code line tag be).tag ac r ∧
      (∀ c, (settle s a).isPending c = (s2.isPending c || (s2.mayJoin && c == .command))) ∧
      (settle s a).frame.base = s2.frame.base ∧ (settle s a).still = s2.still := by
  refine ⟨_, exec_accepted h ha hk h2 ((answer_officeState ..).trans ho), ?_, settle_answers s _ _ _ _ hg, ?_, ?_, ?_⟩
  · rw [settle_quiet, answer_quiet]
  · intro c
    rw [settle_isPending, answer, decideAnswer_isPending]
  · rw [settle_frame, answer_base]
  · rw [settle_still, answer_still]

/-- A state write that an effect leaves pending behind it is pending after the step, the answer and the step's own writes
joining behind it. -/
theorem exec_done_pending {i : Instr} {code line : BitVec 8} {tag : BitVec 16} {be : ByteEnables} {s s2 t : State}
    {k : CommandKind} {ac : AnswerCode} {r : Nat} {w : StateWord} (h : commandFields i = some (code, line, tag, be))
    (ha : s.accepts code line tag be) (hk : commandKind code = some k)
    (h2 : commandEffect k (s.taken code line tag be) (s.captured code line tag be) =
      answer (s.taken code line tag be).tag ac r s2)
    (ho : s2.officeState = s.officeState) (hw : s2.stateWritePending w = true) (ht : exec i s = .next t) :
    t.stateWritePending w = true := by
  rw [exec_accepted h ha hk h2 ((answer_officeState ..).trans ho)] at ht
  cases ht
  obtain ⟨_, _, h3⟩ := decideAnswer_appends (s.taken code line tag be).tag ac r false s2
  obtain ⟨_, _, h4⟩ := (settle_grows s (answer (s.taken code line tag be).tag ac r s2)).appends
  exact h4.stateWritePending (h3.stateWritePending hw)

/-- The classes posted, from an equation for each. -/
theorem posts_of_isPending {s t : State} {must may : List EventClass}
    (h : ∀ c, t.isPending c = (s.isPending c || decide (c ∈ must))) : Posts s t must may := by
  intro c
  rw [h]
  simp only [Bool.or_eq_true, decide_eq_true_eq]
  tauto

theorem posts_of_answer {s s2 t : State} {must : List EventClass}
    (h : ∀ c, t.isPending c = (s2.isPending c || (s2.mayJoin && c == .command)))
    (h2 : ∀ c, s2.isPending c = (s.isPending c || decide (c ∈ must))) : Posts s t must [.command] := by
  intro c
  rw [h, h2]
  simp only [Bool.or_eq_true, decide_eq_true_eq, Bool.and_eq_true, beq_iff_eq, List.mem_singleton]
  tauto

end Sys2Proof.Machine
end

