-- ==== Sys2Proof/Laws/Memory.lean ====
section
/-! SUPPORT. The message store: every memory operation keeps the canonical form, a byte that has been written reads back,
and a write leaves every other byte alone. -/
namespace Sys2Proof.Machine

/-! ## The canonical form -/

theorem Memory.wfFrom_mono {lo lo' : Nat} {m : Memory} (h : Memory.wfFrom lo m = true) (hl : lo' ≤ lo) :
    Memory.wfFrom lo' m = true := by
  cases m with
  | nil => rfl
  | cons p m =>
    obtain ⟨k, b⟩ := p
    simp only [Memory.wfFrom, Bool.and_eq_true, decide_eq_true_eq] at h ⊢
    exact ⟨⟨by omega, h.1.2⟩, h.2⟩

theorem Memory.write_wfFrom {lo a : Nat} {m : Memory} (b : Byte) (h : Memory.wfFrom lo m = true) (hl : lo ≤ a) :
    Memory.wfFrom lo (Memory.write m a b) = true := by
  induction m generalizing lo with
  | nil =>
    unfold Memory.write
    split
    · rfl
    · simpa [Memory.wfFrom, hl] using ‹¬ b = 0›
  | cons p m ih =>
    obtain ⟨k, c⟩ := p
    simp only [Memory.wfFrom, Bool.and_eq_true, decide_eq_true_eq] at h
    unfold Memory.write
    split
    · split
      · simp only [Memory.wfFrom, Bool.and_eq_true, decide_eq_true_eq]
        exact h
      · simp only [Memory.wfFrom, Bool.and_eq_true, decide_eq_true_eq, bne_iff_ne, ne_eq]
        exact ⟨⟨hl, by assumption⟩, ⟨by omega, by simpa using h.1.2⟩, h.2⟩
    · split
      · subst_vars
        split
        · exact Memory.wfFrom_mono h.2 (by omega)
        · simp only [Memory.wfFrom, Bool.and_eq_true, decide_eq_true_eq, bne_iff_ne, ne_eq]
          exact ⟨⟨hl, by assumption⟩, h.2⟩
      · simp only [Memory.wfFrom, Bool.and_eq_true, decide_eq_true_eq]
        exact ⟨h.1, ih h.2 (by omega)⟩

@[simp] theorem Memory.write_wf {m : Memory} (a : Nat) (b : Byte) (h : m.wf = true) : (m.write a b).wf = true :=
  Memory.write_wfFrom b h (Nat.zero_le a)

@[simp] theorem Memory.writeLane_wf {m : Memory} (a : Nat) (v : Word) (be : ByteEnables) (i : Nat) (h : m.wf = true) :
    (m.writeLane a v be i).wf = true := by
  unfold Memory.writeLane
  split <;> simp [h]

@[simp] theorem Memory.writeMasked_wf {m : Memory} (a : Nat) (v : Word) (be : ByteEnables) (h : m.wf = true) :
    (m.writeMasked a v be).wf = true := by
  exact Memory.writeLane_wf _ _ _ _ (Memory.writeLane_wf _ _ _ _ (Memory.writeLane_wf _ _ _ _ (Memory.writeLane_wf _ _ _ _ h)))

@[simp] theorem Memory.writeWord_wf {m : Memory} (a : Nat) (v : Word) (h : m.wf = true) : (m.writeWord a v).wf = true := by
  simp [Memory.writeWord, h]

@[simp] theorem Memory.writeWords_wf {m : Memory} (a : Nat) (ws : List Word) (h : m.wf = true) :
    (m.writeWords a ws).wf = true := by
  induction ws generalizing m a with
  | nil => exact h
  | cons w ws ih => exact ih _ (Memory.writeWord_wf a w h)

@[simp] theorem Memory.writeChars_wf {m : Memory} (a : Nat) (cs : List OfficeChar) (h : m.wf = true) :
    (m.writeChars a cs).wf = true := by
  induction cs generalizing m a with
  | nil => exact h
  | cons c cs ih => exact ih _ (Memory.write_wf a _ h)

@[simp] theorem Memory.copyWords_wf (src : Memory) {dst : Memory} (a d n : Nat) (h : dst.wf = true) :
    (Memory.copyWords src a dst d n).wf = true := by
  induction n generalizing dst a d with
  | zero => exact h
  | succ n ih => exact ih _ _ (Memory.writeWord_wf d _ h)

@[simp] theorem Memory.writeBlock_wf {m : Memory} (a : Nat) (cs : Vector OfficeChar 60) (h : m.wf = true) :
    (m.writeBlock a cs).wf = true := by
  exact Memory.writeChars_wf _ _ (Memory.writeWord_wf _ _ h)

@[simp] theorem writeStateWords_wf {s : State} (ws : List StateWord) (h : s.mem.wf = true) :
    (writeStateWords s ws).wf = true := by
  have : ∀ (ws : List StateWord) (m : Memory), m.wf = true →
      (ws.foldl (fun m w => m.writeWord (s.windowBase + w.offset) (s.stateWord w)) m).wf = true := by
    intro ws
    induction ws with
    | nil => exact fun m h => h
    | cons w ws ih => exact fun m h => ih _ (Memory.writeWord_wf _ _ h)
  exact this ws s.mem h

/-- The message store right after power-on reset is in its canonical form. -/
theorem State.reset_mem_wf : State.reset.mem.wf = true := rfl

/-! ## Reading back -/

theorem Memory.read_below {lo a : Nat} {m : Memory} (h : Memory.wfFrom lo m = true) (ha : a < lo) : m.read a = 0 := by
  cases m with
  | nil => rfl
  | cons p m =>
    obtain ⟨k, b⟩ := p
    simp only [Memory.wfFrom, Bool.and_eq_true, decide_eq_true_eq] at h
    rw [Memory.read, if_neg (by omega), if_pos (by omega)]

theorem Memory.read_write_from {lo a x : Nat} {m : Memory} (b : Byte) (h : Memory.wfFrom lo m = true) :
    (Memory.write m a b).read x = if x = a then b else m.read x := by
  induction m generalizing lo with
  | nil =>
    simp only [Memory.write]
    split
    · subst_vars; simp [Memory.read]
    · simp [Memory.read]
  | cons p m ih =>
    obtain ⟨k, c⟩ := p
    simp only [Memory.wfFrom, Bool.and_eq_true, decide_eq_true_eq] at h
    have hz : ∀ y, y ≤ k → Memory.read m y = 0 := fun y hy => Memory.read_below h.2 (Nat.lt_succ_of_le hy)
    unfold Memory.write
    split
    · split
      · subst_vars
        simp only [Memory.read]
        split_ifs <;> first | rfl | omega
      · simp only [Memory.read]
        split_ifs <;> first | rfl | omega
    · split
      · subst_vars
        split
        · subst_vars
          simp only [Memory.read]
          by_cases hx : x ≤ k
          · rw [hz x hx]
            split_ifs <;> rfl
          · split_ifs <;> first | rfl | omega
        · simp only [Memory.read]
          split_ifs <;> rfl
      · simp only [Memory.read]
        rw [ih h.2]
        split_ifs <;> first | rfl | omega

/-- A byte written reads back, and every other byte reads as before. -/
theorem Memory.read_write {m : Memory} (h : m.wf = true) (a x : Nat) (b : Byte) :
    (m.write a b).read x = if x = a then b else m.read x := Memory.read_write_from b h

theorem Memory.read_writeLane {m : Memory} (h : m.wf = true) (a x : Nat) (v : Word) (be : ByteEnables) (i : Nat) :
    (m.writeLane a v be i).read x = if x = a + i ∧ be.getLsbD i = true then byteOf v i else m.read x := by
  unfold Memory.writeLane
  split
  · simp [Memory.read_write h, *]
  · simp [*]

/-- A byte after a write of a word with byte enables. -/
theorem Memory.read_writeMasked {m : Memory} (h : m.wf = true) (a x : Nat) (v : Word) (be : ByteEnables) :
    (m.writeMasked a v be).read x =
      if a ≤ x ∧ x < a + 4 ∧ be.getLsbD (x - a) = true then byteOf v (x - a) else m.read x := by
  unfold Memory.writeMasked
  have h1 := Memory.writeLane_wf a v be 0 h
  have h2 := Memory.writeLane_wf a v be 1 h1
  rw [Memory.read_writeLane (Memory.writeLane_wf a v be 2 h2), Memory.read_writeLane h2, Memory.read_writeLane h1,
    Memory.read_writeLane h]
  by_cases h1 : a ≤ x ∧ x < a + 4
  · obtain ⟨j, rfl⟩ := Nat.exists_eq_add_of_le h1.1
    have hj : j = 0 ∨ j = 1 ∨ j = 2 ∨ j = 3 := by omega
    rcases hj with rfl | rfl | rfl | rfl <;> simp
  · rw [if_neg (by omega), if_neg (by omega), if_neg (by omega), if_neg (by omega), if_neg (by omega)]

theorem Memory.read_writeWord {m : Memory} (h : m.wf = true) (a x : Nat) (v : Word) :
    (m.writeWord a v).read x = if a ≤ x ∧ x < a + 4 then byteOf v (x - a) else m.read x := by
  unfold Memory.writeWord
  rw [Memory.read_writeMasked h]
  by_cases h1 : a ≤ x ∧ x < a + 4
  · obtain ⟨j, rfl⟩ := Nat.exists_eq_add_of_le h1.1
    have hj : j = 0 ∨ j = 1 ∨ j = 2 ∨ j = 3 := by omega
    rcases hj with rfl | rfl | rfl | rfl <;> simp
  · rw [if_neg (by omega), if_neg h1]

theorem wordOfBytes_byteOf (w : Word) : wordOfBytes (byteOf w 0) (byteOf w 1) (byteOf w 2) (byteOf w 3) = w := by
  unfold wordOfBytes byteOf
  apply BitVec.eq_of_getLsbD_eq
  intro i hi
  simp only [BitVec.getLsbD_or, BitVec.getLsbD_setWidth, BitVec.getLsbD_shiftLeft, BitVec.getLsbD_extractLsb', hi,
    decide_true, Bool.true_and]
  by_cases h0 : i < 8
  · simp [h0, show i < 16 by omega, show i < 24 by omega]
  by_cases h1 : i < 16
  · simp [h0, h1, show i < 24 by omega, show i - 8 < 8 by omega, show 8 + (i - 8) = i by omega, show i - 8 < 32 by omega]
  by_cases h2 : i < 24
  · simp [h0, h1, h2, show ¬ i - 8 < 8 by omega, show i - 16 < 8 by omega, show 16 + (i - 16) = i by omega,
      show i - 16 < 32 by omega]
  · simp [h0, h1, h2, show ¬ i - 8 < 8 by omega, show ¬ i - 16 < 8 by omega, show i - 24 < 8 by omega,
      show 24 + (i - 24) = i by omega, show i - 24 < 32 by omega]

/-- A word written reads back. -/
theorem Memory.readWord_writeWord {m : Memory} (h : m.wf = true) (a : Nat) (v : Word) :
    (m.writeWord a v).readWord a = v := by
  unfold Memory.readWord
  simp only [Memory.read_writeWord h]
  simpa using wordOfBytes_byteOf v

/-- A word that a write of another word does not touch reads as before. -/
theorem Memory.readWord_writeWord_other {m : Memory} (h : m.wf = true) {a x : Nat} (v : Word) (hx : x + 4 ≤ a ∨ a + 4 ≤ x) :
    (m.writeWord a v).readWord x = m.readWord x := by
  unfold Memory.readWord
  simp only [Memory.read_writeWord h]
  rw [if_neg (by omega), if_neg (by omega), if_neg (by omega), if_neg (by omega)]

end Sys2Proof.Machine
end

