-- ==== Sys2Proof/Laws/PerInstr.lean ====
section
/-! SUPPORT. Statements about every command as a bus write, one lemma a row of the table. -/
namespace Sys2Proof.Laws.CommandBytes
open Sys2Proof.Machine

/-- A well-formed row that writes the command word has a byte enabled, and its code is one of the eleven unless the row is
NO_SUCH_COMMAND's, whose code is none of them (R182, 11.2). -/
def Statement (i : Instr) : Prop :=
  ∀ (code line : BitVec 8) (tag : BitVec 16) (be : ByteEnables), WellFormed i = true →
    commandFields i = some (code, line, tag, be) → be ≠ 0 ∧ (isCommandCode code = false ↔ i = .noSuchCommand code line tag be)

theorem startLine (line : BitVec 8) (tag : BitVec 16) (be : ByteEnables) : Statement (.startLine line tag be) := by
  intro code l t b hw h
  simp only [commandFields, Option.some.injEq, Prod.mk.injEq] at h
  obtain ⟨rfl, rfl, rfl, rfl⟩ := h
  exact ⟨by simpa [WellFormed, anyEnabled] using hw, by simp [isCommandCode]⟩

theorem stopLine (line : BitVec 8) (tag : BitVec 16) (be : ByteEnables) : Statement (.stopLine line tag be) := by
  intro code l t b hw h
  simp only [commandFields, Option.some.injEq, Prod.mk.injEq] at h
  obtain ⟨rfl, rfl, rfl, rfl⟩ := h
  exact ⟨by simpa [WellFormed, anyEnabled] using hw, by simp [isCommandCode]⟩

theorem testLine (line : BitVec 8) (tag : BitVec 16) (be : ByteEnables) : Statement (.testLine line tag be) := by
  intro code l t b hw h
  simp only [commandFields, Option.some.injEq, Prod.mk.injEq] at h
  obtain ⟨rfl, rfl, rfl, rfl⟩ := h
  exact ⟨by simpa [WellFormed, anyEnabled] using hw, by simp [isCommandCode]⟩

theorem submit (line : BitVec 8) (tag : BitVec 16) (be : ByteEnables) : Statement (.submit line tag be) := by
  intro code l t b hw h
  simp only [commandFields, Option.some.injEq, Prod.mk.injEq] at h
  obtain ⟨rfl, rfl, rfl, rfl⟩ := h
  exact ⟨by simpa [WellFormed, anyEnabled] using hw, by simp [isCommandCode]⟩

theorem cancel (line : BitVec 8) (tag : BitVec 16) (be : ByteEnables) : Statement (.cancel line tag be) := by
  intro code l t b hw h
  simp only [commandFields, Option.some.injEq, Prod.mk.injEq] at h
  obtain ⟨rfl, rfl, rfl, rfl⟩ := h
  exact ⟨by simpa [WellFormed, anyEnabled] using hw, by simp [isCommandCode]⟩

theorem rerouteLine (line : BitVec 8) (tag : BitVec 16) (be : ByteEnables) : Statement (.rerouteLine line tag be) := by
  intro code l t b hw h
  simp only [commandFields, Option.some.injEq, Prod.mk.injEq] at h
  obtain ⟨rfl, rfl, rfl, rfl⟩ := h
  exact ⟨by simpa [WellFormed, anyEnabled] using hw, by simp [isCommandCode]⟩

theorem retryHeld (line : BitVec 8) (tag : BitVec 16) (be : ByteEnables) : Statement (.retryHeld line tag be) := by
  intro code l t b hw h
  simp only [commandFields, Option.some.injEq, Prod.mk.injEq] at h
  obtain ⟨rfl, rfl, rfl, rfl⟩ := h
  exact ⟨by simpa [WellFormed, anyEnabled] using hw, by simp [isCommandCode]⟩

theorem setSequence (line : BitVec 8) (tag : BitVec 16) (be : ByteEnables) : Statement (.setSequence line tag be) := by
  intro code l t b hw h
  simp only [commandFields, Option.some.injEq, Prod.mk.injEq] at h
  obtain ⟨rfl, rfl, rfl, rfl⟩ := h
  exact ⟨by simpa [WellFormed, anyEnabled] using hw, by simp [isCommandCode]⟩

theorem clearCounters (line : BitVec 8) (tag : BitVec 16) (be : ByteEnables) : Statement (.clearCounters line tag be) := by
  intro code l t b hw h
  simp only [commandFields, Option.some.injEq, Prod.mk.injEq] at h
  obtain ⟨rfl, rfl, rfl, rfl⟩ := h
  exact ⟨by simpa [WellFormed, anyEnabled] using hw, by simp [isCommandCode]⟩

theorem setTime (line : BitVec 8) (tag : BitVec 16) (be : ByteEnables) : Statement (.setTime line tag be) := by
  intro code l t b hw h
  simp only [commandFields, Option.some.injEq, Prod.mk.injEq] at h
  obtain ⟨rfl, rfl, rfl, rfl⟩ := h
  exact ⟨by simpa [WellFormed, anyEnabled] using hw, by simp [isCommandCode]⟩

theorem resetOffice (line : BitVec 8) (tag : BitVec 16) (be : ByteEnables) : Statement (.resetOffice line tag be) := by
  intro code l t b hw h
  simp only [commandFields, Option.some.injEq, Prod.mk.injEq] at h
  obtain ⟨rfl, rfl, rfl, rfl⟩ := h
  exact ⟨by simpa [WellFormed, anyEnabled] using hw, by simp [isCommandCode]⟩

theorem noSuchCommand (code : BitVec 8) (line : BitVec 8) (tag : BitVec 16) (be : ByteEnables) : Statement (.noSuchCommand code line tag be) := by
  intro code' l t b hw h
  simp only [commandFields, Option.some.injEq, Prod.mk.injEq] at h
  obtain ⟨rfl, rfl, rfl, rfl⟩ := h
  simp only [WellFormed, anyEnabled, Bool.and_eq_true, bne_iff_ne, ne_eq, Bool.not_eq_true'] at hw
  exact ⟨hw.1, by simp [hw.2]⟩

theorem argumentWrite (which : Argument) (value : Word) (be : ByteEnables) : Statement (.argumentWrite which value be) := by
  intro _ _ _ _ _ h
  simp [commandFields] at h

theorem receiveCellWrite (n : Line) (value : Word) (be : ByteEnables) : Statement (.receiveCellWrite n value be) := by
  intro _ _ _ _ _ h
  simp [commandFields] at h

theorem sendCellRead (n : Line) : Statement (.sendCellRead n) := by
  intro _ _ _ _ _ h
  simp [commandFields] at h

theorem eventWordWrite (value : Word) (be : ByteEnables) : Statement (.eventWordWrite value be) := by
  intro _ _ _ _ _ h
  simp [commandFields] at h

theorem enableWordWrite (value : Word) (be : ByteEnables) : Statement (.enableWordWrite value be) := by
  intro _ _ _ _ _ h
  simp [commandFields] at h

theorem informOnlyWordWrite (value : Word) (be : ByteEnables) : Statement (.informOnlyWordWrite value be) := by
  intro _ _ _ _ _ h
  simp [commandFields] at h

theorem deliveryReadIndexWrite (value : Word) (be : ByteEnables) : Statement (.deliveryReadIndexWrite value be) := by
  intro _ _ _ _ _ h
  simp [commandFields] at h

theorem officeTimeRead : Statement .officeTimeRead := by
  intro _ _ _ _ _ h
  simp [commandFields] at h

theorem lineStatusWord0Read (n : Line) : Statement (.lineStatusWord0Read n) := by
  intro _ _ _ _ _ h
  simp [commandFields] at h

theorem blockedWrite (address : Address) (value : Word) (be : ByteEnables) : Statement (.blockedWrite address value be) := by
  intro _ _ _ _ _ h
  simp [commandFields] at h

theorem officeTableWrite (index : Fin 3072) (value : Word) (be : ByteEnables) : Statement (.officeTableWrite index value be) := by
  intro _ _ _ _ _ h
  simp [commandFields] at h

theorem powerOnReset (straps : Fin 16) : Statement (.powerOnReset straps) := by
  intro _ _ _ _ _ h
  simp [commandFields] at h

theorem clockAdvance : Statement .clockAdvance := by
  intro _ _ _ _ _ h
  simp [commandFields] at h

theorem testCharacterPeriodEnd (n : Line) : Statement (.testCharacterPeriodEnd n) := by
  intro _ _ _ _ _ h
  simp [commandFields] at h

theorem receiveTimeout (n : Line) : Statement (.receiveTimeout n) := by
  intro _ _ _ _ _ h
  simp [commandFields] at h

theorem transmitStall (n : Line) : Statement (.transmitStall n) := by
  intro _ _ _ _ _ h
  simp [commandFields] at h

theorem answerTimerExpiry (n : Line) : Statement (.answerTimerExpiry n) := by
  intro _ _ _ _ _ h
  simp [commandFields] at h

theorem copyOverdue (copy : CopyId) : Statement (.copyOverdue copy) := by
  intro _ _ _ _ _ h
  simp [commandFields] at h

theorem textBlockWriteDone : Statement .textBlockWriteDone := by
  intro _ _ _ _ _ h
  simp [commandFields] at h

theorem textBlockReadDone : Statement .textBlockReadDone := by
  intro _ _ _ _ _ h
  simp [commandFields] at h

theorem tableReadDone : Statement .tableReadDone := by
  intro _ _ _ _ _ h
  simp [commandFields] at h

theorem lineEntryReadDone : Statement .lineEntryReadDone := by
  intro _ _ _ _ _ h
  simp [commandFields] at h

theorem compositionReadDone : Statement .compositionReadDone := by
  intro _ _ _ _ _ h
  simp [commandFields] at h

theorem ownWriteCarriedOut : Statement .ownWriteCarriedOut := by
  intro _ _ _ _ _ h
  simp [commandFields] at h

theorem fifoEntryJoin : Statement .fifoEntryJoin := by
  intro _ _ _ _ _ h
  simp [commandFields] at h

end Sys2Proof.Laws.CommandBytes
end

