-- ==== Sys2Proof/Laws/Senders.lean ====
section
/-! SUPPORT. What the moving of copies leaves of the transmitters: it cuts a message in HEADING or TEXT, and touches no
transmitter in another state. -/
namespace Sys2Proof.Machine

/-- Each transmitter that is neither in HEADING nor in TEXT is kept. -/
def KeepsTx (s t : State) : Prop :=
  ∀ m : Line, (s.tx m).state ≠ .heading → (s.tx m).state ≠ .text → t.tx m = s.tx m

theorem KeepsTx.refl (s : State) : KeepsTx s s := fun _ _ _ => rfl

theorem KeepsTx.trans {a b c : State} (h : KeepsTx a b) (g : KeepsTx b c) : KeepsTx a c := fun m h1 h2 => by
  have e := h m h1 h2
  exact (g m (e ▸ h1) (e ▸ h2)).trans e

theorem KeepsTx.of_lines {s t : State} (h : t.lines = s.lines) : KeepsTx s t := fun m _ _ => by
  unfold State.tx State.line
  rw [h]

theorem KeepsTx.lists (s : State) (hold : List CopyId) (wait : List TransitId) :
    KeepsTx s { s with holdList := hold, waitList := wait } := .of_lines rfl

/-! ## The changes themselves -/

@[simp] theorem decideEntry_keepsTx {s0 s : State} (e : FifoEntry) (h : KeepsTx s0 s) : KeepsTx s0 (decideEntry e s) :=
  h.trans (.of_lines (decideEntry_lines e s))
@[simp] theorem post_keepsTx {s0 s : State} (c : EventClass) (h : KeepsTx s0 s) : KeepsTx s0 (post c s) :=
  h.trans (.of_lines (post_lines c s))
@[simp] theorem setCopy_keepsTx {s0 s : State} (c : CopyId) (x : Option Copy) (h : KeepsTx s0 s) :
    KeepsTx s0 (s.setCopy c x) := h.trans (.of_lines rfl)
@[simp] theorem modCopy_keepsTx {s0 s : State} (c : CopyId) (f : Copy → Copy) (h : KeepsTx s0 s) :
    KeepsTx s0 (s.modCopy c f) := h.trans (.of_lines rfl)
@[simp] theorem modCounts_keepsTx {s0 s : State} (f : OfficeCounts → OfficeCounts) (h : KeepsTx s0 s) :
    KeepsTx s0 (s.modCounts f) := h.trans (.of_lines rfl)
@[simp] theorem setTransit_keepsTx {s0 s : State} (t : TransitId) (x : Option Transit) (h : KeepsTx s0 s) :
    KeepsTx s0 (s.setTransit t x) := h.trans (.of_lines rfl)
@[simp] theorem setTransit_none_keepsTx {s0 s : State} (t : TransitId) (h : KeepsTx s0 s) :
    KeepsTx s0 (s.setTransit t none) := h.trans (.of_lines rfl)
@[simp] theorem modTransit_keepsTx {s0 s : State} (t : TransitId) (f : Transit → Transit) (h : KeepsTx s0 s) :
    KeepsTx s0 (s.modTransit t f) := h.trans (.of_lines rfl)

theorem modLine_keepsTx (s : State) (n : Line) (f : LineState → LineState) (hf : ∀ l, (f l).tx = l.tx) :
    KeepsTx s (s.modLine n f) := fun m _ _ => by
  unfold State.tx
  rw [State.line_modLine]
  split
  · rename_i e; subst e; exact hf _
  · rfl

@[simp] theorem setQueue_keepsTx {s0 s : State} (n : Line) (q : List CopyId) (h : KeepsTx s0 s) :
    KeepsTx s0 (s.setQueue n q) := h.trans (modLine_keepsTx s n _ (fun _ => rfl))

theorem takeDelivery_keepsTx {s0 s : State} (h : KeepsTx s0 s) : KeepsTx s0 (takeDelivery s) := by
  refine h.trans (fun m _ _ => ?_)
  obtain ⟨q, hq⟩ := (takeDelivery_kept s).2 m
  unfold State.tx
  rw [hq]

/-! ## The operations -/

@[simp] theorem decideStateWord_keepsTx {s0 s : State} (w : StateWord) (h : KeepsTx s0 s) :
    KeepsTx s0 (decideStateWord w s) := by
  unfold decideStateWord
  split
  · exact h
  · exact decideEntry_keepsTx _ h

@[simp] theorem decideState_keepsTx {s0 s : State} (w : StateWord) (h : KeepsTx s0 s) : KeepsTx s0 (decideState w s) := by
  unfold decideState
  split
  · split
    · exact h
    · exact decideStateWord_keepsTx _ (decideEntry_keepsTx _ h)
  · exact decideStateWord_keepsTx _ h

@[simp] theorem freeCountsChanged_keepsTx {s0 s : State} (h : KeepsTx s0 s) : KeepsTx s0 (freeCountsChanged s) :=
  decideState_keepsTx _ h

@[simp] theorem copyCountsChanged_keepsTx {s0 s : State} (h : KeepsTx s0 s) : KeepsTx s0 (copyCountsChanged s) :=
  decideState_keepsTx _ h

@[simp] theorem queueChanged_keepsTx {s0 s : State} (n : Line) (h : KeepsTx s0 s) : KeepsTx s0 (queueChanged n s) :=
  decideState_keepsTx _ h

@[simp] theorem holdListChanged_keepsTx {s0 s : State} (h : KeepsTx s0 s) : KeepsTx s0 (holdListChanged s) :=
  decideState_keepsTx _ h

@[simp] theorem releaseChain_keepsTx {s0 s : State} (f l : Option Nat) (b : Nat) (h : KeepsTx s0 s) :
    KeepsTx s0 (releaseChain f l b s) := by
  unfold releaseChain
  split
  · exact h.trans (.of_lines rfl)
  · exact h

@[simp] theorem freeTransit_keepsTx {s0 s : State} (t : TransitId) (h : KeepsTx s0 s) : KeepsTx s0 (freeTransit t s) := by
  unfold freeTransit
  split
  · exact h
  · dsimp only
    split
    · exact copyCountsChanged_keepsTx (freeCountsChanged_keepsTx
        ((releaseChain_keepsTx _ _ _ (setTransit_none_keepsTx t h)).trans (.lists _ _ _)))
    · exact freeCountsChanged_keepsTx ((releaseChain_keepsTx _ _ _ (setTransit_none_keepsTx t h)).trans (.lists _ _ _))

@[simp] theorem addReason_keepsTx {s0 s : State} (t : TransitId) (x : Reason) (h : KeepsTx s0 s) :
    KeepsTx s0 (addReason t x s) := by
  unfold addReason
  try dsimp only
  all_goals first
    | exact h
    | simp (maxDischargeDepth := 60) [h]

@[simp] theorem freeCopy_keepsTx {s0 s : State} (c : CopyId) (h : KeepsTx s0 s) : KeepsTx s0 (freeCopy c s) := by
  unfold freeCopy
  dsimp only
  split
  · exact h
  · rename_i x _
    split
    · exact copyCountsChanged_keepsTx (setCopy_keepsTx _ _ h)
    · rename_i r hr
      have := setTransit_keepsTx x.transit (some { r with pendingCopies := r.pendingCopies - 1 })
        (copyCountsChanged_keepsTx (setCopy_keepsTx c none h))
      split
      · exact freeTransit_keepsTx _ this
      · exact this

@[simp] theorem freeAll_keepsTx {s0 s : State} (cs : List CopyId) (h : KeepsTx s0 s) : KeepsTx s0 (freeAll cs s) := by
  induction cs generalizing s with
  | nil => exact h
  | cons c cs ih => exact ih (freeCopy_keepsTx c h)

theorem finish_keepsTx {s0 : State} {p : Placed} (h : KeepsTx s0 p.state) : KeepsTx s0 p.finish.1 := freeAll_keepsTx _ h

@[simp] theorem testOverdue_keepsTx {s0 s : State} (c : CopyId) (h : KeepsTx s0 s) :
    KeepsTx s0 (testOverdue c s) := by
  unfold testOverdue
  try dsimp only
  repeat' split
  all_goals first
    | exact h
    | simp (maxDischargeDepth := 60) [h]

@[simp] theorem cutTest_keepsTx {s0 s : State} (n : Line) (h : KeepsTx s0 s) : KeepsTx s0 (cutTest n s) := by
  unfold cutTest
  split
  · rename_i hc
    refine h.trans (fun m h1 h2 => ?_)
    unfold State.cutApplies at hc
    have e : m ≠ n := fun e => by subst e; simp [h1, h2] at hc
    unfold startCut State.modTx State.tx
    rw [State.line_modLine_other _ _ e]
  · exact h

@[simp] theorem deliverLoop_keepsTx {s0 s : State} (k : Nat) (h : KeepsTx s0 s) : KeepsTx s0 (deliverLoop k s) := by
  induction k generalizing s with
  | zero => exact h
  | succ k ih =>
    unfold deliverLoop
    split
    · exact h
    · rename_i hs
      simp only [Bool.or_eq_true, not_or, Bool.not_eq_true, Bool.not_eq_false'] at hs
      split
      · exact ih (queueChanged_keepsTx 0 (takeDelivery_keepsTx h))
      · split
        · exact h
        · exact h.trans (.of_lines rfl)

@[simp] theorem deliver_keepsTx {s0 s : State}  (h : KeepsTx s0 s) :
    KeepsTx s0 (deliver s) := by
  unfold deliver
  try dsimp only
  all_goals first
    | exact h
    | simp (maxDischargeDepth := 60) [h]

@[simp] theorem afterPlacement_keepsTx {s0 s : State} (n : Line) (r : Rank) (h : KeepsTx s0 s) :
    KeepsTx s0 (afterPlacement n r s) := by
  unfold afterPlacement
  try dsimp only
  repeat' split
  all_goals first
    | exact h
    | simp (maxDischargeDepth := 60) [h]

@[simp] theorem placeInQueue_keepsTx {s0 s : State} (n : Line) (c : CopyId) (b : Bool) (h : KeepsTx s0 s) :
    KeepsTx s0 (placeInQueue n c b s).state := by
  unfold placeInQueue
  try dsimp only
  repeat' split
  all_goals first
    | exact h
    | simp (maxDischargeDepth := 60) [h]

@[simp] theorem countRoute_keepsTx {s0 s : State} (r : Route) (h : KeepsTx s0 s) :
    KeepsTx s0 (countRoute r s) := by
  unfold countRoute
  try dsimp only
  repeat' split
  all_goals first
    | exact h
    | simp (maxDischargeDepth := 60) [h]

@[simp] theorem placeOnCircuit_keepsTx {s0 s : State} (n : Line) (c : CopyId) (h : KeepsTx s0 s) :
    KeepsTx s0 (placeOnCircuit n c s).state := by
  unfold placeOnCircuit
  try dsimp only
  repeat' split
  all_goals first
    | exact h
    | simp (maxDischargeDepth := 60) [h]

@[simp] theorem placeLocally_keepsTx {s0 s : State} (c : CopyId) (h : KeepsTx s0 s) :
    KeepsTx s0 (placeLocally c s).state := by
  unfold placeLocally
  try dsimp only
  all_goals first
    | exact h
    | simp (maxDischargeDepth := 60) [h]

@[simp] theorem holdCopy_keepsTx {s0 s : State} (c : CopyId) (k : Option Line) (h : KeepsTx s0 s) :
    KeepsTx s0 (holdCopy c k s) :=
  holdListChanged_keepsTx (post_keepsTx _ ((modCopy_keepsTx c _ h).trans (.lists _ _ _)))

@[simp] theorem placeOnHold_keepsTx {s0 s : State} (c : CopyId) (k : Option Line) (h : KeepsTx s0 s) :
    KeepsTx s0 (placeOnHold c k s).state := holdCopy_keepsTx c k h

@[simp] theorem placeGroup_keepsTx {s0 s : State} (c : CopyId) (d : Dest) (h : KeepsTx s0 s) :
    KeepsTx s0 (placeGroup c d s).state := by
  unfold placeGroup
  try dsimp only
  repeat' split
  all_goals first
    | exact h
    | simp (maxDischargeDepth := 60) [h]

@[simp] theorem placeGroups_keepsTx {s0 s : State} (l : List (CopyId × Dest)) (h : KeepsTx s0 s) : KeepsTx s0 (placeGroups l s).state := by
  induction l generalizing s with
  | nil => exact h
  | cons a l ih => exact ih (placeGroup_keepsTx _ _ h)

@[simp] theorem takeEntries_keepsTx {s0 s : State} (x : Copy) (l : List PlanItem) (h : KeepsTx s0 s) :
    KeepsTx s0 (takeEntries x l s).1 := by
  induction l generalizing s with
  | nil => exact h
  | cons a l ih =>
    rw [takeEntries]
    generalize lowestFree s.copies = o
    cases o with
    | none => exact h
    | some c => exact ih (copyCountsChanged_keepsTx (modTransit_keepsTx _ _ (setCopy_keepsTx _ _ h)))

@[simp] theorem moveOut_keepsTx {s0 s : State} (l : List Line) (c : CopyId) (x : Copy) (h : KeepsTx s0 s) :
    KeepsTx s0 (moveOut l c x s).state := by
  unfold moveOut
  dsimp only
  split
  · exact holdCopy_keepsTx _ _ h
  · exact placeGroup_keepsTx _ _ (setCopy_keepsTx _ _ h)
  · split
    · exact placeGroups_keepsTx _ (takeEntries_keepsTx _ _ (setCopy_keepsTx _ _ h))
    · exact holdCopy_keepsTx _ _ (post_keepsTx _ h)

@[simp] theorem unqueue_keepsTx {s0 s : State} (n : Line) (c : CopyId) (h : KeepsTx s0 s) :
    KeepsTx s0 (unqueue n c s) := by
  unfold unqueue
  try dsimp only
  all_goals first
    | exact h
    | simp (maxDischargeDepth := 60) [h]

@[simp] theorem lossCopy_keepsTx {s0 s : State} (n : Line) (c : CopyId) (h : KeepsTx s0 s) :
    KeepsTx s0 (lossCopy n c s).state := by
  unfold lossCopy
  try dsimp only
  repeat' split
  all_goals first
    | exact h
    | simp (maxDischargeDepth := 60) [h]

@[simp] theorem lossCopies_keepsTx {s0 s : State} (n : Line) (l : List CopyId) (h : KeepsTx s0 s) :
    KeepsTx s0 (lossCopies n l s).state := by
  induction l generalizing s with
  | nil => exact h
  | cons a l ih => exact ih (lossCopy_keepsTx _ _ h)

@[simp] theorem lossWalk_keepsTx {s0 s : State} (n : Line) (l : List CopyId) (h : KeepsTx s0 s) : KeepsTx s0 (lossWalk n l s).1 :=
  finish_keepsTx (lossCopies_keepsTx n l h)

@[simp] theorem unhold_keepsTx {s0 s : State} (c : CopyId) (h : KeepsTx s0 s) : KeepsTx s0 (unhold c s) :=
  holdListChanged_keepsTx (h.trans (.lists s _ _))

@[simp] theorem reexamineCopy_keepsTx {s0 s : State} (l : List Line) (c : CopyId) (h : KeepsTx s0 s) :
    KeepsTx s0 (reexamineCopy l c s).1.state := by
  unfold reexamineCopy
  dsimp only
  split
  · exact h
  · split
    · split
      · exact h
      · split
        · exact h
        · exact placeOnCircuit_keepsTx _ _ (unhold_keepsTx _ h)
    · split
      · exact h
      · split
        · exact placeGroups_keepsTx _ (takeEntries_keepsTx _ _ (setCopy_keepsTx _ _ (unhold_keepsTx _ h)))
        · exact post_keepsTx _ h
      · split
        · exact placeGroups_keepsTx _ (takeEntries_keepsTx _ _ (setCopy_keepsTx _ _ h))
        · exact post_keepsTx _ h

@[simp] theorem reexamineCopies_keepsTx {s0 s : State} (e : List Line) (l : List CopyId) (h : KeepsTx s0 s) :
    KeepsTx s0 (reexamineCopies e l s).1.state := by
  induction l generalizing s with
  | nil => exact h
  | cons a l ih => exact ih (reexamineCopy_keepsTx _ _ h)

@[simp] theorem reexamineWalk_keepsTx {s0 s : State} (e : List Line) (l : List CopyId) (h : KeepsTx s0 s) :
    KeepsTx s0 (reexamineWalk e l s).1 :=
  finish_keepsTx (reexamineCopies_keepsTx e l h)

@[simp] theorem reexamine_keepsTx {s0 s : State} (l : List Line) (h : KeepsTx s0 s) :
    KeepsTx s0 (reexamine l s).1 := by
  unfold reexamine
  try dsimp only
  all_goals first
    | exact h
    | simp (maxDischargeDepth := 60) [h]

@[simp] theorem reexamineIfInformOnly_keepsTx {s0 s : State} (l : List Line) (b : Bool) (h : KeepsTx s0 s) :
    KeepsTx s0 (reexamineIfInformOnly l b s) := by
  unfold reexamineIfInformOnly
  try dsimp only
  repeat' split
  all_goals first
    | exact h
    | simp (maxDischargeDepth := 60) [h]

@[simp] theorem allocateItems_keepsTx {s0 s : State} (t : TransitId) (l : List PlanItem) (h : KeepsTx s0 s) :
    KeepsTx s0 (allocateItems t l s).state := by
  induction l generalizing s with
  | nil => exact h
  | cons a l ih =>
    rw [allocateItems]
    generalize lowestFree s.copies = o
    cases o with
    | none => exact h
    | some c => exact ih (placeGroup_keepsTx _ _ (copyCountsChanged_keepsTx (setCopy_keepsTx _ _ h)))

theorem allocatePlan_keepsTx {s0 s : State} {t : TransitId} {tr : Transit} (l : List PlanItem) (h : KeepsTx s0 s)
    (ht : s.transit? t = some tr) : KeepsTx s0 (allocatePlan t tr l s).1 :=
  finish_keepsTx (allocateItems_keepsTx t l (copyCountsChanged_keepsTx
    ((modCounts_keepsTx _ (setTransit_keepsTx _ _ h)).trans (.lists _ _ _))))

@[simp] theorem considerHead_keepsTx {s0 s : State} (h : KeepsTx s0 s) : KeepsTx s0 (considerHead s).1 := by
  unfold considerHead
  dsimp only
  split
  · exact h
  · split
    · exact h
    · rename_i tr ht
      split
      · exact h
      · split
        · exact reexamineIfInformOnly_keepsTx _ _ (allocatePlan_keepsTx _ h ht)
        · exact setTransit_keepsTx _ _ h

@[simp] theorem considerLoop_keepsTx {s0 s : State} (k : Nat) (h : KeepsTx s0 s) : KeepsTx s0 (considerLoop k s) := by
  induction k generalizing s with
  | zero => exact h
  | succ k ih =>
    unfold considerLoop
    dsimp only
    split
    · exact ih (considerHead_keepsTx h)
    · exact considerHead_keepsTx h

@[simp] theorem considerWaitList_keepsTx {s0 s : State}  (h : KeepsTx s0 s) :
    KeepsTx s0 (considerWaitList s) := by
  unfold considerWaitList
  try dsimp only
  all_goals first
    | exact h
    | simp (maxDischargeDepth := 60) [h]

theorem afterAction_keepsTx {s0 : State} (l : List Line) {r : State × Bool} (h : KeepsTx s0 r.1) : KeepsTx s0 (afterAction l r) :=
  considerWaitList_keepsTx (reexamineIfInformOnly_keepsTx l r.2 h)

@[simp] theorem lineLoss_keepsTx {s0 s : State} (n : Line) (h : KeepsTx s0 s) : KeepsTx s0 (lineLoss n s) :=
  afterAction_keepsTx _ (lossWalk_keepsTx _ _ h)

@[simp] theorem reexamineHoldList_keepsTx {s0 s : State}  (h : KeepsTx s0 s) :
    KeepsTx s0 (reexamineHoldList s).1 := by
  unfold reexamineHoldList
  try dsimp only
  all_goals first
    | exact h
    | simp (maxDischargeDepth := 60) [h]

/-! ## Acts on each circuit in turn -/

theorem foldl_at {α : Type} {I J : State → Prop} (f : State → α → State) (n : α)
    (h1 : ∀ m s, m ≠ n → I s → I (f s m)) (h2 : ∀ s, I s → J (f s n)) (h3 : ∀ m s, m ≠ n → J s → J (f s m)) :
    ∀ l : List α, l.Nodup → n ∈ l → ∀ s, I s → J (l.foldl f s) := by
  have after : ∀ l : List α, n ∉ l → ∀ s, J s → J (l.foldl f s) := by
    intro l
    induction l with
    | nil => exact fun _ s h => h
    | cons a l ih =>
      intro hl s h
      rw [List.mem_cons, not_or] at hl
      exact ih hl.2 _ (h3 a s (Ne.symm hl.1) h)
  intro l
  induction l with
  | nil => exact fun _ h => absurd h List.not_mem_nil
  | cons a l ih =>
    intro hd hn s h
    rw [List.nodup_cons] at hd
    by_cases e : a = n
    · subst e
      exact after l hd.1 _ (h2 s h)
    · exact ih hd.2 ((List.mem_cons.mp hn).resolve_left (Ne.symm e)) _ (h1 a s e h)

theorem circuits_nodup : circuits.Nodup := (List.nodup_finRange 49).filter _

theorem mem_circuits {n : Line} (h : n ≠ 0) : n ∈ circuits := by simp [circuits, h]

/-- What an act on each circuit in turn makes of one circuit: what the others leave, and what its own turn does. -/
theorem State.forCircuits_at {I J : State → Prop} (f : Line → State → State) {n : Line} (hn : n ≠ 0)
    (h1 : ∀ m s, m ≠ n → I s → I (f m s)) (h2 : ∀ s, I s → J (f n s)) (h3 : ∀ m s, m ≠ n → J s → J (f m s)) (s : State)
    (h : I s) : J (s.forCircuits f) :=
  foldl_at (fun s m => f m s) n h1 h2 h3 circuits circuits_nodup (mem_circuits hn) s h

/-! ## Recovery of transmitters (R110, R131) -/

theorem modTx_tx_other (s : State) {n m : Line} (f : Transmitter → Transmitter) (h : m ≠ n) :
    (s.modTx n f).tx m = s.tx m := by
  unfold State.modTx State.tx
  rw [State.line_modLine_other _ _ h]

theorem modTx_tx (s : State) (n : Line) (f : Transmitter → Transmitter) : (s.modTx n f).tx n = f (s.tx n) := by
  simp [State.modTx, State.tx]

theorem modMon_tx (s : State) (n m : Line) (f : Monitor → Monitor) : (s.modMon n f).tx m = s.tx m := by
  unfold State.modMon State.tx
  rw [State.line_modLine]
  split
  · rename_i e; subst e; rfl
  · rfl

theorem returnCopy_keepsTx {s0 s : State} (n : Line) (c : CopyId) (h : KeepsTx s0 s) : KeepsTx s0 (returnCopy n c s) := by
  unfold returnCopy
  dsimp only
  split
  · exact h
  · have := fun x y d => testOverdue_keepsTx d (finish_keepsTx (placeInQueue_keepsTx n c true (setCopy_keepsTx x y h)))
    split
    · exact considerWaitList_keepsTx (this _ _ _)
    · exact afterAction_keepsTx _ (lossWalk_keepsTx _ _ (this _ _ _))

/-- A message that is left ends on its own line alone, which takes the state given. -/
theorem leaveSending_tx (n : Line) (st : TxState) (b : Bool) (s : State) (h1 : st ≠ .heading) (h2 : st ≠ .text) :
    (leaveSending n st b s).tx n = (endMessage n st s).tx n := by
  have k : KeepsTx (endMessage n st s) (leaveSending n st b s) := by
    unfold leaveSending
    dsimp only
    split
    · exact .refl _
    · split
      · exact returnCopy_keepsTx _ _ (.refl _)
      · exact .refl _
  have e : ((endMessage n st s).tx n).state = st := by unfold endMessage; rw [modTx_tx]
  exact k n (by rw [e]; exact h1) (by rw [e]; exact h2)

theorem leaveSending_tx_other (n m : Line) (st : TxState) (b : Bool) (s : State) (hm : m ≠ n)
    (h1 : (s.tx m).state ≠ .heading) (h2 : (s.tx m).state ≠ .text) : (leaveSending n st b s).tx m = s.tx m := by
  have k : KeepsTx (endMessage n st s) (leaveSending n st b s) := by
    unfold leaveSending
    dsimp only
    split
    · exact .refl _
    · split
      · exact returnCopy_keepsTx _ _ (.refl _)
      · exact .refl _
  have e : (endMessage n st s).tx m = s.tx m := modTx_tx_other _ _ hm
  exact (k m (by rw [e]; exact h1) (by rw [e]; exact h2)).trans e

theorem startTimer_tx (n m : Line) (k : Nat) (s : State) : (startTimer n k s).tx m = s.tx m := by
  unfold startTimer
  split
  · exact modMon_tx ..
  · rfl

theorem abandonService_tx (n m : Line) (s : State) : (abandonService n s).tx m = s.tx m := by
  unfold abandonService
  split
  · exact startTimer_tx ..
  · rfl

theorem mon_of_still {s t : State} (h : t.still = s.still) (m : Line) : t.mon m = s.mon m :=
  congrArg Kept.mon (congrFun (congrArg Still.kept h) m)

theorem modTx_mon (s : State) (n m : Line) (f : Transmitter → Transmitter) : (s.modTx n f).mon m = s.mon m :=
  mon_of_still (s.modTx_still n f) m

theorem forgetShift_tx (n : Line) (s : State) : (forgetShift n s).tx n = { s.tx n with shift := .unknown } := modTx_tx ..

theorem forgetShift_mon (n m : Line) (s : State) : (forgetShift n s).mon m = s.mon m := modTx_mon ..

theorem abandonService_condition (n m : Line) (s : State) :
    ((abandonService n s).mon m).condition = (s.mon m).condition ∧
      ((abandonService n s).mon m).reloadPending = (s.mon m).reloadPending := by
  unfold abandonService startTimer State.modMon State.mon
  split
  · split
    · rw [State.line_modLine]
      split
      · rename_i e; subst e; exact ⟨rfl, rfl⟩
      · exact ⟨rfl, rfl⟩
    · exact ⟨rfl, rfl⟩
  · exact ⟨rfl, rfl⟩

theorem setCondition_line (n m : Line) (c : Condition) (s : State) :
    (setCondition n c s).line m = (changeCondition n c s).line m := by
  unfold setCondition
  rw [quiet_line (s := post .lineCondition (changeCondition n c s)) (rewriteLine_quiet ..)]
  unfold State.line
  rw [post_lines]

theorem changeCondition_tx (n m : Line) (c : Condition) (s : State) : (changeCondition n c s).tx m = s.tx m := by
  unfold changeCondition State.tx
  dsimp only
  rw [State.line_modLine]
  split
  · rename_i e; subst e; rfl
  · rfl

theorem setCondition_tx (n m : Line) (c : Condition) (s : State) : (setCondition n c s).tx m = s.tx m := by
  show ((setCondition n c s).line m).tx = _
  rw [setCondition_line]
  exact changeCondition_tx ..

theorem changeCondition_mon (n : Line) (c : Condition) (s : State) :
    (changeCondition n c s).mon n = { s.mon n with condition := c } := by
  simp [changeCondition, State.mon]

theorem changeCondition_mon_other {n m : Line} (c : Condition) (s : State) (h : m ≠ n) :
    (changeCondition n c s).mon m = s.mon m := by
  unfold changeCondition State.mon
  dsimp only
  rw [State.line_modLine_other _ _ h]

theorem tellSuspect_tx_of (n m : Line) (s : State) (h1 : (s.tx m).state ≠ .heading) (h2 : (s.tx m).state ≠ .text)
    (h3 : (s.tx m).state ≠ .closing ∨ m ≠ n) : (tellSuspect n s).tx m = s.tx m := by
  have other : m ≠ n → ∀ b, (abandonMessage n b s).tx m = s.tx m := by
    intro hm b
    unfold abandonMessage
    have e : (forgetShift n s).tx m = s.tx m := modTx_tx_other _ _ hm
    rw [leaveSending_tx_other _ _ _ _ _ hm (by rw [e]; exact h1) (by rw [e]; exact h2), e]
  unfold tellSuspect
  by_cases hm : m = n
  · subst hm
    split
    · exact absurd ‹_› h1
    · exact absurd ‹_› h2
    · exact absurd ‹_› (h3.resolve_right (fun e => e rfl))
    · rfl
  · split
    · exact other hm _
    · exact other hm _
    · exact other hm _
    · rfl

/-- A line made SUSPECT: transmitters that are not part-way through a copy are kept. -/
theorem makeSuspect_tx (n m : Line) (s : State) (h1 : (s.tx m).state ≠ .heading) (h2 : (s.tx m).state ≠ .text)
    (h3 : (s.tx m).state ≠ .closing ∨ m ≠ n) : (makeSuspect n s).tx m = s.tx m := by
  have e1 : (setCondition n .suspect s).tx m = s.tx m := setCondition_tx ..
  have e2 : (lineLoss n (setCondition n .suspect s)).tx m = s.tx m :=
    (lineLoss_keepsTx n (.refl _) m (by rw [e1]; exact h1) (by rw [e1]; exact h2)).trans e1
  have e3 : (becomeSuspect n s).tx m = s.tx m :=
    (tellSuspect_tx_of n m _ (by rw [e2]; exact h1) (by rw [e2]; exact h2) (by rw [e2]; exact h3)).trans e2
  unfold makeSuspect
  split
  · exact e3
  · exact e3
  · rfl

theorem becomeSuspect_mon (n m : Line) (s : State) :
    (becomeSuspect n s).mon m = (changeCondition n .suspect s).mon m := by
  unfold becomeSuspect
  have h : (tellSuspect n (lineLoss n (setCondition n .suspect s))).still = (setCondition n .suspect s).still := by simp
  rw [mon_of_still h]
  exact congrArg LineState.mon (setCondition_line ..)

theorem makeSuspect_mon (n m : Line) (s : State) :
    (makeSuspect n s).mon m = if m = n ∧ ((s.mon n).condition = .starting ∨ (s.mon n).condition = .active) then
      { s.mon n with condition := .suspect } else s.mon m := by
  have h : (becomeSuspect n s).mon m = if m = n then { s.mon n with condition := .suspect } else s.mon m := by
    rw [becomeSuspect_mon]
    split
    · rename_i e; subst e; exact changeCondition_mon ..
    · rename_i e; exact changeCondition_mon_other _ _ e
  unfold makeSuspect
  split
  · rename_i e; simp [e, h]
  · rename_i e; simp [e, h]
  · rename_i e1 e2
    rw [if_neg (fun q => q.2.elim e1 e2)]

theorem recoverTransmitter_other {m n : Line} (s : State) (h : n ≠ m) (h1 : (s.tx n).state ≠ .heading)
    (h2 : (s.tx n).state ≠ .text) :
    (recoverTransmitter m s).tx n = s.tx n ∧ (recoverTransmitter m s).mon n = s.mon n := by
  unfold recoverTransmitter
  dsimp only
  split
  · rename_i hs
    generalize hr : (if (s.mon m).condition = .stopped ∨ (s.mon m).reloadPending = true then TxState.off else .idle) = rest
    generalize hb : ((s.tx m).stalledFrom != some .cutting || (s.tx m).cutReturn) = b
    have e0 : (abandonService m (forgetShift m s)).tx n = s.tx n :=
      (abandonService_tx ..).trans (modTx_tx_other _ _ h)
    have e1 : (leaveSending m rest b (abandonService m (forgetShift m s))).tx n = s.tx n :=
      (leaveSending_tx_other _ _ _ _ _ h (by rw [e0]; exact h1) (by rw [e0]; exact h2)).trans e0
    refine ⟨(makeSuspect_tx m n _ (by rw [e1]; exact h1) (by rw [e1]; exact h2) (.inr h)).trans e1, ?_⟩
    rw [makeSuspect_mon, if_neg (fun q => h q.1), mon_of_still (leaveSending_still ..)]
    unfold abandonService startTimer
    split
    · split
      · unfold State.modMon
        show (State.line _ n).mon = _
        rw [State.line_modLine_other _ _ h]
        exact modTx_mon ..
      · exact modTx_mon ..
    · exact modTx_mon ..
  · exact ⟨rfl, rfl⟩

theorem recoverTransmitter_own (n : Line) (s : State) (hs : (s.tx n).state = .stalled) :
    Recovered s (recoverTransmitter n s) n := by
  unfold recoverTransmitter
  dsimp only
  rw [if_pos hs]
  generalize hr : (if (s.mon n).condition = .stopped ∨ (s.mon n).reloadPending = true then TxState.off else .idle) = rest
  generalize hb : ((s.tx n).stalledFrom != some .cutting || (s.tx n).cutReturn) = b
  have r1 : rest ≠ .heading := by rw [← hr]; split <;> decide
  have r2 : rest ≠ .text := by rw [← hr]; split <;> decide
  have r3 : rest ≠ .closing := by rw [← hr]; split <;> decide
  generalize hu : abandonService n (forgetShift n s) = u
  have eu : u.tx n = { s.tx n with shift := .unknown } := by
    rw [← hu, abandonService_tx, forgetShift_tx]
  have cu : (u.mon n).condition = (s.mon n).condition := by
    rw [← hu, (abandonService_condition ..).1, forgetShift_mon]
  have e1 := leaveSending_tx n rest b u r1 r2
  have e2 : (endMessage n rest u).tx n = { (u.tx n).emptyBuffers with
      state := rest, stalledFrom := none, sending := none, next := 0, slot := none, service := none
      cutRemaining := 0, cutReturn := false, stopMark := false } := modTx_tx ..
  have st : ((leaveSending n rest b u).tx n).state = rest := by rw [e1, e2]
  have e3 := makeSuspect_tx n n (leaveSending n rest b u) (by rw [st]; exact r1) (by rw [st]; exact r2)
    (.inl (by rw [st]; exact r3))
  have cm : ((leaveSending n rest b u).mon n).condition = (s.mon n).condition := by
    rw [mon_of_still (leaveSending_still ..), cu]
  refine ⟨?_, ?_, ?_, ?_⟩
  · rw [e3, st, hr]
  · rw [e3, e1, e2]
  · rw [e3, e1, e2]
    show (u.tx n).shift = _
    rw [eu]
  · rw [makeSuspect_mon, cm]
    by_cases q : (s.mon n).condition = .starting ∨ (s.mon n).condition = .active
    · rw [if_pos ⟨rfl, q⟩, if_pos q]
    · rw [if_neg (fun p => q p.2), if_neg q, cm]

/-- Stall recovery of the transmitters reaches each one that is STALLED (R110, R131). -/
theorem recoverTransmitters_recovers (s : State) {n : Line} (hn : n ≠ 0) (hs : (s.tx n).state = .stalled) :
    Recovered s (recoverTransmitters s) n := by
  refine State.forCircuits_at (I := fun u => u.tx n = s.tx n ∧ u.mon n = s.mon n) (J := fun u => Recovered s u n)
    recoverTransmitter hn ?_ ?_ ?_ s ⟨rfl, rfl⟩
  · intro m u hm ⟨a, b⟩
    obtain ⟨x, y⟩ := recoverTransmitter_other u (Ne.symm hm) (by rw [a, hs]; decide) (by rw [a, hs]; decide)
    exact ⟨x.trans a, y.trans b⟩
  · intro u ⟨a, b⟩
    obtain ⟨p, q, r, t⟩ := recoverTransmitter_own n u (by rw [a, hs])
    exact ⟨by rw [p, b], q, r, by rw [t, b]⟩
  · intro m u hm j
    have e : (u.tx n).state ≠ .heading ∧ (u.tx n).state ≠ .text := by
      rw [j.state]
      split <;> decide
    obtain ⟨x, y⟩ := recoverTransmitter_other u (Ne.symm hm) e.1 e.2
    exact ⟨by rw [x]; exact j.state, by rw [x]; exact j.sending, by rw [x]; exact j.shift, by rw [y]; exact j.condition⟩

/-- The recovery of transmitters changes nothing of a receiver but break seen (R25, R118). -/
theorem recoverTransmitters_rx (s : State) (n : Line) :
    ∃ b, (recoverTransmitters s).rx n = { s.rx n with breakSeen := b } := by
  have one : ∀ m u, ∃ b, (recoverTransmitter m u).rx n = { u.rx n with breakSeen := b } := by
    intro m u
    have keep : ∀ {a b : State}, b.still = a.still → b.rx n = a.rx n := fun h =>
      congrArg Kept.rx (congrFun (congrArg Still.kept h) n)
    have monKeep : ∀ k (a : State), (startTimer m k a).rx n = a.rx n := by
      intro k a
      unfold startTimer State.modMon State.rx
      split
      · rw [State.line_modLine]
        split
        · rename_i e; subst e; rfl
        · rfl
      · rfl
    have serv : ∀ a : State, (abandonService m a).rx n = a.rx n := by
      intro a
      unfold abandonService
      split
      · exact monKeep ..
      · rfl
    have cond : ∀ c (a : State), ∃ b, (setCondition m c a).rx n = { a.rx n with breakSeen := b } := by
      intro c a
      have e : (setCondition m c a).rx n = (changeCondition m c a).rx n := congrArg LineState.rx (setCondition_line m n c a)
      rw [e]
      unfold changeCondition State.rx
      dsimp only
      rw [State.line_modLine]
      split
      · rename_i e; subst e; exact ⟨_, rfl⟩
      · exact ⟨_, rfl⟩
    have sus : ∀ a : State, ∃ b, (makeSuspect m a).rx n = { a.rx n with breakSeen := b } := by
      intro a
      have h : ∃ b, (becomeSuspect m a).rx n = { a.rx n with breakSeen := b } := by
        obtain ⟨b, hb⟩ := cond .suspect a
        exact ⟨b, (keep (by unfold becomeSuspect; simp)).trans hb⟩
      unfold makeSuspect
      split
      · exact h
      · exact h
      · exact ⟨(a.rx n).breakSeen, rfl⟩
    unfold recoverTransmitter
    dsimp only
    split
    · obtain ⟨b, hb⟩ := sus (leaveSending m
        (if (u.mon m).condition = .stopped ∨ (u.mon m).reloadPending = true then .off else .idle)
        ((u.tx m).stalledFrom != some .cutting || (u.tx m).cutReturn)
        (abandonService m (forgetShift m u)))
      refine ⟨b, hb.trans ?_⟩
      rw [keep (leaveSending_still ..), serv, keep (forgetShift_still ..)]
    · exact ⟨(u.rx n).breakSeen, rfl⟩
  unfold recoverTransmitters State.forCircuits
  generalize circuits = l
  induction l generalizing s with
  | nil => exact ⟨(s.rx n).breakSeen, rfl⟩
  | cons m l ih =>
    obtain ⟨b, hb⟩ := one m s
    obtain ⟨b', hb'⟩ := ih (recoverTransmitter m s)
    exact ⟨b', by rw [List.foldl_cons, hb', hb]⟩

theorem modRx_rx (s : State) (n : Line) (f : Receiver → Receiver) : (s.modRx n f).rx n = f (s.rx n) := by
  simp [State.modRx, State.rx]

theorem modRx_rx_other (s : State) {n m : Line} (f : Receiver → Receiver) (h : m ≠ n) :
    (s.modRx n f).rx m = s.rx m := by
  unfold State.modRx State.rx
  rw [State.line_modLine_other _ _ h]

theorem freeTransit_rx (t : TransitId) (s : State) (n : Line) : (freeTransit t s).rx n = s.rx n :=
  congrArg Kept.rx (congrFun (congrArg Still.kept (freeTransit_still t s)) n)

theorem abandonReception_rx_other (n m : Line) (st : RxState) (s : State) (h : m ≠ n) :
    (abandonReception n st s).rx m = s.rx m := by
  unfold abandonReception
  dsimp only
  split
  · exact modRx_rx_other _ _ h
  · rw [freeTransit_rx]; exact modRx_rx_other _ _ h

/-- Stall recovery brings every STALLED receiver of a circuit to HUNT with nothing held (R42). -/
theorem recoverReceivers_hunt (s : State) {n : Line} (hn : n ≠ 0) (hs : (s.rx n).state = .stalled) :
    ((recoverReceivers s).rx n).state = .hunt ∧ ((recoverReceivers s).rx n).transit = none := by
  refine State.forCircuits_at (I := fun u => u.rx n = s.rx n)
    (J := fun u => (u.rx n).state = .hunt ∧ (u.rx n).transit = none) recoverReceiver hn ?_ ?_ ?_ s rfl
  · intro m u hm h
    unfold recoverReceiver enterHunt
    split
    · rw [modRx_rx_other _ _ (Ne.symm hm), abandonReception_rx_other _ _ _ _ (Ne.symm hm), h]
    · exact h
  · intro u h
    unfold recoverReceiver enterHunt
    rw [if_pos (by rw [h, hs]), modRx_rx]
    exact ⟨rfl, rfl⟩
  · intro m u hm h
    unfold recoverReceiver enterHunt
    split
    · rw [modRx_rx_other _ _ (Ne.symm hm), abandonReception_rx_other _ _ _ _ (Ne.symm hm)]; exact h
    · exact h

/-! ## The recoveries of one write, in their order (R178, R179) -/

theorem decideState_lines (w : StateWord) (s : State) : (decideState w s).lines = s.lines := by
  have h := congrArg State.lines (decideState_quiet w s)
  exact h

theorem settle_lines (old s : State) : (settle old s).lines = s.lines := by
  have h := congrArg State.lines (settle_quiet old s)
  exact h

theorem releaseChain_lines (f l : Option Nat) (b : Nat) (s : State) : (releaseChain f l b s).lines = s.lines := by
  unfold releaseChain
  split <;> rfl

theorem freeTransit_lines (t : TransitId) (s : State) : (freeTransit t s).lines = s.lines := by
  unfold freeTransit
  split
  · rfl
  · dsimp only
    split
    · rw [copyCountsChanged, decideState_lines, freeCountsChanged, decideState_lines]; exact releaseChain_lines ..
    · rw [freeCountsChanged, decideState_lines]; exact releaseChain_lines ..

theorem line_of_lines {s t : State} (h : t.lines = s.lines) (n : Line) : t.line n = s.line n := by
  unfold State.line
  rw [h]

/-- A change of a receiver leaves what its line holds beside it. -/
theorem modRx_txMon (s : State) (n m : Line) (f : Receiver → Receiver) :
    (s.modRx n f).tx m = s.tx m ∧ (s.modRx n f).mon m = s.mon m := by
  unfold State.modRx State.tx State.mon
  rw [State.line_modLine]
  split
  · rename_i e; subst e; exact ⟨rfl, rfl⟩
  · exact ⟨rfl, rfl⟩

theorem abandonReception_txMon (n m : Line) (st : RxState) (s : State) :
    (abandonReception n st s).tx m = s.tx m ∧ (abandonReception n st s).mon m = s.mon m := by
  unfold abandonReception
  dsimp only
  split
  · exact modRx_txMon ..
  · unfold State.tx State.mon
    rw [line_of_lines (freeTransit_lines ..)]
    exact modRx_txMon ..

theorem recoverReceivers_txMon (s : State) (n : Line) :
    (recoverReceivers s).tx n = s.tx n ∧ (recoverReceivers s).mon n = s.mon n := by
  have one : ∀ m u, (recoverReceiver m u).tx n = u.tx n ∧ (recoverReceiver m u).mon n = u.mon n := by
    intro m u
    unfold recoverReceiver enterHunt
    split
    · obtain ⟨a, b⟩ := modRx_txMon (abandonReception m .hunt u) m n (fun r =>
        { r.clear .hunt with
          openGroup := (abandonReception m .hunt u).openingGroup
          closeGroup := (abandonReception m .hunt u).closingGroup })
      obtain ⟨x, y⟩ := abandonReception_txMon m n .hunt u
      exact ⟨a.trans x, b.trans y⟩
    · exact ⟨rfl, rfl⟩
  unfold recoverReceivers State.forCircuits
  generalize circuits = l
  induction l generalizing s with
  | nil => exact ⟨rfl, rfl⟩
  | cons m l ih =>
    rw [List.foldl_cons]
    exact ⟨(ih _).1.trans (one m s).1, (ih _).2.trans (one m s).2⟩

/-- The recoveries that a write calls for, run in order and followed by the step's state writes, reach every STALLED
receiver and every STALLED transmitter; the re-examination alone keeps the lines. -/
theorem recoverMarked_does (s u : State) (rx tx hold : Bool) (hl : u.lines = s.lines) :
    let t := settle s (recoverMarked rx tx hold u)
    (rx = true → ∀ n : Line, n ≠ 0 → (s.rx n).state = .stalled → (t.rx n).state = .hunt ∧ (t.rx n).transit = none) ∧
    (tx = true → ∀ n : Line, n ≠ 0 → (s.tx n).state = .stalled → Recovered s t n) ∧
    (rx = false → tx = false → t.still = u.still) := by
  have hu : ∀ n, u.line n = s.line n := line_of_lines hl
  have key : ∀ b : State, KeepsTx b (settle s (if hold then (reexamineHoldList b).1 else b)) ∧
      (settle s (if hold then (reexamineHoldList b).1 else b)).still = b.still := by
    intro b
    refine ⟨KeepsTx.trans (b := if hold then (reexamineHoldList b).1 else b) ?_ (.of_lines (settle_lines s _)), ?_⟩
    · split
      · exact reexamineHoldList_keepsTx (.refl _)
      · exact .refl _
    · rw [settle_still]
      split <;> simp
  obtain ⟨a, ha⟩ : ∃ a, (if rx then recoverReceivers u else u) = a := ⟨_, rfl⟩
  obtain ⟨b, hb⟩ : ∃ b, (if tx then recoverTransmitters a else a) = b := ⟨_, rfl⟩
  have ht : settle s (recoverMarked rx tx hold u) = settle s (if hold then (reexamineHoldList b).1 else b) := by
    rw [← hb, ← ha]
    rfl
  dsimp only
  rw [ht]
  obtain ⟨k, w⟩ := key b
  refine ⟨fun h n hn hs => ?_, fun h n hn hs => ?_, fun h1 h2 => ?_⟩
  · have e1 : (a.rx n).state = .hunt ∧ (a.rx n).transit = none := by
      rw [← ha, h]
      exact recoverReceivers_hunt u hn (by unfold State.rx; rw [hu]; exact hs)
    have e2 : (b.rx n).state = .hunt ∧ (b.rx n).transit = none := by
      rw [← hb]
      split
      · obtain ⟨x, hx⟩ := recoverTransmitters_rx a n
        rw [hx]; exact e1
      · exact e1
    have e3 := congrArg Kept.rx (congrFun (congrArg Still.kept w) n)
    unfold State.rx at e2 ⊢
    change LineState.rx _ = _ at e3
    rw [e3]
    exact e2
  · have e1 : a.tx n = s.tx n ∧ a.mon n = s.mon n := by
      have : a.tx n = u.tx n ∧ a.mon n = u.mon n := by
        rw [← ha]
        split
        · exact recoverReceivers_txMon u n
        · exact ⟨rfl, rfl⟩
      unfold State.tx State.mon at *
      rw [hu n] at this
      exact this
    have r : Recovered a b n := by
      rw [← hb, h]
      exact recoverTransmitters_recovers a hn (by rw [e1.1]; exact hs)
    have e : (b.tx n).state ≠ .heading ∧ (b.tx n).state ≠ .text := by
      rw [r.state]
      split <;> decide
    have e2 := k n e.1 e.2
    have e3 := mon_of_still w n
    exact ⟨by rw [e2, r.state, e1.2], by rw [e2]; exact r.sending, by rw [e2]; exact r.shift,
      by rw [e3, r.condition, e1.2]⟩
  · rw [w, ← hb, ← ha, h1, h2]
    rfl

end Sys2Proof.Machine
end

