-- ==== Sys2Proof/Tests/Slice0.lean ====
section
/-! SUPPORT. Small tests of single steps, with results taken from the manual by hand, and for every statement with
hypotheses a state and operands that meet them. -/
namespace Sys2Proof.Tests
open Sys2Proof.Machine

set_option Elab.async false

/-! ## Small states -/

/-- A RUNNING office with its window at 0x100000, a pool of 16 free blocks at 0x200000, and nothing under way. -/
def office : State := { State.reset with
  windowK := 1, fifo := [], waiting := [], officeState := .running, loadDecided := 144, loadDone := 144
  pool := some { base := 0x200000, count := 16 }, ringSize := 16, links := freshLinks 16, freeHead := some 0
  freeTail := some 15, freeCount := 16 }

/-- The state after an outcome. -/
def after : Host.Outcome State Fault Refusal → State
  | .next t => t
  | _ => State.reset

/-- The office with circuit 1 in a condition and its transmitter in a state. -/
def withLine (c : Condition) (x : TxState) : State :=
  office.modLine 1 (fun l => { l with mon := { l.mon with condition := c }, tx := { l.tx with state := x } })

/-- A line entry with a flags byte and zeros otherwise. -/
def flagged (f : Word) : Vector Word 8 := (Vector.replicate 8 0).set 0 (f <<< 24)

/-- A transit in a given state, of origin `WXYZ` serial 7. -/
def wxyz (st : TransitState) : Transit :=
  { newTransit 1 0 with state := st, origin := some 0x5A595857, serial := some 7, pendingCopies := 2 }

/-- A copy of transit 0 in a given state on circuit 1. -/
def copyIn (st : CopyState) : Copy where
  state := st
  transit := 0
  line := some 1
  rank := 2
  subset := []
  seconds := []
  sendLength := 50
  queuedTime := 0
  overdue := false
  dual := false
  pinned := false
  route := .primary
  resend := 0
  outNumber := none

/-- An office with transit 0 and its copy 0, which stands in circuit 1's queue when it is QUEUED, on the Hold List when it
is HELD, and in the sending position when it is SENDING. -/
def withCopy (st : CopyState) (x : TxState) : State :=
  ({ (withLine .active x).modLine 1 (fun l =>
      { l with
        queue := if st = .queued then [0] else []
        tx := { l.tx with sending := if st = .sending then some 0 else none } }) with
    holdList := if st = .held then [0] else []
    transits := (Vector.replicate 256 none).set 0 (some (wxyz .inTransit))
    copies := (Vector.replicate 768 none).set 0 (some (copyIn st)) })

/-! ## Well-formed terms -/

theorem test_wf_no_byte_enabled :
    [Instr.startLine 1 7 0, .stopLine 1 7 0, .testLine 1 7 0, .submit 0 7 0, .cancel 0 7 0, .rerouteLine 1 7 0,
      .retryHeld 0 7 0, .setSequence 1 7 0, .clearCounters 1 7 0, .setTime 0 7 0, .resetOffice 0 7 0,
      .noSuchCommand 12 0 7 0].all (fun i => !WellFormed i) = true := by decide
theorem test_wf_known_code :
    WellFormed (.noSuchCommand 1 0 7 15) = false ∧ WellFormed (.noSuchCommand 11 0 7 15) = false ∧
      WellFormed (.noSuchCommand 0 0 7 15) = true ∧ WellFormed (.noSuchCommand 12 0 7 15) = true := by decide
theorem test_wf_line_zero :
    [Instr.receiveCellWrite 0 0 15, .sendCellRead 0, .testCharacterPeriodEnd 0, .receiveTimeout 0, .transmitStall 0,
      .answerTimerExpiry 0].all (fun i => !WellFormed i) = true := by decide
theorem test_wf_between_table_areas :
    WellFormed (.officeTableWrite 72 0 15) = false ∧ WellFormed (.officeTableWrite 71 0 15) = true ∧
      WellFormed (.officeTableWrite 1792 0 15) = false ∧ WellFormed (.officeTableWrite 3071 0 15) = true := by decide

/-! ## Commands -/

theorem test_start_line_reads_entry :
    .lineEntryRead 1 ∈ (after (exec (.startLine 1 7 15) office)).fifo ∧
      ((after (exec (.startLine 1 7 15) office)).mon 1).condition = .starting := by decide +kernel
/-- LINE_CONDITION is posted, the record is rewritten, the answer follows (R122). -/
theorem test_stop_line_rewrites_before_answer :
    (after (exec (.stopLine 1 7 15) (withLine .active .idle))).fifo =
      [.stateWrite [.event], .stateWrite [.line 1 0], .stateWrite [.line 1 1], .stateWrite [.line 1 2], .stateWrite [.line 1 3],
        .answerWrite 7 0] := by decide +kernel
theorem test_stop_line_cuts :
    ((after (exec (.stopLine 1 7 15) (withLine .active .text))).tx 1).state = .cutting ∧
      ((after (exec (.stopLine 1 7 15) (withLine .active .text))).tx 1).stopMark = true := by decide +kernel
theorem test_test_line_hunts :
    ((after (exec (.testLine 48 7 15) office)).rx 48).state = .hunt ∧
      ((after (exec (.testLine 48 7 15) office)).mon 48).condition = .test := by decide +kernel
/-- 20 characters from 0x300000: five words. -/
theorem test_submit_reads_area :
    .compositionRead 0x300000 5 ∈
      (after (exec (.submit 0 7 15) { office with argA := 0x300000, argB := 20 })).fifo := by decide +kernel
theorem test_cancel_not_found :
    (after (exec (.cancel 0 7 15) { office with argA := 0x5A595857, argB := 7 })).lastAnswer = (0x60007, 0) := by
  decide +kernel
theorem test_cancel_frees_waiting_record :
    (after (exec (.cancel 0 7 15) { office with
      argA := 0x5A595857, argB := 7, transits := (Vector.replicate 256 none).set 255 (some (wxyz .waiting)) })).transit? 255 =
        none := by decide +kernel
theorem test_reroute_counts_copy :
    (after (exec (.rerouteLine 1 7 15) (withCopy .queued .idle))).lastAnswer = (7, 1) ∧
      (after (exec (.rerouteLine 1 7 15) (withCopy .queued .idle))).holdList = [0] := by decide +kernel
theorem test_retry_held_counts_none :
    (after (exec (.retryHeld 0 7 15) (withCopy .held .idle))).lastAnswer = (7, 0) := by decide +kernel
theorem test_set_sequence_unknown :
    ((after (exec (.setSequence 2 7 15) { office with argA := 0, argB := 999 })).rx 2).expectedIn = none ∧
      ((after (exec (.setSequence 2 7 15) { office with argA := 0, argB := 999 })).tx 2).nextOut = 999 := by decide +kernel
/-- The numbers in force given again: the record is rewritten ahead of the answer all the same (R47). -/
theorem test_set_sequence_rewrites_same_numbers :
    let s := { office with argA := 0, argB := 1 }
    (s.rx 2).expectedIn = none ∧ (s.tx 2).nextOut = 1 ∧
      (after (exec (.setSequence 2 7 15) s)).fifo = [.stateWrite [.line 2 2], .answerWrite 7 0, .stateWrite [.event]] := by
  decide +kernel
theorem test_clear_counters_clears :
    ((after (exec (.clearCounters 1 7 15) (office.modMon 1 (fun m =>
      { m with degraded := true, counters := { gap := 9, fill := 3 } })))).mon 1).counters = {} := by decide +kernel
/-- A line with nothing to clear: the words of DEGRADED and the counters are rewritten all the same (R134). -/
theorem test_clear_counters_rewrites_clear_record :
    ((after (exec (.clearCounters 1 7 15) office)).fifo.filter FifoEntry.isStateWrite) =
      [.stateWrite [.line 1 0], .stateWrite [.line 1 4], .stateWrite [.line 1 5], .stateWrite [.line 1 6],
        .stateWrite [.line 1 7], .stateWrite [.event]] := by decide +kernel
theorem test_set_time_limit :
    (after (exec (.setTime 0 7 15) { office with argA := 863999 })).officeTime = 863999 ∧
      (after (exec (.setTime 0 7 15) { office with argA := 864000 })).lastAnswer = (0x50007, 0) := by decide +kernel
theorem test_reset_office_loads :
    (after (exec (.resetOffice 0 7 15) office)).officeState = .loading ∧
      (after (exec (.resetOffice 0 7 15) office)).fifo.length = 32 := by decide +kernel
theorem test_no_such_command :
    (after (exec (.noSuchCommand 12 0 7 15) office)).lastAnswer = (0x20007, 0) := by decide +kernel
/-- Byte 0 is not enabled, so the code captured before acts: 0, which names no command. -/
theorem test_code_not_enabled :
    (after (exec (.setTime 0 7 14) office)).lastAnswer = (0x20007, 0) := by decide +kernel

/-! ## Words the host writes and reads -/

theorem test_argument_write_merges :
    (after (exec (.argumentWrite .b 0x11223344 6) { office with argB := 0xAABBCCDD })).argB = 0xAA2233DD := by
  decide +kernel
/-- `K` is 0x4B, with four elements at 1: even parity passes, and the first character of `KQKQ` is seen. -/
theorem test_receive_cell_matches :
    ((after (exec (.receiveCellWrite 1 0x4B 15) (office.modLine 1 (fun l =>
      { l with
        entry := flagged 1
        mon := { l.mon with condition := .active }
        rx := { l.rx with state := .hunt, openGroup := [75, 81, 75, 81], closeGroup := [81, 81, 81, 81] } })))).rx
          1).openMatch = 1 := by decide +kernel
/-- CR is 0x0D with three elements at 1: the parity element of an even line is 1. -/
theorem test_send_cell_gives_cr :
    (after (exec (.sendCellRead 1) (office.modLine 1 (fun l =>
      { l with
        entry := flagged 1
        mon := { l.mon with condition := .active }
        tx := { l.tx with state := .cutting, cutRemaining := 4 } })))).readData = 0x18D := by decide +kernel
theorem test_event_word_write_clears :
    (after (exec (.eventWordWrite 0x401 15) { office with events := 0x402 })).events = 2 := by decide +kernel
theorem test_enable_asserts_interrupt :
    (after (exec (.enableWordWrite 2 15) { office with events := 2 })).interrupt = true := by decide +kernel
theorem test_inform_only_captured :
    (after (exec (.informOnlyWordWrite 8 15) office)).informOnly = 8 := by decide +kernel
/-- Two records stand between the indices: 9 is past the write index, and -1 is behind the read index. -/
theorem test_read_index_clamps :
    (after (exec (.deliveryReadIndexWrite 9 15) { office with writeIndex := 2 })).readIndex = 2 ∧
      (after (exec (.deliveryReadIndexWrite 0xFFFF 15) { office with writeIndex := 2 })).readIndex = 0 := by decide +kernel
theorem test_office_time_read :
    (after (exec .officeTimeRead { office with officeTime := 123456 })).readData = 123456 := by decide +kernel
/-- Held ACTIVE, error latch, ACTIVE: bits 0, 1 and code 2 in bits 8 to 15; the error latch is clear after. -/
theorem test_line_status_read_rearms :
    (after (exec (.lineStatusWord0Read 1) ((withLine .active .off).modLine 1 (fun l =>
        { l with heldActive := true, errorLatch := true })))).readData = 0 ∧
      ((after (exec (.lineStatusWord0Read 1) ((withLine .active .off).modLine 1 (fun l =>
        { l with heldActive := true, errorLatch := true })))).line 1).errorLatch = false := by decide +kernel
/-- The write of word 0 waits for room: the read shows the present latches all the same, and re-arms them. -/
theorem test_line_status_read_waiting :
    let t := after (exec (.lineStatusWord0Read 1) { (withLine .suspect .off).modLine 1 (fun l => { l with errorLatch := true }) with
      fifo := List.replicate 32 (.indexWrite 0), waiting := [.entry (.stateWrite [.line 1 0])] })
    t.readData = 0x302 ∧ (t.line 1).errorLatch = false ∧ t.waiting.length = 1 := by decide +kernel
theorem test_blocked_write_counts :
    (after (exec (.blockedWrite 0x100040 1 15) office)).counts.protect = 1 ∧
      (after (exec (.blockedWrite 0x2003FF 1 15) office)).mem = [] ∧
      (after (exec (.blockedWrite 0x200400 0x1FF 15) office)).mem = [(0x200400, 0xFF), (0x200401, 1)] := by decide +kernel
theorem test_table_write_shadow :
    (after (exec (.officeTableWrite 0 0x01020304 4) office)).shadow = [(0x1002, 2)] ∧
      (after (exec (.officeTableWrite 0 0x01020304 4) office)).mem = [(0x101002, 2)] := by decide +kernel

/-! ## Reset, clocks and timers -/

theorem test_power_on_latches_straps :
    (after (exec (.powerOnReset 15) office)).windowBase = 0xF00000 ∧
      (after (exec (.powerOnReset 15) office)).officeState = .loading := by decide +kernel
theorem test_clock_advance_wraps :
    (after (exec .clockAdvance { office with officeTime := 863999 })).officeTime = 0 := by decide +kernel
theorem test_period_sends_cut :
    ((after (exec (.testCharacterPeriodEnd 1) ((withLine .test .cutting).modTx 1 (fun t =>
      { t with cutRemaining := 4, pacing := 99 })))).tx 1).cutRemaining = 3 := by decide +kernel
/-- The default timeout is 30 s, 300 tenths. -/
theorem test_receive_timeout :
    ((after (exec (.receiveTimeout 1) { office.modRx 1 (fun r => { r with state := .text }) with clock := 300 })).rx
        1).state = .stalled ∧
      ((after (exec (.receiveTimeout 1) { office.modRx 1 (fun r => { r with state := .text }) with clock := 299 })).rx
        1).state = .text := by decide +kernel
/-- The default stall time is 5 s. -/
theorem test_transmit_stall :
    ((after (exec (.transmitStall 1) { withLine .active .text with clock := 50 })).tx 1).state = .stalled := by
  decide +kernel
/-- The default answer time is 10 s and the default failure limit 3. -/
theorem test_answer_timer :
    ((after (exec (.answerTimerExpiry 1) { (withLine .active .idle).modMon 1 (fun m =>
      { m with timer := some 0, failures := 2 }) with clock := 100 })).mon 1).condition = .suspect := by decide +kernel
/-- The default limit of rank 2 is 1,800 s. -/
theorem test_copy_overdue :
    (after (exec (.copyOverdue 0) { withCopy .queued .idle with clock := 18000 })).counts.overdue = 1 ∧
      (after (exec (.copyOverdue 0) { withCopy .queued .idle with clock := 17999 })).counts.overdue = 0 := by decide +kernel

/-! ## The memory port -/

theorem test_text_block_write :
    (after (exec .textBlockWriteDone { office.modRx 1 (fun r =>
        { r with bufA := { r.bufA with state := .writing, count := 60 } }) with
      fifo := [.textWrite 1 .a 0x200040 ((Vector.replicate 60 0).set 59 65)] })).mem = [(0x20007F, 65)] := by decide +kernel
theorem test_text_block_read :
    (((after (exec .textBlockReadDone { office.modTx 1 (fun t => { t with bufA := { t.bufA with state := .reading } }) with
      fifo := [.textRead 1 .a 0x200040], mem := [(0x200044, 65)] })).tx 1).bufA.chars).head? = some 65 := by decide +kernel
theorem test_table_read_loads :
    (after (exec .tableReadDone { State.reset with fifo := [.tableRead 4], mem := [(0x1100, 42)] })).shadow =
      [(0x1100, 42)] := by decide +kernel
/-- All zeros in memory: a pool base of 0 is a bad geometry. -/
theorem test_load_pass_halts :
    (after (exec .tableReadDone { State.reset with fifo := [.tableRead 143], loadDone := 143 })).officeState =
      .haltedConfig := by decide +kernel
theorem test_line_entry_read_starts :
    ((after (exec .lineEntryReadDone { (withLine .starting .off).modMon 1 (fun m => { m with reloadPending := true }) with
      fifo := [.lineEntryRead 1], inFlight := some ⟨1, 1, 7, 0, 0, 0⟩ })).mon 1).condition = .active := by decide +kernel
theorem test_composition_read_takes :
    (((after (exec .compositionReadDone { office.modRx 0 (fun r =>
        { r with state := .text, transit := some 0, bufA := { r.bufA with state := .filling, block := some 0 } }) with
      fifo := [.compositionRead 0x300000 1], mem := [(0x300000, 0xC1)], submitCopy := some ⟨0x300000, 8, 0, []⟩
      transits := (Vector.replicate 256 none).set 0 (some (newTransit 0 0)) })).rx 0).bufA.chars.toList).head? =
        some 65 := by decide +kernel
/-- Condition TEST is code 4, in bits 8 to 15. -/
theorem test_state_write_carries_present_value :
    (after (exec .ownWriteCarriedOut { withLine .test .off with fifo := [.stateWrite [.line 1 0]] })).mem =
      [(0x100421, 4)] := by decide +kernel
theorem test_fifo_entry_joins :
    (after (exec .fifoEntryJoin { office with fifo := [.indexWrite 1], waiting := [.entry (.indexWrite 2)] })).fifo =
      [.indexWrite 1, .indexWrite 2] := by decide +kernel

/-! ## Witnesses: states and operands that meet the hypotheses of each statement -/

/-- The office with circuit 1 changed. -/
def line1 (f : LineState → LineState) : State := office.modLine 1 f

/-- `KQ` opens, CR `KX` closes; in HEADING CR and `K` are held when `Q` comes.  The CR ends the heading, the receiver leaves
HEADING, and the group brings it back there: the word is the same again, and the two changes decide a write of it. -/
theorem test_state_changes_and_returns :
    let t := after (exec (.receiveCellWrite 1 0xD1 15) { (line1 (fun l =>
      { l with
        entry := flagged 1
        errorLatch := true
        mon := { l.mon with condition := .active, degraded := true }
        rx := { l.rx with
          state := .heading, openGroup := [75, 81], closeGroup := [13, 75, 88], openMatch := 1, closeMatch := 2
          holdBack := [13, 75], heading := [65], transit := some 0
          bufA := { l.rx.bufA with state := .filling, count := 1, block := some 0 } } })) with
      transits := (Vector.replicate 256 none).set 0 (some (newTransit 1 0)) })
    t.stateWord (.line 1 0) = 0x20010202 ∧ .stateWrite [.line 1 0] ∈ t.fifo := by decide +kernel

/-- The office with circuit 1 ACTIVE on a 7-UNIT line with even parity: transit 0 is RECEIVING from it with 5 characters in
buffer A, and the last character of `QQQQ` is awaited. -/
def closing1 : State :=
  { line1 (fun l => { l with
      entry := flagged 1
      mon := { l.mon with condition := .active }
      rx := { l.rx with
        state := .text, openGroup := [75, 81, 75, 81], closeGroup := [81, 81, 81, 81], closeMatch := 3
        holdBack := [81, 81, 81], transit := some 0
        bufA := { l.rx.bufA with state := .filling, count := 5, block := some 0 } } }) with
    transits := (Vector.replicate 256 none).set 0 (some { wxyz .receiving with
      pendingCopies := 0, rank := some 2, channel := some 1, stored := 5, first := some 0, last := some 0, blocks := 1 }) }

/-- The office with a SUBMIT copy under way: 60 characters at 0x300000, `done` of them read, and transit 0 with the
Local Position's assembler in TEXT. -/
def submitting (done : Nat) (a b : BlockState) (stored : Nat) : State :=
  { (office.modRx 0 (fun r =>
      { r with
        state := .text, transit := some 0
        bufA := { r.bufA with state := a, count := 2, block := some 0 }, bufB := { r.bufB with state := b } })) with
    fifo := [.compositionRead (0x300000 + done) 15], submitCopy := some ⟨0x300000, 60, done, []⟩
    inFlight := some ⟨4, 0, 7, 0x300000, 60, 0⟩
    transits := (Vector.replicate 256 none).set 0 (some { newTransit 0 0 with stored := stored }) }

theorem witness_StepRunsFrontCommand :
    { office with pending := [.officeTimeRead, .clockAdvance] }.pending = .officeTimeRead :: [.clockAdvance] := rfl
theorem witness_IdleStepIsOnePulse :
    office.pending = [] ∧ (∀ n : Line, (office.mon n).condition ≠ .test) ∧
      { office with divider := 998 }.divider + 1 < 1000 ∧ ¬ { office with divider := 999 }.divider + 1 < 1000 ∧
      (let s := fun p => (withLine .test .idle).modTx 1 (fun x => { x with pacing := p });
        (∀ n : Line, n ≠ 0 → ((s 98).mon n).condition = .test → ((s 98).tx n).pacing + 1 < characterPeriod ((s 98).entry n)) ∧
          ((s 99).mon 1).condition = .test ∧ characterPeriod ((s 99).entry 1) ≤ ((s 99).tx 1).pacing + 1 ∧
          ∀ m : Line, m ≠ 0 → m ≠ 1 → ((s 99).mon m).condition ≠ .test) := by
  decide +kernel
theorem witness_ByteEnablesOfWrites :
    commandFields (.submit 1 2 0) = some (4, 1, 2, 0) ∧ commandFields (.noSuchCommand 0 1 2 14) = some (0, 1, 2, 14) ∧
      commandFields (.cancel 1 2 14) = some (5, 1, 2, 14) ∧ (14 : ByteEnables).getLsbD 0 = false := by decide
theorem witness_BusyOfficeTurnsCommandsAway :
    commandFields (.startLine 1 7 1) = some (1, 1, 7, 1) ∧ (1 : ByteEnables) ≠ 0 ∧ State.reset.commandBusy = true ∧
      { office with inFlight := some ⟨1, 1, 7, 0, 0, 0⟩ }.commandBusy = true ∧
      (let s := { office with officeState := .haltedConfig, pool := none };
        s.officeState = .haltedConfig ∧ s.inFlight = none ∧ (s.taken 1 1 7 15).code.toNat = 1 ∧
          (s.taken 10 1 7 15).code.toNat = 10) := by decide +kernel
theorem witness_NoSuchCommandIsAnswered :
    commandFields (.noSuchCommand 12 1 7 15) = some (12, 1, 7, 15) ∧ office.officeState ≠ .loading ∧
      office.inFlight = none ∧ (office.taken 0 1 7 15).code.toNat = 0 ∧ 11 < (office.taken 12 1 7 15).code.toNat ∧
      (office.taken 5 1 7 14).code.toNat = 0 := by decide +kernel
theorem witness_BadLineIsAnswered :
    office.officeState = .running ∧ office.inFlight = none ∧ (office.taken 1 0 7 15).line.toNat = 0 ∧
      48 < (office.taken 9 49 7 15).line.toNat ∧
      (∀ c ∈ ([1, 2, 3, 6, 8, 9] : List (BitVec 8)), (office.taken c 49 7 15).code = c) := by decide +kernel
theorem witness_WrongStateIsAnswered :
    ((withLine .active .idle).accepts 1 1 7 15 ∧ ((withLine .active .idle).taken 1 1 7 15).line.toNat = (1 : Line).val ∧
        ((withLine .active .idle).mon 1).condition ≠ .stopped) ∧
      (withLine .suspect .idle).accepts 3 1 7 15 ∧ ((withLine .suspect .idle).mon 1).condition ≠ .stopped ∧
      (let s := line1 (fun l => { l with tx := { l.tx with state := .closing, stopMark := true } });
        s.accepts 3 1 7 15 ∧ (s.mon 1).condition = .stopped ∧ (s.tx 1).stopMark = true) := by decide +kernel
theorem witness_RefusedArgumentsAreAnswered :
    (let s := { office with argA := 0x300000, argB := 3601 };
      s.accepts 4 0 7 15 ∧ s.badComposition s.argA.toNat s.argB.toNat = true) ∧
    (let s := { office with argA := 0x300000, argB := 3600, transits := Vector.replicate 256 (some (wxyz .inTransit)) };
      s.accepts 4 0 7 15 ∧ s.badComposition s.argA.toNat s.argB.toNat = false ∧ ∀ t : TransitId, s.transit? t ≠ none) ∧
    (office.accepts 5 0 7 15 ∧ isFourLetters office.argA = false ∧ office.argB.toNat = 0 ∧
      9999 < { office with argA := 0x5A595857, argB := 10000 }.argB.toNat) ∧
    (let s := { office with argA := 0x5A595857, argB := 9999 };
      s.accepts 5 0 7 15 ∧ isFourLetters s.argA = true ∧ s.argB.toNat = 9999 ∧ ∀ t : TransitId, s.transit? t = none) ∧
    (office.accepts 8 48 7 15 ∧ (office.taken 8 48 7 15).line.toNat = (48 : Line).val ∧
      999 < { office with argA := 1000, argB := 1 }.argA.toNat ∧ 999 < { office with argB := 1000 }.argB.toNat) := by
  decide +kernel
theorem witness_StartLineBeginsReload :
    office.accepts 1 48 7 15 ∧ (office.taken 1 48 7 15).line.toNat = (48 : Line).val ∧
      (office.mon 48).condition = .stopped := by decide +kernel
theorem witness_StopLineStopsCircuit :
    (office.accepts 2 1 7 15 ∧ (office.taken 2 1 7 15).line.toNat = (1 : Line).val ∧ (office.mon 1).condition = .stopped) ∧
      ((withLine .test .text).accepts 2 1 7 15 ∧ ((withLine .test .text).mon 1).condition ≠ .stopped) ∧
      ((withLine .active .closing).mon 1).condition ≠ .stopped := by decide +kernel
theorem witness_TestLineStartsTest :
    office.accepts 3 48 7 15 ∧ (office.taken 3 48 7 15).line.toNat = (48 : Line).val ∧
      (office.mon 48).condition = .stopped ∧ (office.tx 48).stopMark = false := by decide +kernel
theorem witness_SubmitBeginsCopy :
    let s := { office with
      argA := 0xFFFF00, argB := 256, transits := (Vector.replicate 256 none).set 0 (some (wxyz .inTransit)) }
    s.accepts 4 0 7 15 ∧ s.badComposition s.argA.toNat s.argB.toNat = false ∧ s.transit? 1 = none ∧
      ∀ j : TransitId, j < 1 → s.transit? j ≠ none := by decide +kernel
theorem witness_CancelFreesRecords :
    let s := { office with
      argA := 0x5A595857, argB := 7, transits := (Vector.replicate 256 none).set 0 (some (wxyz .waiting)), waitList := [0] }
    s.accepts 5 0 7 15 ∧ isFourLetters s.argA = true ∧ s.argB.toNat = 7 ∧ s.transit? 0 = some (wxyz .waiting) ∧
      (wxyz .waiting).origin = some s.argA ∧ (wxyz .waiting).serial = some s.argB.toNat := by decide +kernel
theorem witness_CancelTreatsCopyByPlace :
    (∀ st ∈ [CopyState.queued, .held, .delivering, .sending], (withCopy st .text).copy? 0 = some (copyIn st)) ∧
      (copyIn .queued).transit = 0 ∧ (copyIn .sending).line = some 1 ∧
      (∀ x ∈ [TxState.heading, .text, .closing, .cutting, .stalled], ((withCopy .sending x).tx 1).state = x) := by
  decide +kernel
theorem witness_RerouteLineMovesQueue :
    ((withCopy .queued .idle).accepts 6 1 7 15 ∧ ((withCopy .queued .idle).taken 6 1 7 15).line.toNat = (1 : Line).val) ∧
      (office.accepts 6 48 7 15 ∧ office.queue 48 = [] ∧ office.waitList = []) := by decide +kernel
theorem witness_LineLossTakesUnpinnedCopies :
    ((withCopy .queued .idle).copy? 0 = some (copyIn .queued) ∧ (copyIn .queued).pinned = false ∧
        ∀ a ∈ (copyIn .queued).subset, a.isLiteral = false) ∧
      (let x := { copyIn .queued with pinned := true };
        (((withCopy .queued .idle).setCopy 0 (some x)).copy? 0 = some x ∧ ((withCopy .queued .idle).mon 1).condition ≠ .stopped) ∧
        (office.setCopy 0 (some x)).copy? 0 = some x ∧ (office.mon 1).condition = .stopped) := by decide +kernel
theorem witness_RetryHeldReexamines :
    ((withCopy .held .idle).accepts 7 0 7 15 ∧ office.accepts 7 0 7 15 ∧ office.holdList = [] ∧ office.waitList = []) ∧
      (let x := { copyIn .held with pinned := true };
        let s := (withCopy .held .idle).setCopy 0 (some x);
        s.copy? 0 = some x ∧ s.transit? x.transit = some (wxyz .inTransit) ∧ x.line = some 1 ∧
          (s.mon 1).condition ≠ .stopped ∧ s.queuedTwin 1 0 = none ∧ (0 : CopyId) ∉ s.queue 1) := by decide +kernel
/-- Copy 0 merges into copy 1; copy 2 is then divided between circuits 3 and 4.  The entry it takes is 3, as entry 0 is freed
at the walk's end only (4.9). -/
theorem test_walk_frees_merged_at_end :
    let on := fun (n : Line) => office.modLine n (fun l => { l with mon := { l.mon with condition := .active } })
    let lit := fun (n : Line) => ({ target := .literal n, action := true } : Addressee)
    let s := { on 1 with
      lines := ((on 1).lines.set 3 ((on 3).line 3)).set 4 ((on 4).line 4)
      transits := ((Vector.replicate 256 none).set 0 (some (wxyz .inTransit))).set 1
        (some { wxyz .inTransit with pendingCopies := 1, resolved := [lit 3, lit 4] })
      copies := (((Vector.replicate 768 none).set 0 (some { copyIn .held with pinned := true })).set 1
        (some (copyIn .queued))).set 2 (some { copyIn .held with transit := 1, line := none, subset := [lit 3, lit 4] })
      holdList := [0, 2] }
    let t := (reexamineWalk [] [0, 2] (s.setQueue 1 [1])).1
    t.queue 1 = [1] ∧ t.queue 3 = [2] ∧ t.queue 4 = [3] ∧ t.copy? 0 = none ∧ t.holdList = [] ∧
      (t.transit? 0).map Transit.pendingCopies = some 1 ∧ (t.transit? 1).map Transit.pendingCopies = some 2 := by
  decide +kernel
/-- Copy 0 is held for circuit 1, where copy 1 of the same transit is QUEUED. -/
theorem witness_RetryHeldReexamines_merge :
    let x := { copyIn .held with pinned := true }
    let s := ((withCopy .held .idle).setCopy 0 (some x)).setCopy 1 (some (copyIn .queued)) |>.setQueue 1 [1]
    s.copy? 0 = some x ∧ (s.transit? x.transit).isSome = true ∧ x.line = some 1 ∧ (s.mon 1).condition ≠ .stopped ∧
      s.queuedTwin 1 0 = some 1 ∧ (0 : CopyId) ∉ s.queue 1 := by decide +kernel
theorem witness_SetSequenceSetsNumbers :
    (let s := { office with argA := 999, argB := 1 };
      s.accepts 8 1 7 15 ∧ (s.taken 8 1 7 15).line.toNat = (1 : Line).val ∧ s.argA.toNat = 999 ∧ s.argB.toNat = 1) ∧
      { office with argA := 0, argB := 999 }.accepts 8 1 7 15 ∧ { office with argA := 0, argB := 999 }.argB.toNat = 999 := by
  decide +kernel
theorem witness_ClearCountersClears :
    office.accepts 9 0 7 15 ∧ (office.taken 9 0 7 15).line.toNat = 0 ∧ (office.taken 9 49 7 15).line.toNat = 49 ∧
      (office.taken 9 48 7 15).line.toNat = (48 : Line).val := by decide +kernel
theorem witness_SetTimeSetsOfficeTime :
    { office with argA := 864000 }.accepts 10 0 7 15 ∧ { office with argA := 864000 }.argA.toNat = 864000 ∧
      { office with argA := 863999 }.accepts 10 0 7 15 ∧ { office with argA := 863999 }.argA.toNat = 863999 := by
  decide +kernel
theorem witness_ResetOfficeRestartsOffice :
    office.officeState ≠ .loading ∧ office.inFlight = none ∧ (office.taken 11 0 7 15).code = 11 ∧
      { office with officeState := .haltedConfig }.officeState ≠ .loading := by decide +kernel
theorem witness_CapturedWordWrites :
    (15 : ByteEnables) ≠ 0 ∧ (enabledBits 0x1FC7 15).getLsbD 3 = false ∧ (enabledBits 0x1FC7 15).getLsbD 4 = false ∧
      (enabledBits 0x1FC7 15).getLsbD 5 = false ∧
      (let s := (withLine .active .stalled).modRx 48 (fun r => { r with state := .stalled });
        (enabledBits 8 15).getLsbD 3 = true ∧ (s.rx 48).state = .stalled ∧ (enabledBits 16 15).getLsbD 4 = true ∧
          (s.tx 1).state = .stalled ∧ (enabledBits 32 15).getLsbD 5 = true) := by decide +kernel
theorem witness_EventWordWriteClears :
    (let s := { office with events := 0x401 };
      s.clearRecovers (enabledBits 0x439 15) .rxStall = false ∧ s.clearRecovers (enabledBits 0x439 15) .txStall = false ∧
        s.clearRecovers (enabledBits 0x439 15) .routeHold = false) ∧
      (let s := { office.modRx 48 (fun r => { r with state := .stalled }) with events := 8 };
        s.clearRecovers (enabledBits 8 15) .rxStall = true ∧ s.clearRecovers (enabledBits 8 15) .txStall = false ∧
          s.clearRecovers (enabledBits 8 15) .routeHold = false ∧ (s.rx 48).state = .stalled) ∧
      (let s := { (withLine .active .stalled) with events := 0x30 };
        s.clearRecovers (enabledBits 0x30 15) .txStall = true ∧ s.clearRecovers (enabledBits 0x30 15) .routeHold = true ∧
          s.clearRecovers (enabledBits 0x30 15) .rxStall = false ∧ s.clearRecovers (enabledBits 0x20 15) .txStall = false ∧
          (s.tx 1).state = .stalled) := by decide +kernel
theorem witness_ReadIndexWriteAcknowledges :
    (let s := { office with writeIndex := 16 };
      clampIndex s.readIndex s.writeIndex (s.mergedIndex 16 3) = 16 ∧
        clampIndex s.readIndex s.writeIndex (s.mergedIndex 0 3) = s.readIndex) ∧ (3 : ByteEnables) ≠ 0 ∧
      (let s := { withCopy .delivering .idle with writeIndex := 2, awaiting := [(0, 0), (1, 1)] };
        s.awaiting.filter (fun p => decide ((p.1 - s.readIndex).toNat < (1 - s.readIndex).toNat)) = [(0, 0)] ∧
          clampIndex s.readIndex s.writeIndex (s.mergedIndex 1 3) = 1 ∧ s.copy? 0 = some (copyIn .delivering) ∧
          s.transit? 0 = some (wxyz .inTransit)) := by decide +kernel
/-- Two copies of one transit passed by one write: both are freed and the transit with them. -/
theorem test_read_index_frees_several :
    let s := { (withCopy .delivering .idle).setCopy 1 (some (copyIn .delivering)) with
      writeIndex := 2, awaiting := [(0, 0), (1, 1)] }
    let t := acknowledge 0 2 s
    t.awaiting = [] ∧ t.copy? 0 = none ∧ t.copy? 1 = none ∧ t.transit? 0 = none ∧
      ((acknowledge 0 1 s).transit? 0).map Transit.pendingCopies = some 1 := by decide +kernel
/-- Two link writes of one word, the later one of which answers; a state write behind a read; a word that nothing writes. -/
theorem witness_SubstitutedReads :
    let s := { office with
      fifo := [.linkWrite 0x200000 1, .linkWrite 0x200000 2, .textRead 1 .a 0x200000, .stateWrite [.line 1 0]] }
    s.fifo = [.linkWrite 0x200000 1] ++ .linkWrite 0x200000 2 :: [.textRead 1 .a 0x200000, .stateWrite [.line 1 0]] ∧
      s.pendingValue 0x200000 (.linkWrite 0x200000 2) = some 2 ∧
      (∀ d ∈ [FifoEntry.textRead 1 .a 0x200000, .stateWrite [.line 1 0]], s.pendingValue 0x200000 d = none) ∧
      (∀ e ∈ s.fifo, s.pendingValue 0x300000 e = none) ∧ s.windowBase + 0x400 + 32 = 0x100420 ∧
      s.windowBase + (StateWord.line 1 0).offset = 0x100420 := by decide +kernel
theorem witness_BlockedWriteProtects_areas :
    office.treatment 0x1000FF = .plain ∧ office.treatment 0x10027C = .blocked ∧ office.treatment 0x100280 = .plain ∧
      office.treatment 0x1003FF = .plain ∧ office.treatment 0x100A1F = .blocked ∧ office.treatment 0x100A20 = .plain ∧
      office.treatment 0x101000 = .table 0 ∧ office.treatment 0x104000 = .plain ∧ office.treatment 0x112000 = .plain ∧
      office.treatment 0x0FFFFF = .plain ∧ office.treatment 0x120000 = .plain ∧ office.treatment 0x1FFFFF = .plain ∧
      office.pool = some { base := 0x200000, count := 16 } := by decide +kernel
theorem witness_BlockedWriteProtects :
    office.treatment (0x200000 : Address).toNat = .blocked ∧ office.treatment (0x2003FF : Address).toNat = .blocked ∧
      office.treatment (0x200400 : Address).toNat = .plain ∧ office.treatment (0x100003 : Address).toNat = .command ∧
      office.treatment (0x100024 : Address).toNat = .enable ∧ office.treatment (0x100278 : Address).toNat = .receiveCell 48 ∧
      office.treatment (0x100004 : Address).toNat = .argument .a ∧ office.treatment (0x10000F : Address).toNat = .argument .c ∧
      office.treatment (0x100020 : Address).toNat = .event ∧ office.treatment (0x100028 : Address).toNat = .informOnly ∧
      office.treatment (0x100038 : Address).toNat = .readIndex ∧
      office.treatment (0x103FFC : Address).toNat = .table 3071 ∧ office.treatment (0x111FFF : Address).toNat = .blocked := by
  decide +kernel
theorem witness_TableWriteSnoopsBytes :
    office.memoryLaw ∧ (inTableArea (tableOffset 0) = true ∧ office.tableLoaded (tableOffset 0) = true) ∧
      (inTableArea (tableOffset 3071) = true ∧ office.tableLoaded (tableOffset 3071) = true) ∧
      inTableArea (tableOffset 72) = false ∧ State.reset.memoryLaw ∧ State.reset.tableLoaded (tableOffset 0) = false ∧
      office.mem.readWord (office.windowBase + tableOffset 0) = office.shadow.readWord (tableOffset 0) := by decide +kernel
theorem witness_LineEntryWriteByCondition :
    (tableOffset 256 = 0x1400 + 32 * ((1 : Line).val - 1) + 4 * (0 : Fin 8).val ∧
        tableOffset 639 = 0x1400 + 32 * ((48 : Line).val - 1) + 4 * (7 : Fin 8).val) ∧
      office.tableLoaded (tableOffset 256) = true ∧
      ((office.mon 1).condition = .stopped ∧ (office.mon 1).reloadPending = false) ∧
      (let s := line1 (fun l => { l with mon := { l.mon with condition := .starting, reloadPending := true } });
        (s.mon 1).condition = .starting ∧ (s.mon 1).reloadPending = true) ∧
      ((withLine .active .idle).mon 1).condition ≠ .stopped ∧ ((withLine .active .idle).line 1).tableDiffers = false := by
  decide +kernel
/-- A differs flag that stands already: the record is rewritten all the same, and TABLE is not posted again. -/
theorem test_flag_set_again_rewrites :
    (let s := { line1 (fun l => { l with tableDiffers := true, mon := { l.mon with condition := .active } }) with events := 0 };
      let t := after (exec (.officeTableWrite 256 1 15) s);
      t.fifo = [.stateWrite [.line 1 0]] ∧ t.events = 0) ∧
      (let t := after (exec (.officeTableWrite 9 1 3) { office with poolDiffers := true });
        t.fifo = [.stateWrite [.office 0]] ∧ t.events = 0) := by decide +kernel
theorem witness_TestPeriodLoopsBack :
    (office.mon 1).condition ≠ .test ∧
      (((withLine .test .idle).mon 1).condition = .test ∧ ((withLine .test .idle).tx 1).state = .idle ∧
        (withLine .test .idle).queue 1 = []) ∧
      (let s := (withLine .test .cutting).modLine 1 (fun l =>
          { l with
            rx := { l.rx with state := .hunt, openGroup := [75, 81, 75, 81] }
            tx := { l.tx with cutRemaining := 2 } });
        (s.mon 1).condition = .test ∧ (s.tx 1).state = .cutting ∧ 1 < (s.tx 1).cutRemaining ∧ (s.rx 1).state = .hunt ∧
          advanceMatch (s.rx 1).openGroup (s.rx 1).openMatch
            ((cutSequence (s.tx 1).latched).getD ((s.tx 1).latched.cutLength - (s.tx 1).cutRemaining) 0) ≠
              (s.rx 1).openGroup.length) := by decide +kernel
/-- A copy at the head of the queue, and one in each part of its message, with a body of 60 characters. -/
theorem witness_TestPeriodLoopsBack_copy :
    let tr := { wxyz .inTransit with stored := 90, bodyOffset := some 30, first := some 0, last := some 1, blocks := 2 }
    let s := fun (c : CopyState) (st : TxState) (k : Nat) (b : TextState) => { (withCopy c st).modLine 1 (fun l =>
      { l with
        mon := { l.mon with condition := .test }
        tx := { l.tx with next := k, bufA := { l.tx.bufA with state := b } } }) with
      transits := (Vector.replicate 256 none).set 0 (some tr) }
    let q := s .queued .idle 0 .empty
    let x := (s .sending .text 0 .ready).tx 1
    (q.mon 1).condition = .test ∧ (q.tx 1).state = .idle ∧ (q.mon 1).outstanding = none ∧ q.queue 1 = [0] ∧
      q.copy? 0 = some (copyIn .queued) ∧ q.transit? 0 = some tr ∧ 0 < tr.bodyLength ∧ q.blockOfPosition tr 30 = some 0 ∧
      x.sending = some 0 ∧ (s .sending .text 0 .ready).copy? 0 = some (copyIn .sending) ∧ x.next < tr.bodyLength ∧
      (x.buf x.current).state = .ready ∧ (((s .sending .text 0 .reading).tx 1).buf .a).state ≠ .ready ∧
      ((s .sending .text 60 .empty).tx 1).next = tr.bodyLength ∧ ((s .sending .heading 0 .empty).tx 1).state = .heading ∧
      ((s .sending .closing 0 .empty).tx 1).state = .closing ∧ (s .sending .closing 0 .empty).waitList = [] ∧
      tr.state = .inTransit := by decide +kernel
/-- The choice in TEST offers the first character of `KQKQ`, whose last one makes the receiver take a record; the transmitter
has gone on before the character arrives. -/
theorem test_period_sends_copy :
    let s := fun (c : CopyState) (st : TxState) => (withCopy c st).modLine 1 (fun l =>
      { l with
        mon := { l.mon with condition := .test }
        rx := { l.rx with state := .hunt, openGroup := [75, 81, 75, 81], closeGroup := [81, 81, 81, 81] } })
    let t := after (exec (.testCharacterPeriodEnd 1) (s .queued .idle))
    let u := after (exec (.testCharacterPeriodEnd 1) ((s .sending .heading).modLine 1 (fun l =>
      { l with
        rx := { l.rx with openMatch := 3 }
        tx := { l.tx with next := 3, latched := { l.tx.latched with opening := [75, 81, 75, 81] } } })))
    ((t.tx 1).state = .heading ∧ (t.tx 1).next = 1 ∧ (t.rx 1).openMatch = 1) ∧
      (u.tx 1).next = 4 ∧ (u.rx 1).state = .heading ∧ (u.transit? 1).map (fun r => r.flags.loopback) = some true := by
  decide +kernel
theorem witness_ReceiveTimeoutStalls :
    (let s := { office.modRx 1 (fun r => { r with state := .text }) with clock := 299 };
      s.receiveTimeoutDue 1 = false) ∧
    (let s := { office.modRx 1 (fun r => { r with state := .discard }) with clock := 300 };
      s.receiveTimeoutDue 1 = true ∧ (s.rx 1).state = .discard) ∧
    (let s := { office.modRx 1 (fun r => { r with state := .text }) with clock := 300 };
      s.receiveTimeoutDue 1 = true ∧ (s.rx 1).state ≠ .discard ∧ s.isInformOnly .rxStall = false ∧
        { s with informOnly := 8 }.isInformOnly .rxStall = true) := by decide +kernel
theorem witness_TransmitStallStalls :
    { withLine .active .text with clock := 49 }.transmitStallDue 1 = false ∧
      { withLine .active .text with clock := 50 }.transmitStallDue 1 = true ∧
      { withLine .active .text with clock := 50 }.isInformOnly .txStall = false ∧
      { withLine .active .text with clock := 50, informOnly := 16 }.transmitStallDue 1 = true ∧
      { withLine .active .text with clock := 50, informOnly := 16 }.isInformOnly .txStall = true := by decide +kernel
theorem witness_AnswerTimerExpiryCountsFailure :
    let s := fun (c : Condition) (failures : Nat) (now : Clock) => { line1 (fun l =>
      { l with mon := { l.mon with condition := c, timer := some 0, failures := failures } }) with clock := now }
    (s .active 0 99).answerTimerDue 1 = false ∧ (s .active 1 100).answerTimerDue 1 = true ∧
      failureLimit ((s .active 1 100).entry 1) = 3 ∧ ((s .active 1 100).mon 1).failures + 1 < 3 ∧
      ((s .active 2 100).mon 1).failures + 1 = 3 ∧ (s .starting 0 100).answerTimerDue 1 = true ∧
      ((s .starting 0 100).mon 1).condition = .starting := by decide +kernel
theorem witness_CopyOverdueSetsFlag :
    let s := { withCopy .queued .idle with clock := 18000 }
    s.copy? 0 = some (copyIn .queued) ∧ 10 * s.overdueLimit 2 = 18000 ∧ (s.clock - (copyIn .queued).queuedTime).toNat = 18000 ∧
      (let t := { withCopy .queued .idle with clock := 17999 };
        (t.clock - (copyIn .queued).queuedTime).toNat < 10 * t.overdueLimit 2) := by decide +kernel
/-- The limits of R and D stand at 0x1038; a write that lowers R's to 100 s makes a copy of 100 s overdue at once. -/
theorem witness_CopyOverdueSetsFlag_limits :
    let s := { withCopy .queued .idle with clock := 1000 }
    tableOffset 14 = 0x1038 ∧ tableOffset 13 = 0x1034 ∧ s.tableLoaded (tableOffset 14) = true ∧
      (let t := { s with shadow := s.shadow.writeMasked 0x1038 100 3 };
        t.overdueLimit 2 = 100 ∧ t.overdueDue (copyIn .queued) = true ∧ s.overdueDue (copyIn .queued) = false) := by
  decide +kernel
theorem witness_ReceiveCellTouchesOneLine :
    (office.rx 1).state = .off ∧ ((withLine .test .idle).mon 1).condition = .test ∧
      (let s := (withLine .active .idle).modRx 1 (fun r => { r with state := .hunt });
        (s.rx 1).state ≠ .off ∧ (s.mon 1).condition ≠ .test) := by decide +kernel
theorem witness_ReceiveCellInHunt :
    let s := fun m => line1 (fun l =>
      { l with
        entry := flagged 1
        mon := { l.mon with condition := .active }
        rx := { l.rx with state := .hunt, openMatch := m, openGroup := [75, 81, 75, 81] } })
    let w := enabledBits 0xD1 15
    ((s 3).rx 1).state = .hunt ∧ ((s 3).mon 1).condition ≠ .test ∧ sevenUnit ((s 3).entry 1) = true ∧
      w.getLsbD 10 = false ∧ w.getLsbD 8 = false ∧ w.getLsbD 9 = false ∧
      elementsAtOne (byteOf w 0) % 2 = (if parityOdd ((s 3).entry 1) then 1 else 0) ∧
      advanceMatch ((s 3).rx 1).openGroup 3 (w.extractLsb' 0 7) = ((s 3).rx 1).openGroup.length ∧
      advanceMatch ((s 1).rx 1).openGroup 1 (w.extractLsb' 0 7) ≠ ((s 1).rx 1).openGroup.length ∧
      (s 3).transit? 0 = none ∧
      (let t := { s 3 with transits := Vector.replicate 256 (some (wxyz .inTransit)) };
        ∀ j : TransitId, t.transit? j ≠ none) := by decide +kernel
/-- Combination 1 gives a letter, 2 is the shift to figures, 3 is ignored. -/
theorem witness_ReceiveCellInHunt_fiveUnit :
    let s := { line1 (fun l => { l with mon := { l.mon with condition := .active }, rx := { l.rx with state := .hunt } }) with
      shadow := [(0x1201, 75), (0x1202, 129), (0x1203, 130), (0x121F, 128)] }
    (s.rx 1).state ≠ .off ∧ (s.mon 1).condition ≠ .test ∧ sevenUnit (s.entry 1) = false ∧ (s.rx 1).shift = .letters ∧
      (s.receiveCode 1).toNat = 75 ∧ (s.receiveCode 2).toNat = 129 ∧ (s.receiveCode 3).toNat = 130 ∧
      (s.receiveCode 4).toNat = 0 ∧ (s.receiveCode 31).toNat = 128 := by decide +kernel
theorem witness_ReceiveCellInHunt_errors :
    let w := enabledBits 0x1D1 15
    (w.getLsbD 10 = false ∧ w.getLsbD 8 = true) ∧
      ¬ ((enabledBits 0x51 15).getLsbD 9 = false ∧ elementsAtOne (byteOf (enabledBits 0x51 15) 0) % 2 = 0) ∧
      closing1.mutilationMark = 0 ∧ advanceMatch [75, 81, 75, 81] 3 0 ≠ 4 ∧
      (enabledBits 0x400 15).getLsbD 10 = true ∧ (closing1.rx 1).breakSeen = false ∧ (closing1.mon 1).condition ≠ .stopped ∧
      ((closing1.modRx 1 (fun r => { r with breakSeen := true })).rx 1).breakSeen = true := by decide +kernel
theorem witness_ReceiveCellInHunt_closing :
    let r := closing1.rx 1
    let w := enabledBits 0xD1 15
    r.state = .text ∧ sevenUnit (closing1.entry 1) = true ∧ w.getLsbD 10 = false ∧ w.getLsbD 8 = false ∧
      w.getLsbD 9 = false ∧ elementsAtOne (byteOf w 0) % 2 = (if parityOdd (closing1.entry 1) then 1 else 0) ∧
      r.transit = some 0 ∧ closing1.transit? 0 ≠ none ∧
      advanceMatch r.closeGroup r.closeMatch (w.extractLsb' 0 7) = r.closeGroup.length ∧
      r.holdBack.length + 1 = r.closeGroup.length := by decide +kernel
/-- The message of the test before completes: its buffer is written and its receiver hunts. -/
theorem test_closing_group_completes :
    let t := after (exec (.receiveCellWrite 1 0xD1 15) closing1)
    (t.rx 1).state = .hunt ∧ ((t.rx 1).buf .a).state = .writing ∧ t.recent = [(0x5A595857, 7)] ∧
      (t.rx 1).expectedIn = some 2 := by decide +kernel
/-- Receivers in the states that do not hunt, with a character that continues no group, one that completes the closing group
and one that completes the opening group. -/
theorem witness_ReceiveCellInHunt_watch :
    let s := fun (st : RxState) => line1 (fun l =>
      { l with
        mon := { l.mon with condition := .suspect, outstanding := some 5 }
        rx := { l.rx with
          state := st, openGroup := [75, 81, 75, 81], closeGroup := [88, 88], openMatch := 3, closeMatch := 1
          service := some ⟨.cka, 5⟩, transit := some 0, holdBack := [75, 81, 75], heading := [65] } })
    (∀ st ∈ [RxState.heading, .address, .text, .service, .discard], ((s st).rx 1).state = st) ∧
      advanceMatch [75, 81, 75, 81] 3 65 ≠ 4 ∧ advanceMatch [88, 88] 1 65 ≠ 2 ∧
      advanceMatch [88, 88] 1 88 = 2 ∧ advanceMatch [75, 81, 75, 81] 3 81 = 4 ∧ advanceMatch [88, 88] 1 81 ≠ 2 ∧
      ((s .service).rx 1).service = some ⟨.cka, 5⟩ ∧ ((s .service).mon 1).outstanding = some 5 ∧
      ((s .stalled).rx 1).state = .stalled := by decide +kernel
/-- A record with room, both buffers WRITING below the stored length limit and at it, and no block for a FREE buffer. -/
theorem witness_ReceiveCellInHunt_acts :
    let s := fun (st : RxState) (a b : BlockState) (stored : Nat) => { line1 (fun l =>
      { l with rx := { l.rx with state := st, transit := some 0, bufA := { l.rx.bufA with state := a, block := some 0 },
                                 bufB := { l.rx.bufB with state := b } } }) with
      transits := (Vector.replicate 256 none).set 0 (some { newTransit 1 0 with stored := stored }) }
    (∀ st ∈ [RxState.heading, .address, .text], ((s st .filling .free 3).rx 1).state = st ∧
        ((s st .filling .free 3).rx 1).transit = some 0) ∧
      (s .text .filling .free 3).transit? 0 = some { newTransit 1 0 with stored := 3 } ∧
      (s .text .filling .free 3).storedLimit = 3600 ∧ ((s .text .filling .free 3).rx 1).filling = some .a ∧
      ((s .text .writing .free 60).rx 1).filling = none ∧ (s .text .writing .free 60).freeHead ≠ none ∧
      ((s .text .writing .writing 60).rx 1).filling = none ∧
      ((s .text .writing .writing 3600).rx 1).bufA.state = .writing ∧ ((s .text .writing .writing 3600).rx 1).bufB.state = .writing ∧
      (s .text .writing .writing 3600).storedLimit ≤ 3600 ∧ (assemble 1 65 (s .text .writing .writing 3600)).2 = .truncated ∧
      (assemble 1 65 (s .text .writing .writing 3599)).2 = .goesOn ∧
      { s .text .writing .free 60 with freeHead := none, freeCount := 0 }.freeCount = 0 := by decide +kernel
/-- `DXA 107 R PQRS 0412` against DXA, and `CKQ 007`. -/
theorem test_headings :
    let line := chars [68, 88, 65, 32, 49, 48, 55, 32, 82, 32, 80, 81, 82, 83, 32, 48, 52, 49, 50]
    checkHeading [68, 88, 65] line false = ⟨true, some 107, 2, some 0x53525150, some 412⟩ ∧
      (checkHeading [68, 88, 66] line false).good = false ∧ (checkHeading [68, 88, 66] line false).channel = some 107 ∧
      serviceHeading (chars [67, 75, 81, 32, 48, 48, 55]) false = some ⟨.ckq, 7⟩ := by decide +kernel
/-- A CKA of the outstanding number restores a SUSPECT line; LF ends heading `A`, a fault that is refused when fewer blocks
are free than the reserve asks. -/
theorem test_closing_and_heading_end :
    let s := line1 (fun l =>
      { l with
        mon := { l.mon with condition := .suspect, outstanding := some 5 }
        rx := { l.rx with
          state := .service, openGroup := [75, 81], closeGroup := [88, 88], closeMatch := 1, service := some ⟨.cka, 5⟩ } })
    let h := fun (reserve : Byte) (free : Nat) => { line1 (fun l =>
      { l with rx := { l.rx with
          state := .heading, transit := some 0, heading := [65], bufA := { l.rx.bufA with state := .filling, block := some 0 } } }) with
      transits := (Vector.replicate 256 none).set 0 (some { newTransit 1 0 with stored := 1 }), freeCount := free
      shadow := if reserve = 0 then [] else [(0x1028, reserve)] }
    ((arrive 1 88 s).mon 1).condition = .active ∧ ((arrive 1 88 s).rx 1).state = .hunt ∧
      (assemble 1 10 (h 8 8)).2 = .goesOn ∧ ((assemble 1 10 (h 8 8)).1.rx 1).state = .address ∧
      ((assemble 1 10 (h 8 8)).1.mon 1).counters.heading = 1 ∧ (assemble 1 10 (h 8 7)).2 = .refused ∧
      (assemble 1 10 (h 8 7)).1.transit? 0 = none ∧ (assemble 1 10 (h 8 7)).1.counts.refusedReserve = 1 := by decide +kernel
theorem witness_SendCellReadAnswers :
    (((withLine .test .text).mon 1).condition = .test ∧ (office.tx 1).state = .off ∧
        ((withLine .active .stalled).tx 1).state = .stalled ∧
        (((withLine .active .idle).tx 1).state = .idle ∧ ((withLine .active .idle).mon 1).owed = none ∧
          (withLine .active .idle).ckqDue 1 = false ∧ (withLine .active .idle).queue 1 = [])) ∧
      (let s := (withLine .active .cutting).modLine 1 (fun l =>
          { l with entry := flagged 3, tx := { l.tx with cutRemaining := 2 } });
        (s.mon 1).condition ≠ .test ∧ (s.tx 1).state = .cutting ∧ 1 < (s.tx 1).cutRemaining ∧ (s.tx 1).slot = none ∧
          sevenUnit (s.entry 1) = true) := by decide +kernel
/-- An owed CKA, a due CKQ, and a copy at the head of the queue. -/
theorem witness_SendCellReadAnswers_choice :
    let s := fun (owed : Option Nat) (flags : Word) => (withCopy .queued .idle).modLine 1 (fun l =>
      { l with entry := flagged flags, mon := { l.mon with owed := owed, condition := if flags = 17 then .starting else .active } })
    sevenUnit ((s (some 3) 1).entry 1) = true ∧ ((s (some 3) 1).tx 1).state = .idle ∧ ((s (some 3) 1).mon 1).owed = some 3 ∧
      (s none 17).ckqDue 1 = true ∧ (s none 1).ckqDue 1 = false ∧ ((s none 1).mon 1).outstanding = none ∧
      (s none 1).queue 1 = [0] ∧ (s none 1).copy? 0 = some (copyIn .queued) ∧
      (s none 1).transit? 0 = some (wxyz .inTransit) := by decide +kernel
/-- A copy of a body of 60 characters from position 30 on, in each part of its message. -/
theorem witness_SendCellReadAnswers_copy :
    let s := fun (st : TxState) (k : Nat) (b : TextState) => { (withCopy .sending st).modLine 1 (fun l =>
      { l with entry := flagged 1, tx := { l.tx with next := k, bufA := { l.tx.bufA with state := b } } }) with
      transits := (Vector.replicate 256 none).set 0 (some { wxyz .inTransit with
        stored := 90, bodyOffset := some 30, first := some 0, last := some 1, blocks := 2 }) }
    let x := (s .text 0 .ready).tx 1
    x.slot = none ∧ x.sending = some 0 ∧ (s .text 0 .ready).copy? 0 = some (copyIn .sending) ∧
      (x.buf x.current).state = .ready ∧ (((s .text 0 .reading).tx 1).buf .a).state ≠ .ready ∧
      (s .text 0 .ready).blockOfPosition { wxyz .inTransit with
        stored := 90, bodyOffset := some 30, first := some 0, last := some 1, blocks := 2 } 60 = some 1 ∧
      ((s .heading 0 .empty).tx 1).state = .heading ∧ ((s .closing 0 .empty).tx 1).state = .closing ∧
      (s .closing 0 .empty).waitList = [] := by decide +kernel
theorem witness_SendCellReadAnswers_service :
    let s := (withLine .active .service).modLine 1 (fun l =>
      { l with entry := flagged 1, tx := { l.tx with service := some ⟨.ckq, 1⟩ }, mon := { l.mon with outstanding := some 1 } })
    sevenUnit (s.entry 1) = true ∧ (s.tx 1).slot = none ∧ (s.tx 1).state = .service ∧ (s.tx 1).service = some ⟨.ckq, 1⟩ := by
  decide +kernel
/-- On a 5-UNIT line: CR in class 2, LF a figure, and a slot that waits. -/
theorem witness_SendCellReadAnswers_fiveUnit :
    let s := fun (r : Nat) (z : Option Slot) => { (withLine .active .cutting).modTx 1 (fun x =>
      { x with cutRemaining := r, slot := z }) with shadow := [(0x124A, 0x22), (0x124D, 0x48)] }
    sevenUnit ((s 4 none).entry 1) = false ∧ ((s 4 none).tx 1).slot = none ∧ ((s 4 none).tx 1).shift = .unknown ∧
      (((s 4 none).sendCode 13).extractLsb' 5 2).toNat = 2 ∧ (((s 4 none).sendCode 10).extractLsb' 5 2).toNat = 1 ∧
      (((s 4 none).sendCode 65).extractLsb' 5 2).toNat = 0 ∧ ((s 3 (some ⟨10, 2⟩)).tx 1).slot = some ⟨10, 2⟩ ∧
      (let t := { s 4 none with shadow := [(0x103F, 13), (0x124D, 0x60)] };
        ((t.sendCode t.sendSubstitute).extractLsb' 5 2).toNat = 3) := by decide +kernel
/-- A queue that waits: on a STARTING line, on a SUSPECT one, and while a check is outstanding. -/
theorem witness_SendCellReadAnswers_waits :
    let s := fun (c : Condition) (k : Option Nat) => (withCopy .queued .idle).modMon 1 (fun m =>
      { m with condition := c, outstanding := k })
    (∀ c ∈ [Condition.starting, .suspect, .active], ((s c (some 1)).tx 1).state = .idle ∧ (s c (some 1)).ckqDue 1 = false) ∧
      (s .starting none).ckqDue 1 = false ∧ ((s .suspect none).mon 1).owed = none ∧ (s .suspect none).queue 1 = [0] ∧
      ((s .active (some 1)).mon 1).outstanding ≠ none := by decide +kernel
/-- The last character of a cut whose copy returns, on an ACTIVE line and on a STOPPED one, and of one whose copy was
cancelled. -/
theorem witness_SendCellReadAnswers_cutEnd :
    let s := fun (c : Condition) (r : Bool) => (withCopy .sending .cutting).modLine 1 (fun l =>
      { l with
        mon := { l.mon with condition := c }
        tx := { l.tx with cutRemaining := 1, cutReturn := r, sending := if r then some 0 else none } })
    (∀ c ∈ [Condition.active, .stopped, .test], ((s c true).tx 1).cutRemaining ≤ 1 ∧ ((s c true).tx 1).cutReturn = true ∧
        ((s c true).tx 1).sending = some 0) ∧
      (s .active true).copy? 0 = some (copyIn .sending) ∧ (s .active true).queuedTwin 1 0 = none ∧
      ((s .active false).tx 1).sending = none ∧ (s .active true).waitList = [] := by decide +kernel
/-- On a 5-UNIT line the character LF, in class 0, takes two reads: letters shift, then its own; with the second the cut
ends and the copy is back in the queue with its resend count 1. -/
theorem test_cut_end_returns_copy :
    let s := { (withCopy .sending .cutting).modTx 1 (fun x => { x with
      cutRemaining := 1, cutReturn := true, latched := { x.latched with trailer := 1 } }) with shadow := [(0x124A, 8)] }
    let t := after (exec (.sendCellRead 1) s)
    let u := after (exec (.sendCellRead 1) t)
    t.readData = 0x100 ∧ (t.tx 1).slot = some ⟨10, 8⟩ ∧ t.queue 1 = [] ∧ u.readData = 0x108 ∧ u.queue 1 = [0] ∧
      (u.copy? 0).map (fun x => (x.state, x.resend)) = some (.queued, 1) ∧ (u.tx 1).state = .idle := by decide +kernel
theorem witness_TextBlocksCarriedOut :
    (let s := { office with fifo := [.textWrite 1 .a 0x200000 (Vector.replicate 60 65)] };
      s.memoryLaw ∧ s.fifo = .textWrite 1 .a 0x200000 (Vector.replicate 60 65) :: []) ∧
    (let s := { office with
        fifo := [.textWrite 0 .b 0x2003C0 (Vector.replicate 60 0)], submitCopy := some ⟨0x300000, 8, 4, []⟩ };
      s.memoryLaw ∧ ∀ x ∈ s.submitCopy, x.waiting = []) ∧
    { office with fifo := [.textRead 48 .b 0x2003C0] }.fifo = .textRead 48 .b 0x2003C0 :: [] := by decide +kernel
/-- A copy that waits for buffer A with one character: the character goes into the buffer that the write has freed. -/
theorem witness_TextBlocksCarriedOut_waiting :
    let x : SubmitCopy := ⟨0x300000, 60, 60, [65]⟩
    let s := { submitting 60 .writing .writing 60 with
      fifo := [.textWrite 0 .a 0x200000 (Vector.replicate 60 66)], submitCopy := some x }
    (s.memoryLaw ∧ s.submitCopy = some x ∧ ((s.rx 0).buf .a).state = .writing ∧ (s.rx 0).state = .text ∧
        (s.rx 0).transit = some 0 ∧ (s.transit? 0).isSome = true) ∧
      (let t := after (exec .textBlockWriteDone s);
        t.submitCopy = none ∧ ((t.rx 0).bufA.chars.toList).head? = some 65 ∧ t.lastAnswer = (7, 0)) := by decide +kernel
theorem witness_TableReadLoadsShadow :
    State.reset.memoryLaw ∧ { State.reset with fifo := [.tableRead 31], loadDone := 142 }.fifo = .tableRead 31 :: [] ∧
      { State.reset with loadDone := 142 }.loadDone + 1 < 144 ∧ State.reset.officeState = .loading ∧
      { State.reset with waiting := [.loadPass, .answer 7 0 true] }.waiting = .loadPass :: [.answer 7 0 true] ∧
      { State.reset with waiting := [.answer 7 0 true, .loadPass] }.waiting.head? ≠ some .loadPass := by decide +kernel
/-- The load pass waits first and another block behind it: the pass joins its next read in the place that falls free, and then
waits behind that block. -/
theorem test_load_pass_keeps_its_turn :
    let t := after (exec .tableReadDone { State.reset with
      fifo := (List.range 32).map FifoEntry.tableRead, loadDecided := 32, waiting := [.loadPass, .answer 7 0 true] })
    t.fifo.length = 32 ∧ t.loadDecided = 33 ∧ t.waiting = [.answer 7 0 true, .loadPass] := by decide +kernel
theorem witness_LoadPassEnds :
    let s := { State.reset with
      fifo := [.tableRead 143], loadDone := 143, inFlight := some ⟨11, 0, 7, 0, 0, 0⟩
      shadow := [(0x1022, 0x20), (0x1024, 16)] }
    s.fifo = .tableRead 143 :: [] ∧ 144 ≤ s.loadDone + 1 ∧
      (let t := loadTable 143 { s with fifo := [] };
        t.badGeometry { base := t.tablePoolBase, count := t.tablePoolCount } = false) ∧
      (let t := loadTable 143 { s with fifo := [], shadow := [] };
        t.badGeometry { base := t.tablePoolBase, count := t.tablePoolCount } = true) := by decide +kernel
theorem witness_LineEntryReadStartsLine :
    let s := { line1 (fun l => { l with mon := { l.mon with condition := .starting, reloadPending := true } }) with
      fifo := [.lineEntryRead 1], inFlight := some ⟨1, 1, 7, 0, 0, 0⟩ }
    s.memoryLaw ∧ s.fifo = .lineEntryRead 1 :: [] ∧ (s.mon 1).condition = .starting ∧ (s.tx 1).stopMark = false ∧
      s.inFlight = some ⟨1, 1, 7, 0, 0, 0⟩ := by decide +kernel
/-- The stop mark set while the cut goes on, and a line that has become SUSPECT. -/
theorem witness_LineEntryReadStartsLine_marked :
    let s := fun (c : Condition) => { line1 (fun l =>
      { l with
        mon := { l.mon with condition := c, reloadPending := true }
        tx := { l.tx with state := .cutting, stopMark := true, cutRemaining := 5, shift := .figures } }) with
      fifo := [.lineEntryRead 1], inFlight := some ⟨1, 1, 7, 0, 0, 0⟩ }
    ((s .starting).tx 1).stopMark = true ∧ ((s .starting).tx 1).state = .cutting ∧
      ((s .suspect).mon 1).condition = .suspect ∧
      (let t := after (exec .lineEntryReadDone (s .suspect));
        (t.mon 1).condition = .suspect ∧ (t.tx 1).cutRemaining = 5 ∧ (t.tx 1).shift = .unknown ∧ (t.rx 1).state = .hunt) := by
  decide +kernel
theorem witness_CompositionReadFillsText :
    let x : SubmitCopy := ⟨0x300002, 100, 0, []⟩
    let s := { (office.modRx 0 (fun r =>
        { r with state := .text, transit := some 0, bufA := { r.bufA with state := .filling, count := 2, block := some 0 } })) with
      fifo := [.compositionRead 0x300000 15], submitCopy := some x
      transits := (Vector.replicate 256 none).set 0 (some (newTransit 0 0)) }
    s.fifo = .compositionRead 0x300000 15 :: [] ∧ s.submitCopy = some x ∧ (s.rx 0).state = .text ∧
      (s.rx 0).transit = some 0 ∧ s.transit? 0 = some (newTransit 0 0) ∧ (s.rx 0).filling = some .a ∧
      min (0x300000 + 4 * 15) (x.address + x.length) - (x.address + x.fetched) = 58 ∧ ((s.rx 0).buf .a).count + 57 < 60 ∧
      s.storedLimit = 3600 := by decide +kernel
theorem witness_CompositionReadFillsText_ends :
    let cs := fun (s : State) (x : SubmitCopy) (a : Nat) =>
      (List.range (min (a + 60) (x.address + x.length) - (x.address + x.fetched))).map
        (fun i => ((s.mem.read (x.address + x.fetched + i)).setWidth 7 : OfficeChar))
    (let s := submitting 20 .filling .free 22;
      (s.rx 0).filling = some .a ∧ (cs s ⟨0x300000, 60, 20, []⟩ 0x300014).length = 40 ∧ (((s.rx 0).buf .a).count + 40 < 60) ∧
        60 ≤ 20 + 40 ∧ s.inFlight = some ⟨4, 0, 7, 0x300000, 60, 0⟩) ∧
      (let s := submitting 0 .writing .writing 60;
        (s.rx 0).bufA.state = .writing ∧ (s.rx 0).bufB.state = .writing ∧ 60 < s.storedLimit ∧
          cs s ⟨0x300000, 60, 0, []⟩ 0x300000 ≠ []) ∧
      (let s := { submitting 0 .writing .free 60 with freeCount := 0, freeHead := none, freeTail := none };
        (s.rx 0).filling = none ∧ (s.rx 0).bufB.state = .free ∧ s.freeCount = 0) ∧
      (submitting 0 .filling .free 3600).storedLimit ≤ 3600 ∧
      (let s := submitting 0 .writing .writing 3600;
        (s.rx 0).bufA.state = .writing ∧ (s.rx 0).bufB.state = .writing ∧ s.storedLimit ≤ 3600 ∧
          cs s ⟨0x300000, 60, 0, []⟩ 0x300000 ≠ []) := by decide +kernel
/-- The last read ends the copy: SUBMIT is answered DONE with the transit id, POOL_LOW where no block is free, DUPLICATE where
the pair is listed; it waits while both buffers are WRITING, but at the stored length limit it is truncated even then. -/
theorem test_submit_ends :
    (after (exec .compositionReadDone (submitting 20 .filling .free 22))).lastAnswer = (7, 0) ∧
      (after (exec .compositionReadDone { submitting 0 .writing .free 60 with
        freeCount := 0, freeHead := none, freeTail := none })).isPending .poolLow = true ∧
      ((after (exec .compositionReadDone (submitting 0 .writing .writing 60))).submitCopy.map
        (fun x => x.waiting.length)) = some 60 ∧
      (let t := after (exec .compositionReadDone (submitting 0 .writing .writing 3600));
        t.submitCopy = none ∧ t.lastAnswer = (7, 0)) := by decide +kernel
/-- A copy in HEADING with `R` held, in ADDRESS, and with all its characters taken. -/
theorem witness_CompositionReadFillsText_heading :
    let s := fun (st : RxState) => (submitting 60 .filling .free 22).modRx 0 (fun r => { r with state := st, heading := [82] })
    (∀ st ∈ [RxState.heading, .address], ((s st).rx 0).state = st ∧ ((s st).rx 0).transit = some 0 ∧
        (s st).submitCopy = some ⟨0x300000, 60, 60, []⟩ ∧ ((s st).transit? 0).isSome = true) ∧
      (s .heading).inFlight = some ⟨4, 0, 7, 0x300000, 60, 0⟩ ∧
      checkLocalHeading (chars [82, 32, 87, 88, 89, 90, 32, 48, 48, 48, 55]) false = ⟨true, none, 2, some 0x5A595857, some 7⟩ := by
  decide +kernel
/-- LF ends the faulted local heading `R`: under the reserve the copy ends POOL_LOW with its record freed, and no heading
error is counted. -/
theorem test_submit_refused_at_heading :
    let s := { (submitting 0 .filling .free 22).modRx 0 (fun r => { r with state := .heading, heading := [82] }) with
      mem := [(0x300000, 10)], shadow := [(0x1028, 8)], freeCount := 7 }
    let t := after (exec .compositionReadDone s)
    t.transit? 0 = none ∧ t.submitCopy = none ∧ t.isPending .poolLow = true ∧ t.counts.refusedReserve = 1 ∧
      (t.mon 0).counters.heading = 0 ∧ (t.rx 0).state = .off := by decide +kernel
theorem witness_OwnWritesCarriedOut :
    (∀ e ∈ [FifoEntry.linkWrite 0x200000 0x200040, .recordWrite 15 [1, 2, 3, 4, 5, 6, 7, 8], .indexWrite 1, .answerWrite 1 2,
        .stateWrite [.office 0, .line 48 7]], { office with fifo := [e] }.fifo = e :: []) ∧ office.memoryLaw ∧
      office.ownWrite (.tableRead 0) = none := by decide +kernel
theorem witness_WaitingBlocksJoin :
    office.waiting = [] ∧
      (let s := { office with fifo := List.replicate 31 (.indexWrite 0), waiting := [.entry (.indexWrite 1)] };
        s.waiting = .entry (.indexWrite 1) :: [] ∧ s.fifo.length < 32) ∧
      { office with fifo := List.replicate 32 (.indexWrite 0), waiting := [.delivery] }.fifo.length = 32 ∧
      { office with waiting := [.answer 7 0 true] }.waiting = .answer 7 0 true :: [] := by decide +kernel
/-- A copy at the head of queue 0, and room for its record and the index, or for one of them. -/
theorem witness_WaitingBlocksJoin_delivery :
    let s := fun k => { (withCopy .queued .idle).setQueue 0 [0] with
      fifo := List.replicate k (.indexWrite 0), waiting := [.delivery], writeIndex := 15 }
    (s 31).fifo.length = 31 ∧ (s 30).fifo.length < 31 ∧ (s 30).ringFill < (s 30).ringSize ∧ (s 30).queue 0 = [0] ∧
      (s 30).copy? 0 = some (copyIn .queued) ∧ (s 30).transit? 0 = some (wxyz .inTransit) ∧
      { s 30 with writeIndex := 16 }.ringSize ≤ { s 30 with writeIndex := 16 }.ringFill ∧ office.queue 0 = [] := by decide +kernel
theorem test_delivery_joins :
    let t := after (exec .fifoEntryJoin { (withCopy .queued .idle).setQueue 0 [0] with
      fifo := List.replicate 30 (.indexWrite 0), waiting := [.delivery], writeIndex := 15 })
    t.awaiting = [(15, 0)] ∧ t.writeIndex = 16 ∧ t.queue 0 = [] ∧ (t.copy? 0).map Copy.state = some .delivering := by
  decide +kernel
theorem witness_WaitingBlocksJoin_loadPass :
    let s := fun ws => { State.reset with fifo := List.replicate 20 (.indexWrite 0), loadDecided := 140, waiting := .loadPass :: ws }
    (s []).fifo.length < 32 ∧ (s []).loadDecided < 144 ∧ Waiter.loadPass ∉ ([] : List Waiter) ∧
      (∃ w ∈ [Waiter.answer 7 0 true], w ≠ .delivery) ∧ (s [.answer 7 0 true]).waiting = .loadPass :: [.answer 7 0 true] := by
  decide +kernel
/-- Alone the load pass joins all four reads that are left; with a block behind it, one. -/
theorem test_load_pass_joins :
    let s := fun ws => { State.reset with fifo := List.replicate 20 (.indexWrite 0), loadDecided := 140, waiting := .loadPass :: ws }
    let t := after (exec .fifoEntryJoin (s []))
    let u := after (exec .fifoEntryJoin (s [.answer 7 0 true]))
    (t.fifo.drop 20 = [.tableRead 140, .tableRead 141, .tableRead 142, .tableRead 143] ∧ t.loadDecided = 144 ∧
        t.waiting = []) ∧
      u.fifo.drop 20 = [.tableRead 140] ∧ u.loadDecided = 141 ∧ u.waiting = [.answer 7 0 true, .loadPass] := by decide +kernel
theorem witness_InsertCopyKeepsRankOrder :
    [(0 : CopyId)].Pairwise (fun x y => (withCopy .queued .idle).rankOf x ≤ (withCopy .queued .idle).rankOf y) := by
  decide +kernel
/-- Copy 1 of the same transit arrives where copy 0 is QUEUED, and where it is not. -/
theorem witness_InsertCopyKeepsRankOrder_merge :
    let s := (withCopy .queued .idle).setCopy 1 (some { copyIn .sending with rank := 1 })
    s.copy? 1 = some { copyIn .sending with rank := 1 } ∧ s.queuedTwin 1 1 = some 0 ∧ s.queuedTwin 2 1 = none ∧
      s.queuedTwin 0 1 = none ∧ s.copy? 0 = some (copyIn .queued) ∧ s.transit? 0 = some (wxyz .inTransit) ∧
      1 < (wxyz .inTransit).pendingCopies := by decide +kernel
theorem test_merge_keeps_queued_copy :
    let p := placeInQueue 1 1 true ((withCopy .queued .idle).setCopy 1 (some { copyIn .sending with rank := 1, resend := 3 }))
    let t := p.finish.1
    p.merged = [1] ∧ (p.state.copy? 1).isSome = true ∧
    t.queue 1 = [0] ∧ (t.copy? 0).map (fun x => (x.rank, x.resend, x.state)) = some (1, 3, .queued) ∧ t.copy? 1 = none ∧
      (t.transit? 0).map Transit.pendingCopies = some 1 := by decide +kernel
theorem witness_StepKeepsPoolAndClockLaw_blocks :
    let r : Transit := { wxyz .receiving with first := some 0, last := some 0, blocks := 1 }
    let s := { office with
      freeHead := some 1, freeCount := 15, transits := (Vector.replicate 256 none).set 0 (some r) }
    s.transit? 0 = some r ∧ s.freeHead = some 1 ∧ s.freeCount ≠ 0 ∧ r.last = some 0 ∧ (0 : Nat) ≠ 1 ∧ 0 < s.links.length ∧
      s.freeTail.all (fun e => decide (e < s.links.length)) = true ∧ (wxyz .receiving).last = none ∧
      { office with freeCount := 0, freeHead := none }.freeCount = 0 := by decide +kernel
/-- Block 1 joins behind block 0, and a release puts both behind block 15. -/
theorem test_blocks_chain :
    let r : Transit := { wxyz .receiving with first := some 0, last := some 0, blocks := 1 }
    let s := { office with
      freeHead := some 1, freeCount := 15, transits := (Vector.replicate 256 none).set 0 (some r) }
    (allocateBlock 0 s).map (fun x => (x.1, x.2.nextBlock 0, x.2.freeHead, x.2.freeCount)) = some (1, some 1, some 2, 14) ∧
      (freeTransit 0 s).nextBlock 15 = some 0 ∧ (freeTransit 0 s).freeCount = 16 ∧
      (freeTransit 0 s).freeTail = some 0 := by decide +kernel
theorem witness_SequenceCasesByDistance : isChannel 999 ∧ isChannel 1 ∧ 1 ≤ 99 ∧ 998 < 999 := by decide
theorem witness_EffectiveRankOfAddressees :
    let p : Placement := ⟨⟨.literal 1, true⟩, 2, .circuit 1, .literal, false⟩
    p ∈ [p] ∧ p.dest = .circuit 1 ∧ ∃ g ∈ office.copyPlan 0 (newTransit 1 0), g.dest = .localPosition := by decide +kernel
theorem witness_ResolverListsAreBounded : Reasons.has 1 .addressed = true := by decide

/-! ## Witnesses for the laws -/

theorem office_line : ∀ n : Line, office.line n = {} := by decide +kernel

theorem office_transit (t : TransitId) : office.transit? t = none := by simp [State.transit?, office, State.reset]

theorem office_copy (c : CopyId) : office.copy? c = none := by simp [State.copy?, office, State.reset]

theorem office_numbersLaw : office.numbersLaw := by
  refine ⟨fun n => ?_, fun t r k e => by rw [office_transit t] at e; cases e⟩
  unfold State.rx State.tx State.mon
  rw [office_line]
  exact ⟨fun k e => (nomatch e), by decide, by decide⟩

theorem office_degradedLaw : office.degradedLaw := by
  intro n
  unfold State.mon State.entry
  rw [office_line]
  decide +kernel

theorem office_poolLaw : office.poolLaw := by
  show office.officeState = .running ∧ office.badGeometry { base := 0x200000, count := 16 } = false ∧ _
  decide +kernel

theorem office_blockLaw : office.blockLaw :=
  ⟨by unfold State.chainedBlocks; simp only [office_transit]; decide +kernel, fun t r h => by rw [office_transit t] at h; cases h⟩

theorem office_copyLaws : office.CopyLaws := by
  have hc := office_copy
  have ht := office_transit
  have hq : ∀ n : Line, office.queue n = [] := fun n => by unfold State.queue; rw [office_line]
  have hx : ∀ n : Line, (office.tx n).sending = none := fun n => by unfold State.tx; rw [office_line]
  have hr : ∀ n : Line, (office.rx n).transit = none := fun n => by unfold State.rx; rw [office_line]
  refine ⟨fun n => by simp [hq], by simp [office, State.reset], fun n c h => by simp [hx] at h, by simp [office, State.reset],
    fun c x h => by simp [hc] at h, fun n => by simp [hq], fun n => by simp [hq], fun c x h => by simp [hc] at h,
    fun t r h => by simp [ht] at h, fun n c x r _ _ h => by simp [hc] at h, fun c x r h => by simp [hc] at h,
    fun t r h => by simp [ht] at h, fun n t h => by simp [hr] at h, by simp [office, State.reset]⟩

/-- A pinned copy of transit 0, QUEUED on circuit 1. -/
def pinnedCopy : Copy := { copyIn .queued with pinned := true }

/-- Its transit, which came from the Local Position. -/
def deskTransit : Transit := { wxyz .inTransit with source := 0, pendingCopies := 1 }

/-- The office with that copy alone, circuit 1 being ACTIVE. -/
def lawful : State := { withCopy .queued .idle with
  transits := (Vector.replicate 256 none).set 0 (some deskTransit)
  copies := (Vector.replicate 768 none).set 0 (some pinnedCopy) }

/-- A state whose one copy stands in circuit 1's queue meets the laws on copies. -/
theorem copyLaws_of_one {s : State} {k : Copy} {d : Transit} (hq : ∀ n : Line, s.queue n = if n = 1 then [0] else [])
    (hx : ∀ n : Line, (s.tx n).sending = none) (hr : ∀ n : Line, (s.rx n).transit = none)
    (hl : s.holdList = [] ∧ s.awaiting = [] ∧ s.waitList = [])
    (hc : ∀ c : CopyId, s.copy? c = if c = 0 then some k else none)
    (ht : ∀ t : TransitId, s.transit? t = if t = 0 then some d else none) (hn : s.copiesOf 0 = 1)
    (hp : k.state = .queued ∧ k.line = some 1 ∧ k.outNumber = none ∧ k.transit = 0 ∧ k.subset = [])
    (hd : d.state = .inTransit ∧ d.pendingCopies = 1 ∧ d.source = 0) : s.CopyLaws := by
  have one : ∀ (c : CopyId) (x : Copy), s.copy? c = some x → c = 0 ∧ x = k := by
    intro c x h; rw [hc] at h; split at h
    · exact ⟨‹_›, (Option.some.inj h).symm⟩
    · cases h
  have only : ∀ (t : TransitId) (r : Transit), s.transit? t = some r → t = 0 ∧ r = d := by
    intro t r h; rw [ht] at h; split at h
    · exact ⟨‹_›, (Option.some.inj h).symm⟩
    · cases h
  refine ⟨fun n => ?_, by simp [hl.1], fun n c h => by simp [hx] at h, by simp [hl.2.1], fun c x h => ?_, fun n => ?_,
    fun n => ?_, fun c x h => ?_, fun t r h _ => ?_, fun n c x r hn _ _ h => ?_, fun c x r h h' => ?_, fun t r h _ => ?_,
    fun n t h => by simp [hr] at h, by simp [hl.2.2]⟩
  · rw [hq]; split
    · subst n
      refine ⟨by simp, fun c h => ?_⟩
      obtain rfl := List.mem_singleton.mp h
      exact ⟨k, by simp [hc], hp.1, fun m h => by rw [hp.2.1, ← h], by simp [hp.2.2.1]⟩
    · exact ⟨.nil, fun c h => absurd h List.not_mem_nil⟩
  · obtain ⟨rfl, rfl⟩ := one c x h
    exact ⟨fun _ => ⟨1, by simp [hq]⟩, by simp [hp.1], by simp [hp.1], by simp [hp.1]⟩
  · rw [hq]; split <;> simp
  · rw [hq]; split <;> simp
  · obtain ⟨rfl, rfl⟩ := one c x h
    exact ⟨d, by simp [hp.2.2.2.1, ht], hd.1⟩
  · obtain ⟨rfl, rfl⟩ := only t r h
    rw [hn, hd.2.1]; exact ⟨rfl, Nat.one_pos⟩
  · obtain ⟨-, rfl⟩ := only _ r h
    rw [hd.2.2]; exact hn.symm
  · obtain ⟨rfl, rfl⟩ := one c x h
    obtain ⟨-, rfl⟩ := only _ r h'
    exact ⟨by simp [hp.2.2.2.2], fun _ => hd.2.2⟩
  · obtain ⟨-, rfl⟩ := only t r h
    exact hd.2.2

theorem lawful_lines : ∀ n : Line, lawful.queue n = (if n = 1 then [0] else []) ∧ (lawful.tx n).sending = none ∧
    (lawful.rx n).transit = none := by decide +kernel

theorem lawful_copy (c : CopyId) : lawful.copy? c = if c = 0 then some pinnedCopy else none := by
  unfold State.copy? lawful
  dsimp only
  by_cases h : c = 0
  · subst h; rfl
  · rw [if_neg h]
    exact (Vector.getElem_set_ne _ _ (fun e => h (Fin.ext e.symm))).trans (Vector.getElem_replicate _)

theorem lawful_transit (t : TransitId) : lawful.transit? t = if t = 0 then some deskTransit else none := by
  unfold State.transit? lawful
  dsimp only
  by_cases h : t = 0
  · subst h; rfl
  · rw [if_neg h]
    exact (Vector.getElem_set_ne _ _ (fun e => h (Fin.ext e.symm))).trans (Vector.getElem_replicate _)

theorem lawful_copiesOf : lawful.copiesOf 0 = 1 := by
  unfold State.copiesOf
  simp only [lawful_copy]
  decide +kernel

theorem lawful_copyLaws : lawful.CopyLaws :=
  copyLaws_of_one (fun n => (lawful_lines n).1) (fun n => (lawful_lines n).2.1) (fun n => (lawful_lines n).2.2)
    (by decide +kernel) lawful_copy lawful_transit lawful_copiesOf (by decide +kernel) (by decide +kernel)

/-- STOP LINE under the laws on copies: the pinned copy of the queue is held for its line. -/
theorem witness_StopLineStopsCircuit_queue :
    lawful.accepts 2 1 7 15 ∧ (lawful.mon 1).condition ≠ .stopped ∧ (lawful.tx 1).state ≠ .stalled ∧ lawful.queue 1 = [0] ∧
      (lawful.copy? 0).map Copy.pinned = some true ∧
      (let t := after (exec (.stopLine 1 7 15) lawful);
        t.queue 1 = [] ∧ t.holdList = [0] ∧ (t.copy? 0).map (fun x => (x.state, x.line)) = some (.held, some 1)) := by
  decide +kernel

theorem office_lineLaws : office.LineLaws := by
  have hx : ∀ n : Line, office.tx n = {} := fun n => by unfold State.tx; rw [office_line]
  have hm : ∀ n : Line, office.mon n = {} := fun n => by unfold State.mon; rw [office_line]
  refine ⟨by decide +kernel, fun n => ?_, fun n h => by simp [hx] at h, fun n _ => by simp [hx]⟩
  rw [hm]
  refine ⟨⟨fun h => ?_, fun h => by cases h⟩, fun h => by cases h⟩
  rcases h with h | h <;> exact absurd h List.not_mem_nil

theorem office_storeLaw : office.StoreLaw := by
  have ht := office_transit
  have hr : ∀ n : Line, office.rx n = {} := fun n => by unfold State.rx; rw [office_line]
  have force : ∀ b, b < 16 → office.inForce b := fun b h => ⟨_, rfl, h⟩
  have links : ∀ c ∈ office.links, ∀ b ∈ c, b < 16 := by decide +kernel
  refine ⟨fun off _ _ _ => by simp only [office, State.reset]; rfl, by decide +kernel, ⟨?_, ?_, fun b c h => ?_⟩,
    fun t r b h => by simp [ht] at h, fun n k h => ?_, ?_, ?_, by decide, ?_⟩
  · intro b h; cases h; exact force 0 (by decide)
  · intro b h; cases h; exact force 15 (by decide)
  · have h' : office.links[b]?.getD none = some c := by rw [← List.getD_eq_getElem?_getD]; exact h
    cases e : office.links[b]? with
    | none => rw [e] at h'; cases h'
    | some x =>
      rw [e] at h'
      exact force c (links x (List.mem_of_getElem? e) c h')
  · rw [hr] at h; cases k <;> cases h
  · rintro n k a cs (h | h) <;> cases h
  · rintro a v (h | h) <;> cases h
  · rintro slot ws (h | h) <;> cases h

/-- The office with one command waiting meets every law, and a step of it answers a next state. -/
theorem witness_StepKeepsLaws :
    let s := { office with pending := [.clockAdvance] }
    s.memoryLaw ∧ s.interruptLaw ∧ s.fifoLaw ∧ s.ringLaw ∧ s.numbersLaw ∧ s.recentLaw ∧ s.degradedLaw ∧ s.poolLaw ∧
      s.clockLaw ∧ office.blockLaw ∧ office.LineLaws ∧ office.CopyLaws ∧ office.StoreLaw ∧ ∃ t, step s = .next t := by
  refine ⟨by decide +kernel, by decide +kernel, by decide +kernel, ?_, office_numbersLaw, by decide +kernel,
    office_degradedLaw, office_poolLaw, by decide +kernel, office_blockLaw, office_lineLaws, office_copyLaws, office_storeLaw,
    _, rfl⟩
  exact ⟨by decide +kernel, by decide +kernel, by decide +kernel, by decide +kernel, by decide +kernel,
    fun _ h => (List.not_mem_nil h).elim, by decide +kernel⟩

theorem witness_OnlyOwnWritesReachBlockedBytes :
    office.memoryLaw ∧ office.poolLaw ∧ office.treatment 0x2003FF = .blocked ∧
      Instr.clockAdvance ≠ .textBlockWriteDone ∧ Instr.clockAdvance ≠ .ownWriteCarriedOut ∧
      ∃ t, exec .clockAdvance office = .next t :=
  ⟨by decide +kernel, office_poolLaw, by decide +kernel, by decide, by decide, _, rfl⟩

end Sys2Proof.Tests
end

