-- ==== Sys2Proof/Proofs/Ranks.lean ====
section
/-! The effective ranks of addressees (R66), from the placing of one addressee to the copies of a plan. -/
namespace Sys2Proof.Machine

/-! ## The rank of an addressee -/

@[simp] theorem effectiveRank_action (r : Rank) : effectiveRank r true = r := rfl

@[simp] theorem effectiveRank_information (r : Rank) : effectiveRank r false = max r 2 := rfl

theorem effectiveRank_eq_zero_iff (r : Rank) (action : Bool) : effectiveRank r action = 0 ↔ r = 0 ∧ action = true := by
  cases action with
  | true => simp
  | false =>
    have below : (2 : Rank) ≤ max r 2 := le_max_right r 2
    constructor
    · intro h
      rw [effectiveRank_information] at h
      rw [h] at below
      exact absurd below (by decide)
    · rintro ⟨-, h⟩
      cases h

/-! ## The placements of an addressee -/

/-- What R66 and R78 ask of a placement of an addressee: its effective rank, and a second route only for an action addressee
of an Emergency message. -/
def Placement.RankedFor (tr : Transit) (a : Addressee) (p : Placement) : Prop :=
  p.rank = effectiveRank tr.messageRank a.action ∧ (p.second = true → a.action = true ∧ tr.messageRank = 0)

theorem rankedFor_first (tr : Transit) (a : Addressee) (d : Dest) (w : Route) :
    Placement.RankedFor tr a ⟨a, effectiveRank tr.messageRank a.action, d, w, false⟩ :=
  ⟨rfl, fun h => nomatch h⟩

theorem rankedFor_second {tr : Transit} {a : Addressee} (d : Dest) (w : Route)
    (h : effectiveRank tr.messageRank a.action = 0) :
    Placement.RankedFor tr a ⟨a, effectiveRank tr.messageRank a.action, d, w, true⟩ :=
  ⟨rfl, fun _ => ((effectiveRank_eq_zero_iff _ _).mp h).symm⟩

/-- The branches of R76 to R79: all but the dual one give one first placement, and the dual one is reached only at
effective rank 0. -/
theorem placeAddressee_rankedFor (s : State) (t : TransitId) (tr : Transit) (excluded twins : List Line) (plan : Bool)
    (a : Addressee) : ∀ p ∈ s.placeAddressee t tr excluded twins plan a, p.RankedFor tr a := by
  have single (d : Dest) (w : Route) :
      ∀ p ∈ [(⟨a, effectiveRank tr.messageRank a.action, d, w, false⟩ : Placement)], p.RankedFor tr a :=
    List.forall_mem_singleton.mpr (rankedFor_first tr a d w)
  unfold State.placeAddressee
  split
  case h_1 n _ =>
    split
    · exact single (.holdPinned n) .literal
    · exact single (.circuit n) .literal
  case h_2 =>
    split
    case h_1 => exact single .hold .primary
    case h_2 e _ =>
      split
      · exact single .localPosition .localPosition
      · dsimp only
        split
        case h_1 => exact single .hold .primary
        case h_2 x _ =>
          split
          next dual =>
            have rank0 : effectiveRank tr.messageRank a.action = 0 := by
              rw [Bool.and_eq_true] at dual
              exact eq_of_beq dual.2
            split
            · exact single (.circuit x.line) x.route
            · exact List.forall_mem_cons.mpr ⟨rankedFor_first tr a _ _,
                List.forall_mem_singleton.mpr (rankedFor_second _ _ rank0)⟩
          next => exact single (.circuit x.line) x.route

/-! ## The rank of a copy -/

theorem gatherAt_rank (ps : List Placement) (d : Dest) :
    (gatherAt ps d).rank = ((ps.filter (fun p => p.dest == d)).map Placement.rank).foldl min 3 :=
  List.foldl_map.symm

/-- The rank of a gathered copy is the least of 3, the last rank, and the ranks that it gathers. -/
theorem gatherAt_rank_least (ps : List Placement) (d : Dest) :
    ((gatherAt ps d).rank = 3 ∨ ∃ p ∈ ps, p.dest = d ∧ p.rank = (gatherAt ps d).rank) ∧
      ∀ p ∈ ps, p.dest = d → (gatherAt ps d).rank ≤ p.rank := by
  have least : (3 :: (ps.filter (fun p => p.dest == d)).map Placement.rank).min? = some (gatherAt ps d).rank := by
    rw [gatherAt_rank, List.min?_cons']
  obtain ⟨member, lower⟩ := List.min?_eq_some_iff.mp least
  refine ⟨?_, fun p hp hd => lower _ (List.mem_cons_of_mem _ (List.mem_map_of_mem (by simp [hp, hd])))⟩
  simpa [and_assoc] using member

/-- With something to gather, the least is reached: where it is 3, every gathered rank is 3. -/
theorem gatherAt_rank_mem {ps : List Placement} {d : Dest} (h : ∃ p ∈ ps, p.dest = d) :
    ∃ p ∈ ps, p.dest = d ∧ p.rank = (gatherAt ps d).rank := by
  obtain ⟨reached, lower⟩ := gatherAt_rank_least ps d
  rcases reached with top | found
  · obtain ⟨p, hp, hd⟩ := h
    exact ⟨p, hp, hd, le_antisymm (top ▸ Fin.le_last p.rank) (lower p hp hd)⟩
  · exact found

/-! ## The local copy of a plan (R81) -/

@[simp] theorem gatherAt_dest (ps : List Placement) (d : Dest) : (gatherAt ps d).dest = d := rfl

theorem gatherAt_subset (ps : List Placement) (d : Dest) :
    (gatherAt ps d).subset = (ps.filter (fun p => decide (p.dest = d))).map Placement.who := by
  simp only [gatherAt, beq_eq_decide]

/-- Of the four parts of a plan only the last holds an item for the Local Position. -/
theorem copyPlan_localPosition {s : State} {t : TransitId} {tr : Transit} {g : PlanItem} (hg : g ∈ s.copyPlan t tr)
    (hd : g.dest = .localPosition) :
    g = { gatherAt (tr.resolved.flatMap (s.placeAddressee t tr [] [] true)) .localPosition with
      rank := tr.messageRank, dual := false, route := .localPosition } := by
  unfold State.copyPlan at hg
  simp only [List.mem_append] at hg
  obtain ((onCircuit | held) | pinned) | atDesk := hg
  · obtain ⟨d, hm, rfl⟩ := List.mem_map.mp onCircuit
    rw [gatherAt_dest] at hd
    subst hd
    cases (List.mem_filter.mp hm).2
  · rw [List.mem_ite_nil_right, List.mem_singleton] at held
    obtain ⟨-, rfl⟩ := held
    cases hd
  · obtain ⟨n, -, rfl⟩ := List.mem_map.mp pinned
    cases hd
  · rw [List.mem_ite_nil_right, List.mem_singleton] at atDesk
    exact atDesk.2

/-! ## The statement -/

/-- Settles O58, from the placing of an addressee, the rank of a gathered copy and the local item of a plan. -/
theorem effectiveRankOfAddressees : Obligations.EffectiveRankOfAddressees :=
  ⟨fun r => ⟨effectiveRank_action r, Fin.coe_max r 2⟩,
    effectiveRank_eq_zero_iff,
    fun ps d h => ⟨gatherAt_rank_mem h, (gatherAt_rank_least ps d).2⟩,
    placeAddressee_rankedFor,
    fun s t tr g hg hd => by
      rw [copyPlan_localPosition hg hd]
      exact ⟨rfl, gatherAt_subset _ _⟩⟩

end Sys2Proof.Machine
end

