-- ==== Sys2Proof/Proofs/Backlog.lean ====
section
/-! The backlog of a circuit (R75): the model's quotient is the ceiling of the rule, brought down to its limit. -/
namespace Sys2Proof.Machine

/-! ## The character period -/

theorem clamp_eq_max_min {lo hi : Nat} (h : lo ≤ hi) (v : Nat) : clamp lo hi v = max lo (min hi v) := by
  unfold clamp
  split
  next below => rw [min_eq_right (below.le.trans h), max_eq_left below.le]
  next notBelow =>
    split
    next above => rw [min_eq_left above.le, max_eq_right h]
    next notAbove => rw [min_eq_right (not_lt.mp notAbove), max_eq_right (not_lt.mp notBelow)]

theorem characterPeriod_eq_max_min (e : Vector Word 8) :
    characterPeriod e = max 100 (min 20000 (entryPair e 8)) :=
  clamp_eq_max_min (by decide) _

/-! ## Rounding up -/

theorem mul_ceilDiv_lt_add {d : Nat} (h : 0 < d) (n : Nat) : d * (n ⌈/⌉ d) < n + d := by
  rw [Nat.ceilDiv_eq_add_pred_div]
  have below : d * ((n + d - 1) / d) ≤ n + d - 1 := Nat.mul_div_le _ _
  omega

/-- The formula of R75 as the rule writes it. -/
theorem backlogOf_eq_ceilDiv (q p : Nat) : backlogOf q p = min 65535 ((q * p) ⌈/⌉ 1000) := by
  rw [Nat.ceilDiv_eq_add_pred_div, Nat.add_sub_assoc (by decide), backlogOf]

theorem backlogOf_le (q p : Nat) : backlogOf q p ≤ 65535 := min_le_left _ _

@[simp] theorem backlogOf_zero_left (p : Nat) : backlogOf 0 p = 0 := by
  rw [backlogOf_eq_ceilDiv, Nat.zero_mul, zero_ceilDiv, min_eq_right (Nat.zero_le _)]

/-- The limit cuts the quotient exactly where the product passes 1,000 times the limit. -/
theorem ceilDiv_le_limit_iff (n : Nat) : n ⌈/⌉ 1000 ≤ 65535 ↔ n ≤ 65535000 :=
  ceilDiv_le_iff_le_mul (by decide)

theorem backlogOf_of_le {q p : Nat} (h : q * p ≤ 65535000) : backlogOf q p = (q * p) ⌈/⌉ 1000 := by
  rw [backlogOf_eq_ceilDiv, min_eq_right ((ceilDiv_le_limit_iff _).mpr h)]

theorem backlogOf_of_lt {q p : Nat} (h : 65535000 < q * p) : backlogOf q p = 65535 := by
  have beyond : 65535 < (q * p) ⌈/⌉ 1000 := (lt_iff_lt_of_le_iff_le (ceilDiv_le_limit_iff _)).mpr h
  rw [backlogOf_eq_ceilDiv, min_eq_left beyond.le]

/-- Below the limit the backlog is the least whole number that is not under the quotient. -/
theorem backlogOf_bounds {q p : Nat} (h : q * p ≤ 65535000) :
    q * p ≤ 1000 * backlogOf q p ∧ 1000 * backlogOf q p < q * p + 1000 := by
  rw [backlogOf_of_le h]
  exact ⟨(ceilDiv_le_iff_le_mul (by decide)).mp le_rfl, mul_ceilDiv_lt_add (by decide) _⟩

/-! ## The statement -/

theorem backlog_eq_backlogOf (s : State) (n : Line) (t : TransitId) (r : Rank) :
    s.backlog n t r = backlogOf (s.charactersAhead n t r) (characterPeriod (s.entry n)) := rfl

/-- Settles O59, from the clamp of the period and the quotient below, at and above its limit. -/
theorem backlogRoundsUp : Obligations.BacklogRoundsUp := by
  intro s n t r q p
  rw [backlog_eq_backlogOf]
  exact ⟨characterPeriod_eq_max_min _, backlogOf_le _ _,
    fun (noneAhead : s.charactersAhead n t r = 0) => by rw [noneAhead, backlogOf_zero_left],
    backlogOf_bounds, backlogOf_of_lt⟩

end Sys2Proof.Machine
end

