-- ==== Sys2Proof/Proofs/OfficeTime.lean ====
section
/-! SET TIME (R185): its two effects, the filing time of a record taken after it, and its order with an advance of the
clock. -/
namespace Sys2Proof.Machine

/-! ## Fields that events, answers and own accesses leave alone -/

theorem officeTime_of_quiet {s t : State} (h : t.quiet = s.quiet) : t.officeTime = s.officeTime := by
  show t.quiet.officeTime = s.quiet.officeTime
  rw [h]

theorem transit?_of_quiet {s t : State} (h : t.quiet = s.quiet) (id : TransitId) : t.transit? id = s.transit? id := by
  show t.quiet.transit? id = s.quiet.transit? id
  rw [h]

/-! ## Filing times -/

theorem setTransit_transit?_self (s : State) (id : TransitId) (r : Option Transit) : (s.setTransit id r).transit? id = r := by
  simp [State.transit?]

@[simp] theorem newTransit_filing (n : Line) (time : Nat) : (newTransit n time).filing = time := rfl

/-- A record is taken with the office time as its filing time (R1). -/
theorem takeTransit_filing {n : Line} {s u : State} {id : TransitId} (h : takeTransit n s = some (id, u)) :
    (u.transit? id).map Transit.filing = some s.officeTime := by
  unfold takeTransit at h
  split at h
  case h_1 => cases h
  case h_2 =>
    obtain ⟨rfl, rfl⟩ := Prod.mk.inj (Option.some.inj h)
    rw [freeCountsChanged, transit?_of_quiet (decideState_quiet ..), setTransit_transit?_self, Option.map_some,
      newTransit_filing]

/-! ## The effect of SET TIME -/

theorem effectSetTime_of_le {c : Command} (h : Config.dayTenths ≤ c.argA.toNat) (s : State) :
    effectSetTime c s = answer c.tag .badArgument 0 s := if_pos h

theorem effectSetTime_of_lt {c : Command} (h : c.argA.toNat < Config.dayTenths) (s : State) :
    effectSetTime c s = answer c.tag .done 0 { s with officeTime := c.argA.toNat } := if_neg (Nat.not_le_of_lt h)

/-- The capture of a command word leaves argument A. -/
@[simp] theorem taken_argA (s : State) (code line : BitVec 8) (tag : BitVec 16) (be : ByteEnables) :
    (s.taken code line tag be).argA = s.argA := rfl

section
variable {line : BitVec 8} {tag : BitVec 16} {be : ByteEnables} {s : State}

/-- A value past the last tenth of the day is refused. -/
theorem exec_setTime_refused (ha : s.accepts 10 line tag be) (hv : Config.dayTenths ≤ s.argA.toNat) :
    ∃ t, exec (.setTime line tag be) s = .next t ∧
      AnswersOnly s (s.captured 10 line tag be) t (s.taken 10 line tag be).tag .badArgument 0 :=
  exec_answersOnly rfl ha.1 ((takeCommand_accepted ha rfl).trans (effectSetTime_of_le (by rwa [taken_argA]) _))

/-- A tenth of the day is taken as the office time. -/
theorem exec_setTime_taken (ha : s.accepts 10 line tag be) (hv : s.argA.toNat < Config.dayTenths) :
    ∃ t, exec (.setTime line tag be) s = .next t ∧
      t.quiet = ({ s.captured 10 line tag be with officeTime := s.argA.toNat }).quiet ∧
      Answers s t (s.taken 10 line tag be).tag .done 0 ∧ Posts s t [] [.command] := by
  obtain ⟨a, next, quiet, answers, pending, -, -⟩ :=
    exec_done (i := .setTime line tag be) rfl ha rfl
      (effectSetTime_of_lt (by rwa [taken_argA]) _) rfl ⟨_, _, .refl s⟩
  refine ⟨_, next, quiet, answers, posts_of_answer pending fun c => ?_⟩
  rw [decide_eq_false List.not_mem_nil, Bool.or_false]
  rfl

/-! ## SET TIME and an advance of the clock -/

theorem exec_clockAdvance (s : State) : exec .clockAdvance s = .next (advanceClocks s) := rfl

theorem advanceClocks_officeTime (s : State) :
    (advanceClocks s).officeTime = if s.officeTime + 1 < Config.dayTenths then s.officeTime + 1 else 0 := rfl

@[simp] theorem advanceClocks_argA (s : State) : (advanceClocks s).argA = s.argA := rfl

/-- An advance of the clock leaves all that the acceptance of a command turns on. -/
theorem accepts_advanceClocks {code : BitVec 8} (ha : s.accepts code line tag be) :
    (advanceClocks s).accepts code line tag be := ha

/-- SET TIME taken after an advance of the clock stands. -/
theorem exec_setTime_after_clockAdvance (ha : s.accepts 10 line tag be) (hv : s.argA.toNat < Config.dayTenths) :
    ∃ b, exec (.setTime line tag be) (advanceClocks s) = .next b ∧ b.officeTime = s.argA.toNat := by
  obtain ⟨b, next, quiet, -, -⟩ := exec_setTime_taken (accepts_advanceClocks ha) (by rwa [advanceClocks_argA])
  exact ⟨b, next, officeTime_of_quiet quiet⟩

end

/-! ## The statement -/

/-- Settles O21, from the refusal, the effect on a tenth of the day, and the two orders with an advance of the clock. -/
theorem setTimeSetsOfficeTime : Obligations.SetTimeSetsOfficeTime := by
  intro line tag be s ha c
  refine ⟨exec_setTime_refused ha, fun hv => ?_⟩
  obtain ⟨t, next, quiet, answers, posts⟩ := exec_setTime_taken ha hv
  have time : t.officeTime = s.argA.toNat := officeTime_of_quiet quiet
  refine ⟨t, next, quiet, answers, posts, fun n id u taken => ?filing, ⟨_, exec_clockAdvance t, ?before⟩, ?after⟩
  case filing => rw [takeTransit_filing taken, time]
  case before => rw [advanceClocks_officeTime, time, Config.dayTenths]
  case after =>
    obtain ⟨b, next, stands⟩ := exec_setTime_after_clockAdvance ha hv
    exact ⟨_, b, exec_clockAdvance s, next, stands⟩

end Sys2Proof.Machine
end
